-- ==== Sys2Proof/Word.lean ====
section
/-!
DEFINITION. The word types and the small operand types of the instruction syntax (R4, R48, R51).
-/
namespace Sys2Proof

/-- A `g` register's width (R83). -/
abbrev Word := BitVec 64

/-- The smallest addressable unit (R4). -/
abbrev Byte := BitVec 8

/-- A scalar register number (R33). -/
abbrev Reg := BitVec 5

/-- A 6-bit vector register specifier (R52). -/
abbrev VSpec := BitVec 6

/-- The mask operand of a wide word: none when `me` is 0, else `m0` to `m7` (R51). -/
abbrev VMask := Option (BitVec 3)

/-- The second source of a vector instruction, by form (R51, R150). -/
inductive VSrc where
  | vv (r : VSpec)        -- form 0: a vector specifier
  | vs (g : Reg)          -- form 1: a `g` register
  | vi (imm : BitVec 16)  -- form 2: the immediate field
  deriving DecidableEq, Repr

/-- Management and device registers whose write has no behaviour of its own (R379, R380, R384), and what the host programs
of the expanders' decoders (R375) and registers of a namespace (R376). -/
inductive MgmtReg where
  | sdasn | sdva | sdlen | dbslot | dbstrip | dbarm | acsel | xltail | htbase | hostlim | cxlBytes | nvme
  deriving DecidableEq, Repr

end Sys2Proof
end

