-- ==== Sys2Proof/Config.lean ====
section
/-!
DEFINITION. What the part fixes (R1, R128, R201) and the free values: opaque constants about which nothing can be
proved, so that a theorem holds whatever they are. Each is named in a row of notes/assumptions.
-/
namespace Sys2Proof

/-- The largest register size: 8 lane groups under declaration 8 (R128). -/
def vregBits : Nat := 262144

/-- A mask register's size (R130). -/
def mregBits : Nat := 65536

/-- A `v`, `o` or `l` register's bits; those from `vbits` up are zero. -/
abbrev VReg := BitVec vregBits

/-- A mask register (R130). -/
abbrev MReg := BitVec mregBits

/-- Class-0 bytes: 768 GiB (R205). -/
def hbmBytes : Nat := 768 * 2 ^ 30

/-- The life of a Haze tile in ticks (R201). -/
def hzlife : Nat := 1048576

/-- `profiles` (R6). -/
def profilesWord : Word := 0x0001010101010101

namespace Config

/-- DESIGN CHOICE, free (log 2): the ticks that pass in the n-th step. -/
opaque elapsed : Nat → Nat

/-- DESIGN CHOICE, free (log 5): which of the slices that still hold a store performs next at a join. -/
opaque sliceOrder : Nat → Nat

/-- DESIGN CHOICE, free (log 11): how many more elements a running copy has moved when it is looked at, and how many, and
which, of the writes it has issued have performed. -/
opaque copyProgress : Nat → Nat

/-- DESIGN CHOICE, free (log 46): whether the host completes a request with Unsupported Request or Completer Abort (R205). -/
opaque hostRefuses : Nat → Bool

/-- Byte n of the failure report behind its first word, `dfail`; its layout is the report's own (R372, log 48). -/
opaque failReport : Nat → BitVec 8

/-- DESIGN CHOICE, free (log 12): whether a walk uses a cached translation although the table has changed. -/
opaque staleWalk : Nat → Bool

/-- DESIGN CHOICE, free (log 14): a special function's value where the model's evaluation does not decide the rounding. -/
opaque sfuUnresolved : Nat → Nat → Nat

/-- DESIGN CHOICE, free (log 31): the bits that a bitwise or shift member finds in a scaled element whose value is no
integer, by its scale entry and its raw bits (R153). -/
opaque scaledBits : Nat → Nat → Nat

/-- DESIGN CHOICE, free (log 13): the group order of a floating-point `vsadd` (R223). -/
opaque groupOrder : Nat → Nat

/-- DESIGN CHOICE, free (log 15): what a vector queue's image holds where the instruction that assembles it writes nothing (R99). -/
opaque queueFill : Nat → VReg

/-- DESIGN CHOICE, free (log 35): a word of an image that `mxrest` starts behind without having read it (R345). -/
opaque unreadWord : Nat → Word

/-- DESIGN CHOICE, free (log 9): which of the four expanders holds a class-1 address: the interleave of the HDM decoders (R375). -/
opaque expander : Nat → Nat

end Config

end Sys2Proof
end

