-- ==== Sys2Proof/Machine/Table.lean ====
section
/-!
DEFINITION. Sparse tables by number, and the byte and bit helpers every layer uses.
-/
namespace Sys2Proof.Machine

/-- Data by number, keys rising; an unlisted number holds the table's default. -/
abbrev Table (α : Type) := List (Nat × α)

/-- The entry of `i`, or the default. -/
def tget {α : Type} (dflt : α) : Table α → Nat → α
  | [], _ => dflt
  | (k, v) :: t, i => if k = i then v else tget dflt t i

/-- The table with entry `i` set. -/
def tset {α : Type} : Table α → Nat → α → Table α
  | [], i, v => [(i, v)]
  | (k, w) :: t, i, v => if i < k then (i, v) :: (k, w) :: t else if k = i then (i, v) :: t else (k, w) :: tset t i v

/-- The table without entry `i`. -/
def terase {α : Type} : Table α → Nat → Table α
  | [], _ => []
  | (k, w) :: t, i => if k = i then terase t i else (k, w) :: terase t i

/-- Whether `i` is listed. -/
def thas {α : Type} (t : Table α) (i : Nat) : Bool := t.any (fun p => p.1 = i)

/-! ## Bits of natural numbers -/

/-- Bits [lo + n - 1 : lo] of `x`. -/
def nbits (x lo n : Nat) : Nat := (x >>> lo) % 2 ^ n

/-- `x` with bits [lo + n - 1 : lo] replaced by the low `n` bits of `v`. -/
def nset (x lo n v : Nat) : Nat := (x >>> (lo + n) <<< (lo + n)) + ((v % 2 ^ n) <<< lo) + x % 2 ^ lo

/-- Bit `i` of `x`. -/
def nbit (x i : Nat) : Bool := (x >>> i) % 2 = 1

/-- The low `n` bits of `x` as a signed number. -/
def sext (n x : Nat) : Int := if x % 2 ^ n < 2 ^ (n - 1) then (x % 2 ^ n : Nat) else (x % 2 ^ n : Nat) - (2 ^ n : Nat)

/-- An integer modulo 2^n. -/
def wrapN (n : Nat) (x : Int) : Nat := (x % (2 ^ n : Nat)).toNat

def boolNat (b : Bool) : Nat := if b then 1 else 0

/-- Division rounded up. -/
def ceilDiv (a b : Nat) : Nat := (a + b - 1) / b

/-- The number of one bits of an n-bit number. -/
def popN : Nat → Nat → Nat
  | 0, _ => 0
  | n + 1, x => x % 2 + popN n (x / 2)

/-- ⌊log2 x⌋ for x > 0. -/
def ilog2 (x : Nat) : Nat := x.log2

/-- The lowest set bit below `n`, or `n`. -/
def ctzN : Nat → Nat → Nat
  | 0, _ => 0
  | n + 1, x => if x % 2 = 1 then 0 else 1 + ctzN n (x / 2)

/-- Words as numbers and back. -/
def w64 (n : Nat) : Word := BitVec.ofNat 64 n

/-! ## Bytes -/

/-- The number a little-endian byte string spells (R4). -/
def bytesNat : List Byte → Nat
  | [] => 0
  | b :: bs => b.toNat + 256 * bytesNat bs

/-- The n bytes of a number, least significant first (R4). -/
def natBytes : Nat → Nat → List Byte
  | 0, _ => []
  | n + 1, v => BitVec.ofNat 8 v :: natBytes n (v / 256)

/-! ## CRC-64 (R360) -/

/-- One bit of the ECMA-182 CRC, unreflected. -/
def crcBit (c : BitVec 64) (b : Bool) : BitVec 64 :=
  let f := c.msb != b
  if f then (c <<< 1) ^^^ 0x42F0E1EBA9EA3693 else c <<< 1

/-- One byte, most significant bit first. -/
def crcByte (c : BitVec 64) (b : Byte) : BitVec 64 :=
  crcBit (crcBit (crcBit (crcBit (crcBit (crcBit (crcBit (crcBit c (b.getLsbD 7)) (b.getLsbD 6)) (b.getLsbD 5))
    (b.getLsbD 4)) (b.getLsbD 3)) (b.getLsbD 2)) (b.getLsbD 1)) (b.getLsbD 0)

/-- A byte string, continued from `c`. -/
def crcBytes (c : BitVec 64) (bs : List Byte) : BitVec 64 := bs.foldl crcByte c

end Sys2Proof.Machine
end

