-- ==== Sys2Proof/Machine/Crypto.lean ====
section
/-!
DEFINITION. What the boot ROM computes over an image (R369): SHA-384 (FIPS 180-4) and the check of an ECDSA P-384
signature (FIPS 186-4), the standards the rule names. Numbers are big-endian.
PRESUMED: log 40 (the standards' constants, and the form of the public key).
-/
namespace Sys2Proof.Machine

/-- A big-endian byte string as a number. -/
def bytesNatBE (bs : List Byte) : Nat := bs.foldl (fun n b => 256 * n + b.toNat) 0

/-! ## SHA-384 -/

/-- The largest r of `fuel` bits with r ^ k ≤ n. -/
def rootN (k n : Nat) : Nat → Nat → Nat
  | 0, r => r
  | fuel + 1, r => rootN k n fuel (if (r + 2 ^ fuel) ^ k ≤ n then r + 2 ^ fuel else r)

/-- The first 80 primes. -/
def primes80 : List Nat := ((List.range 410).filter fun n => 2 ≤ n && ((List.range n).filter fun d => 2 ≤ d && n % d = 0).isEmpty).take 80

/-- The first 64 bits of the fractional parts of their cube roots: the round constants. -/
def shaK : List Nat := primes80.map fun p => rootN 3 (p * 2 ^ 192) 70 0 % 2 ^ 64

/-- The same of the square roots of the ninth to sixteenth prime: the starting value. -/
def shaStart : List Nat := ((primes80.drop 8).take 8).map fun p => rootN 2 (p * 2 ^ 128) 70 0 % 2 ^ 64

def rotr64 (n x : Nat) : Nat := (x >>> n ||| x <<< (64 - n)) % 2 ^ 64

/-- The message schedule from its last sixteen words, latest first: n more words. -/
def shaSchedule : Nat → List Nat → List Nat
  | 0, ws => ws
  | n + 1, ws =>
    let a := ws.getD 14 0; let b := ws.getD 1 0
    let s0 := rotr64 1 a ^^^ rotr64 8 a ^^^ a >>> 7
    let s1 := rotr64 19 b ^^^ rotr64 61 b ^^^ b >>> 6
    shaSchedule n ((ws.getD 15 0 + s0 + ws.getD 6 0 + s1) % 2 ^ 64 :: ws)

/-- One round: the working variables a … h with the word and the constant. -/
def shaRound (v : List Nat) (kw : Nat × Nat) : List Nat :=
  match v with
  | [a, b, c, d, e, f, g, h] =>
    let s1 := rotr64 14 e ^^^ rotr64 18 e ^^^ rotr64 41 e
    let ch := (e &&& f) ^^^ ((2 ^ 64 - 1 - e) &&& g)
    let t1 := h + s1 + ch + kw.1 + kw.2
    let s0 := rotr64 28 a ^^^ rotr64 34 a ^^^ rotr64 39 a
    let maj := (a &&& b) ^^^ (a &&& c) ^^^ (b &&& c)
    [(t1 + s0 + maj) % 2 ^ 64, a, b, c, (d + t1) % 2 ^ 64, e, f, g]
  | v => v

/-- One block of 128 bytes. -/
def shaBlock (h : List Nat) (block : List Byte) : List Nat :=
  let ws := (List.range 16).map fun i => bytesNatBE ((block.drop (8 * i)).take 8)
  let v := (shaK.zip (shaSchedule 64 ws.reverse).reverse).foldl shaRound h
  List.zipWith (fun x y => (x + y) % 2 ^ 64) h v

def shaBlocks (h : List Nat) (bs : List Byte) : Nat → List Nat
  | 0 => h
  | n + 1 => shaBlocks (shaBlock h (bs.take 128)) (bs.drop 128) n

/-- SHA-384 of a byte string, as a number of 384 bits. -/
def sha384 (bs : List Byte) : Nat :=
  let pad := (239 - bs.length % 128) % 128
  let m := bs ++ 0x80 :: List.replicate pad 0 ++ (natBytes 16 (8 * bs.length)).reverse
  ((shaBlocks shaStart m (m.length / 128)).take 6).foldl (fun n w => 2 ^ 64 * n + w) 0

/-! ## ECDSA P-384 -/

def p384P : Nat := 2 ^ 384 - 2 ^ 128 - 2 ^ 96 + 2 ^ 32 - 1
def p384B : Nat :=
  0xb3312fa7e23ee7e4988e056be3f82d19181d9c6efe8141120314088f5013875ac656398d8a2ed19d2a85c8edd3ec2aef
def p384N : Nat :=
  0xffffffffffffffffffffffffffffffffffffffffffffffffc7634d81f4372ddf581a0db248b0a77aecec196accc52973
/-- The base point. -/
def p384G : Nat × Nat :=
  (0xaa87ca22be8b05378eb1c71ef320ad746e1d3b628ba79b9859f741e082542a385502f25dbf55296c3a545e3872760ab7,
    0x3617de4a96262c6f5d9e98bf9292dc29f8f41dbd289a147ce9da3113b5f0b8c00a60b1ce1d7e819d7a431d7c90ea0e5f)

/-- b ^ e modulo m, for an e of `fuel` bits. -/
def powMod (m b e : Nat) : Nat → Nat
  | 0 => 1 % m
  | fuel + 1 =>
    let r := powMod m b (e / 2) fuel
    if e % 2 = 1 then r * r % m * b % m else r * r % m

/-- The inverse modulo a prime of 384 bits. -/
def invMod (m a : Nat) : Nat := powMod m a (m - 2) 384

/-- Product and difference in the curve's field. -/
def fmul (a b : Nat) : Nat := a * b % p384P
def fsub (a b : Nat) : Nat := (a + p384P - b) % p384P

/-- A point (X, Y, Z) of the curve with the coordinates X / Z², Y / Z³; none is the point at infinity. -/
abbrev EcPoint := Option (Nat × Nat × Nat)

/-- Twice a point: the tangent's third point, reflected. -/
def ecDouble : EcPoint → EcPoint
  | none => none
  | some (x, y, z) =>
    if y = 0 then none else
    let zz := fmul z z
    let yy := fmul y y
    let b := fmul x yy
    let a := fmul (3 * fsub x zz) (x + zz)
    let x3 := fsub (fmul a a) (8 * b % p384P)
    some (x3, fsub (fmul a (fsub (4 * b % p384P) x3)) (8 * fmul yy yy % p384P), fmul (2 * y) z)

/-- A point plus one with the coordinates `q`: the chord's third point, reflected. -/
def ecAdd (q : Nat × Nat) : EcPoint → EcPoint
  | none => some (q.1, q.2, 1)
  | some (x, y, z) =>
    let zz := fmul z z
    let h := fsub (fmul q.1 zz) x
    let r := fsub (fmul q.2 (fmul z zz)) y
    if h = 0 then (if r = 0 then ecDouble (some (x, y, z)) else none) else
    let hh := fmul h h
    let xh := fmul x hh
    let h3 := fmul h hh
    let x3 := fsub (fsub (fmul r r) h3) (2 * xh % p384P)
    some (x3, fsub (fmul r (fsub xh x3)) (fmul y h3), fmul z h)

/-- a times the base point plus b times `q`, for a and b of `fuel` bits. -/
def ecSum (q : Nat × Nat) (a b : Nat) : Nat → EcPoint
  | 0 => none
  | fuel + 1 =>
    let r := ecDouble (ecSum q (a / 2) (b / 2) fuel)
    let r := if a % 2 = 1 then ecAdd p384G r else r
    if b % 2 = 1 then ecAdd q r else r

/-- A pair of coordinates on the curve. -/
def onCurve (q : Nat × Nat) : Bool :=
  decide (q.1 < p384P) && decide (q.2 < p384P) &&
    q.2 * q.2 % p384P = (q.1 * q.1 * q.1 + (p384P - 3) * q.1 + p384B) % p384P

/-- The signature (r, s) over a digest verifies under the public key q. -/
def ecdsaOk (q : Nat × Nat) (digest r s : Nat) : Bool :=
  onCurve q && decide (1 ≤ r) && decide (r < p384N) && decide (1 ≤ s) && decide (s < p384N) &&
    (let w := invMod p384N s
     match ecSum q (digest * w % p384N) (r * w % p384N) 384 with
     | some (x, _, z) => fmul x (invMod p384P (fmul z z)) % p384N = r
     | none => false)

end Sys2Proof.Machine
end

