-- ==== Sys2Proof/Syntax.lean ====
section
/-!
DEFINITION. The instructions and events of the Felnex Jalzo: one constructor for each row of spec/opcode_table.json.
Operands are the fields of the encodings (R48-R56). An event has no word; what its agent supplies (an address the
device runtime chose, the outcome of a test, the hart it concerns) stands in the state's `arg` while it runs.
-/
namespace Sys2Proof

/-- The rows of the opcode table. Hart numbers are 8 × cluster + 2 × core + slot. -/
inductive Instr where
  -- register ALU (R84)
  | add (d a b : Reg) | sub (d a b : Reg) | and (d a b : Reg) | or (d a b : Reg) | xor (d a b : Reg)
  | andn (d a b : Reg) | orn (d a b : Reg) | shl (d a b : Reg) | shr (d a b : Reg) | sar (d a b : Reg)
  | rotl (d a b : Reg) | clt (d a b : Reg) | cltu (d a b : Reg) | ceq (d a b : Reg)
  | mul (d a b : Reg) | mulh (d a b : Reg) | mulhu (d a b : Reg)
  | div (d a b : Reg) | divu (d a b : Reg) | mod (d a b : Reg) | modu (d a b : Reg)
  | min (d a b : Reg) | max (d a b : Reg) | minu (d a b : Reg) | maxu (d a b : Reg)
  | clz (d a : Reg) | ctz (d a : Reg) | pop (d a : Reg)
  | sext8 (d a : Reg) | sext16 (d a : Reg) | sext32 (d a : Reg) | zext32 (d a : Reg)
  -- immediates and constants (R86, R87)
  | andi (d a : Reg) (imm : BitVec 12) | ori (d a : Reg) (imm : BitVec 12) | xori (d a : Reg) (imm : BitVec 12)
  | clti (d a : Reg) (imm : BitVec 12)
  | shli (d a : Reg) (sh : BitVec 6) | shri (d a : Reg) (sh : BitVec 6) | sari (d a : Reg) (sh : BitVec 6)
  | addi (d a : Reg) (imm : BitVec 16)
  -- scalar memory (R90, R91)
  | ldb (d a : Reg) (imm : BitVec 13) | ldbu (d a : Reg) (imm : BitVec 13) | ldh (d a : Reg) (imm : BitVec 13)
  | ldhu (d a : Reg) (imm : BitVec 13) | ldw (d a : Reg) (imm : BitVec 13) | ldwu (d a : Reg) (imm : BitVec 13)
  | ldd (d a : Reg) (imm : BitVec 13)
  | stb (sr a : Reg) (imm : BitVec 13) | sth (sr a : Reg) (imm : BitVec 13) | stw (sr a : Reg) (imm : BitVec 13)
  | std (sr a : Reg) (imm : BitVec 13)
  -- control (R88, R89)
  | beq (a b : Reg) (imm : BitVec 13) | bne (a b : Reg) (imm : BitVec 13) | blt (a b : Reg) (imm : BitVec 13)
  | bge (a b : Reg) (imm : BitVec 13) | bltu (a b : Reg) (imm : BitVec 13) | bgeu (a b : Reg) (imm : BitVec 13)
  | jal (d : Reg) (imm : BitVec 21) | jr (d a : Reg) (imm : BitVec 16)
  | lih (d : Reg) (imm : BitVec 21) | pcrel (d : Reg) (imm : BitVec 21)
  -- scalar floating point (R94, R95); dbl is the size bit [24]
  | fadd (dbl : Bool) (d a b : Reg) | fsub (dbl : Bool) (d a b : Reg) | fmul (dbl : Bool) (d a b : Reg)
  | fdiv (dbl : Bool) (d a b : Reg) | fsqrt (dbl : Bool) (d a : Reg) | fma (dbl : Bool) (d a b : Reg)
  | fmin (dbl : Bool) (d a b : Reg) | fmax (dbl : Bool) (d a b : Reg) | fceq (dbl : Bool) (d a b : Reg)
  | fclt (dbl : Bool) (d a b : Reg) | fcle (dbl : Bool) (d a b : Reg)
  | fcvtSize (dbl : Bool) (d a : Reg) | fcvtToFixed (dbl : Bool) (d a : Reg) (f : BitVec 5)
  | fcvtFromSigned (dbl : Bool) (d a : Reg) (f : BitVec 5) | fcvtFromUnsigned (dbl : Bool) (d a : Reg) (f : BitVec 5)
  | fclass (dbl : Bool) (d a : Reg)
  -- atomics (R311); sz8 is the size bit, ord the ordering field
  | amoSwap (sz8 : Bool) (ord : BitVec 2) (d a b : Reg) | amoAdd (sz8 : Bool) (ord : BitVec 2) (d a b : Reg)
  | amoAnd (sz8 : Bool) (ord : BitVec 2) (d a b : Reg) | amoOr (sz8 : Bool) (ord : BitVec 2) (d a b : Reg)
  | amoXor (sz8 : Bool) (ord : BitVec 2) (d a b : Reg) | amoMin (sz8 : Bool) (ord : BitVec 2) (d a b : Reg)
  | amoMax (sz8 : Bool) (ord : BitVec 2) (d a b : Reg) | amoMinu (sz8 : Bool) (ord : BitVec 2) (d a b : Reg)
  | amoMaxu (sz8 : Bool) (ord : BitVec 2) (d a b : Reg) | amoCas (sz8 : Bool) (ord : BitVec 2) (d a b : Reg)
  | amoAddq (ord : BitVec 2) (d a b : Reg)
  -- state registers and traps (R101, R339)
  | sget (d : Reg) (n : BitVec 12) | sset (n : BitVec 12) (a : Reg) | sswap (d : Reg) (n : BitVec 12) (a : Reg)
  | trap (n : BitVec 10) | trapRerun (d a : Reg) | trapDispose (d a : Reg)
  | tretTask (d a : Reg) | brkpt (n : BitVec 12)
  -- queues and work (R98, R103, R104)
  | qsend (q : BitVec 2) (a : Reg) | qrecv (d : Reg) (q : BitVec 2) | qflag (a : Reg)
  | bqz (imm : BitVec 13) | bqnz (imm : BitVec 13) | spawn (d a : Reg) | yield (d : Reg)
  -- fences and synchronisation (R309, R310, R313, R315)
  | bar (id : BitVec 3) (dev : Bool) (a : Reg)
  | ldAcq (sz scope : BitVec 2) (d a : Reg) | stRel (sz scope : BitVec 2) (sr a : Reg)
  | wmon (sz scope : BitVec 2) (t : BitVec 5) (d a : Reg)
  -- copy engine (R249-R251)
  | cpy (d a : Reg) (n : BitVec 5) | cwait (d a : Reg) (n : BitVec 5) | cstat (d : Reg) (w n : BitVec 5)
  | ccan (d : Reg) (n : BitVec 5)
  -- convoy header (R56); its members follow it in memory
  | cvh (cnt : BitVec 3) (chain : BitVec 5) (u2 u3 u4 u5 u6 : BitVec 3)
  -- compact forms (R55)
  | cAdd (vd vb : BitVec 4) (m : Bool) | cSub (vd vb : BitVec 4) (m : Bool) | cMul (vd vb : BitVec 4) (m : Bool)
  | cFma (vd vb : BitVec 4) (m : Bool) | cMin (vd vb : BitVec 4) (m : Bool) | cMax (vd vb : BitVec 4) (m : Bool)
  | cAnd (vd vb : BitVec 4) (m : Bool) | cXor (vd vb : BitVec 4) (m : Bool) | cExp2 (vd vb : BitVec 4) (m : Bool)
  | cMv (vd vb : BitVec 4) (m : Bool)
  -- unit 0 (R153-R159)
  | vadd (vd va : VSpec) (b : VSrc) (m : VMask) | vsub (vd va : VSpec) (b : VSrc) (m : VMask)
  | vrsb (vd va : VSpec) (b : VSrc) (m : VMask) | vmin (vd va : VSpec) (b : VSrc) (m : VMask)
  | vmax (vd va : VSpec) (b : VSrc) (m : VMask) | vand (vd va : VSpec) (b : VSrc) (m : VMask)
  | vor (vd va : VSpec) (b : VSrc) (m : VMask) | vxor (vd va : VSpec) (b : VSrc) (m : VMask)
  | vandn (vd va : VSpec) (b : VSrc) (m : VMask) | vshl (vd va : VSpec) (b : VSrc) (m : VMask)
  | vshr (vd va : VSpec) (b : VSrc) (m : VMask) | vsar (vd va : VSpec) (b : VSrc) (m : VMask)
  | vabs (vd va : VSpec) (m : VMask) | vneg (vd va : VSpec) (m : VMask)
  | vclamp (vd va : VSpec) (b : VSrc) (c : BitVec 6) (m : VMask)
  | vcvt (vd va : VSpec) (st : BitVec 7) (m : VMask) | vcvtSb (vd va : VSpec) (st : BitVec 7) (g : Reg) (m : VMask)
  | vscl (vd va : VSpec) (b : VSrc) (m : VMask)
  | vcmp (md : BitVec 3) (va : VSpec) (b : VSrc) (cond : BitVec 4) (m : VMask)
  | vsel (vd va vb : VSpec) (mk : BitVec 3) | vmv (vd va : VSpec) (m : VMask) | vdup (vd : VSpec) (b : VSrc) (m : VMask)
  | vid (vd : VSpec) (m : VMask)
  -- unit 1 (R160)
  | vmul (vd va : VSpec) (b : VSrc) (m : VMask) | vmulh (vd va : VSpec) (b : VSrc) (m : VMask)
  | vfma (vd va : VSpec) (b : VSrc) (m : VMask) | vfms (vd va : VSpec) (b : VSrc) (m : VMask)
  | vfnma (vd va : VSpec) (b : VSrc) (m : VMask)
  -- unit 2 (R161)
  | vdiv (vd va : VSpec) (b : VSrc) (m : VMask) | vmod (vd va : VSpec) (b : VSrc) (m : VMask)
  | vsqrt (vd va : VSpec) (m : VMask) | vexp2 (vd va : VSpec) (m : VMask) | vlog2 (vd va : VSpec) (m : VMask)
  | vrcp (vd va : VSpec) (m : VMask) | vrsq (vd va : VSpec) (m : VMask) | vsinpi (vd va : VSpec) (m : VMask)
  | vcospi (vd va : VSpec) (m : VMask) | vtanh (vd va : VSpec) (m : VMask) | vsigm (vd va : VSpec) (m : VMask)
  | vgelu (vd va : VSpec) (m : VMask) | vsilu (vd va : VSpec) (m : VMask)
  -- unit 3 (R218)
  | vld (vd : VSpec) (a : Reg) (imm : BitVec 16) (m : VMask)
  | vlds (vd : VSpec) (a b : Reg) (imm : BitVec 16) (m : VMask)
  | vldx (vd : VSpec) (a : Reg) (vb : VSpec) (iw : Bool) (sc : BitVec 2) (m : VMask)
  | vldxC (vd vb : VSpec) (m : VMask)
  | vldff (vd : VSpec) (a : Reg) (imm : BitVec 16) (m : VMask)
  | vlsc (b8 : Bool) (f : BitVec 8) (a b c : Reg)
  | vldreg (vd : VSpec) (a : Reg) (imm : BitVec 16)
  | pref (t : BitVec 2) (a b : Reg) (imm : BitVec 16)
  -- unit 4 (R218)
  | vst (vs : VSpec) (a : Reg) (imm : BitVec 16) (m : VMask)
  | vsts (vs : VSpec) (a b : Reg) (imm : BitVec 16) (m : VMask)
  | vstx (vs : VSpec) (a : Reg) (vb : VSpec) (iw : Bool) (sc : BitVec 2) (m : VMask)
  | vstxC (vs vb : VSpec) (m : VMask)
  | vsadd (vs : VSpec) (a : Reg) (vb : VSpec) (iw : Bool) (sc : BitVec 2) (m : VMask)
  | vstreg (vs : VSpec) (a : Reg) (imm : BitVec 16)
  | vssc (b8 : Bool) (f : BitVec 8) (a b c : Reg)
  -- unit 5 (R172)
  | vslup (vd va : VSpec) (b : VSrc) (m : VMask) | vsldn (vd va : VSpec) (b : VSrc) (m : VMask)
  | vperm (vd va vb : VSpec) (m : VMask)
  | vcomp (vd va : VSpec) (mk : BitVec 3) | vexpand (vd va : VSpec) (mk : BitVec 3)
  | viota (vd : VSpec) (ms : BitVec 3) (m : VMask)
  | vsum (vd va vb : VSpec) (m : VMask) | vmaxv (vd va vb : VSpec) (m : VMask) | vminv (vd va vb : VSpec) (m : VMask)
  | vandv (vd va vb : VSpec) (m : VMask) | vorv (vd va vb : VSpec) (m : VMask) | vxorv (vd va vb : VSpec) (m : VMask)
  | kand (md ma mb : BitVec 3) | kor (md ma mb : BitVec 3) | kxor (md ma mb : BitVec 3) | knot (md ma : BitVec 3)
  | kpop (d : Reg) (ma : BitVec 3) (m : VMask) | kfirst (d : Reg) (ma : BitVec 3) (m : VMask)
  | ksbf (md ma : BitVec 3) (m : VMask) | ksif (md ma : BitVec 3) (m : VMask)
  | kset (mk : BitVec 3) (a : Reg) (n : BitVec 10) | kget (d : Reg) (ma : BitVec 3) (n : BitVec 10)
  -- unit 6 (R181)
  | zld (vd : VSpec) (a b c : Reg) | zst (vs : VSpec) (a b c : Reg)
  | zadd (vd va : VSpec) (b : VSrc) | zsub (vd va : VSpec) (b : VSrc) | zmul (vd va : VSpec) (b : VSrc)
  | zmin (vd va : VSpec) (b : VSrc) | zmax (vd va : VSpec) (b : VSrc)
  | zdec (vd va : VSpec) | zdecF (vd va : VSpec) | zenc (vd va : VSpec) | zencF (vd va : VSpec)
  | zscan (vd va : VSpec) | zcnt (d : Reg) (va : VSpec) | zsplice (vd va vb : VSpec) (c : Reg)
  -- unit 7 (R263)
  | mxattach (d a : Reg) | mxdetach (rows : BitVec 4) | mxfmt (afmt bfmt : BitVec 4)
  | mxload (t : BitVec 2) (a b c : Reg)
  | mxmul (z : Bool) (t : BitVec 2) (acc0 : BitVec 6) (s0 : BitVec 8) (va : VSpec) (b : Reg)
  | mxgrp (z : Bool) (acc0 : BitVec 6) (s0 : BitVec 8) (va : VSpec) (b : Reg)
  | mxzero (rows : BitVec 4) | mxwait (rows : BitVec 4)
  | mxdrain (t : BitVec 2) (r0 : BitVec 6) (fmt : BitVec 8) (a b c : Reg) (m : VMask)
  | mxdrainX (t : BitVec 2) (r0 : BitVec 6) (fmt : BitVec 8) (a : Reg) (vb : VSpec) (c : Reg) (m : VMask)
  | mxsave (a : Reg) | mxrest (a : Reg)
  -- unit 8 (R282)
  | bbset (strm : Bool) (fmt : BitVec 2) (strict : Bool) (a b c : Reg) | bbget (d : Reg) (strm : Bool)
  | bbisect (vd va vb : VSpec) | bbmerge (vd va vb : VSpec) (mia mib : BitVec 3) | bbwalk (vd va : VSpec)
  -- unit 9 (R296)
  | sgproj (h : BitVec 3) (b : BitVec 5) (d1 : BitVec 8) (a gb : Reg)
  | sgkey (d : Reg) (h : BitVec 3) (va : VSpec) (b c : Reg) | sgsig (d : Reg) (h : BitVec 3) (va : VSpec)
  | sggather (vd : VSpec) (h : BitVec 3) (va : VSpec) (b : Reg)
  -- unit 10 (R218)
  | hzld (vd : VSpec) (md : BitVec 3) (a : Reg) (imm : BitVec 16) (m : VMask)
  | hzrenew (d a b : Reg) | hzage (d a : Reg) (imm : BitVec 16) | hzdrop (a b : Reg)
  -- unit 11 (R316)
  | pub (d a : Reg) | shsync (d a b c : Reg)
  -- unit 12 (R140)
  | vset (d a : Reg) | vsetb (d a : Reg) | vcfg (d a : Reg)
  -- the instructions without an operand field (R101, R309, R339); they and the events stand last, since a compiled
  -- constructor with fields must be one of the first 244. For the same reason five rows whose one field takes
  -- at most eight values are a constructor for each value, and a hint keeps none of its fields, which nothing reads
  | trapFwd | trapYld | tret | idle | lsync
  | fenceAcquireCore | fenceAcquireCluster | fenceAcquireDevice | fenceAcquireSystem
  | fenceReleaseCore | fenceReleaseCluster | fenceReleaseDevice | fenceReleaseSystem
  | fenceFullCore | fenceFullCluster | fenceFullDevice | fenceFullSystem
  | hint | vdecl1 | vdecl2 | vdecl4
  | sgclr0 | sgclr1 | sgclr2 | sgclr3 | sgclr4 | sgclr5 | sgclr6 | sgclr7
  -- events: registers and launches
  | registerWrite
  | lwpush
  | placement
  | preload
  | segmentImageCopy
  | preloadTimeout | headBlocking | boundTaskResume
  | taskCompletion | budgetOverrun
  | codeObjectLoad | unforcedUnload | forcedUnload
  -- events: waits, engines
  | queueWake | queueStall
  | wmonWake | wmonTimeout | cwaitWake | cwaitTimeout
  | cpyAccept | copyCompletion | copyFaultStop
  | missedPromise
  | matrixCommandDone | mxwaitDone
  | hazeTileExpiry | hazeJunctionLimit
  -- events: traps and stops
  | preEmptionRequest | faultRecordDelivery | singleStep
  | debugStop | throttleNotice
  | resultConfirmation | suspectReexecute
  | traceHeadPublish | xlheadPublish
  -- events: power and bring-up
  | powerPointRequest | railStepDone | frequencySwitchDone
  | currentClamp | thermalForce | thermalForceClear | thermalCut | railLimit | heartbeatWatchdog
  | firmwareHeartbeat | firmwareUpdate
  | powerOnReset | bootFetch | bootVerify | quickTest
  | clusterExtendedPass | extendedTestFail | bootStageFail
  -- events: host, memory expanders, drives, fabric, management
  | hostBar2Write | hostBar2Read
  | hostAtomicop
  | statusRw1cWrite | hostCompletionTimeout | cxlLinkDown
  | storageError
  | skeinMessage
  | skeinLinkTrain
  | lanepartWrite | vshareWrite | vskewWrite
  | traceControlWrite | shootdownStart | shootdownComplete
  | dbstopWrite | acdataRead | xlogControlWrite | htlkWrite
  | illegalInstruction | instructionFetchFault
  | currentClampClear | skeinLinkDown
  | handleGenerationAdvance | hostHold
  deriving DecidableEq, Repr

end Sys2Proof
end

