-- ==== Sys2Proof/WellFormed.lean ====
section
/-!
DEFINITION. Which instructions have an encoding that the opcode map assigns (R46, R51, R52 and the field tables
R49, R140, R153, R172, R181, R218, R263, R282, R296, R316, R339). Events have no word and are never well-formed words.
-/
namespace Sys2Proof

/-- A specifier that may be a source (R52): `v`, `o`, `l` or `vq`. -/
def VSpec.src (r : VSpec) : Bool := r.toNat < 42 || (48 ≤ r.toNat && r.toNat < 52)

/-- A specifier that may be a destination (R52): `l0` and `l1` are sources only. -/
def VSpec.dst (r : VSpec) : Bool := r.toNat < 40 || (48 ≤ r.toNat && r.toNat < 52)

/-- A second source in a form the member accepts: `vs` and `vi` say whether forms 1 and 2 are listed. -/
def VSrc.ok (b : VSrc) (vv vs vi : Bool) : Bool :=
  match b with
  | .vv r => vv && VSpec.src r
  | .vs _ => vs
  | .vi _ => vi

/-- The VV, VS, VI members. -/
def wf3 (vd va : VSpec) (b : VSrc) : Bool := VSpec.dst vd && VSpec.src va && b.ok true true true

/-- The VV, VS members. -/
def wf2 (vd va : VSpec) (b : VSrc) : Bool := VSpec.dst vd && VSpec.src va && b.ok true true false

/-- The unary members. -/
def wf1 (vd va : VSpec) : Bool := VSpec.dst vd && VSpec.src va

/-- An instruction with a word of the opcode map, every field at a value its entry allows. -/
def Instr.wf : Instr → Bool
  | .tretTask _ a => a ≠ 0
  | .cpy _ _ n => n.toNat ≤ 3
  | .cwait _ _ n => n.toNat ≤ 5
  | .cstat _ w n => w.toNat ≤ 2 && n.toNat ≤ 3
  | .ccan _ n => n.toNat ≤ 3
  | .cvh cnt _ _ _ _ _ _ => cnt.toNat ≤ 4
  | .vadd vd va b _ | .vsub vd va b _ | .vrsb vd va b _ | .vmin vd va b _ | .vmax vd va b _ | .vand vd va b _
  | .vor vd va b _ | .vxor vd va b _ | .vandn vd va b _ | .vshl vd va b _ | .vshr vd va b _ | .vsar vd va b _ =>
    wf3 vd va b
  | .vabs vd va _ | .vneg vd va _ => wf1 vd va
  | .vclamp vd va b c _ =>
    VSpec.dst vd && VSpec.src va && b.ok true true false &&
      (match b with | .vv _ => VSpec.src c | _ => decide (c.toNat < 32))
  | .vcvt vd va _ _ => wf1 vd va
  | .vcvtSb vd va _ _ _ => wf1 vd va
  | .vscl vd va b _ => VSpec.dst vd && VSpec.src va && b.ok false true true
  | .vcmp _ va b cond _ => VSpec.src va && b.ok true true true && decide (cond.toNat ≤ 7)
  | .vsel vd va vb _ => VSpec.dst vd && VSpec.src va && VSpec.src vb
  | .vmv vd va _ => wf1 vd va
  | .vdup vd b _ => VSpec.dst vd && b.ok false true true
  | .vid vd _ => VSpec.dst vd
  | .vmul vd va b _ => wf3 vd va b
  | .vmulh vd va b _ | .vfma vd va b _ | .vfms vd va b _ | .vfnma vd va b _
  | .vdiv vd va b _ | .vmod vd va b _ => wf2 vd va b
  | .vsqrt vd va _ | .vexp2 vd va _ | .vlog2 vd va _ | .vrcp vd va _ | .vrsq vd va _ | .vsinpi vd va _
  | .vcospi vd va _ | .vtanh vd va _ | .vsigm vd va _ | .vgelu vd va _ | .vsilu vd va _ => wf1 vd va
  | .vld vd _ _ _ | .vlds vd _ _ _ _ | .vldff vd _ _ _ => VSpec.dst vd
  | .vldx vd _ vb _ _ _ | .vldxC vd vb _ => VSpec.dst vd && VSpec.src vb
  | .vldreg vd _ _ => VSpec.src vd
  | .pref t _ _ _ => t.toNat ≤ 2
  | .vst vs _ _ _ | .vsts vs _ _ _ _ | .vstreg vs _ _ => VSpec.src vs
  | .vstx vs _ vb _ _ _ | .vstxC vs vb _ | .vsadd vs _ vb _ _ _ => VSpec.src vs && VSpec.src vb
  | .vslup vd va b _ | .vsldn vd va b _ => VSpec.dst vd && VSpec.src va && b.ok false true true
  | .vperm vd va vb _ | .vsum vd va vb _ | .vmaxv vd va vb _ | .vminv vd va vb _
  | .vandv vd va vb _ | .vorv vd va vb _ | .vxorv vd va vb _ => VSpec.dst vd && VSpec.src va && VSpec.src vb
  | .vcomp vd va _ | .vexpand vd va _ => wf1 vd va
  | .viota vd _ _ => VSpec.dst vd
  | .zld vd _ _ _ => VSpec.dst vd
  | .zst vs _ _ _ => VSpec.src vs
  | .zadd vd va b | .zsub vd va b | .zmul vd va b | .zmin vd va b | .zmax vd va b => wf2 vd va b
  | .zdec vd va | .zdecF vd va | .zenc vd va | .zencF vd va | .zscan vd va => wf1 vd va
  | .zcnt _ va => VSpec.src va
  | .zsplice vd va vb _ => VSpec.dst vd && VSpec.src va && VSpec.src vb
  | .mxmul _ _ _ _ va _ | .mxgrp _ _ _ va _ => VSpec.src va
  | .mxdrainX _ _ _ _ vb _ _ => VSpec.src vb
  | .bbisect vd va vb | .bbmerge vd va vb _ _ => VSpec.src vd && VSpec.src va && VSpec.src vb
  | .bbwalk vd va => VSpec.src vd && VSpec.src va
  | .sgproj _ b _ _ _ => decide (4 ≤ b.toNat) && decide (b.toNat ≤ 16)
  | .sgkey _ _ va _ _ | .sgsig _ _ va => VSpec.src va
  | .sggather vd _ va _ => VSpec.dst vd && VSpec.src va
  | .hzld vd _ _ _ _ => VSpec.dst vd
  | .registerWrite | .lwpush | .placement | .preload | .segmentImageCopy | .preloadTimeout
  | .headBlocking | .boundTaskResume | .taskCompletion | .budgetOverrun | .codeObjectLoad
  | .unforcedUnload | .forcedUnload | .queueWake | .queueStall | .wmonWake | .wmonTimeout
  | .cwaitWake | .cwaitTimeout | .cpyAccept | .copyCompletion | .copyFaultStop | .missedPromise
  | .matrixCommandDone | .mxwaitDone | .hazeTileExpiry | .hazeJunctionLimit | .preEmptionRequest
  | .faultRecordDelivery | .singleStep | .debugStop | .throttleNotice | .resultConfirmation
  | .suspectReexecute | .traceHeadPublish | .xlheadPublish | .powerPointRequest | .railStepDone
  | .frequencySwitchDone | .currentClamp | .thermalForce | .thermalForceClear | .thermalCut | .railLimit
  | .heartbeatWatchdog | .firmwareHeartbeat | .firmwareUpdate | .powerOnReset | .bootFetch | .bootVerify
  | .quickTest | .clusterExtendedPass | .extendedTestFail | .bootStageFail | .hostBar2Write
  | .hostBar2Read | .hostAtomicop | .statusRw1cWrite | .hostCompletionTimeout | .cxlLinkDown
  | .storageError | .skeinMessage | .skeinLinkTrain | .lanepartWrite | .vshareWrite | .vskewWrite
  | .traceControlWrite | .shootdownStart | .shootdownComplete | .dbstopWrite | .acdataRead
  | .xlogControlWrite | .htlkWrite | .illegalInstruction | .instructionFetchFault | .currentClampClear
  | .skeinLinkDown | .handleGenerationAdvance | .hostHold => false
  | .add .. | .sub .. | .and .. | .or .. | .xor .. | .andn .. | .orn .. | .shl .. | .shr .. | .sar .. | .rotl ..
  | .clt .. | .cltu .. | .ceq .. | .mul .. | .mulh .. | .mulhu .. | .div .. | .divu .. | .mod .. | .modu ..
  | .min .. | .max .. | .minu .. | .maxu .. | .clz .. | .ctz .. | .pop .. | .sext8 .. | .sext16 .. | .sext32 ..
  | .zext32 .. | .andi .. | .ori .. | .xori .. | .clti .. | .shli .. | .shri .. | .sari .. | .addi ..
  | .ldb .. | .ldbu .. | .ldh .. | .ldhu .. | .ldw .. | .ldwu .. | .ldd .. | .stb .. | .sth .. | .stw .. | .std ..
  | .beq .. | .bne .. | .blt .. | .bge .. | .bltu .. | .bgeu .. | .jal .. | .jr .. | .lih .. | .pcrel ..
  | .fadd .. | .fsub .. | .fmul .. | .fdiv .. | .fsqrt .. | .fma .. | .fmin .. | .fmax .. | .fceq .. | .fclt ..
  | .fcle .. | .fcvtSize .. | .fcvtToFixed .. | .fcvtFromSigned .. | .fcvtFromUnsigned .. | .fclass ..
  | .amoSwap .. | .amoAdd .. | .amoAnd .. | .amoOr .. | .amoXor .. | .amoMin .. | .amoMax .. | .amoMinu ..
  | .amoMaxu .. | .amoCas .. | .amoAddq .. | .sget .. | .sset .. | .sswap .. | .trap .. | .trapFwd | .trapYld
  | .trapRerun .. | .trapDispose .. | .tret | .brkpt .. | .idle | .qsend .. | .qrecv .. | .qflag .. | .bqz ..
  | .bqnz .. | .spawn .. | .yield .. | .fenceAcquireCore | .fenceAcquireCluster
  | .fenceAcquireDevice | .fenceAcquireSystem | .fenceReleaseCore | .fenceReleaseCluster | .fenceReleaseDevice
  | .fenceReleaseSystem | .fenceFullCore | .fenceFullCluster | .fenceFullDevice | .fenceFullSystem | .lsync | .bar ..
  | .ldAcq .. | .stRel .. | .wmon .. | .hint | .vdecl1 | .vdecl2 | .vdecl4
  | .cAdd .. | .cSub .. | .cMul .. | .cFma .. | .cMin .. | .cMax .. | .cAnd .. | .cXor .. | .cExp2 .. | .cMv ..
  | .vlsc .. | .vssc .. | .kand .. | .kor .. | .kxor .. | .knot .. | .kpop .. | .kfirst .. | .ksbf .. | .ksif ..
  | .kset .. | .kget .. | .mxattach .. | .mxdetach .. | .mxfmt .. | .mxload .. | .mxzero .. | .mxwait ..
  | .mxdrain .. | .mxsave .. | .mxrest .. | .bbset .. | .bbget .. | .sgclr0 | .sgclr1 | .sgclr2 | .sgclr3 | .sgclr4 | .sgclr5
  | .sgclr6 | .sgclr7 | .hzrenew .. | .hzage .. | .hzdrop ..
  | .pub .. | .shsync .. | .vset .. | .vsetb .. | .vcfg .. => true

end Sys2Proof
end

