-- ==== Sys2Proof/Decode.lean ====
section
/-!
DEFINITION. The decoder, total on any bytes (R44-R57 and the field tables of the instruction chapters), and the
encoder, written from the same tables.
-/
namespace Sys2Proof

/-! ## Words as their fields -/

/-- A class-00 word by its common fields (R48): `hi` is [31:16]. -/
structure SWord where
  hi : BitVec 16
  d : Reg
  a : Reg
  maj : BitVec 4
  deriving DecidableEq, Repr

/-- A class-10 word by its fields (R51). -/
structure WWord where
  unit : BitVec 4
  mod : BitVec 4
  op : BitVec 8
  imm : BitVec 16
  vb : BitVec 6
  vc : BitVec 6
  me : BitVec 1
  mreg : BitVec 3
  vd : BitVec 6
  va : BitVec 6
  form : BitVec 2
  deriving DecidableEq, Repr

def SWord.toBits (s : SWord) : BitVec 32 := s.hi ++ (0#2) ++ s.d ++ s.a ++ s.maj

def SWord.ofBits (w : BitVec 32) : SWord :=
  { hi := w.extractLsb' 16 16, d := w.extractLsb' 9 5, a := w.extractLsb' 4 5, maj := w.extractLsb' 0 4 }

def WWord.toBits (f : WWord) : BitVec 64 :=
  f.unit ++ f.mod ++ f.op ++ f.imm ++ f.vb ++ f.vc ++ f.me ++ f.mreg ++ (2#2) ++ f.vd ++ f.va ++ f.form

def WWord.ofBits (w : BitVec 64) : WWord :=
  { unit := w.extractLsb' 60 4, mod := w.extractLsb' 56 4, op := w.extractLsb' 48 8, imm := w.extractLsb' 32 16,
    vb := w.extractLsb' 26 6, vc := w.extractLsb' 20 6, me := w.extractLsb' 19 1, mreg := w.extractLsb' 16 3,
    vd := w.extractLsb' 8 6, va := w.extractLsb' 2 6, form := w.extractLsb' 0 2 }

/-- An instruction's word at the length its class gives (R44). -/
inductive Enc where
  | p16 (w : BitVec 16)
  | p32 (w : BitVec 32)
  | p64 (w : BitVec 64)
  deriving DecidableEq, Repr

/-- Its length in bytes. -/
def Enc.len : Enc → Nat
  | .p16 _ => 2 | .p32 _ => 4 | .p64 _ => 8

/-- The word zero-extended to 64 bits, as an illegal instruction records it (R46). -/
def Enc.word : Enc → Word
  | .p16 w => w.setWidth 64 | .p32 w => w.setWidth 64 | .p64 w => w

/-- `i` if the fields are as its entry requires. -/
def ifOk (c : Bool) (i : Instr) : Option Instr := if c then some i else none

/-! ## Scalar words -/

/-- The function field [26:16] of the `reg` layout. -/
def SWord.fn (s : SWord) : BitVec 11 := s.hi.extractLsb' 0 11

/-- The b field [31:27] of the `reg` layout. -/
def SWord.b (s : SWord) : Reg := s.hi.extractLsb' 11 5

/-- The sub-operation [18:16] of the `short` layout. -/
def SWord.sub (s : SWord) : BitVec 3 := s.hi.extractLsb' 0 3

/-- imm13 of the `short` layout. -/
def SWord.imm13 (s : SWord) : BitVec 13 := s.hi.extractLsb' 3 13

/-- imm21 of the `long` layout: [20:5] in [31:16], [4:0] in [8:4]. -/
def SWord.imm21 (s : SWord) : BitVec 21 := s.hi ++ s.a

/-- The split imm12 of the short immediates (R49). -/
def SWord.imm12 (s : SWord) : BitVec 12 := s.hi.extractLsb' 11 5 ++ s.hi.extractLsb' 0 7

/-- Register ALU members by code [25:16], function [26] = 0 (R49). -/
def decodeAlu (s : SWord) : Option Instr :=
  let d := s.d; let a := s.a; let b := s.b
  match (s.fn.extractLsb' 0 10).toNat with
  | 0x000 => some (.add d a b) | 0x001 => some (.sub d a b) | 0x002 => some (.and d a b) | 0x003 => some (.or d a b)
  | 0x004 => some (.xor d a b) | 0x005 => some (.andn d a b) | 0x006 => some (.orn d a b) | 0x007 => some (.shl d a b)
  | 0x008 => some (.shr d a b) | 0x009 => some (.sar d a b) | 0x00A => some (.rotl d a b) | 0x00B => some (.clt d a b)
  | 0x00C => some (.cltu d a b) | 0x00D => some (.ceq d a b)
  | 0x010 => some (.mul d a b) | 0x011 => some (.mulh d a b) | 0x012 => some (.mulhu d a b)
  | 0x013 => some (.div d a b) | 0x014 => some (.divu d a b) | 0x015 => some (.mod d a b) | 0x016 => some (.modu d a b)
  | 0x018 => some (.min d a b) | 0x019 => some (.max d a b) | 0x01A => some (.minu d a b) | 0x01B => some (.maxu d a b)
  | 0x020 => ifOk (b = 0) (.clz d a) | 0x021 => ifOk (b = 0) (.ctz d a) | 0x022 => ifOk (b = 0) (.pop d a)
  | 0x023 => ifOk (b = 0) (.sext8 d a) | 0x024 => ifOk (b = 0) (.sext16 d a) | 0x025 => ifOk (b = 0) (.sext32 d a)
  | 0x026 => ifOk (b = 0) (.zext32 d a)
  | _ => none

/-- Short immediates, function [26] = 1, operation [25:23] (R49, R86). -/
def decodeImm (s : SWord) : Option Instr :=
  let d := s.d; let a := s.a; let i := s.imm12
  let sh : BitVec 6 := i.extractLsb' 0 6
  let shOk : Bool := i.extractLsb' 6 6 = (0 : BitVec 6)
  match (s.fn.extractLsb' 7 3).toNat with
  | 0 => some (.andi d a i) | 1 => some (.ori d a i) | 2 => some (.xori d a i) | 3 => some (.clti d a i)
  | 4 => ifOk shOk (.shli d a sh) | 5 => ifOk shOk (.shri d a sh) | 6 => ifOk shOk (.sari d a sh)
  | _ => none

def decodeLoad (s : SWord) : Option Instr :=
  match s.sub.toNat with
  | 0 => some (.ldb s.d s.a s.imm13) | 1 => some (.ldbu s.d s.a s.imm13) | 2 => some (.ldh s.d s.a s.imm13)
  | 3 => some (.ldhu s.d s.a s.imm13) | 4 => some (.ldw s.d s.a s.imm13) | 5 => some (.ldwu s.d s.a s.imm13)
  | 6 => some (.ldd s.d s.a s.imm13) | _ => none

def decodeStore (s : SWord) : Option Instr :=
  match s.sub.toNat with
  | 0 => some (.stb s.d s.a s.imm13) | 2 => some (.sth s.d s.a s.imm13) | 4 => some (.stw s.d s.a s.imm13)
  | 6 => some (.std s.d s.a s.imm13) | _ => none

def decodeBranch (s : SWord) : Option Instr :=
  match s.sub.toNat with
  | 0 => some (.beq s.a s.d s.imm13) | 1 => some (.bne s.a s.d s.imm13) | 2 => some (.blt s.a s.d s.imm13)
  | 3 => some (.bge s.a s.d s.imm13) | 4 => some (.bltu s.a s.d s.imm13) | 5 => some (.bgeu s.a s.d s.imm13)
  | _ => none

/-- Scalar floating point: operation [23:16], size [24], [26:25] zero except in `fcvt` (R49, R95). -/
def decodeFloat (s : SWord) : Option Instr :=
  let d := s.d; let a := s.a; let b := s.b
  let z : Bool := s.fn.extractLsb' 8 1 = (1 : BitVec 1)
  let k : BitVec 2 := s.fn.extractLsb' 9 2
  match (s.fn.extractLsb' 0 8).toNat with
  | 0x00 => ifOk (k = 0) (.fadd z d a b) | 0x01 => ifOk (k = 0) (.fsub z d a b) | 0x02 => ifOk (k = 0) (.fmul z d a b)
  | 0x03 => ifOk (k = 0) (.fdiv z d a b) | 0x04 => ifOk (k = 0 ∧ b = 0) (.fsqrt z d a) | 0x05 => ifOk (k = 0) (.fma z d a b)
  | 0x06 => ifOk (k = 0) (.fmin z d a b) | 0x07 => ifOk (k = 0) (.fmax z d a b) | 0x08 => ifOk (k = 0) (.fceq z d a b)
  | 0x09 => ifOk (k = 0) (.fclt z d a b) | 0x0A => ifOk (k = 0) (.fcle z d a b)
  | 0x0B =>
    match k.toNat with
    | 0 => ifOk (b = 0) (.fcvtSize z d a)
    | 1 => some (.fcvtToFixed z d a b)
    | 2 => some (.fcvtFromSigned z d a b)
    | _ => some (.fcvtFromUnsigned z d a b)
  | 0x0C => ifOk (k = 0 ∧ b = 0) (.fclass z d a)
  | _ => none

/-- Atomics: operation [23:16], size [24], ordering [26:25] (R311). -/
def decodeAmo (s : SWord) : Option Instr :=
  let d := s.d; let a := s.a; let b := s.b
  let z : Bool := s.fn.extractLsb' 8 1 = (1 : BitVec 1)
  let o : BitVec 2 := s.fn.extractLsb' 9 2
  match (s.fn.extractLsb' 0 8).toNat with
  | 0x00 => some (.amoSwap z o d a b) | 0x01 => some (.amoAdd z o d a b) | 0x02 => some (.amoAnd z o d a b)
  | 0x03 => some (.amoOr z o d a b) | 0x04 => some (.amoXor z o d a b) | 0x05 => some (.amoMin z o d a b)
  | 0x06 => some (.amoMax z o d a b) | 0x07 => some (.amoMinu z o d a b) | 0x08 => some (.amoMaxu z o d a b)
  | 0x09 => some (.amoCas z o d a b) | 0x0A => ifOk z (.amoAddq o d a b) | _ => none

/-- State and system: operation [31:28], operand [27:16] (R49, R101, R339). -/
def decodeSystem (s : SWord) : Option Instr :=
  let d := s.d; let a := s.a
  let n : BitVec 12 := s.hi.extractLsb' 0 12
  let n10 : BitVec 10 := s.hi.extractLsb' 2 10
  match (s.hi.extractLsb' 12 4).toNat with
  | 0 => ifOk (a = 0) (.sget d n)
  | 1 => ifOk (d = 0) (.sset n a)
  | 2 => some (.sswap d n a)
  | 8 =>
    match (s.hi.extractLsb' 0 2).toNat with
    | 0 => ifOk (d = 0 ∧ a = 0) (.trap n10)
    | 1 => ifOk (d = 0 ∧ a = 0 ∧ n10 = 0) .trapFwd
    | 2 => ifOk (d = 0 ∧ a = 0 ∧ n10 = 0) .trapYld
    | _ => if n10 = 0 then some (.trapRerun d a) else ifOk (n10 = 1) (.trapDispose d a)
  | 9 => if a = 0 then ifOk (d = 0 ∧ n = 0) .tret else ifOk (n = 0) (.tretTask d a)
  | 10 => ifOk (d = 0 ∧ a = 0) (.brkpt n)
  | 11 => ifOk (d = 0 ∧ a = 0 ∧ n = 0) .idle
  | _ => none

/-- Queues and work (R98, R103, R104). -/
def decodeQueue (s : SWord) : Option Instr :=
  let i := s.imm13
  let q : BitVec 2 := i.extractLsb' 0 2
  let qOk : Bool := i.extractLsb' 2 11 = (0 : BitVec 11)
  match s.sub.toNat with
  | 0 => ifOk (qOk ∧ s.d = 0) (.qsend q s.a)
  | 1 => ifOk (qOk ∧ s.a = 0) (.qrecv s.d q)
  | 2 => ifOk (i = 0 ∧ s.d = 0) (.qflag s.a)
  | 3 => ifOk (s.d = 0 ∧ s.a = 0) (.bqz i)
  | 4 => ifOk (s.d = 0 ∧ s.a = 0) (.bqnz i)
  | 5 => ifOk (i = 0) (.spawn s.d s.a)
  | 6 => ifOk (i = 0 ∧ s.a = 0) (.yield s.d)
  | _ => none

/-- The instruction of a fence's scope field (R304). -/
def ofScope (sc : BitVec 2) (core cluster device system : Instr) : Instr :=
  match sc.toNat with
  | 0 => core | 1 => cluster | 2 => device | _ => system

/-- Fences and synchronisation (R309, R310, R313, R315): [20:19], [22:21] and above lie in imm13 from bit 0. -/
def decodeSync (s : SWord) : Option Instr :=
  let i := s.imm13
  let lo : BitVec 2 := i.extractLsb' 0 2
  let sc : BitVec 2 := i.extractLsb' 2 2
  let top : Bool := i.extractLsb' 4 9 = (0 : BitVec 9)
  match s.sub.toNat with
  | 0 =>
    match lo.toNat with
    | 0 => ifOk (top ∧ s.d = 0 ∧ s.a = 0) (ofScope sc .fenceAcquireCore .fenceAcquireCluster .fenceAcquireDevice .fenceAcquireSystem)
    | 1 => ifOk (top ∧ s.d = 0 ∧ s.a = 0) (ofScope sc .fenceReleaseCore .fenceReleaseCluster .fenceReleaseDevice .fenceReleaseSystem)
    | 2 => ifOk (top ∧ s.d = 0 ∧ s.a = 0) (ofScope sc .fenceFullCore .fenceFullCluster .fenceFullDevice .fenceFullSystem)
    | _ => none
  | 1 => ifOk (i = 0 ∧ s.d = 0 ∧ s.a = 0) .lsync
  | 2 => ifOk (top ∧ s.d = 0) (.bar (i.extractLsb' 0 3) (i.extractLsb' 3 1 = (1 : BitVec 1)) s.a)
  | 3 => ifOk top (.ldAcq lo sc s.d s.a)
  | 4 => ifOk top (.stRel lo sc s.d s.a)
  | 5 => ifOk (i.extractLsb' 9 4 = (0 : BitVec 4)) (.wmon lo sc (i.extractLsb' 4 5) s.d s.a)
  | _ => none

/-- Copy commands (R249): b and, in `cstat`, a are small numbers. -/
def decodeCopy (s : SWord) : Option Instr :=
  match s.fn.toNat with
  | 0 => ifOk (s.b.toNat ≤ 3) (.cpy s.d s.a s.b)
  | 1 => ifOk (s.b.toNat ≤ 5) (.cwait s.d s.a s.b)
  | 2 => ifOk (s.a.toNat ≤ 2 ∧ s.b.toNat ≤ 3) (.cstat s.d s.a s.b)
  | 3 => ifOk (s.a = 0 ∧ s.b.toNat ≤ 3) (.ccan s.d s.b)
  | _ => none

/-- A class-00 word by its major opcode (R49). -/
def decodeScalar (s : SWord) : Option Instr :=
  match s.maj.toNat with
  | 0 => if s.fn.extractLsb' 10 1 = (0 : BitVec 1) then decodeAlu s else decodeImm s
  | 1 => some (.addi s.d s.a s.hi)
  | 2 => decodeLoad s
  | 3 => decodeStore s
  | 4 => decodeBranch s
  | 5 => some (.jal s.d s.imm21)
  | 6 => some (.jr s.d s.a s.hi)
  | 7 => some (.lih s.d s.imm21)
  | 8 => some (.pcrel s.d s.imm21)
  | 9 => decodeFloat s
  | 10 => decodeAmo s
  | 11 => decodeSystem s
  | 12 => decodeQueue s
  | 13 => decodeSync s
  | 14 => decodeCopy s
  | _ => ifOk (s.fn.extractLsb' 10 1 = (1 : BitVec 1)) .hint

/-! ## Compact parcels and the convoy header -/

/-- A class-01 parcel (R55). -/
def decodeCompact (w : BitVec 16) : Option Instr :=
  let d : BitVec 4 := w.extractLsb' 5 4
  let b : BitVec 4 := w.extractLsb' 1 4
  let m : Bool := w.extractLsb' 0 1 = (1 : BitVec 1)
  match (w.extractLsb' 9 5).toNat with
  | 0 => some (.cAdd d b m) | 1 => some (.cSub d b m) | 2 => some (.cMul d b m) | 3 => some (.cFma d b m)
  | 4 => some (.cMin d b m) | 5 => some (.cMax d b m) | 6 => some (.cAnd d b m) | 7 => some (.cXor d b m)
  | 8 => some (.cExp2 d b m) | 9 => some (.cMv d b m) | _ => none

/-- A class-11 word (R56). What its member fields must agree with is checked when the convoy issues (R57). -/
def decodeHeader (w : BitVec 32) : Option Instr :=
  ifOk (w.extractLsb' 12 2 = (0 : BitVec 2) ∧ w.extractLsb' 0 4 = (0 : BitVec 4) ∧ w.extractLsb' 31 1 = (0 : BitVec 1) ∧
      (w.extractLsb' 9 3).toNat ≤ 4)
    (.cvh (w.extractLsb' 9 3) (w.extractLsb' 4 5) (w.extractLsb' 16 3) (w.extractLsb' 19 3) (w.extractLsb' 22 3)
      (w.extractLsb' 25 3) (w.extractLsb' 28 3))

/-! ## Wide words -/

/-- The mask operand; `mreg` must be 0 when `me` is 0 (R51). -/
def WWord.mask (f : WWord) : Option VMask :=
  if f.me = 1 then some (some f.mreg) else if f.mreg = 0 then some none else none

/-- The mask operand's field must be empty. -/
def WWord.noMask (f : WWord) : Bool := f.me = 0 && f.mreg = 0

/-- A `g` field: 32 or more is illegal (R51). -/
def isG (r : BitVec 6) : Bool := r.toNat < 32

/-- The register a `g` field names. -/
def gOf (r : BitVec 6) : Reg := r.extractLsb' 0 5

/-- A mask specifier field: [5:3] zero (R168). -/
def isM (r : BitVec 6) : Bool := r.toNat < 8

/-- The mask register a field names. -/
def mOf (r : BitVec 6) : BitVec 3 := r.extractLsb' 0 3

/-- The second source by form; unused fields must be zero (R51, R153). -/
def WWord.src2 (f : WWord) : Option VSrc :=
  match f.form.toNat with
  | 0 => if f.imm = 0 ∧ VSpec.src f.vb then some (.vv f.vb) else none
  | 1 => if f.imm = 0 ∧ isG f.vb then some (.vs (gOf f.vb)) else none
  | 2 => if f.vb = 0 then some (.vi f.imm) else none
  | _ => none

/-- `k` of the second source and mask when `c` and the source's form allow it. -/
def dec2 (f : WWord) (vv vs vi : Bool) (c : Bool) (k : VSrc → VMask → Instr) : Option Instr :=
  match f.src2, f.mask with
  | some b, some m => ifOk (c && b.ok vv vs vi) (k b m)
  | _, _ => none

/-- A unary VV member: `vb`, `vc`, `imm`, `mod` zero. -/
def dec1 (f : WWord) (k : VMask → Instr) : Option Instr :=
  match f.mask with
  | some m => ifOk (f.form = 0 ∧ f.vb = 0 ∧ f.vc = 0 ∧ f.imm = 0 ∧ f.mod = 0 ∧ wf1 f.vd f.va) (k m)
  | none => none

/-- The destination and first source of an element-wise member, `vc` and `mod` zero. -/
def WWord.plain (f : WWord) : Bool := VSpec.dst f.vd && VSpec.src f.va && f.vc = 0 && f.mod = 0

/-- Unit 0 (R153-R159). -/
def decodeUnit0 (f : WWord) : Option Instr :=
  let d := f.vd; let a := f.va
  match f.op.toNat with
  | 0x00 => dec2 f true true true f.plain (.vadd d a) | 0x01 => dec2 f true true true f.plain (.vsub d a)
  | 0x02 => dec2 f true true true f.plain (.vrsb d a) | 0x03 => dec2 f true true true f.plain (.vmin d a)
  | 0x04 => dec2 f true true true f.plain (.vmax d a) | 0x05 => dec2 f true true true f.plain (.vand d a)
  | 0x06 => dec2 f true true true f.plain (.vor d a) | 0x07 => dec2 f true true true f.plain (.vxor d a)
  | 0x08 => dec2 f true true true f.plain (.vandn d a) | 0x09 => dec2 f true true true f.plain (.vshl d a)
  | 0x0A => dec2 f true true true f.plain (.vshr d a) | 0x0B => dec2 f true true true f.plain (.vsar d a)
  | 0x0C => dec1 f (.vabs d a)
  | 0x0D => dec1 f (.vneg d a)
  | 0x0E =>
    dec2 f true true false
      (VSpec.dst d && VSpec.src a && f.mod = 0 && (if f.form = 0 then VSpec.src f.vc else isG f.vc))
      (fun b m => .vclamp d a b f.vc m)
  | 0x0F =>
    match f.mask with
    | none => none
    | some m =>
      if f.mod = 0 then
        ifOk (f.form = 0 ∧ f.vb = 0 ∧ f.vc = 0 ∧ wf1 d a ∧ f.imm.extractLsb' 7 9 = (0 : BitVec 9))
          (.vcvt d a (f.imm.extractLsb' 0 7) m)
      else
        ifOk (f.mod = 1 ∧ f.form = 1 ∧ isG f.vb ∧ f.vc = 0 ∧ wf1 d a ∧ f.imm.extractLsb' 7 9 = (0 : BitVec 9))
          (.vcvtSb d a (f.imm.extractLsb' 0 7) (gOf f.vb) m)
  | 0x10 => dec2 f false true true f.plain (.vscl d a)
  | 0x11 =>
    dec2 f true true true (isM d && VSpec.src a && f.vc = 0 && decide (f.mod.toNat ≤ 7))
      (fun b m => .vcmp (mOf d) a b f.mod m)
  | 0x12 =>
    ifOk (f.form = 0 ∧ f.me = 1 ∧ f.vc = 0 ∧ f.imm = 0 ∧ f.mod = 0 ∧ VSpec.dst d ∧ VSpec.src a ∧ VSpec.src f.vb)
      (.vsel d a f.vb f.mreg)
  | 0x13 => dec1 f (.vmv d a)
  | 0x14 => dec2 f false true true (VSpec.dst d && a = 0 && f.vc = 0 && f.mod = 0) (.vdup d)
  | 0x15 =>
    match f.mask with
    | some m => ifOk (f.form = 0 ∧ a = 0 ∧ f.vb = 0 ∧ f.vc = 0 ∧ f.imm = 0 ∧ f.mod = 0 ∧ VSpec.dst d) (.vid d m)
    | none => none
  | _ => none

/-- Unit 1 (R160). -/
def decodeUnit1 (f : WWord) : Option Instr :=
  let d := f.vd; let a := f.va
  match f.op.toNat with
  | 0x00 => dec2 f true true true f.plain (.vmul d a) | 0x01 => dec2 f true true false f.plain (.vmulh d a)
  | 0x02 => dec2 f true true false f.plain (.vfma d a) | 0x03 => dec2 f true true false f.plain (.vfms d a)
  | 0x04 => dec2 f true true false f.plain (.vfnma d a) | _ => none

/-- Unit 2 (R161). -/
def decodeUnit2 (f : WWord) : Option Instr :=
  let d := f.vd; let a := f.va
  match f.op.toNat with
  | 0x00 => dec2 f true true false f.plain (.vdiv d a) | 0x01 => dec2 f true true false f.plain (.vmod d a)
  | 0x02 => dec1 f (.vsqrt d a) | 0x03 => dec1 f (.vexp2 d a) | 0x04 => dec1 f (.vlog2 d a) | 0x05 => dec1 f (.vrcp d a)
  | 0x06 => dec1 f (.vrsq d a) | 0x07 => dec1 f (.vsinpi d a) | 0x08 => dec1 f (.vcospi d a) | 0x09 => dec1 f (.vtanh d a)
  | 0x0A => dec1 f (.vsigm d a) | 0x0B => dec1 f (.vgelu d a) | 0x0C => dec1 f (.vsilu d a) | _ => none

/-- The VM form of units 3, 4 and 10 with an optional mask (R218). -/
def decM (f : WWord) (c : Bool) (k : VMask → Instr) : Option Instr :=
  match f.mask with
  | some m => ifOk (f.form = 3 ∧ c) (k m)
  | none => none

/-- The VM form without a mask. -/
def decN (f : WWord) (c : Bool) (i : Instr) : Option Instr := ifOk (f.form = 3 ∧ f.noMask ∧ c) i

/-- `mod` of the indexed forms: [0] the index width, [2:1] the shift, [3] zero. -/
def WWord.idxMod (f : WWord) : Bool := f.mod.extractLsb' 3 1 = (0 : BitVec 1)
def WWord.iw (f : WWord) : Bool := f.mod.extractLsb' 0 1 = (1 : BitVec 1)
def WWord.sc (f : WWord) : BitVec 2 := f.mod.extractLsb' 1 2

/-- Unit 3, vector loads (R218). -/
def decodeUnit3 (f : WWord) : Option Instr :=
  let d := f.vd; let a := f.va
  match f.op.toNat with
  | 0x00 => decM f (VSpec.dst d ∧ isG a ∧ f.vb = 0 ∧ f.vc = 0 ∧ f.mod = 0) (.vld d (gOf a) f.imm)
  | 0x01 => decM f (VSpec.dst d ∧ isG a ∧ isG f.vb ∧ f.vc = 0 ∧ f.mod = 0) (.vlds d (gOf a) (gOf f.vb) f.imm)
  | 0x02 => decM f (VSpec.dst d ∧ isG a ∧ VSpec.src f.vb ∧ f.vc = 0 ∧ f.imm = 0 ∧ f.idxMod) (.vldx d (gOf a) f.vb f.iw f.sc)
  | 0x03 => decM f (VSpec.dst d ∧ a = 0 ∧ VSpec.src f.vb ∧ f.vc = 0 ∧ f.imm = 0 ∧ f.mod = 0) (.vldxC d f.vb)
  | 0x04 => decM f (VSpec.dst d ∧ isG a ∧ f.vb = 0 ∧ f.vc = 0 ∧ f.mod = 0) (.vldff d (gOf a) f.imm)
  | 0x05 =>
    decN f (d = 0 ∧ isG a ∧ isG f.vb ∧ isG f.vc ∧ f.imm.extractLsb' 8 8 = (0 : BitVec 8) ∧
        f.mod.extractLsb' 1 3 = (0 : BitVec 3))
      (.vlsc f.iw (f.imm.extractLsb' 0 8) (gOf a) (gOf f.vb) (gOf f.vc))
  | 0x06 => decN f (VSpec.src d ∧ isG a ∧ f.vb = 0 ∧ f.vc = 0 ∧ f.mod = 0) (.vldreg d (gOf a) f.imm)
  | 0x07 =>
    decN f (d = 0 ∧ isG a ∧ isG f.vb ∧ f.vc = 0 ∧ decide (f.mod.toNat ≤ 2))
      (.pref (f.mod.extractLsb' 0 2) (gOf a) (gOf f.vb) f.imm)
  | _ => none

/-- Unit 4, vector stores (R218). -/
def decodeUnit4 (f : WWord) : Option Instr :=
  let d := f.vd; let a := f.va
  match f.op.toNat with
  | 0x00 => decM f (VSpec.src d ∧ isG a ∧ f.vb = 0 ∧ f.vc = 0 ∧ f.mod = 0) (.vst d (gOf a) f.imm)
  | 0x01 => decM f (VSpec.src d ∧ isG a ∧ isG f.vb ∧ f.vc = 0 ∧ f.mod = 0) (.vsts d (gOf a) (gOf f.vb) f.imm)
  | 0x02 => decM f (VSpec.src d ∧ isG a ∧ VSpec.src f.vb ∧ f.vc = 0 ∧ f.imm = 0 ∧ f.idxMod) (.vstx d (gOf a) f.vb f.iw f.sc)
  | 0x03 => decM f (VSpec.src d ∧ a = 0 ∧ VSpec.src f.vb ∧ f.vc = 0 ∧ f.imm = 0 ∧ f.mod = 0) (.vstxC d f.vb)
  | 0x04 => decM f (VSpec.src d ∧ isG a ∧ VSpec.src f.vb ∧ f.vc = 0 ∧ f.imm = 0 ∧ f.idxMod) (.vsadd d (gOf a) f.vb f.iw f.sc)
  | 0x05 => decN f (VSpec.src d ∧ isG a ∧ f.vb = 0 ∧ f.vc = 0 ∧ f.mod = 0) (.vstreg d (gOf a) f.imm)
  | 0x06 =>
    decN f (d = 0 ∧ isG a ∧ isG f.vb ∧ isG f.vc ∧ f.imm.extractLsb' 8 8 = (0 : BitVec 8) ∧
        f.mod.extractLsb' 1 3 = (0 : BitVec 3))
      (.vssc f.iw (f.imm.extractLsb' 0 8) (gOf a) (gOf f.vb) (gOf f.vc))
  | _ => none

/-- A VV member of unit 5 with its `vb` used or zero, `vc`, `imm` and `mod` zero (R172). -/
def dec5 (f : WWord) (c : Bool) (k : VMask → Instr) : Option Instr :=
  match f.mask with
  | some m => ifOk (f.form = 0 ∧ f.vc = 0 ∧ f.imm = 0 ∧ f.mod = 0 ∧ c) (k m)
  | none => none

/-- The reductions and `vperm`: three vector specifiers. -/
def WWord.v3 (f : WWord) : Bool := VSpec.dst f.vd && VSpec.src f.va && VSpec.src f.vb

/-- Unit 5 (R172). -/
def decodeUnit5 (f : WWord) : Option Instr :=
  let d := f.vd; let a := f.va; let b := f.vb
  match f.op.toNat with
  | 0x00 => dec2 f false true true f.plain (.vslup d a)
  | 0x01 => dec2 f false true true f.plain (.vsldn d a)
  | 0x02 => dec5 f f.v3 (.vperm d a b)
  | 0x03 => ifOk (f.form = 0 ∧ f.me = 1 ∧ b = 0 ∧ f.vc = 0 ∧ f.imm = 0 ∧ f.mod = 0 ∧ wf1 d a) (.vcomp d a f.mreg)
  | 0x04 => ifOk (f.form = 0 ∧ f.me = 1 ∧ b = 0 ∧ f.vc = 0 ∧ f.imm = 0 ∧ f.mod = 0 ∧ wf1 d a) (.vexpand d a f.mreg)
  | 0x05 => dec5 f (VSpec.dst d ∧ isM a ∧ b = 0) (.viota d (mOf a))
  | 0x06 => dec5 f f.v3 (.vsum d a b) | 0x07 => dec5 f f.v3 (.vmaxv d a b) | 0x08 => dec5 f f.v3 (.vminv d a b)
  | 0x09 => dec5 f f.v3 (.vandv d a b) | 0x0A => dec5 f f.v3 (.vorv d a b) | 0x0B => dec5 f f.v3 (.vxorv d a b)
  | 0x0C => dec5 f (f.noMask ∧ isM d ∧ isM a ∧ isM b) (fun _ => .kand (mOf d) (mOf a) (mOf b))
  | 0x0D => dec5 f (f.noMask ∧ isM d ∧ isM a ∧ isM b) (fun _ => .kor (mOf d) (mOf a) (mOf b))
  | 0x0E => dec5 f (f.noMask ∧ isM d ∧ isM a ∧ isM b) (fun _ => .kxor (mOf d) (mOf a) (mOf b))
  | 0x0F => dec5 f (f.noMask ∧ isM d ∧ isM a ∧ b = 0) (fun _ => .knot (mOf d) (mOf a))
  | 0x10 => dec5 f (isG d ∧ isM a ∧ b = 0) (.kpop (gOf d) (mOf a))
  | 0x11 => dec5 f (isG d ∧ isM a ∧ b = 0) (.kfirst (gOf d) (mOf a))
  | 0x12 => dec5 f (isM d ∧ isM a ∧ b = 0) (.ksbf (mOf d) (mOf a))
  | 0x13 => dec5 f (isM d ∧ isM a ∧ b = 0) (.ksif (mOf d) (mOf a))
  | 0x14 =>
    ifOk (f.form = 2 ∧ f.noMask ∧ f.vc = 0 ∧ b = 0 ∧ f.mod = 0 ∧ isM d ∧ isG a ∧ f.imm.extractLsb' 10 6 = (0 : BitVec 6))
      (.kset (mOf d) (gOf a) (f.imm.extractLsb' 0 10))
  | 0x15 =>
    ifOk (f.form = 2 ∧ f.noMask ∧ f.vc = 0 ∧ b = 0 ∧ f.mod = 0 ∧ isG d ∧ isM a ∧ f.imm.extractLsb' 10 6 = (0 : BitVec 6))
      (.kget (gOf d) (mOf a) (f.imm.extractLsb' 0 10))
  | _ => none

/-- A unit-6 VV member without mask, `imm` zero. -/
def dec6 (f : WWord) (c : Bool) (i : Instr) : Option Instr := ifOk (f.form = 0 ∧ f.noMask ∧ f.imm = 0 ∧ c) i

/-- A unit-6 element-wise member: VV or VS, no mask. -/
def dec6b (f : WWord) (k : VSrc → Instr) : Option Instr := dec2 f true true false (f.plain ∧ f.noMask) (fun b _ => k b)

/-- Unit 6 (R181). -/
def decodeUnit6 (f : WWord) : Option Instr :=
  let d := f.vd; let a := f.va; let b := f.vb
  match f.op.toNat with
  | 0x00 => decN f (VSpec.dst d ∧ isG a ∧ isG b ∧ isG f.vc ∧ f.imm = 0 ∧ f.mod = 0) (.zld d (gOf a) (gOf b) (gOf f.vc))
  | 0x01 => decN f (VSpec.src d ∧ isG a ∧ isG b ∧ isG f.vc ∧ f.imm = 0 ∧ f.mod = 0) (.zst d (gOf a) (gOf b) (gOf f.vc))
  | 0x02 => dec6b f (.zadd d a) | 0x03 => dec6b f (.zsub d a) | 0x04 => dec6b f (.zmul d a)
  | 0x05 => dec6b f (.zmin d a) | 0x06 => dec6b f (.zmax d a)
  | 0x07 =>
    if f.mod = 0 then dec6 f (wf1 d a ∧ b = 0 ∧ f.vc = 0) (.zdec d a)
    else dec6 f (f.mod = 1 ∧ wf1 d a ∧ b = 0 ∧ f.vc = 0) (.zdecF d a)
  | 0x08 =>
    if f.mod = 0 then dec6 f (wf1 d a ∧ b = 0 ∧ f.vc = 0) (.zenc d a)
    else dec6 f (f.mod = 1 ∧ wf1 d a ∧ b = 0 ∧ f.vc = 0) (.zencF d a)
  | 0x09 => dec6 f (f.mod = 0 ∧ wf1 d a ∧ b = 0 ∧ f.vc = 0) (.zscan d a)
  | 0x0A => dec6 f (f.mod = 0 ∧ isG d ∧ VSpec.src a ∧ b = 0 ∧ f.vc = 0) (.zcnt (gOf d) a)
  | 0x0B => dec6 f (f.mod = 0 ∧ f.v3 ∧ isG f.vc) (.zsplice d a b (gOf f.vc))
  | _ => none

/-- Unit 7 (R263). -/
def decodeUnit7 (f : WWord) : Option Instr :=
  let d := f.vd; let a := f.va; let b := f.vb; let c := f.vc
  let hi12 : Bool := f.imm.extractLsb' 4 12 = (0 : BitVec 12)
  let rows : BitVec 4 := f.imm.extractLsb' 0 4
  let z : Bool := f.mod = 1
  let zOk : Bool := f.mod.extractLsb' 1 3 = (0 : BitVec 3)
  let t : BitVec 2 := f.imm.extractLsb' 0 2
  let acc : BitVec 6 := f.imm.extractLsb' 2 6
  let s0 : BitVec 8 := f.imm.extractLsb' 8 8
  match f.op.toNat with
  | 0x00 =>
    ifOk (f.form = 1 ∧ f.noMask ∧ isG d ∧ isG a ∧ b = 0 ∧ c = 0 ∧ f.imm = 0 ∧ f.mod = 0) (.mxattach (gOf d) (gOf a))
  | 0x01 => ifOk (f.form = 2 ∧ f.noMask ∧ d = 0 ∧ a = 0 ∧ b = 0 ∧ c = 0 ∧ f.mod = 0 ∧ hi12) (.mxdetach rows)
  | 0x02 =>
    ifOk (f.form = 2 ∧ f.noMask ∧ d = 0 ∧ a = 0 ∧ b = 0 ∧ c = 0 ∧ f.mod = 0 ∧ s0 = 0)
      (.mxfmt rows (f.imm.extractLsb' 4 4))
  | 0x03 =>
    decN f (d = 0 ∧ isG a ∧ isG b ∧ isG c ∧ f.mod = 0 ∧ f.imm.extractLsb' 2 14 = (0 : BitVec 14))
      (.mxload t (gOf a) (gOf b) (gOf c))
  | 0x04 =>
    ifOk (f.form = 1 ∧ f.noMask ∧ d = 0 ∧ VSpec.src a ∧ isG b ∧ c = 0 ∧ zOk) (.mxmul z t acc s0 a (gOf b))
  | 0x05 =>
    ifOk (f.form = 1 ∧ f.noMask ∧ d = 0 ∧ VSpec.src a ∧ isG b ∧ c = 0 ∧ zOk ∧ t = 0) (.mxgrp z acc s0 a (gOf b))
  | 0x06 => ifOk (f.form = 2 ∧ f.noMask ∧ d = 0 ∧ a = 0 ∧ b = 0 ∧ c = 0 ∧ f.mod = 0 ∧ hi12) (.mxzero rows)
  | 0x07 => ifOk (f.form = 2 ∧ f.noMask ∧ d = 0 ∧ a = 0 ∧ b = 0 ∧ c = 0 ∧ f.mod = 0 ∧ hi12) (.mxwait rows)
  | 0x08 =>
    if f.mod = 0 then decM f (d = 0 ∧ isG a ∧ isG b ∧ isG c) (.mxdrain t acc s0 (gOf a) (gOf b) (gOf c))
    else decM f (f.mod = 1 ∧ d = 0 ∧ isG a ∧ VSpec.src b ∧ isG c) (.mxdrainX t acc s0 (gOf a) b (gOf c))
  | 0x09 => decN f (d = 0 ∧ isG a ∧ b = 0 ∧ c = 0 ∧ f.imm = 0 ∧ f.mod = 0) (.mxsave (gOf a))
  | 0x0A => decN f (d = 0 ∧ isG a ∧ b = 0 ∧ c = 0 ∧ f.imm = 0 ∧ f.mod = 0) (.mxrest (gOf a))
  | _ => none

/-- Unit 8 (R282). -/
def decodeUnit8 (f : WWord) : Option Instr :=
  let d := f.vd; let a := f.va; let b := f.vb; let c := f.vc
  match f.op.toNat with
  | 0x00 =>
    decN f (f.mod = 0 ∧ d = 0 ∧ isG a ∧ isG b ∧ isG c ∧ f.imm.extractLsb' 4 12 = (0 : BitVec 12))
      (.bbset (f.imm.extractLsb' 0 1 = (1 : BitVec 1)) (f.imm.extractLsb' 1 2) (f.imm.extractLsb' 3 1 = (1 : BitVec 1))
        (gOf a) (gOf b) (gOf c))
  | 0x01 =>
    decN f (f.mod = 0 ∧ isG d ∧ a = 0 ∧ b = 0 ∧ c = 0 ∧ f.imm.extractLsb' 1 15 = (0 : BitVec 15))
      (.bbget (gOf d) (f.imm.extractLsb' 0 1 = (1 : BitVec 1)))
  | 0x02 => decN f (f.mod = 0 ∧ f.imm = 0 ∧ VSpec.src d ∧ VSpec.src a ∧ VSpec.src b ∧ c = 0) (.bbisect d a b)
  | 0x03 =>
    decN f (f.mod = 0 ∧ f.imm = 0 ∧ VSpec.src d ∧ VSpec.src a ∧ VSpec.src b)
      (.bbmerge d a b (c.extractLsb' 0 3) (c.extractLsb' 3 3))
  | 0x04 => decN f (f.mod = 0 ∧ f.imm = 0 ∧ VSpec.src d ∧ VSpec.src a ∧ b = 0 ∧ c = 0) (.bbwalk d a)
  | _ => none

/-- Unit 9 (R296). -/
def decodeUnit9 (f : WWord) : Option Instr :=
  let d := f.vd; let a := f.va; let b := f.vb; let c := f.vc
  let h : BitVec 3 := f.imm.extractLsb' 0 3
  let hOk : Bool := f.imm.extractLsb' 3 13 = (0 : BitVec 13)
  let nb : BitVec 5 := f.imm.extractLsb' 3 5
  match f.op.toNat with
  | 0x00 =>
    decN f (f.mod = 0 ∧ d = 0 ∧ isG a ∧ isG b ∧ c = 0 ∧ 4 ≤ nb.toNat ∧ nb.toNat ≤ 16)
      (.sgproj h nb (f.imm.extractLsb' 8 8) (gOf a) (gOf b))
  | 0x01 => decN f (f.mod = 0 ∧ hOk ∧ isG d ∧ VSpec.src a ∧ isG b ∧ isG c) (.sgkey (gOf d) h a (gOf b) (gOf c))
  | 0x02 =>
    ifOk (f.form = 1 ∧ f.noMask ∧ f.mod = 0 ∧ hOk ∧ isG d ∧ VSpec.src a ∧ b = 0 ∧ c = 0) (.sgsig (gOf d) h a)
  | 0x03 => decN f (f.mod = 0 ∧ hOk ∧ VSpec.dst d ∧ VSpec.src a ∧ isG b ∧ c = 0) (.sggather d h a (gOf b))
  | 0x04 => decN f (f.mod = 0 ∧ hOk ∧ d = 0 ∧ a = 0 ∧ b = 0 ∧ c = 0)
      (match h.toNat with
        | 0 => .sgclr0 | 1 => .sgclr1 | 2 => .sgclr2 | 3 => .sgclr3
        | 4 => .sgclr4 | 5 => .sgclr5 | 6 => .sgclr6 | _ => .sgclr7)
  | _ => none

/-- Unit 10 (R218). -/
def decodeUnit10 (f : WWord) : Option Instr :=
  let d := f.vd; let a := f.va; let b := f.vb; let c := f.vc
  match f.op.toNat with
  | 0x00 => decM f (VSpec.dst d ∧ isG a ∧ b = 0 ∧ isM c ∧ f.mod = 0) (.hzld d (mOf c) (gOf a) f.imm)
  | 0x01 => decN f (isG d ∧ isG a ∧ isG b ∧ c = 0 ∧ f.imm = 0 ∧ f.mod = 0) (.hzrenew (gOf d) (gOf a) (gOf b))
  | 0x02 => decN f (isG d ∧ isG a ∧ b = 0 ∧ c = 0 ∧ f.mod = 0) (.hzage (gOf d) (gOf a) f.imm)
  | 0x03 => decN f (d = 0 ∧ isG a ∧ isG b ∧ c = 0 ∧ f.imm = 0 ∧ f.mod = 0) (.hzdrop (gOf a) (gOf b))
  | _ => none

/-- Unit 11 (R316). -/
def decodeUnit11 (f : WWord) : Option Instr :=
  match f.op.toNat with
  | 0x00 => decN f (isG f.vd ∧ isG f.va ∧ f.vb = 0 ∧ f.vc = 0 ∧ f.imm = 0 ∧ f.mod = 0) (.pub (gOf f.vd) (gOf f.va))
  | 0x01 =>
    decN f (isG f.vd ∧ isG f.va ∧ isG f.vb ∧ isG f.vc ∧ f.imm = 0 ∧ f.mod = 0)
      (.shsync (gOf f.vd) (gOf f.va) (gOf f.vb) (gOf f.vc))
  | _ => none

/-- Unit 12 (R140). -/
def decodeUnit12 (f : WWord) : Option Instr :=
  let gg : Bool := f.form = 1 && f.noMask && isG f.vd && isG f.va && f.vb = 0 && f.vc = 0 && f.imm = 0 && f.mod = 0
  match f.op.toNat with
  | 0x00 => ifOk gg (.vset (gOf f.vd) (gOf f.va))
  | 0x01 => ifOk gg (.vsetb (gOf f.vd) (gOf f.va))
  | 0x02 =>
    ifOk (f.form = 2 ∧ f.noMask ∧ f.vd = 0 ∧ f.va = 0 ∧ f.vb = 0 ∧ f.vc = 0 ∧ f.mod = 0 ∧ f.imm.toNat ≤ 2)
      (match f.imm.toNat with | 0 => .vdecl1 | 1 => .vdecl2 | _ => .vdecl4)
  | 0x03 => ifOk gg (.vcfg (gOf f.vd) (gOf f.va))
  | _ => none

/-- A class-10 word by its unit (R53). -/
def decodeWide (f : WWord) : Option Instr :=
  match f.unit.toNat with
  | 0 => decodeUnit0 f | 1 => decodeUnit1 f | 2 => decodeUnit2 f | 3 => decodeUnit3 f | 4 => decodeUnit4 f
  | 5 => decodeUnit5 f | 6 => decodeUnit6 f | 7 => decodeUnit7 f | 8 => decodeUnit8 f | 9 => decodeUnit9 f
  | 10 => decodeUnit10 f | 11 => decodeUnit11 f | 12 => decodeUnit12 f | _ => none

/-- The instruction of a word; the class bits [15:14] must be those of its length (R44). -/
def decode : Enc → Option Instr
  | .p16 w => if w.extractLsb' 14 2 = (1 : BitVec 2) then decodeCompact w else none
  | .p32 w =>
    if w.extractLsb' 14 2 = (0 : BitVec 2) then decodeScalar (SWord.ofBits w)
    else if w.extractLsb' 14 2 = (3 : BitVec 2) then decodeHeader w else none
  | .p64 w => if w.extractLsb' 14 2 = (2 : BitVec 2) then decodeWide (WWord.ofBits w) else none

/-! ## Bytes -/

/-- A little-endian number (R4). -/
def leNat : List Byte → Nat
  | [] => 0
  | b :: bs => b.toNat + 256 * leNat bs

/-- The length in bytes of a word whose first parcel is `p` (R44). -/
def wordLen (p : BitVec 16) : Nat :=
  match (p.extractLsb' 14 2).toNat with
  | 1 => 2 | 2 => 8 | _ => 4

/-- The word of `n` bytes with value `v`. -/
def encOf (n v : Nat) : Enc :=
  match n with
  | 2 => .p16 (BitVec.ofNat 16 v) | 8 => .p64 (BitVec.ofNat 64 v) | _ => .p32 (BitVec.ofNat 32 v)

/-- The word at the start of a byte string, if all its bytes are there. -/
def wordAt (bs : List Byte) : Option Enc :=
  match bs with
  | b0 :: b1 :: _ =>
    let n := wordLen (BitVec.ofNat 16 (leNat [b0, b1]))
    if n ≤ bs.length then some (encOf n (leNat (bs.take n))) else none
  | _ => none

/-- The instruction at the start of a byte string and the rest of the string. -/
def decodeBytes (bs : List Byte) : Option (Instr × List Byte) :=
  match wordAt bs with
  | some e => (decode e).map fun i => (i, bs.drop e.len)
  | none => none

/-- The `n` bytes of a number, least significant first. -/
def leBytes : Nat → Nat → List Byte
  | 0, _ => []
  | n + 1, v => BitVec.ofNat 8 v :: leBytes n (v / 256)

/-- The longest instruction, a convoy of six members, in bytes (R56). -/
def maxInstrBytes : Nat := 52

/-- The bytes of an instruction of the opcode table whose bits are `w`, zeros above `nbits`. -/
def tableBytes (nbits w : Nat) : List Byte := leBytes maxInstrBytes (w % 2 ^ nbits)

/-- The instruction this decoder reads from a row's bits. -/
def decodeTableWord (nbits w : Nat) : Option Instr := (decodeBytes (tableBytes nbits w)).map (·.1)

/-! ## The encoder, from the same tables -/

/-- A class-00 word of its fields. -/
def encS (maj : BitVec 4) (hi : BitVec 16) (d a : Reg) : Enc :=
  .p32 (SWord.toBits { hi := hi, d := d, a := a, maj := maj })

/-- The `reg` layout: b, function, d, a (R48). -/
def encReg (maj : BitVec 4) (fn : BitVec 11) (d a b : Reg) : Enc := encS maj (b ++ fn) d a

/-- The `short` layout: imm13, sub-operation (R48). -/
def encShort (maj : BitVec 4) (sub : BitVec 3) (d a : Reg) (imm : BitVec 13) : Enc := encS maj (imm ++ sub) d a

/-- The `long` layout: imm21 split over [31:16] and [8:4] (R48). -/
def encLong (maj : BitVec 4) (d : Reg) (imm : BitVec 21) : Enc :=
  encS maj (imm.extractLsb' 5 16) d (imm.extractLsb' 0 5)

/-- A register ALU word (R49). -/
def encAlu (op : BitVec 10) (d a b : Reg) : Enc := encReg 0 (0#1 ++ op) d a b

/-- A short-immediate word (R49): imm12 split over [31:27] and [22:16]. -/
def encImm (op : BitVec 3) (d a : Reg) (imm : BitVec 12) : Enc :=
  encReg 0 (1#1 ++ op ++ imm.extractLsb' 0 7) d a (imm.extractLsb' 7 5)

def bit1 (b : Bool) : BitVec 1 := if b then 1 else 0

/-- A scalar float word: `k` is [26:25] (R95). -/
def encFloat (op : BitVec 8) (dbl : Bool) (k : BitVec 2) (d a b : Reg) : Enc := encReg 9 (k ++ bit1 dbl ++ op) d a b

/-- An atomic (R311). -/
def encAmo (op : BitVec 8) (sz8 : Bool) (ord : BitVec 2) (d a b : Reg) : Enc := encReg 10 (ord ++ bit1 sz8 ++ op) d a b

/-- A system word: operation [31:28], operand [27:16] (R49). -/
def encSys (op : BitVec 4) (n : BitVec 12) (d a : Reg) : Enc := encS 11 (op ++ n) d a

/-- A fence (R309). -/
def encFence (kind scope : BitVec 2) : Enc := encShort 13 0 0 0 (0#9 ++ scope ++ kind)

/-- A compact parcel (R55). -/
def encC (op : BitVec 5) (vd vb : BitVec 4) (m : Bool) : Enc := .p16 (1#2 ++ op ++ vd ++ vb ++ bit1 m)

def encMask : VMask → BitVec 1 × BitVec 3
  | none => (0, 0)
  | some m => (1, m)

/-- A class-10 word of its fields (R51). -/
def encW (unit : BitVec 4) (op : BitVec 8) (form : BitVec 2) (vd va vb vc : BitVec 6) (imm : BitVec 16) (mod : BitVec 4)
    (m : VMask) : Enc :=
  .p64 (WWord.toBits
    { unit := unit, mod := mod, op := op, imm := imm, vb := vb, vc := vc, me := (encMask m).1, mreg := (encMask m).2,
      vd := vd, va := va, form := form })

/-- A `g` register in a 6-bit field. -/
def fG (r : Reg) : BitVec 6 := 0#1 ++ r
/-- A mask register in a 6-bit field. -/
def fM (m : BitVec 3) : BitVec 6 := 0#3 ++ m

/-- A member with a second source. -/
def encB (unit : BitVec 4) (op : BitVec 8) (vd va : BitVec 6) (b : VSrc) (vc : BitVec 6) (mod : BitVec 4) (m : VMask) : Enc :=
  match b with
  | .vv r => encW unit op 0 vd va r vc 0 mod m
  | .vs g => encW unit op 1 vd va (fG g) vc 0 mod m
  | .vi imm => encW unit op 2 vd va 0 vc imm mod m

/-- A unary member. -/
def enc1 (unit : BitVec 4) (op : BitVec 8) (vd va : BitVec 6) (m : VMask) : Enc := encW unit op 0 vd va 0 0 0 0 m


/-- The word of an instruction (R44-R57); an event has none. -/
def encode : Instr → Option Enc
  | .add d a b => some (encAlu 0x000 d a b)
  | .sub d a b => some (encAlu 0x001 d a b)
  | .and d a b => some (encAlu 0x002 d a b)
  | .or d a b => some (encAlu 0x003 d a b)
  | .xor d a b => some (encAlu 0x004 d a b)
  | .andn d a b => some (encAlu 0x005 d a b)
  | .orn d a b => some (encAlu 0x006 d a b)
  | .shl d a b => some (encAlu 0x007 d a b)
  | .shr d a b => some (encAlu 0x008 d a b)
  | .sar d a b => some (encAlu 0x009 d a b)
  | .rotl d a b => some (encAlu 0x00A d a b)
  | .clt d a b => some (encAlu 0x00B d a b)
  | .cltu d a b => some (encAlu 0x00C d a b)
  | .ceq d a b => some (encAlu 0x00D d a b)
  | .mul d a b => some (encAlu 0x010 d a b)
  | .mulh d a b => some (encAlu 0x011 d a b)
  | .mulhu d a b => some (encAlu 0x012 d a b)
  | .div d a b => some (encAlu 0x013 d a b)
  | .divu d a b => some (encAlu 0x014 d a b)
  | .mod d a b => some (encAlu 0x015 d a b)
  | .modu d a b => some (encAlu 0x016 d a b)
  | .min d a b => some (encAlu 0x018 d a b)
  | .max d a b => some (encAlu 0x019 d a b)
  | .minu d a b => some (encAlu 0x01A d a b)
  | .maxu d a b => some (encAlu 0x01B d a b)
  | .clz d a => some (encAlu 0x020 d a 0)
  | .ctz d a => some (encAlu 0x021 d a 0)
  | .pop d a => some (encAlu 0x022 d a 0)
  | .sext8 d a => some (encAlu 0x023 d a 0)
  | .sext16 d a => some (encAlu 0x024 d a 0)
  | .sext32 d a => some (encAlu 0x025 d a 0)
  | .zext32 d a => some (encAlu 0x026 d a 0)
  | .andi d a i => some (encImm 0 d a i)
  | .ori d a i => some (encImm 1 d a i)
  | .xori d a i => some (encImm 2 d a i)
  | .clti d a i => some (encImm 3 d a i)
  | .shli d a sh => some (encImm 4 d a (0#6 ++ sh))
  | .shri d a sh => some (encImm 5 d a (0#6 ++ sh))
  | .sari d a sh => some (encImm 6 d a (0#6 ++ sh))
  | .addi d a i => some (encS 1 i d a)
  | .ldb d a i => some (encShort 2 0 d a i)
  | .ldbu d a i => some (encShort 2 1 d a i)
  | .ldh d a i => some (encShort 2 2 d a i)
  | .ldhu d a i => some (encShort 2 3 d a i)
  | .ldw d a i => some (encShort 2 4 d a i)
  | .ldwu d a i => some (encShort 2 5 d a i)
  | .ldd d a i => some (encShort 2 6 d a i)
  | .stb r a i => some (encShort 3 0 r a i)
  | .sth r a i => some (encShort 3 2 r a i)
  | .stw r a i => some (encShort 3 4 r a i)
  | .std r a i => some (encShort 3 6 r a i)
  | .beq a b i => some (encShort 4 0 b a i)
  | .bne a b i => some (encShort 4 1 b a i)
  | .blt a b i => some (encShort 4 2 b a i)
  | .bge a b i => some (encShort 4 3 b a i)
  | .bltu a b i => some (encShort 4 4 b a i)
  | .bgeu a b i => some (encShort 4 5 b a i)
  | .jal d i => some (encLong 5 d i)
  | .jr d a i => some (encS 6 i d a)
  | .lih d i => some (encLong 7 d i)
  | .pcrel d i => some (encLong 8 d i)
  | .fadd z d a b => some (encFloat 0x00 z 0 d a b)
  | .fsub z d a b => some (encFloat 0x01 z 0 d a b)
  | .fmul z d a b => some (encFloat 0x02 z 0 d a b)
  | .fdiv z d a b => some (encFloat 0x03 z 0 d a b)
  | .fsqrt z d a => some (encFloat 0x04 z 0 d a 0)
  | .fma z d a b => some (encFloat 0x05 z 0 d a b)
  | .fmin z d a b => some (encFloat 0x06 z 0 d a b)
  | .fmax z d a b => some (encFloat 0x07 z 0 d a b)
  | .fceq z d a b => some (encFloat 0x08 z 0 d a b)
  | .fclt z d a b => some (encFloat 0x09 z 0 d a b)
  | .fcle z d a b => some (encFloat 0x0A z 0 d a b)
  | .fclass z d a => some (encFloat 0x0C z 0 d a 0)
  | .fcvtSize z d a => some (encFloat 0x0B z 0 d a 0)
  | .fcvtToFixed z d a f => some (encFloat 0x0B z 1 d a f)
  | .fcvtFromSigned z d a f => some (encFloat 0x0B z 2 d a f)
  | .fcvtFromUnsigned z d a f => some (encFloat 0x0B z 3 d a f)
  | .amoSwap z o d a b => some (encAmo 0x00 z o d a b)
  | .amoAdd z o d a b => some (encAmo 0x01 z o d a b)
  | .amoAnd z o d a b => some (encAmo 0x02 z o d a b)
  | .amoOr z o d a b => some (encAmo 0x03 z o d a b)
  | .amoXor z o d a b => some (encAmo 0x04 z o d a b)
  | .amoMin z o d a b => some (encAmo 0x05 z o d a b)
  | .amoMax z o d a b => some (encAmo 0x06 z o d a b)
  | .amoMinu z o d a b => some (encAmo 0x07 z o d a b)
  | .amoMaxu z o d a b => some (encAmo 0x08 z o d a b)
  | .amoCas z o d a b => some (encAmo 0x09 z o d a b)
  | .amoAddq o d a b => some (encAmo 0x0A true o d a b)
  | .sget d n => some (encSys 0 n d 0)
  | .sset n a => some (encSys 1 n 0 a)
  | .sswap d n a => some (encSys 2 n d a)
  | .trap n => some (encSys 8 (n ++ 0#2) 0 0)
  | .trapFwd => some (encSys 8 1 0 0)
  | .trapYld => some (encSys 8 2 0 0)
  | .trapRerun d a => some (encSys 8 3 d a)
  | .trapDispose d a => some (encSys 8 7 d a)
  | .tret => some (encSys 9 0 0 0)
  | .tretTask d a => some (encSys 9 0 d a)
  | .brkpt n => some (encSys 10 n 0 0)
  | .idle => some (encSys 11 0 0 0)
  | .qsend q a => some (encShort 12 0 0 a (0#11 ++ q))
  | .qrecv d q => some (encShort 12 1 d 0 (0#11 ++ q))
  | .qflag a => some (encShort 12 2 0 a 0)
  | .bqz i => some (encShort 12 3 0 0 i)
  | .bqnz i => some (encShort 12 4 0 0 i)
  | .spawn d a => some (encShort 12 5 d a 0)
  | .yield d => some (encShort 12 6 d 0 0)
  | .fenceAcquireCore => some (encFence 0 0)
  | .fenceAcquireCluster => some (encFence 0 1)
  | .fenceAcquireDevice => some (encFence 0 2)
  | .fenceAcquireSystem => some (encFence 0 3)
  | .fenceReleaseCore => some (encFence 1 0)
  | .fenceReleaseCluster => some (encFence 1 1)
  | .fenceReleaseDevice => some (encFence 1 2)
  | .fenceReleaseSystem => some (encFence 1 3)
  | .fenceFullCore => some (encFence 2 0)
  | .fenceFullCluster => some (encFence 2 1)
  | .fenceFullDevice => some (encFence 2 2)
  | .fenceFullSystem => some (encFence 2 3)
  | .lsync => some (encShort 13 1 0 0 0)
  | .bar id dev a => some (encShort 13 2 0 a (0#9 ++ bit1 dev ++ id))
  | .ldAcq sz sc d a => some (encShort 13 3 d a (0#9 ++ sc ++ sz))
  | .stRel sz sc r a => some (encShort 13 4 r a (0#9 ++ sc ++ sz))
  | .wmon sz sc t d a => some (encShort 13 5 d a (0#4 ++ t ++ sc ++ sz))
  | .cpy d a n => some (encReg 14 0 d a n)
  | .cwait d a n => some (encReg 14 1 d a n)
  | .cstat d w n => some (encReg 14 2 d w n)
  | .ccan d n => some (encReg 14 3 d 0 n)
  | .hint => some (encReg 15 0x400 0 0 0)
  | .cvh cnt ch u2 u3 u4 u5 u6 => some (.p32 (0#1 ++ u6 ++ u5 ++ u4 ++ u3 ++ u2 ++ 3#2 ++ 0#2 ++ cnt ++ ch ++ 0#4))
  | .cAdd d b m => some (encC 0 d b m)
  | .cSub d b m => some (encC 1 d b m)
  | .cMul d b m => some (encC 2 d b m)
  | .cFma d b m => some (encC 3 d b m)
  | .cMin d b m => some (encC 4 d b m)
  | .cMax d b m => some (encC 5 d b m)
  | .cAnd d b m => some (encC 6 d b m)
  | .cXor d b m => some (encC 7 d b m)
  | .cExp2 d b m => some (encC 8 d b m)
  | .cMv d b m => some (encC 9 d b m)
  | .vadd d a b m => some (encB 0 0x00 d a b 0 0 m)
  | .vsub d a b m => some (encB 0 0x01 d a b 0 0 m)
  | .vrsb d a b m => some (encB 0 0x02 d a b 0 0 m)
  | .vmin d a b m => some (encB 0 0x03 d a b 0 0 m)
  | .vmax d a b m => some (encB 0 0x04 d a b 0 0 m)
  | .vand d a b m => some (encB 0 0x05 d a b 0 0 m)
  | .vor d a b m => some (encB 0 0x06 d a b 0 0 m)
  | .vxor d a b m => some (encB 0 0x07 d a b 0 0 m)
  | .vandn d a b m => some (encB 0 0x08 d a b 0 0 m)
  | .vshl d a b m => some (encB 0 0x09 d a b 0 0 m)
  | .vshr d a b m => some (encB 0 0x0A d a b 0 0 m)
  | .vsar d a b m => some (encB 0 0x0B d a b 0 0 m)
  | .vabs d a m => some (enc1 0 0x0C d a m)
  | .vneg d a m => some (enc1 0 0x0D d a m)
  | .vclamp d a b c m => some (encB 0 0x0E d a b c 0 m)
  | .vcvt d a st m => some (encW 0 0x0F 0 d a 0 0 (0#9 ++ st) 0 m)
  | .vcvtSb d a st g m => some (encW 0 0x0F 1 d a (fG g) 0 (0#9 ++ st) 1 m)
  | .vscl d a b m => some (encB 0 0x10 d a b 0 0 m)
  | .vcmp md a b cond m => some (encB 0 0x11 (fM md) a b 0 cond m)
  | .vsel d a b mk => some (encW 0 0x12 0 d a b 0 0 0 (some mk))
  | .vmv d a m => some (enc1 0 0x13 d a m)
  | .vdup d b m => some (encB 0 0x14 d 0 b 0 0 m)
  | .vid d m => some (enc1 0 0x15 d 0 m)
  | .vmul d a b m => some (encB 1 0x00 d a b 0 0 m)
  | .vmulh d a b m => some (encB 1 0x01 d a b 0 0 m)
  | .vfma d a b m => some (encB 1 0x02 d a b 0 0 m)
  | .vfms d a b m => some (encB 1 0x03 d a b 0 0 m)
  | .vfnma d a b m => some (encB 1 0x04 d a b 0 0 m)
  | .vdiv d a b m => some (encB 2 0x00 d a b 0 0 m)
  | .vmod d a b m => some (encB 2 0x01 d a b 0 0 m)
  | .vsqrt d a m => some (enc1 2 0x02 d a m)
  | .vexp2 d a m => some (enc1 2 0x03 d a m)
  | .vlog2 d a m => some (enc1 2 0x04 d a m)
  | .vrcp d a m => some (enc1 2 0x05 d a m)
  | .vrsq d a m => some (enc1 2 0x06 d a m)
  | .vsinpi d a m => some (enc1 2 0x07 d a m)
  | .vcospi d a m => some (enc1 2 0x08 d a m)
  | .vtanh d a m => some (enc1 2 0x09 d a m)
  | .vsigm d a m => some (enc1 2 0x0A d a m)
  | .vgelu d a m => some (enc1 2 0x0B d a m)
  | .vsilu d a m => some (enc1 2 0x0C d a m)
  | .vld d a i m => some (encW 3 0 3 d (fG a) 0 0 i 0 m)
  | .vlds d a b i m => some (encW 3 1 3 d (fG a) (fG b) 0 i 0 m)
  | .vldx d a b iw sc m => some (encW 3 2 3 d (fG a) b 0 0 (0#1 ++ sc ++ bit1 iw) m)
  | .vldxC d b m => some (encW 3 3 3 d 0 b 0 0 0 m)
  | .vldff d a i m => some (encW 3 4 3 d (fG a) 0 0 i 0 m)
  | .vlsc b8 f a b c => some (encW 3 5 3 0 (fG a) (fG b) (fG c) (0#8 ++ f) (0#3 ++ bit1 b8) none)
  | .vldreg d a i => some (encW 3 6 3 d (fG a) 0 0 i 0 none)
  | .pref t a b i => some (encW 3 7 3 0 (fG a) (fG b) 0 i (0#2 ++ t) none)
  | .vst r a i m => some (encW 4 0 3 r (fG a) 0 0 i 0 m)
  | .vsts r a b i m => some (encW 4 1 3 r (fG a) (fG b) 0 i 0 m)
  | .vstx r a b iw sc m => some (encW 4 2 3 r (fG a) b 0 0 (0#1 ++ sc ++ bit1 iw) m)
  | .vstxC r b m => some (encW 4 3 3 r 0 b 0 0 0 m)
  | .vsadd r a b iw sc m => some (encW 4 4 3 r (fG a) b 0 0 (0#1 ++ sc ++ bit1 iw) m)
  | .vstreg r a i => some (encW 4 5 3 r (fG a) 0 0 i 0 none)
  | .vssc b8 f a b c => some (encW 4 6 3 0 (fG a) (fG b) (fG c) (0#8 ++ f) (0#3 ++ bit1 b8) none)
  | .vslup d a b m => some (encB 5 0 d a b 0 0 m)
  | .vsldn d a b m => some (encB 5 1 d a b 0 0 m)
  | .vperm d a b m => some (encW 5 0x02 0 d a b 0 0 0 m)
  | .vcomp d a mk => some (encW 5 0x03 0 d a 0 0 0 0 (some mk))
  | .vexpand d a mk => some (encW 5 0x04 0 d a 0 0 0 0 (some mk))
  | .viota d ms m => some (encW 5 0x05 0 d (fM ms) 0 0 0 0 m)
  | .vsum d a b m => some (encW 5 0x06 0 d a b 0 0 0 m)
  | .vmaxv d a b m => some (encW 5 0x07 0 d a b 0 0 0 m)
  | .vminv d a b m => some (encW 5 0x08 0 d a b 0 0 0 m)
  | .vandv d a b m => some (encW 5 0x09 0 d a b 0 0 0 m)
  | .vorv d a b m => some (encW 5 0x0A 0 d a b 0 0 0 m)
  | .vxorv d a b m => some (encW 5 0x0B 0 d a b 0 0 0 m)
  | .kand d a b => some (encW 5 0x0C 0 (fM d) (fM a) (fM b) 0 0 0 none)
  | .kor d a b => some (encW 5 0x0D 0 (fM d) (fM a) (fM b) 0 0 0 none)
  | .kxor d a b => some (encW 5 0x0E 0 (fM d) (fM a) (fM b) 0 0 0 none)
  | .knot d a => some (encW 5 0x0F 0 (fM d) (fM a) 0 0 0 0 none)
  | .kpop d a m => some (encW 5 0x10 0 (fG d) (fM a) 0 0 0 0 m)
  | .kfirst d a m => some (encW 5 0x11 0 (fG d) (fM a) 0 0 0 0 m)
  | .ksbf d a m => some (encW 5 0x12 0 (fM d) (fM a) 0 0 0 0 m)
  | .ksif d a m => some (encW 5 0x13 0 (fM d) (fM a) 0 0 0 0 m)
  | .kset mk a n => some (encW 5 0x14 2 (fM mk) (fG a) 0 0 (0#6 ++ n) 0 none)
  | .kget d ma n => some (encW 5 0x15 2 (fG d) (fM ma) 0 0 (0#6 ++ n) 0 none)
  | .zld d a b c => some (encW 6 0 3 d (fG a) (fG b) (fG c) 0 0 none)
  | .zst r a b c => some (encW 6 1 3 r (fG a) (fG b) (fG c) 0 0 none)
  | .zadd d a b => some (encB 6 0x02 d a b 0 0 none)
  | .zsub d a b => some (encB 6 0x03 d a b 0 0 none)
  | .zmul d a b => some (encB 6 0x04 d a b 0 0 none)
  | .zmin d a b => some (encB 6 0x05 d a b 0 0 none)
  | .zmax d a b => some (encB 6 0x06 d a b 0 0 none)
  | .zdec d a => some (encW 6 0x07 0 d a 0 0 0 0 none)
  | .zdecF d a => some (encW 6 0x07 0 d a 0 0 0 1 none)
  | .zenc d a => some (encW 6 0x08 0 d a 0 0 0 0 none)
  | .zencF d a => some (encW 6 0x08 0 d a 0 0 0 1 none)
  | .zscan d a => some (encW 6 0x09 0 d a 0 0 0 0 none)
  | .zcnt d a => some (encW 6 0x0A 0 (fG d) a 0 0 0 0 none)
  | .zsplice d a b c => some (encW 6 0x0B 0 d a b (fG c) 0 0 none)
  | .mxattach d a => some (encW 7 0 1 (fG d) (fG a) 0 0 0 0 none)
  | .mxdetach r => some (encW 7 1 2 0 0 0 0 (0#12 ++ r) 0 none)
  | .mxfmt x y => some (encW 7 2 2 0 0 0 0 (0#8 ++ y ++ x) 0 none)
  | .mxload t a b c => some (encW 7 3 3 0 (fG a) (fG b) (fG c) (0#14 ++ t) 0 none)
  | .mxmul z t acc s0 va b => some (encW 7 4 1 0 va (fG b) 0 (s0 ++ acc ++ t) (0#3 ++ bit1 z) none)
  | .mxgrp z acc s0 va b => some (encW 7 5 1 0 va (fG b) 0 (s0 ++ acc ++ 0#2) (0#3 ++ bit1 z) none)
  | .mxzero r => some (encW 7 6 2 0 0 0 0 (0#12 ++ r) 0 none)
  | .mxwait r => some (encW 7 7 2 0 0 0 0 (0#12 ++ r) 0 none)
  | .mxdrain t r0 fmt a b c m => some (encW 7 8 3 0 (fG a) (fG b) (fG c) (fmt ++ r0 ++ t) 0 m)
  | .mxdrainX t r0 fmt a vb c m => some (encW 7 8 3 0 (fG a) vb (fG c) (fmt ++ r0 ++ t) 1 m)
  | .mxsave a => some (encW 7 9 3 0 (fG a) 0 0 0 0 none)
  | .mxrest a => some (encW 7 0xA 3 0 (fG a) 0 0 0 0 none)
  | .bbset s fmt st a b c => some (encW 8 0 3 0 (fG a) (fG b) (fG c) (0#12 ++ bit1 st ++ fmt ++ bit1 s) 0 none)
  | .bbget d s => some (encW 8 1 3 (fG d) 0 0 0 (0#15 ++ bit1 s) 0 none)
  | .bbisect d a b => some (encW 8 2 3 d a b 0 0 0 none)
  | .bbmerge d a b x y => some (encW 8 3 3 d a b (y ++ x) 0 0 none)
  | .bbwalk d a => some (encW 8 4 3 d a 0 0 0 0 none)
  | .sgproj h nb d1 a g => some (encW 9 0 3 0 (fG a) (fG g) 0 (d1 ++ nb ++ h) 0 none)
  | .sgkey d h va b c => some (encW 9 1 3 (fG d) va (fG b) (fG c) (0#13 ++ h) 0 none)
  | .sgsig d h va => some (encW 9 2 1 (fG d) va 0 0 (0#13 ++ h) 0 none)
  | .sggather d h va b => some (encW 9 3 3 d va (fG b) 0 (0#13 ++ h) 0 none)
  | .sgclr0 => some (encW 9 4 3 0 0 0 0 0 0 none)
  | .sgclr1 => some (encW 9 4 3 0 0 0 0 1 0 none)
  | .sgclr2 => some (encW 9 4 3 0 0 0 0 2 0 none)
  | .sgclr3 => some (encW 9 4 3 0 0 0 0 3 0 none)
  | .sgclr4 => some (encW 9 4 3 0 0 0 0 4 0 none)
  | .sgclr5 => some (encW 9 4 3 0 0 0 0 5 0 none)
  | .sgclr6 => some (encW 9 4 3 0 0 0 0 6 0 none)
  | .sgclr7 => some (encW 9 4 3 0 0 0 0 7 0 none)
  | .hzld d md a i m => some (encW 10 0 3 d (fG a) 0 (fM md) i 0 m)
  | .hzrenew d a b => some (encW 10 1 3 (fG d) (fG a) (fG b) 0 0 0 none)
  | .hzage d a i => some (encW 10 2 3 (fG d) (fG a) 0 0 i 0 none)
  | .hzdrop a b => some (encW 10 3 3 0 (fG a) (fG b) 0 0 0 none)
  | .pub d a => some (encW 11 0 3 (fG d) (fG a) 0 0 0 0 none)
  | .shsync d a b c => some (encW 11 1 3 (fG d) (fG a) (fG b) (fG c) 0 0 none)
  | .vset d a => some (encW 12 0 1 (fG d) (fG a) 0 0 0 0 none)
  | .vsetb d a => some (encW 12 1 1 (fG d) (fG a) 0 0 0 0 none)
  | .vcfg d a => some (encW 12 3 1 (fG d) (fG a) 0 0 0 0 none)
  | .vdecl1 => some (encW 12 2 2 0 0 0 0 0 0 none)
  | .vdecl2 => some (encW 12 2 2 0 0 0 0 1 0 none)
  | .vdecl4 => some (encW 12 2 2 0 0 0 0 2 0 none)
  | .registerWrite | .lwpush | .placement | .preload | .segmentImageCopy | .preloadTimeout | .headBlocking
  | .boundTaskResume | .taskCompletion | .budgetOverrun | .codeObjectLoad | .unforcedUnload | .forcedUnload
  | .queueWake | .queueStall | .wmonWake | .wmonTimeout | .cwaitWake | .cwaitTimeout | .cpyAccept | .copyCompletion
  | .copyFaultStop | .missedPromise | .matrixCommandDone | .mxwaitDone | .hazeTileExpiry | .hazeJunctionLimit
  | .preEmptionRequest | .faultRecordDelivery | .singleStep | .debugStop | .throttleNotice | .resultConfirmation
  | .suspectReexecute | .traceHeadPublish | .xlheadPublish | .powerPointRequest | .railStepDone
  | .frequencySwitchDone | .currentClamp | .thermalForce | .thermalForceClear | .thermalCut | .railLimit
  | .heartbeatWatchdog | .firmwareHeartbeat | .firmwareUpdate | .powerOnReset | .bootFetch | .bootVerify | .quickTest
  | .clusterExtendedPass | .extendedTestFail | .bootStageFail | .hostBar2Write | .hostBar2Read | .hostAtomicop
  | .statusRw1cWrite | .hostCompletionTimeout | .cxlLinkDown | .storageError | .skeinMessage | .skeinLinkTrain
  | .lanepartWrite | .vshareWrite | .vskewWrite | .traceControlWrite | .shootdownStart | .shootdownComplete
  | .dbstopWrite | .acdataRead | .xlogControlWrite | .htlkWrite | .illegalInstruction | .instructionFetchFault
  | .currentClampClear | .skeinLinkDown | .handleGenerationAdvance | .hostHold => none

end Sys2Proof
end

