-- ==== Sys2Proof/Machine/Float.lean ====
section
/-!
DEFINITION. Floating-point formats, exact values and the one rounding (R108-R115). Flags are the five bits of `fflags`:
1 invalid, 2 divide by zero, 4 overflow, 8 underflow, 16 inexact (R93).
-/
namespace Sys2Proof.Machine

/-- Which specials a format has (R108). -/
inductive Special where
  | ieee          -- infinities and NaNs at the top exponent
  | e4m3          -- one NaN pattern, no infinities
  | none
  deriving DecidableEq, Repr

/-- A floating-point format: exponent and fraction bits. -/
structure Fmt where
  e : Nat
  m : Nat
  bias : Nat
  sp : Special
  deriving DecidableEq, Repr

def Fmt.b64 : Fmt := { e := 11, m := 52, bias := 1023, sp := .ieee }
def Fmt.b32 : Fmt := { e := 8, m := 23, bias := 127, sp := .ieee }
def Fmt.b16 : Fmt := { e := 5, m := 10, bias := 15, sp := .ieee }
def Fmt.bf16 : Fmt := { e := 8, m := 7, bias := 127, sp := .ieee }
def Fmt.e5m2 : Fmt := { e := 5, m := 2, bias := 15, sp := .ieee }
def Fmt.e4m3 : Fmt := { e := 4, m := 3, bias := 7, sp := .e4m3 }
def Fmt.e2m3 : Fmt := { e := 2, m := 3, bias := 1, sp := .none }
def Fmt.e3m2 : Fmt := { e := 3, m := 2, bias := 3, sp := .none }
def Fmt.e2m1 : Fmt := { e := 2, m := 1, bias := 1, sp := .none }

def Fmt.width (f : Fmt) : Nat := 1 + f.e + f.m

/-- An exact value. `num neg m e sticky` is ±(m + δ)·2^e with δ = 0, or 0 < δ < 1 when `sticky`; a sticky value has
at least 80 bits in `m`, so that every rounding is decided. -/
inductive Exact where
  | nan (sig : Bool)
  | inf (neg : Bool)
  | num (neg : Bool) (m : Nat) (e : Int) (sticky : Bool)
  deriving DecidableEq, Repr

def Exact.zero (neg : Bool) : Exact := .num neg 0 0 false
def Exact.ofInt (x : Int) : Exact := .num (decide (x < 0)) x.natAbs 0 false
/-- x · 2^e. -/
def Exact.ofIntE (x : Int) (e : Int) : Exact := .num (decide (x < 0)) x.natAbs e false

def Exact.isNan : Exact → Bool | .nan _ => true | _ => false
def Exact.isSig : Exact → Bool | .nan s => s | _ => false
def Exact.isInf : Exact → Bool | .inf _ => true | _ => false
def Exact.isZero : Exact → Bool | .num _ m _ st => m = 0 && !st | _ => false
def Exact.neg? : Exact → Bool | .nan _ => false | .inf n => n | .num n _ _ _ => n
def Exact.negate : Exact → Exact | .nan s => .nan s | .inf n => .inf !n | .num n m e st => .num (!n) m e st
def Exact.abs : Exact → Exact | .nan s => .nan s | .inf _ => .inf false | .num _ m e st => .num false m e st

/-- The canonical NaN's pattern; +0 in a format without NaN (R109). -/
def Fmt.nanBits (f : Fmt) : Nat :=
  match f.sp with
  | .ieee => (2 ^ f.e - 1) * 2 ^ f.m + 2 ^ (f.m - 1)
  | .e4m3 => 2 ^ (f.e + f.m) - 1
  | .none => 0

/-- The largest finite magnitude's pattern. -/
def Fmt.maxBits (f : Fmt) : Nat :=
  match f.sp with
  | .ieee => (2 ^ f.e - 1) * 2 ^ f.m - 1
  | .e4m3 => 2 ^ (f.e + f.m) - 2
  | .none => 2 ^ (f.e + f.m) - 1

def Fmt.infBits (f : Fmt) : Nat := (2 ^ f.e - 1) * 2 ^ f.m
def Fmt.signBit (f : Fmt) (neg : Bool) : Nat := if neg then 2 ^ (f.e + f.m) else 0

/-- The value a pattern denotes (R108, R109). -/
def Fmt.decode (f : Fmt) (x : Nat) : Exact :=
  let neg := nbit x (f.e + f.m)
  let ex := nbits x f.m f.e
  let fr := nbits x 0 f.m
  let fin : Exact :=
    if ex = 0 then .num neg fr (1 - (f.bias : Int) - f.m) false
    else .num neg (2 ^ f.m + fr) ((ex : Int) - f.bias - f.m) false
  match f.sp with
  | .ieee => if ex = 2 ^ f.e - 1 then (if fr = 0 then .inf neg else .nan (!nbit fr (f.m - 1))) else fin
  | .e4m3 => if ex = 15 && fr = 7 then .nan false else fin
  | .none => fin

/-- Whether a magnitude n + frac rounds away from n: `half` compares frac with one half (R111). -/
def roundUp (rm : Nat) (neg : Bool) (n : Nat) (half : Ordering) (exact : Bool) : Bool :=
  if exact then false else
  match rm with
  | 0 => (match half with | .gt => true | .eq => n % 2 = 1 | .lt => false)
  | 1 => false
  | 2 => neg
  | 3 => !neg
  | _ => (match half with | .lt => false | _ => true)

/-- (m + δ)·2^e as a multiple of 2^q, rounded, and whether that was inexact. -/
def roundAt (rm : Nat) (neg : Bool) (m : Nat) (e q : Int) (sticky : Bool) : Nat × Bool :=
  if q ≤ e then
    let n := m <<< (e - q).toNat
    (if roundUp rm neg n .lt (!sticky) then n + 1 else n, sticky)
  else
    let k := (q - e).toNat
    let n := m >>> k
    let r := m % 2 ^ k
    let half := 2 ^ (k - 1)
    let ord := if r < half then Ordering.lt else if r > half || sticky then .gt else .eq
    let exact := r = 0 && !sticky
    (if roundUp rm neg n ord exact then n + 1 else n, !exact)

/-- The result of an overflow (R113). -/
def Fmt.overflow (f : Fmt) (rm : Nat) (sat neg : Bool) : Nat :=
  f.signBit neg +
  match f.sp with
  | .ieee =>
    if sat then f.maxBits
    else if rm = 0 || rm = 4 || (rm = 2 && neg) || (rm = 3 && !neg) then f.infBits else f.maxBits
  | .e4m3 => if sat then f.maxBits else f.nanBits
  | .none => f.maxBits

/-- `round_to`: an exact value rounded once into a format, with the flags it raises (R111-R115). -/
def Fmt.round (f : Fmt) (rm : Nat) (sat : Bool) (x : Exact) : Nat × Nat :=
  match x with
  | .nan sig =>
    match f.sp with
    | .none => (0, 1)
    | _ => (f.nanBits, if sig then 1 else 0)
  | .inf neg =>
    match f.sp with
    | .ieee => (f.signBit neg + f.infBits, 0)
    | .e4m3 => if sat then (f.signBit neg + f.maxBits, 0) else (f.nanBits, 0)
    | .none => (f.signBit neg + f.maxBits, 1)
  | .num neg m e st =>
    if m = 0 && !st then (f.signBit neg, 0) else
    let top : Int := (m.log2 : Int) + e
    let emin : Int := 1 - (f.bias : Int)
    let qU : Int := top - f.m
    let q := max qU (emin - f.m)
    let (n, inex) := roundAt rm neg m e q st
    let bits := (q - (emin - f.m)).toNat * 2 ^ f.m + n
    if f.maxBits < bits then
      let r := f.overflow rm sat neg
      -- an E4M3 NaN carries no sign (R109)
      (if f.sp = .e4m3 && !sat then f.nanBits else r, 4 + 16)
    else
      let (nU, _) := roundAt rm neg m e qU st
      let tiny := top < emin - 1 || (top < emin && nU < 2 ^ (f.m + 1))
      (f.signBit neg + bits, (if inex then 16 else 0) + (if inex && tiny then 8 else 0))

/-- An exact value rounded to an integer, and whether that was inexact (R111). -/
def Exact.toInt (rm : Nat) (neg : Bool) (m : Nat) (e : Int) (st : Bool) : Int × Bool :=
  let (n, inex) := roundAt rm neg m e 0 st
  (if neg then -(n : Int) else n, inex)

/-- Bounds of an integer type of w bits. -/
def intMin (signed : Bool) (w : Nat) : Int := if signed then -(2 ^ (w - 1) : Nat) else 0
def intMax (signed : Bool) (w : Nat) : Int := if signed then (2 ^ (w - 1) : Nat) - 1 else (2 ^ w : Nat) - 1

/-- Clamped to the bounds. -/
def clampInt (signed : Bool) (w : Nat) (x : Int) : Int :=
  if x < intMin signed w then intMin signed w else if intMax signed w < x then intMax signed w else x

/-- A floating-point value narrowed to an integer of w bits (R113, R114): the pattern and the flags. -/
def roundInt (signed : Bool) (w rm : Nat) (x : Exact) : Nat × Nat :=
  match x with
  | .nan _ => (0, 1)
  | .inf neg => (wrapN w (if neg then intMin signed w else intMax signed w), 1)
  | .num neg m e st =>
    let (v, inex) := Exact.toInt rm neg m e st
    let c := clampInt signed w v
    if c ≠ v then (wrapN w c, 1) else (wrapN w v, if inex then 16 else 0)

/-! ## Exact arithmetic -/

/-- The signed significand. -/
def sgn (neg : Bool) (m : Nat) : Int := if neg then -(m : Int) else m

/-- The sum of two exact finite values; an exact zero takes the sign R111 gives. -/
def addNum (rm : Nat) (na : Bool) (ma : Nat) (ea : Int) (nb : Bool) (mb : Nat) (eb : Int) : Exact :=
  if ma = 0 && mb = 0 then .num (if na = nb then na else rm = 2) 0 0 false else
  let e := min ea eb
  let v := sgn na (ma <<< (ea - e).toNat) + sgn nb (mb <<< (eb - e).toNat)
  if v = 0 then .num (rm = 2) 0 0 false else .ofIntE v e

/-- Addition: the exact sum and the flags (R94, R114). -/
def Exact.add (rm : Nat) (a b : Exact) : Exact × Nat :=
  match a, b with
  | .nan s, y => (.nan false, if s || y.isSig then 1 else 0)
  | _, .nan s => (.nan false, if s then 1 else 0)
  | .inf n, .inf k => if n = k then (.inf n, 0) else (.nan false, 1)
  | .inf n, _ => (.inf n, 0)
  | _, .inf n => (.inf n, 0)
  | .num na ma ea _, .num nb mb eb _ => (addNum rm na ma ea nb mb eb, 0)

/-- Multiplication. -/
def Exact.mul (a b : Exact) : Exact × Nat :=
  match a, b with
  | .nan s, y => (.nan false, if s || y.isSig then 1 else 0)
  | _, .nan s => (.nan false, if s then 1 else 0)
  | .inf n, y => if y.isZero then (.nan false, 1) else (.inf (n != y.neg?), 0)
  | x, .inf n => if x.isZero then (.nan false, 1) else (.inf (x.neg? != n), 0)
  | .num na ma ea sa, .num nb mb eb sb => (.num (na != nb) (ma * mb) (ea + eb) (sa || sb), 0)

/-- The quotient of two magnitudes to at least 130 bits with a sticky remainder. A sticky dividend keeps its bits: the
floor of (m + δ)/n is that of m/n. -/
def divNum (ma : Nat) (ea : Int) (sa : Bool) (mb : Nat) (eb : Int) : Nat × Int × Bool :=
  let k := if sa then 0 else 130 + mb.log2 - ma.log2
  let n := ma <<< k
  (n / mb, ea - eb - k, n % mb ≠ 0 || sa)

/-- Division. -/
def Exact.div (a b : Exact) : Exact × Nat :=
  match a, b with
  | .nan s, y => (.nan false, if s || y.isSig then 1 else 0)
  | _, .nan s => (.nan false, if s then 1 else 0)
  | .inf n, y => if y.isInf then (.nan false, 1) else (.inf (n != y.neg?), 0)
  | x, .inf n => (.zero (x.neg? != n), 0)
  | .num na ma ea sa, .num nb mb eb _ =>
    if mb = 0 then (if ma = 0 && !sa then (.nan false, 1) else (.inf (na != nb), 2))
    else if ma = 0 && !sa then (.zero (na != nb), 0)
    else
      let (m, e, st) := divNum ma ea sa mb eb
      (.num (na != nb) m e st, 0)

/-- ⌊√n⌋ by its bits from the k-th down. -/
def isqrtFrom : Nat → Nat → Nat → Nat
  | 0, _, r => r
  | k + 1, n, r => isqrtFrom k n (if (r + 2 ^ k) * (r + 2 ^ k) ≤ n then r + 2 ^ k else r)

def isqrt (n : Nat) : Nat := isqrtFrom (n.log2 / 2 + 1) n 0

/-- The square root of m·2^e to at least 130 bits. -/
def sqrtNum (m : Nat) (e : Int) : Nat × Int × Bool :=
  let k := 262 - m.log2
  let k := if (e - k) % 2 = 0 then k else k + 1
  let n := m <<< k
  let r := isqrt n
  (r, (e - k) / 2, r * r ≠ n)

/-- Square root (R94). -/
def Exact.sqrt (a : Exact) : Exact × Nat :=
  match a with
  | .nan s => (.nan false, if s then 1 else 0)
  | .inf n => if n then (.nan false, 1) else (.inf false, 0)
  | .num n m e _ =>
    if m = 0 then (.zero n, 0) else if n then (.nan false, 1) else
    let (r, e', st) := sqrtNum m e
    (.num false r e' st, 0)

/-- a × b + c, formed exactly (R94). ∞ × 0 raises NV even beside a quiet NaN: R160 states it of the vector members;
DESIGN CHOICE (log 47) for the scalar `fma`, where R94 leaves IEEE 754-2019's option open. -/
def Exact.fma (rm : Nat) (a b c : Exact) : Exact × Nat :=
  let (p, f1) := a.mul b
  let (r, f2) := p.add rm c
  (r, f1 ||| f2 ||| (if c.isSig then 1 else 0))

/-- The order of two values that are not NaN, −0 equal to +0. -/
def Exact.cmp (a b : Exact) : Ordering :=
  match a, b with
  | .inf n, .inf k => if n = k then .eq else if n then .lt else .gt
  | .inf n, _ => if n then .lt else .gt
  | _, .inf n => if n then .gt else .lt
  | .num na ma ea _, .num nb mb eb _ =>
    let e := min ea eb
    compare (sgn na (ma <<< (ea - e).toNat)) (sgn nb (mb <<< (eb - e).toNat))
  | _, _ => .eq

/-- The order of two values that are not NaN, −0 below +0 (R110). -/
def Exact.order (a b : Exact) : Ordering :=
  match a.cmp b with
  | .eq => if a.neg? = b.neg? then .eq else if a.neg? then .lt else .gt
  | o => o

/-- Comparisons: the result and the flags. The equality compare raises only for signalling NaNs and takes zeros of
opposite sign as equal; the others raise for any NaN and take −0 as less than +0 (R94, R110). -/
def Exact.compare (a b : Exact) (equality : Bool) (p : Ordering → Bool) : Bool × Nat :=
  if a.isNan || b.isNan then (false, if !equality || a.isSig || b.isSig then 1 else 0)
  else (p (if equality then a.cmp b else a.order b), 0)

/-- A value without the sign of its zero. -/
def Exact.plainZero (x : Exact) : Exact := match x with | .num _ 0 _ st => .num false 0 0 st | y => y

/-- Which of two values is the smaller, −0 below +0 (R110). -/
def Exact.below (a b : Exact) : Bool := a.order b = .lt

/-- minimumNumber and maximumNumber (R94, R110). -/
def Exact.minMax (isMax : Bool) (a b : Exact) : Exact × Nat :=
  let f := if a.isSig || b.isSig then 1 else 0
  if a.isNan && b.isNan then (.nan false, f)
  else if a.isNan then (b, f)
  else if b.isNan then (a, f)
  else (if (a.below b) != isMax then a else b, f)

/-- `fclass` of a pattern (R94). -/
def Fmt.classOf (f : Fmt) (x : Nat) : Nat :=
  let ex := nbits x f.m f.e
  match f.decode x with
  | .nan s => if s then 256 else 512
  | .inf n => if n then 1 else 128
  | .num n m _ _ =>
    if m = 0 then (if n then 8 else 16)
    else if ex = 0 then (if n then 4 else 32)
    else (if n then 2 else 64)

end Sys2Proof.Machine
end

