-- ==== Sys2Proof/Machine/State.lean ====
section
/-!
DEFINITION. The state of the whole device (INVENTORY.md, State), its faults and refusals, and the state after reset.
Hart number h = 8 × cluster + 2 × core + slot; core number k = 4 × cluster + core.
DESIGN CHOICE: logs 1, 9, 10.
-/
namespace Sys2Proof.Machine

/-- Why the machine stops for good. -/
inductive Fault where
  /-- Raised by `step` when a hart is asked to move after package power was removed (R366) and no power-on reset has
  come. Safe: nothing executes on an unpowered package. -/
  | powerRemoved
  deriving DecidableEq, Repr

/-- Why an instruction has no meaning here. -/
inductive Refusal where
  /-- Raised by an arm of `exec` for an instruction without a meaning yet. Safe. -/
  | notModelled (mnemonic : String)
  deriving DecidableEq, Repr

/-- A byte store the address map leads to (R192, R205, R211). Scratchpad offsets count through the device's cores
(512 KiB each), Haze offsets through its clusters (4 MiB each). -/
inductive Target where
  | phys (cls pa : Nat)
  | spad (off : Nat)
  | haze (off : Nat)
  | pub (index off : Nat)
  deriving DecidableEq, Repr

/-- Where a load that performs after its issue puts what it reads: a `g` register, by its number, sign-extended or not
(R92), or `width` bits at `bit` of a vector register (R142), which the result file has taken `shifts` times (R141), or an entry of the
scale file (R224). -/
inductive LateDst where
  | g (r : Nat) (signed : Bool)
  | v (r bit width shifts : Nat)
  | scale (i : Nat)
  deriving DecidableEq, Repr

/-- A load of `n` bytes still to perform; its value is the `width` bits from bit `sh` of them. An element of `hzld` has its
mask register and its number there: an expired tile gives it zero and the bit 0 (R229). -/
structure LateLoad where
  dst : LateDst
  n : Nat
  sh : Nat
  width : Nat
  hz : Option (Nat × Nat) := none
  deriving DecidableEq, Repr

/-- How a `vsadd` adds: the kind and width of its elements and the rounding in force at issue (R222, R223). -/
structure AddFmt where
  kind : Nat
  ew : Nat
  rm : Nat
  deriving DecidableEq, Repr

/-- A store handed to its slice and not yet performed (R348), or a load that performs late (`ld`, R381). `mask` is empty
when every bit is written; `kept` holds the bytes a masked store found before it writes, once it has read them (R213, R184),
at tick `keptAt`. With `add` the bytes are a sum that one atomic access adds to what it finds (R223).
The stores of one access group have one nonzero `group` and perform together (R196, R197); 0 is a group of one. -/
structure QStore where
  slice : Nat
  group : Nat
  /-- the release write of `st.rel` or of a release fence (R310, R358) -/
  rel : Bool
  tgt : Target
  va : Nat
  bytes : List Byte
  mask : List Byte
  whole : Option Nat
  ld : Option LateLoad := none
  kept : List Byte := []
  keptAt : Nat := 0
  add : Option AddFmt := none
  deriving DecidableEq, Repr

/-- Trap and status registers (R101, R322, R323, R93). -/
structure TrapRegs where
  xcause : Word
  xpc : Word
  xval : Word
  xvec : Word
  xsave : Word
  hl : Bool
  ss : Bool
  tne : Bool
  ppend : Bool
  est : Word
  ecm : Word
  fmode : BitVec 9
  fflags : BitVec 5
  retcnt : Word
  deriving DecidableEq, Repr

/-- `dirty` (R328). -/
structure Dirty where
  von : Bool
  mon : Bool
  dv : Bool
  dm : Bool
  db : Bool
  ds : Bool
  dc : Bool
  deriving DecidableEq, Repr

/-- Vector state (R128-R139, R116). Registers 0-31 are `v`, 32-39 `o`, 40-41 `l`. -/
structure VecState where
  vtype : Word
  vl : Word
  vlb : Word
  pend : BitVec 2
  cur : BitVec 2
  strip : Word
  stripaddr : Word
  regs : Vector VReg 42
  tags : Vector (BitVec 3) 42
  sel : BitVec 2
  masks : Vector MReg 8
  scale : Vector (BitVec 16) 256
  deriving DecidableEq, Repr

/-- Asynchronous causes held for the hart (R324); pre-emption is `ppend`, missed promises are the hart's `dues`, and a
machine check and an overrun are taken as they arise. -/
structure Pending where
  step : Bool
  throttle : Option Word
  debug : Bool
  deriving DecidableEq, Repr

/-- A copy command as accepted (R240): the block, the captured backings, sizes and phase. -/
structure CopyCmd where
  block : List Word
  size : Nat
  src : Option (Nat × Nat)
  dst : Option (Nat × Nat)
  index : Nat
  gen : Nat
  phase : Bool
  rcb : Nat
  core : Nat
  bytes : Nat
  seq : Nat
  pos : Nat
  /-- the elements whose writes are issued and not yet performed, in no order (R383): their pieces' places, bytes, bit masks -/
  pend : List (List (Target × List Byte × List Byte))
  /-- tiles the command has filled so far that a later element writes again, and when (R202) -/
  fills : Table Nat
  deriving DecidableEq, Repr

/-- A copy slot (R248). -/
structure CopySlot where
  status : Word
  faddr : Word
  moved : Nat
  promise : Nat
  exempt : Bool
  cmd : Option CopyCmd
  deriving DecidableEq, Repr

/-- What a waiting hart waits for. `since` is the tick the wait began, `queue` the code of R100 (16 added when
writing), `mark` what the instruction recorded when it began to wait. -/
structure WaitRec where
  instr : Instr
  since : Nat
  queue : Option Nat
  mark : Nat
  deriving DecidableEq, Repr

/-- What a hart slot is doing. -/
inductive Run where
  | empty                   -- no hart here
  | running
  | waiting (w : WaitRec)
  | stopped                 -- switched out or forwarded (R327, R332)
  | ended                   -- executed `idle` (R343)
  deriving DecidableEq, Repr

/-- A hart (R83, R101, "What a placed hart carries"). -/
structure Hart where
  run : Run
  rcb : Nat
  pc : Word
  g : Vector Word 32
  vec : VecState
  tr : TrapRegs
  dirty : Dirty
  gcnt : Word
  gsa : Word
  gsb : Word
  gsd : Word
  zseed : Word
  mxcfg : Word
  bob : Vector Word 8
  sig : Vector Word 16
  slots : Vector CopySlot 4
  /-- missed promises not yet taken, oldest first: the slot and the task (R247) -/
  dues : List (Nat × Nat)
  stores : List QStore
  pending : Pending
  /-- single step armed by `tret` (R341) -/
  stepArm : Bool
  /-- the pending pre-emption request has been taken as cause 16 and its handler runs (R332) -/
  ptaken : Bool
  /-- the next instruction resumes at (`est`, `ecm`) after a return (R59, R335) -/
  resuming : Bool
  /-- the element at which the current instruction is to stop (pre-emption, R334; convoys, R59) -/
  lim : Option Nat
  /-- suspect executions in a row and of which (pc, element) (R350) -/
  suspects : Nat
  suspectAt : Nat × Nat
  /-- the lane group of the last failing check (R350) -/
  suspectLane : Nat
  /-- the cycle of the last result the hart computed (R348) -/
  lastAt : Nat
  /-- tick of the last throttle notice (R337) -/
  lastNotice : Option Nat
  /-- digest and byte count of each slice's performed stores since the last hash (R360), by slice -/
  digest : Table (BitVec 64 × Nat)
  /-- words of its image that an interrupted `mxrest` has read (R274, R335) -/
  rest : List Nat
  /-- a release fence stands before the next write (R309, R358) -/
  relFence : Bool
  /-- the element the present run of the vector instruction started at, and the masks it found (R144, R356) -/
  runFrom : Nat
  runMasks : Vector MReg 8
  /-- inside a convoy, the pipe records of the chained members so far: type and fields (R356) -/
  pipes : Option (List (Nat × Nat))
  /-- the vector store that `est` stands in has trapped part-way (R220) -/
  cut : Bool
  /-- lane groups gated since an earlier strip (R147) -/
  gated : BitVec 8
  deriving DecidableEq, Repr

/-- A register image in a vector queue (R99). -/
structure VqImage where
  bits : VReg
  tag : BitVec 3
  deriving DecidableEq, Repr

/-- A projection slot (R290). -/
structure Proj where
  loaded : Bool
  b : Nat
  d : Nat
  base : Word
  pitch : Word
  rows : List (List (BitVec 16))
  deriving DecidableEq, Repr

/-- A core: the split queues of its task (R97), what the other entries of the vector queues' storage hold, the next to be
filled first, none where nothing has filled one (R346), and the projection slots (R290). -/
structure Core where
  sq : Vector (List Word) 4
  bq : List Bool
  vq : Vector (List VqImage) 4
  part : Vector (Option VqImage) 4
  left : Vector (List (Option VReg)) 4
  proj : Vector Proj 8
  /-- the task the slots were loaded by -/
  owner : Nat
  deriving DecidableEq, Repr

/-- What a matrix command does to its row (R261). -/
inductive MxOp where
  | zero
  /-- columns `start`, `start` + 1, … with their scale bytes, and the band scales read with them -/
  | load (start : Nat) (cols : List (List Nat × List Nat)) (bands : Table Nat) (fmt : Nat)
  /-- A rows by number, each with its elements and scale entries -/
  | mul (z : Bool) (acc0 : Nat) (rows : List (Nat × List Nat × List Nat)) (afmt bfmt : Nat)
  deriving DecidableEq, Repr

/-- A command of a hart. `before` counts the entries of each of the core's queues that were sent before it and not yet
received; it is `seen` once its partner has received one sent after it (R261). -/
structure MxCmd where
  hart : Nat
  op : MxOp
  before : List Nat
  seen : Bool
  deriving DecidableEq, Repr

/-- A tile row (R253): panel and scales by column, accumulators by row; what is missing reads zero. `landed` is the
format of the panel that has landed, `fmt` and `loaded` are the record's. -/
structure TileRow where
  holder : Option Nat
  panel : Table (List Nat × List Nat)
  bands : Table Nat
  landed : Nat
  acc : Table (List Nat)
  isInt : Bool
  base : Word
  pitch : Word
  sbase : Word
  fmt : BitVec 4
  loaded : Bool
  cmds : List MxCmd
  deriving DecidableEq, Repr

/-- A barrier (R313). -/
structure Barrier where
  count : Nat
  target : Nat
  release : Nat
  deriving DecidableEq, Repr

/-- Counter block of a hart slot (R353). -/
structure Counters where
  kret : Nat
  kstrip : Nat
  kredo : Nat
  kresid : Nat
  kdroop : Nat
  kshuf : Nat
  kskip : Nat
  kwake : Nat
  deriving DecidableEq, Repr

/-- Trace control and position (R352-R355). `sent` is `head` + `drop` as last published, at tick `sentAt` (R354). -/
structure Trace where
  w0 : Word
  w1 : Word
  head : Nat
  drop : Nat
  lost : Bool
  prev : Option Nat
  sent : Nat
  sentAt : Nat
  deriving DecidableEq, Repr

/-- A shootdown started: address space, first virtual address, pages (0: all) (R209, R379). -/
structure Shootdown where
  asn : Nat
  va : Nat
  pages : Nat
  deriving DecidableEq, Repr

/-- A cluster. `births` holds tile birth ticks (R201), `credit` the arbitration credits (R74). -/
structure Cluster where
  own : BitVec 16
  asg : BitVec 8
  vshare : BitVec 16
  vskew : BitVec 4
  credit : Table Int
  bars : Vector Barrier 8
  births : Table (Option Nat)
  rows : Vector TileRow 4
  trace : Trace
  counters : Vector Counters 8
  sdasn : BitVec 16
  sdva : Word
  sdlen : BitVec 48
  /-- shootdowns started and not complete, oldest first; `sdgo` reads 1 while there is one -/
  sdq : List Shootdown
  dbslot : BitVec 3
  dbstrip : Word
  dbarm : Bool
  acsel : BitVec 17
  acdata : BitVec 32
  deriving DecidableEq, Repr

/-- An entry of a priority queue (R66); `passed` is the tick from which it has been passed over as a head, `blocking`
whether it blocks (R67). -/
structure QEntry where
  rcb : Nat
  passed : Option Nat
  blocking : Bool
  deriving DecidableEq, Repr

/-- A die: launch window (R61) and queues (R66). -/
structure Die where
  lwcount : Word
  lwreject : Word
  lwlast : Word
  queues : Vector (List QEntry) 16
  deriving DecidableEq, Repr

/-- A task's effective values (R12). -/
structure EffVals where
  split : Bool
  prio : Nat
  decl : Nat
  lgreq : Nat
  fdom : Nat
  fzen : Bool
  fzidx : Nat
  fhandler : Nat
  ptroot : Nat
  code : Nat
  entry : Nat
  entry2 : Nat
  arg : Nat
  segs : Nat
  preSegs : Nat
  segimg : Nat
  done : Nat
  chain : List Nat
  /-- `bcyc` and `bres` of each region of the chain, as read at enqueue or placement (R13, R15) -/
  limits : List (Nat × Nat)
  deriving DecidableEq, Repr

/-- What is kept of a stopped hart's context beside its image: its resume PC and `xpc` (R28), `est` and `ecm` (R326), and
whether the store it resumes in has trapped (R220). -/
structure Saved where
  pc : Nat
  xpc : Nat
  est : Word
  ecm : Word
  cut : Bool
  deriving DecidableEq, Repr

/-- Where a live task stands (R66-R79, R327, R336). -/
inductive Phase where
  | queued
  | preloaded
  | placed             -- on its core, segment images still to copy (R69)
  | running
  | bound              -- pre-empted, bound to its core (R68)
  | forwarded          -- stopped by a forward (R327)
  | orphaned           -- its code was unloaded (R30)
  | rerun              -- ordered to run again, and joins its queue as the preload of its core starts (R77)
  deriving DecidableEq, Repr

/-- A live task. -/
structure Task where
  eff : EffVals
  phase : Phase
  die : Nat
  core : Nat
  segs : Nat
  hzBase : Nat
  hzTiles : Nat
  /-- segments of the preload mask not yet copied (R76) -/
  toCopy : Nat
  inst : Nat
  placedAt : Nat
  preAt : Nat
  /-- the cycle from which running cycles are not yet charged (R78) -/
  since : Nat
  /-- where each stopped hart's context image lies and its kind: 0 none, 1 partial, 2 full (R331, R333), by slot -/
  image : Table (Nat × Nat)
  /-- yielding by `yield`: counts one priority lower while bound (R104) -/
  lower : Bool
  /-- the projection slots as they stood when the task last left its core (R290) -/
  proj : List Proj
  /-- matrix flags of commands that landed while their hart was switched out, by slot (R255, R261) -/
  mflags : Table Nat
  /-- an orphan whose record with cause 27 has been delivered at its resumption, or that nothing resumes (R336) -/
  notified : Bool
  /-- what is kept of each stopped hart's context, by slot -/
  saved : Table Saved
  /-- asynchronous causes held when a hart stopped, by slot (R324) -/
  held : Table Pending
  /-- words read by an interrupted `mxrest` of a stopped hart, by slot (R335) -/
  rest : Table (List Nat)
  /-- the declaration in force when it left its core (R132, R333) -/
  decl : BitVec 2
  /-- it was running when its code object's forced unload began, and does not complete (R31) -/
  dying : Bool
  /-- harts that have ended, bit by slot (R70) -/
  ended : BitVec 2
  /-- a preload that was a blocking head: it blocks until it is placed or rejected (R67) -/
  blocks : Bool
  /-- the core of the forwarded trap that started this handler task (R77) -/
  claim : Option Nat
  deriving DecidableEq, Repr

/-- One relocated copy of a code object's code sections (R25). -/
structure Inst where
  vbits : Nat
  addrs : List (Nat × Nat)
  used : Nat
  deriving DecidableEq, Repr

/-- A code object handle index (R24-R30). -/
structure CodeObj where
  gen : Nat
  loaded : Bool
  fxo : List Byte
  data : List (Nat × Nat)
  shared : Option (List (Nat × Nat))
  insts : List Inst
  holds : Nat
  /-- a forced unload has begun and waits for harts to stop (R30) -/
  unloading : Bool
  deriving DecidableEq, Repr

/-- A 64 KiB page of the code range that the runtime maps in every region's page tables, or, `kept` false, has unmapped
there (R25, R30). -/
structure CodePage where
  pa : Nat
  write : Bool
  exec : Bool
  kept : Bool := true
  deriving DecidableEq, Repr

/-- A cached translation (R209). -/
structure TlbEntry where
  cluster : Nat
  asn : Nat
  vpage : Nat
  block : Bool
  leafAt : Nat
  leaf : Nat
  deriving DecidableEq, Repr

/-- Device status block (R373), without what the sequencer holds. -/
structure Status where
  bstate : BitVec 4
  fwst : BitVec 2
  fwd : Bool
  fth : Bool
  clamp : Bool
  hzlim : BitVec 2
  ttrip : Bool
  dclus : BitVec 128
  dfail : BitVec 32
  deriving DecidableEq, Repr

/-- What the sequencer is doing (R364, R365). -/
inductive PowerMove where
  | still
  | stepUp
  | stepDown
  | switchUp
  | switchDown
  deriving DecidableEq, Repr

/-- The power sequencer (R363-R368). -/
structure Power where
  powered : Bool
  full : Bool
  vcode : Nat
  target : Bool
  move : PowerMove
  latched : Option Bool
  /-- a request for full made while a force stands (R367) -/
  held : Option Bool
  /-- thermal cut remembered for the next reset (R366) -/
  cut : Bool
  /-- the tick at which the step or switch in progress began (R363) -/
  since : Nat
  /-- the tick of the firmware's last heartbeat (R366) -/
  beat : Nat
  deriving DecidableEq, Repr

/-- The external log (R380). -/
structure XLog where
  base : Word
  size : BitVec 5
  en : Bool
  head : Word
  tail : Word
  drop : Word
  shown : Word
  /-- the tick at which `shown` was last written -/
  shownAt : Nat
  deriving DecidableEq, Repr

/-- Device table registers and decoded ranges (R384, R375). `links` bit p: expander p's link is up. -/
structure DevRegs where
  htlk : Bool
  htbase : Word
  hostlim : Word
  cxlBytes : Nat
  links : BitVec 4
  deriving DecidableEq, Repr

/-- A message of which the first flit has arrived and the write has not performed (R377): the handle's index and generation,
the backing and the phase as captured, the byte offset, and whether the check passed. -/
structure SkeinMsg where
  index : Nat
  gen : Nat
  backing : Nat × Nat
  phase : Bool
  off : Nat
  len : Nat
  pubc : Bool
  ok : Bool
  deriving DecidableEq, Repr

/-- A Skein port (R362, R377, R378). -/
structure Port where
  pdig : BitVec 64
  pmsg : BitVec 48
  lup : Bool
  llanes : BitVec 2
  pstale : BitVec 32
  msg : Option SkeinMsg
  deriving DecidableEq, Repr

/-- A registered NVMe namespace (R376); `data` is what it holds, a byte per offset. -/
structure Namespace where
  latency : Nat
  rate : Nat
  data : Table Byte
  deriving DecidableEq, Repr

/-- A fault record waiting for its domain (R326). -/
structure WaitRecord where
  dom : Nat
  rcb : Nat
  record : List Byte
  deriving DecidableEq, Repr

/-- What an event's agent supplies (the events' docstrings say which fields they read). -/
structure EventArg where
  hart : Nat := 0
  index : Nat := 0
  unit : Nat := 0
  addr : Nat := 0
  va : Nat := 0
  pa : Nat := 0
  n : Nat := 0
  w0 : Word := 0
  w1 : Word := 0
  flag : Bool := false
  flag2 : Bool := false
  bytes : List Byte := []
  extra : List Byte := []
  reg : MgmtReg := .sdasn
  addrs : List (Nat × Nat) := []
  tables : List (Nat × Nat) := []
  deriving DecidableEq, Repr

/-- An instruction of a hart whose accesses, in the scalar slice, perform later than some of what follows it (R216, R381): it
is held, unretired, with its address. -/
structure HeldInstr where
  hart : Nat
  pc : Word
  instr : Instr
  deriving DecidableEq, Repr

/-- One entry of the agenda: an event with what its agent supplies, the next hart to move, or that hart with the slices, as
a bit mask, whose loads in this step perform later (R381, R383; log 4); an instruction of the scalar slice is held as a whole. -/
inductive Act where
  | event (i : Instr) (a : EventArg)
  | hart (h : Nat)
  | late (h mask : Nat)
  deriving DecidableEq, Repr

/-- The whole device. `turn` is the hart that moves, `late` the slices whose loads perform late in this step (log 4),
`inputs` what happens next from outside (log 1), `arg` what the event being run was supplied with, `fresh` the counter of
free values. -/
structure State where
  tick : Nat
  cycle : Nat
  /-- one tick of an unfinished two-tick cycle has passed (R3) -/
  half : Bool
  mem : List Host.Cell
  harts : Table Hart
  cores : Table Core
  clusters : Table Cluster
  dies : Table Die
  ports : Table Port
  tasks : Table Task
  codes : Table CodeObj
  codeMap : Table CodePage
  tlb : List TlbEntry
  status : Status
  power : Power
  xlog : XLog
  dev : DevRegs
  spaces : Table Namespace
  mailbox : Table (List (List Byte))
  records : List WaitRecord
  /-- the last sync stamp given (R358) -/
  stamp : Nat
  turn : Nat
  late : Nat
  /-- instructions held back, oldest first (log 4) -/
  held : List HeldInstr
  inputs : List Act
  arg : EventArg
  fresh : Nat
  /-- sync events of a recorded run still to perform in replay: hart and stamp, stamps rising; `extAgent` stands for an
  arrival of the external log (R361) -/
  replay : List (Nat × Nat)
  /-- what the last host request completed with; none for Unsupported Request (R373, R374) -/
  reply : Option (List Byte)
  deriving DecidableEq, Repr

/-! ## Reset values -/

def TrapRegs.init : TrapRegs :=
  { xcause := 0, xpc := 0, xval := 0, xvec := 0, xsave := 0, hl := false, ss := false, tne := false, ppend := false,
    est := 0, ecm := 0, fmode := 0, fflags := 0, retcnt := 0 }

/-- `dirty` = 0x3 (R328, R330). -/
def Dirty.init : Dirty := { von := true, mon := true, dv := false, dm := false, db := false, ds := false, dc := false }

def VecState.init : VecState :=
  { vtype := 0, vl := 0, vlb := 0, pend := 0, cur := 0, strip := 0, stripaddr := 0, regs := Vector.replicate 42 0,
    tags := Vector.replicate 42 0, sel := 0, masks := Vector.replicate 8 0, scale := Vector.replicate 256 0 }

def CopySlot.init : CopySlot :=
  { status := 0, faddr := 0, moved := 0, promise := 0, exempt := false, cmd := none }

def Pending.init : Pending := { step := false, throttle := none, debug := false }

/-- A hart slot after reset, and what R17 and R330 zero at a task's first instruction. -/
def Hart.init : Hart :=
  { run := .empty, rcb := 0, pc := 0, g := Vector.replicate 32 0, vec := VecState.init, tr := TrapRegs.init,
    dirty := Dirty.init, gcnt := 0, gsa := 0, gsb := 0, gsd := 0, zseed := 0, mxcfg := 0,
    bob := Vector.replicate 8 0, sig := Vector.replicate 16 0, slots := Vector.replicate 4 CopySlot.init, dues := [], stores := [],
    pending := Pending.init, stepArm := false, ptaken := false, resuming := false, lim := none, suspects := 0, suspectAt := (0, 0),
    suspectLane := 0, lastAt := 0, lastNotice := none,
    digest := [], rest := [], relFence := false, runFrom := 0, runMasks := Vector.replicate 8 0, pipes := none, cut := false, gated := 0 }

def Proj.init : Proj := { loaded := false, b := 0, d := 0, base := 0, pitch := 0, rows := [] }

def Core.init : Core :=
  { sq := Vector.replicate 4 [], bq := [], vq := Vector.replicate 4 [], part := Vector.replicate 4 none,
    left := Vector.replicate 4 (List.replicate 4 none), proj := Vector.replicate 8 Proj.init, owner := 0 }

/-- A tile row just granted (R253). -/
def TileRow.init : TileRow :=
  { holder := none, panel := [], bands := [], landed := 0, acc := [], isInt := false, base := 0,
    pitch := 0, sbase := 0, fmt := 0, loaded := false, cmds := [] }

def Barrier.init : Barrier := { count := 0, target := 0, release := 0 }

def Counters.init : Counters :=
  { kret := 0, kstrip := 0, kredo := 0, kresid := 0, kdroop := 0, kshuf := 0, kskip := 0, kwake := 0 }

def Trace.init : Trace := { w0 := 0, w1 := 0, head := 0, drop := 0, lost := false, prev := none, sent := 0, sentAt := 0 }

/-- A cluster after reset: the partition of R72 and the weights of R73. -/
def Cluster.init : Cluster :=
  { own := 0xFA50, asg := 0xFF, vshare := 0x4444, vskew := 0, credit := [], bars := Vector.replicate 8 Barrier.init,
    births := [], rows := Vector.replicate 4 TileRow.init, trace := Trace.init,
    counters := Vector.replicate 8 Counters.init, sdasn := 0, sdva := 0, sdlen := 0, sdq := [],
    dbslot := 0, dbstrip := 0, dbarm := false, acsel := 0, acdata := 0 }

def Die.init : Die :=
  { lwcount := 0, lwreject := 0, lwlast := 0, queues := Vector.replicate 16 [] }

def CodeObj.init : CodeObj :=
  { gen := 0, loaded := false, fxo := [], data := [], shared := none, insts := [], holds := 0, unloading := false }

def Port.init : Port := { pdig := 0, pmsg := 0, lup := false, llanes := 0, pstale := 0, msg := none }

/-- The status block after reset (R373). -/
def Status.init : Status :=
  { bstate := 0, fwst := 0, fwd := false, fth := false, clamp := false, hzlim := 0, ttrip := false, dclus := 0, dfail := 0 }

/-- The sequencer at the safe point (R365, R373: `vcode` 12). -/
def Power.init : Power :=
  { powered := true, full := false, vcode := 12, target := false, move := .still, latched := none, held := none, cut := false,
    since := 0, beat := 0 }

def XLog.init : XLog := { base := 0, size := 0, en := false, head := 0, tail := 0, drop := 0, shown := 0, shownAt := 0 }

def DevRegs.init : DevRegs := { htlk := false, htbase := 0, hostlim := 0, cxlBytes := 0, links := 0xF }

/-- The device right after power-on reset (R369, R373; values the spec does not give: logs 3, 9, 10). -/
def State.reset : State :=
  { tick := 0, cycle := 0, half := false, mem := [], harts := [], cores := [], clusters := [], dies := [], ports := [], tasks := [],
    codes := [], codeMap := [], tlb := [], status := Status.init, power := Power.init, xlog := XLog.init,
    dev := DevRegs.init, spaces := [], mailbox := [], records := [], stamp := 0, turn := 0, late := 0, held := [], inputs := [], arg := {},
    fresh := 0, replay := [], reply := none }

end Sys2Proof.Machine
end

