-- ==== Sys2Proof/Machine/Mem.lean ====
section
/-!
DEFINITION. Register access, memory, translation, windows, Haze and the slice queues (R83, R192-R212, R348).
DEDUCED (readings): logs 4, 6, 42. DESIGN CHOICE: logs 3, 5, 12.
-/
namespace Sys2Proof.Machine

/-! ## Harts, clusters, tasks -/

/-- The entry of `i`, if listed. -/
def tfind {α : Type} : Table α → Nat → Option α
  | [], _ => none
  | (k, v) :: t, i => if k = i then some v else tfind t i

/-- The cluster, the core (counted through the device) and the slot of a hart number. -/
def clusterOf (h : Nat) : Nat := h / 8
def coreOf (h : Nat) : Nat := h / 2
def slotOf (h : Nat) : Nat := h % 2

def State.hartAt (s : State) (h : Nat) : Hart := tget Hart.init s.harts h
def State.setHart (s : State) (h : Nat) (x : Hart) : State := { s with harts := tset s.harts h x }
def State.cur (s : State) : Hart := s.hartAt s.turn
def State.setCur (s : State) (x : Hart) : State := s.setHart s.turn x
def State.clusterAt (s : State) (c : Nat) : Cluster := tget Cluster.init s.clusters c
def State.setCluster (s : State) (c : Nat) (x : Cluster) : State := { s with clusters := tset s.clusters c x }
def State.coreAt (s : State) (k : Nat) : Core := tget Core.init s.cores k
def State.setCore (s : State) (k : Nat) (x : Core) : State := { s with cores := tset s.cores k x }
def State.dieAt (s : State) (d : Nat) : Die := tget Die.init s.dies d
def State.setDie (s : State) (d : Nat) (x : Die) : State := { s with dies := tset s.dies d x }
def State.task? (s : State) (rcb : Nat) : Option Task := tfind s.tasks rcb
def State.setTask (s : State) (rcb : Nat) (t : Task) : State := { s with tasks := tset s.tasks rcb t }
def State.codeAt (s : State) (i : Nat) : CodeObj := tget CodeObj.init s.codes i

/-- The harts of a task (R70). -/
def Task.harts (t : Task) : List Nat := if t.eff.split then [2 * t.core, 2 * t.core + 1] else [2 * t.core]

/-- A hart slot is still issuing. -/
def Run.active : Run → Bool
  | .running => true | .waiting _ => true | _ => false

/-- A `g` register; `g0` reads zero (R83). -/
def State.g (s : State) (r : Reg) : Word := if r = 0 then 0 else s.cur.g[r.toNat]

/-- A write to a `g` register; a write to `g0` is discarded (R83). -/
def State.setG (s : State) (r : Reg) (v : Word) : State :=
  if r = 0 then s else s.setCur { s.cur with g := s.cur.g.set r.toNat v }

/-- The task of a hart. -/
def State.taskOf (s : State) (h : Nat) : Option Task := s.task? (s.hartAt h).rcb

/-- Whether a hart belongs to a split task (R70). -/
def State.isSplit (s : State) (h : Nat) : Bool :=
  match s.taskOf h with
  | some t => t.eff.split
  | none => false

/-- Whether it is the execute hart of a split task. -/
def State.isExec (s : State) (h : Nat) : Bool := s.isSplit h && slotOf h = 1

/-- Register `r` of the vector file, by number. -/
def VecState.reg (v : VecState) (r : Nat) : VReg := if h : r < 42 then v.regs[r] else 0
def VecState.tag (v : VecState) (r : Nat) : BitVec 3 := if h : r < 42 then v.tags[r] else 0
def VecState.setReg (v : VecState) (r : Nat) (x : VReg) : VecState :=
  if h : r < 42 then { v with regs := v.regs.set r x } else v
def VecState.setTag (v : VecState) (r : Nat) (x : BitVec 3) : VecState :=
  if h : r < 42 then { v with tags := v.tags.set r x } else v

/-- Lane groups owned by core `k` of a cluster, ascending (R71, R72). -/
def Cluster.groups (c : Cluster) (k : Nat) : List Nat :=
  (List.range 8).filter fun g => c.asg.toNat.testBit g && nbits c.own.toNat (2 * g) 2 = k

/-- G of a hart's core (R128). -/
def State.laneGroups (s : State) (h : Nat) : Nat := ((s.clusterAt (clusterOf h)).groups (coreOf h % 4)).length

/-- D of a declaration code (R132). -/
def declOf (code : BitVec 2) : Nat := 32 / 2 ^ code.toNat

/-- The declaration in force on a hart: in split mode the execute hart's (R132). -/
def State.declIn (s : State) (h : Nat) : BitVec 2 := (s.hartAt (if s.isSplit h then 2 * coreOf h + 1 else h)).vec.cur

/-- `vbits` (R128). -/
def State.vbits (s : State) (h : Nat) : Nat := vregBits * s.laneGroups h / declOf (s.declIn h)

/-! ## Memory bytes -/

/-- What a byte nothing has written reads as (log 3). -/
def memUnlisted : Byte := 0

/-- One byte. -/
def memRead (m : List Host.Cell) (a : Nat) : Byte := tget memUnlisted m a

/-- A byte written; a byte equal to what an unlisted address reads is not listed. -/
def memWrite (m : List Host.Cell) (a : Nat) (b : Byte) : List Host.Cell :=
  if b = memUnlisted then terase m a else tset m a b

/-- n bytes from `a`. -/
def memReadN (m : List Host.Cell) (a : Nat) : Nat → List Byte
  | 0 => []
  | n + 1 => memRead m a :: memReadN m (a + 1) n

/-- A byte string written from `a`. -/
def memWriteN (m : List Host.Cell) (a : Nat) : List Byte → List Host.Cell
  | [] => m
  | b :: bs => memWriteN (memWrite m a b) (a + 1) bs

/-- Bytes written under a bit mask; an empty mask is all ones. -/
def memWriteMasked (m : List Host.Cell) (a : Nat) : List Byte → List Byte → List Host.Cell
  | [], _ => m
  | b :: bs, [] => memWriteMasked (memWrite m a b) (a + 1) bs []
  | b :: bs, k :: ks => memWriteMasked (memWrite m a ((memRead m a &&& ~~~k) ||| (b &&& k))) (a + 1) bs ks

/-- n bytes from `a` set to zero. -/
def memClear (m : List Host.Cell) (a n : Nat) : List Host.Cell := m.filter fun c => c.1 < a ∨ a + n ≤ c.1

/-- The canonical form: addresses rise and no entry equals the unlisted value. -/
def memWf : List Host.Cell → Bool
  | [] => true
  | [c] => c.2 ≠ memUnlisted
  | c :: d :: m => decide (c.1 < d.1) && decide (c.2 ≠ memUnlisted) && memWf (d :: m)

/-- Where a place lies in `mem`. -/
def physKey (cls pa : Nat) : Nat := cls * 2 ^ 60 + pa
def spadKey (off : Nat) : Nat := 3 * 2 ^ 60 + off
def hazeKey (off : Nat) : Nat := 4 * 2 ^ 60 + off

/-- A little-endian number of class-0 memory. -/
def State.hbm (s : State) (pa n : Nat) : Nat := bytesNat (memReadN s.mem pa n)

/-- A class-0 write by the device. -/
def State.setHbm (s : State) (pa n v : Nat) : State := { s with mem := memWriteN s.mem pa (natBytes n v) }

/-! ## Handles (R211) -/

/-- A handle table entry. -/
structure HandleEntry where
  back0 : Nat × Nat       -- class, physical address
  back1 : Nat × Nat
  size : Nat
  gen : Nat
  phase : Bool
  hvalid : Bool
  owner : Nat
  deriving DecidableEq, Repr

/-- Where entry `i` lies. -/
def State.handleAt (s : State) (i : Nat) : Nat := s.dev.htbase.toNat + 32 * i

def State.handle (s : State) (i : Nat) : HandleEntry :=
  let a := s.handleAt i
  let w0 := s.hbm a 8; let w1 := s.hbm (a + 8) 8; let w2 := s.hbm (a + 16) 8
  { back0 := (nbits w0 52 1, nbits w0 8 44 * 256), back1 := (nbits w1 52 1, nbits w1 8 44 * 256),
    size := nbits w2 0 40, gen := nbits w2 40 16, phase := nbit w2 56, hvalid := nbit w2 57,
    owner := s.hbm (a + 24) 8 }

/-- The current and the shadow backing. -/
def HandleEntry.current (e : HandleEntry) : Nat × Nat := if e.phase then e.back1 else e.back0
def HandleEntry.shadow (e : HandleEntry) : Nat × Nat := if e.phase then e.back0 else e.back1

/-- Index and generation of a handle (R11, R211). -/
def handleIndex (h : Nat) : Nat := nbits h 0 20
def handleGen (h : Nat) : Nat := nbits h 20 16

/-- A hart's register (R83). -/
def Hart.reg (x : Hart) (r : Reg) : Word := if r = 0 then 0 else x.g[r.toNat]

/-- An `shsync` of handle `i` that the engine has taken notes a change of the phase while it runs (R318): its `mark` is 1
and the phase captured, and 2 more once it has changed. -/
def Hart.noteFlip (x : Hart) (i : Nat) : Hart :=
  match x.run with
  | .waiting w =>
    (match w.instr with
      | .shsync _ a _ _ =>
        if (w.mark = 1 || w.mark = 2) && handleIndex (x.reg a).toNat = i then
          { x with run := .waiting { w with mark := w.mark + 2 } }
        else x
      | _ => x)
  | _ => x

/-- The `phase` bit flipped (R245, R317). -/
def State.flipPhase (s : State) (i : Nat) : State :=
  let a := s.handleAt i + 16 + 7
  { s with mem := memWrite s.mem a (memRead s.mem a ^^^ 1), harts := s.harts.map fun (h, x) => (h, x.noteFlip i) }

/-! ## Translation -/

/-- What an access asks of a page (R208). -/
inductive Need where
  | load
  | store
  | both
  | fetch
  deriving DecidableEq, Repr

def Need.reads : Need → Bool | .load => true | .both => true | _ => false
def Need.writes : Need → Bool | .store => true | .both => true | _ => false

/-- Whose address space and windows an access uses. `core` counts through the device. -/
structure Ctx where
  cluster : Nat
  core : Nat
  asn : Nat
  root : Nat
  rcb : Nat
  deriving DecidableEq, Repr

/-- The context of a task on its core. -/
def Task.ctx (t : Task) (rcb : Nat) : Ctx :=
  { cluster := t.core / 4, core := t.core, asn := t.eff.ptroot % 65536, root := nbits t.eff.ptroot 16 36 * 65536, rcb := rcb }

/-- The context of a hart. -/
def State.ctxOf (s : State) (h : Nat) : Ctx :=
  match s.taskOf h with
  | some t => { t.ctx (s.hartAt h).rcb with cluster := clusterOf h, core := coreOf h }
  | none => { cluster := clusterOf h, core := coreOf h, asn := 0, root := 0, rcb := (s.hartAt h).rcb }

/-- Populated physical addresses of a class (R205). -/
def State.populated (s : State) (cls pa : Nat) : Bool :=
  match cls with
  | 0 => pa < hbmBytes
  | 1 => pa < s.dev.cxlBytes
  | 2 => pa < s.dev.hostlim.toNat
  | _ => false

/-- Whether a leaf grants what is needed. -/
def leafGrants (e : Nat) (n : Need) : Bool :=
  match n with
  | .load => nbit e 2
  | .store => nbit e 3
  | .both => nbit e 2 && nbit e 3
  | .fetch => nbit e 4

/-- A valid entry with no reserved bit set (R207). -/
def entryOk (e : Nat) : Bool := nbit e 0 && nbits e 9 7 = 0 && nbits e 52 12 = 0

/-- A leaf without its `acc` and `dty` bits. -/
def leafPlain (e : Nat) : Nat := nset e 5 2 0

/-- A legal leaf of a level (R208, R211). -/
def leafLegal (e : Nat) (block : Bool) : Bool :=
  nbit e 1 && (!block || (nbits e 16 13 = 0 && nbits e 7 2 ≠ 3))

/-- The walk (R207, R208): where the leaf lies, its value, whether it maps a block; none is a page fault. -/
def State.walk (s : State) (root va : Nat) : Option (Nat × Nat × Bool) :=
  if root + 65536 > hbmBytes then none else
  let e1 := s.hbm (root + 8 * nbits va 42 13) 8
  if !entryOk e1 || nbit e1 1 then none else
  let t2 := nbits e1 16 36 * 65536
  if t2 + 65536 > hbmBytes then none else
  let a2 := t2 + 8 * nbits va 29 13
  let e2 := s.hbm a2 8
  if !entryOk e2 then none else
  if nbit e2 1 then (if leafLegal e2 true then some (a2, e2, true) else none) else
  let t3 := nbits e2 16 36 * 65536
  if t3 + 65536 > hbmBytes then none else
  let a3 := t3 + 8 * nbits va 16 13
  let e3 := s.hbm a3 8
  if entryOk e3 && leafLegal e3 false then some (a3, e3, false) else none

/-- Cached leaves for a page: what a walk may use instead of the table (R209). -/
def State.cached (s : State) (c : Ctx) (va : Nat) : List TlbEntry :=
  s.tlb.filter fun e => e.cluster = c.cluster && e.asn = c.asn &&
    (if e.block then e.vpage = va / 2 ^ 29 else e.vpage = va / 65536)

/-- A cached leaf is the one a walk of the tables finds. -/
def TlbEntry.isLeaf (e : TlbEntry) (w : Option (Nat × Nat × Bool)) : Bool :=
  match w with
  | some (a, v, b) => e.leafAt = a && e.leaf = leafPlain v && e.block == b
  | none => false

/-- The leaf a walk uses: the table's, or a cached one that differs where the free choice says so (R209, log 12). -/
def State.leafFor (s : State) (c : Ctx) (va : Nat) : Option (Nat × Nat × Bool) :=
  let w := s.walk c.root va
  match s.cached c va with
  | [] => w
  | e :: _ => if !e.isLeaf w && Config.staleWalk (s.fresh + va / 65536) then some (e.leafAt, e.leaf, e.block) else w

/-- Placed on a core and not yet removed from it: running, or stopped and bound there (R193, R327). -/
def Phase.onCore : Phase → Bool
  | .placed => true | .running => true | .bound => true | .forwarded => true | .orphaned => true | _ => false

/-- Whether segment `g` of core `k` may be accessed (R194). -/
def State.segAllowed (s : State) (c : Ctx) (k g : Nat) : Bool :=
  s.tasks.any fun (_, t) =>
    t.core = k && nbit t.segs g && t.eff.ptroot % 65536 = c.asn &&
      t.phase.onCore

/-- Whether a Haze tile may be accessed (R200). -/
def State.tileAllowed (s : State) (c : Ctx) (tile : Nat) : Bool :=
  s.tasks.any fun (_, t) =>
    t.core / 4 = c.cluster && t.hzBase ≤ tile && tile < t.hzBase + t.hzTiles && t.eff.ptroot % 65536 = c.asn &&
      t.phase.onCore

/-- Whether a class-1 access completes with a timeout because its expander's link is down (R375). -/
def State.linkDown (s : State) (pa : Nat) : Bool := s.dev.links ≠ 0xF && !nbit s.dev.links.toNat (Config.expander pa % 4)

/-- The bytes of a backing, from an offset on, that come before one behind a down link, n at most. -/
def State.backingRun (s : State) (b : Nat × Nat) (off n : Nat) : Nat :=
  if b.1 = 1 && s.dev.links ≠ 0xF then ((List.range n).find? fun i => s.linkDown (b.2 + off + i)).getD n else n

/-- A range of one backing copied to another (R318), up to the first byte behind a down link (R375). -/
def State.copyBacking (s : State) (src dst : Nat × Nat) (off n : Nat) : State :=
  let n := min (s.backingRun src off n) (s.backingRun dst off n)
  { s with mem := memWriteN s.mem (physKey dst.1 (dst.2 + off)) (memReadN s.mem (physKey src.1 (src.2 + off)) n) }

/-- Bytes written to a backing; what lies behind a down link is lost (R375). -/
def State.putBacking (s : State) (b : Nat × Nat) (off : Nat) (bs : List Byte) : State :=
  if b.1 = 1 && s.dev.links ≠ 0xF then
    { s with mem := bs.zipIdx.foldl (fun m (x, i) =>
        if s.linkDown (b.2 + off + i) then m else memWrite m (physKey b.1 (b.2 + off + i)) x) s.mem }
  else { s with mem := memWriteN s.mem (physKey b.1 (b.2 + off)) bs }

/-- A leaf's place for a virtual address, or the cause of its failure (R205, R211). Whether the host completes a request
with Unsupported Request or Completer Abort is a free value (log 46). -/
def State.leafPlace (s : State) (va leaf : Nat) (block : Bool) : Except Nat Target :=
  let cls := nbits leaf 7 2
  if cls = 3 then
    let idx := nbits leaf 16 20
    let off := nbits leaf 36 16 * 65536 + va % 65536
    let e := s.handle idx
    if e.hvalid && off < e.size then
      let (bc, bp) := e.current
      if !s.populated bc (bp + off) then .error 5
      else if bc = 1 && s.linkDown (bp + off) then .error 25 else .ok (.pub idx off)
    else .error 5
  else
    let pa := nbits leaf 16 36 * 65536 + (if block then va % 2 ^ 29 else va % 65536)
    if !s.populated cls pa || (cls = 2 && Config.hostRefuses (s.fresh + pa)) then .error 5
    else if cls = 1 && s.linkDown pa then .error 25 else .ok (.phys cls pa)

/-- A virtual address resolved (R192): its place and the leaf used, or the failing cause. Loaded code and data lie in every
region's own tables (R25). -/
def State.resolve (s : State) (c : Ctx) (need : Need) (va : Nat) : Except Nat (Target × Option (Nat × Nat × Bool)) :=
  if va < 2 ^ 55 then
    match s.leafFor c va with
    | none => .error 4
    | some (a, e, block) =>
      if !leafGrants e need then .error 4 else
      match s.leafPlace va e block with
      | .ok t => .ok (t, some (a, e, block))
      | .error k => .error k
  else if need = .fetch then .error 5
  else if va / 2 ^ 19 = 0xF000000000000000 / 2 ^ 19 then
    if s.segAllowed c c.core (nbits va 16 3) then .ok (.spad (c.core * 2 ^ 19 + va % 2 ^ 19), none) else .error 5
  else if va / 2 ^ 21 = 0xF100000000000000 / 2 ^ 21 then
    let k := c.cluster * 4 + nbits va 19 2
    if s.segAllowed c k (nbits va 16 3) then .ok (.spad (k * 2 ^ 19 + va % 2 ^ 19), none) else .error 5
  else if va / 2 ^ 22 = 0xF200000000000000 / 2 ^ 22 then
    if s.tileAllowed c (nbits va 12 10) then .ok (.haze (c.cluster * 2 ^ 22 + va % 2 ^ 22), none) else .error 5
  else .error 5

/-- The class of the leaf that maps an address, of a published page that of its current backing; 0 where none does. -/
def State.classAt (s : State) (c : Ctx) (va : Nat) : Nat :=
  if 2 ^ 55 ≤ va then 0 else
  match s.leafFor c va with
  | none => 0
  | some (_, e, _) => if nbits e 7 2 = 3 then (s.handle (nbits e 16 20)).current.1 else nbits e 7 2

/-- The leaf marked accessed or dirty, and cached (R208, R209). -/
def State.noteLeaf (s : State) (c : Ctx) (va : Nat) (write : Bool) (leaf : Option (Nat × Nat × Bool)) : State :=
  match leaf with
  | none => s
  | some (a, e, block) =>
    let now := s.hbm a 8
    let s := if leafPlain now = leafPlain e then
        { s with mem := memWrite s.mem a (memRead s.mem a ||| (if write then 0x60 else 0x20)) } else s
    let entry : TlbEntry :=
      { cluster := c.cluster, asn := c.asn, vpage := if block then va / 2 ^ 29 else va / 65536, block := block,
        leafAt := a, leaf := leafPlain e }
    if (s.cached c va).isEmpty then { s with tlb := s.tlb ++ [entry] } else s

/-! ## Haze tiles (R201, R202) -/

/-- The birth tick of a tile of a cluster. -/
def State.birth (s : State) (cl tile : Nat) : Option Nat := tget none (s.clusterAt cl).births tile

def State.setBirth (s : State) (cl tile : Nat) (b : Option Nat) : State :=
  let c := s.clusterAt cl
  s.setCluster cl { c with births := tset c.births tile b }

/-- A tile is live at the present tick (R201). -/
def State.tileLive (s : State) (cl tile : Nat) : Bool :=
  match s.birth cl tile with
  | some b => s.tick < b + hzlife
  | none => false

/-- Whether a load of this place finds an expired tile. -/
def State.expired (s : State) : Target → Bool
  | .haze off => !s.tileLive (off / 2 ^ 22) (off % 2 ^ 22 / 4096)
  | _ => false

/-! ## Performing accesses -/

/-- The byte of memory a place is, its phase resolved now (R212). -/
def State.key (s : State) : Target → Nat
  | .phys cls pa => physKey cls pa
  | .spad off => spadKey off
  | .haze off => hazeKey off
  | .pub i off => let (c, p) := (s.handle i).current; physKey c (p + off)

/-- n bytes read from a place. -/
def State.readT (s : State) (t : Target) (n : Nat) : List Byte := memReadN s.mem (s.key t) n

/-- Bytes written to a place under the Haze birth rules (R202). -/
def State.writeT (s : State) (t : Target) (bytes mask : List Byte) : State :=
  match t with
  | .haze off =>
    let cl := off / 2 ^ 22
    let tile := off % 2 ^ 22 / 4096
    let k := hazeKey off
    if s.tileLive cl tile then { s with mem := memWriteMasked s.mem k bytes mask }
    else
      let m := memClear s.mem (hazeKey (cl * 2 ^ 22 + tile * 4096)) 4096
      { s with mem := memWriteMasked m k bytes mask }.setBirth cl tile (some s.tick)
  | t => { s with mem := memWriteMasked s.mem (s.key t) bytes mask }

end Sys2Proof.Machine
end

