-- ==== Sys2Proof/Machine/Trace.lean ====
section
/-!
DEFINITION. What the device records as work retires: stamps, trace records, counters, hash records and the external log
(R352-R360, R380). Tracing changes nothing but the trace memory.
DEDUCED (readings): logs 38, 39.
-/
namespace Sys2Proof.Machine

/-! ## Time (R3) -/

/-- Whether the arithmetic clock stands: a frequency switch is in progress (R363). -/
def Power.stalled (p : Power) : Bool :=
  match p.move with
  | .switchUp => true
  | .switchDown => true
  | _ => false

/-- `d` ticks pass, and the cycles of the arithmetic clock with them: one a tick at the full point, one every two ticks at
the safe point, none while the frequency switches (R3, R363). -/
def State.elapse (s : State) (d : Nat) : State :=
  if s.power.stalled then { s with tick := s.tick + d }
  else if s.power.full then { s with tick := s.tick + d, cycle := s.cycle + d }
  else
    let n := boolNat s.half + d
    { s with tick := s.tick + d, cycle := s.cycle + n / 2, half := decide (n % 2 = 1) }

/-! ## Records -/

/-- A cluster's trace class `b` is enabled: 8 strip, 9 pipe, 10 sync, 11 hash, 12 counters (R352). -/
def Trace.on (t : Trace) (b : Nat) : Bool := t.w1.toNat.testBit b

def Trace.base (t : Trace) : Nat := nbits t.w0.toNat 12 40 * 4096
def Trace.size (t : Trace) : Nat := 2 ^ nbits t.w1.toNat 0 5

/-- Places left in a cluster's buffer (R353). -/
def State.traceRoom (s : State) (cl : Nat) : Nat :=
  let t := (s.clusterAt cl).trace
  t.size - (t.head - s.hbm (t.base + 0x10) 8)

/-- n records dropped (R353). -/
def State.dropRecords (s : State) (cl n : Nat) : State :=
  let c := s.clusterAt cl
  s.setCluster cl { c with trace := { c.trace with drop := c.trace.drop + n, lost := true } }

/-- One record, or a drop (R353). -/
def State.putRecord (s : State) (cl : Nat) (w0 w1 : Nat) : State :=
  let c := s.clusterAt cl
  let t := c.trace
  if s.traceRoom cl = 0 then s.dropRecords cl 1
  else
    let a := t.base + 0x1000 + 16 * (t.head % t.size)
    let w0 := w0 + 128 * boolNat t.lost
    let s := { s with mem := memWriteN s.mem a (natBytes 8 w0 ++ natBytes 8 w1) }
    s.setCluster cl { c with trace := { t with head := t.head + 1, lost := false, prev := some s.tick } }

/-- The ticks since the last record, after a time base where R355 asks for one. -/
def State.timeBase (s : State) (h : Nat) : State × Nat :=
  match (s.clusterAt (clusterOf h)).trace.prev with
  | some p =>
    if s.tick - p ≤ 65535 then (s, s.tick - p) else (s.putRecord (clusterOf h) (7 + 16 * (h % 8)) s.tick, 0)
  | none => (s.putRecord (clusterOf h) (7 + 16 * (h % 8)) s.tick, 0)

/-- Word 0 of a record of a hart slot (R355). -/
def recordHead (h rtype delta spec : Nat) : Nat := rtype + 16 * (h % 8) + 256 * delta + 2 ^ 24 * (spec % 2 ^ 40)

/-- A record of a hart slot with its tick delta. -/
def State.record (s : State) (h rtype spec w1 : Nat) : State :=
  let (s, d) := s.timeBase h
  s.putRecord (clusterOf h) (recordHead h rtype d spec) w1

/-- A type-1 or type-6 record with its continuation directly after it, or both dropped (R355). -/
def State.recordPair (s : State) (h rtype spec w1 full : Nat) : State :=
  let (s, d) := s.timeBase h
  if s.traceRoom (clusterOf h) < 2 then s.dropRecords (clusterOf h) 2
  else (s.putRecord (clusterOf h) (recordHead h rtype d spec) w1).putRecord (clusterOf h) (recordHead h 15 0 0) full

/-- The next sync stamp: the tick and a serial number, rising; an event that finds the sixteen of its tick given performs
at the next (R358). -/
def State.nextStamp (s : State) : State :=
  let n := max (s.tick * 16) (s.stamp + 1)
  ({ s with stamp := n } : State).elapse (n / 16 - s.tick)

/-! ## Replay (R361) -/

/-- The agent under which `State.replay` lists the arrivals of the external log. -/
def extAgent : Nat := 1024

/-- The events still to perform without the first of hart `h`. -/
def dropFirst (h : Nat) : List (Nat × Nat) → List (Nat × Nat)
  | [] => []
  | e :: es => if e.1 = h then es else e :: dropFirst h es

/-- A recorded run is replayed on an agent's cluster; the external log always is (R361). -/
def State.replays (s : State) (agent : Nat) : Bool :=
  agent = extAgent || (s.clusterAt (clusterOf agent)).trace.w1.toNat.testBit 24

/-- Replay holds back the next sync event of a hart: an event of a smaller recorded stamp has not performed. -/
def State.replayHolds (s : State) (h : Nat) : Bool :=
  s.replays h && s.replay.any (fun e => e.1 = h) &&
    (s.replay.head?.map (·.1)) ≠ some h

/-- From `s` to `t` an event of the recorded logs has performed before one of a smaller stamp (R361). -/
def State.outOfOrder (s t : State) : Bool :=
  s.replay.any fun e => !t.replay.contains e && s.replays e.1 && t.replay.any fun f => decide (f.2 < e.2)

/-- A sync event of a hart (R358). -/
def State.sync (s : State) (h kind : Nat) : State :=
  let s := { s with replay := dropFirst h s.replay }.nextStamp
  if (s.clusterAt (clusterOf h)).trace.on 10 then
    s.record h 4 (kind % 16 + 256 * ((s.hartAt h).tr.retcnt.toNat % 2 ^ 32)) s.stamp
  else s

/-- A change of a hart slot's counters (R353). -/
def State.count (s : State) (h : Nat) (f : Counters → Counters) : State :=
  let c := s.clusterAt (clusterOf h)
  s.setCluster (clusterOf h) { c with counters := c.counters.set (h % 8) (f (c.counters[h % 8]'(Nat.mod_lt _ (by decide)))) (Nat.mod_lt _ (by decide)) }

/-- The counter block of a slot in memory (R353). -/
def State.publishCounters (s : State) (h : Nat) : State :=
  let c := s.clusterAt (clusterOf h)
  if c.trace.on 12 then
    let k := c.counters[h % 8]'(Nat.mod_lt _ (by decide))
    let vals := [k.kret, k.kstrip, k.kredo, k.kresid, k.kdroop, k.kshuf, k.kskip, k.kwake]
    { s with mem := memWriteN s.mem (c.trace.base + 0x100 + 64 * (h % 8)) (vals.flatMap (natBytes 8)) }
  else s

/-- `thead` and `tdrop` in memory, with release after the records they cover (R354). -/
def State.publishHead (s : State) (cl : Nat) : State :=
  let c := s.clusterAt cl
  let t := c.trace
  if nbits t.w1.toNat 8 5 = 0 then s
  else
    ((s.setCluster cl { c with trace := { t with sent := t.head + t.drop, sentAt := s.tick } }).setHbm t.base 8 t.head).setHbm
      (t.base + 8) 8 t.drop

/-- The counters of every slot and the head of a cluster's buffer in memory (R354). -/
def State.publishTrace (s : State) (cl : Nat) : State :=
  ((List.range 8).foldl (fun s i => s.publishCounters (8 * cl + i)) s).publishHead cl

/-- Records of a cluster have been pending for 4,096 ticks (R354). -/
def State.traceLate (s : State) (c : Cluster) : Bool :=
  nbits c.trace.w1.toNat 8 5 ≠ 0 && c.trace.sent ≠ c.trace.head + c.trace.drop && decide (c.trace.sentAt + 4096 ≤ s.tick)

/-- The buffers whose records have been pending that long, published. -/
def State.publishLate (s : State) : State :=
  s.clusters.foldl (fun s (cl, c) => if s.traceLate c then s.publishTrace cl else s) s

/-- What the trace owes at a stop of a hart: the counter blocks and the head of its cluster (R354). -/
def State.traceStop (s : State) (h : Nat) : State := s.publishTrace (clusterOf h)

/-- The CRC over the stores of every slice, the scalar slice first: each slice's own CRC, carried over the bytes of the
slices after it (the CRC is linear and starts at 0) (R360). -/
def storeDigest (d : Table (BitVec 64 × Nat)) : BitVec 64 :=
  d.foldl (fun c p => crcBytes c (List.replicate p.2.2 0) ^^^ p.2.1) 0

/-- The hash record at a multiple of 2^hashk retired instructions (R360). -/
def State.hashRecord (s : State) (h : Nat) : State :=
  let t := (s.clusterAt (clusterOf h)).trace
  let x := s.hartAt h
  if t.on 11 && x.tr.retcnt.toNat % 2 ^ nbits t.w1.toNat 16 6 = 0 then
    let ws := [x.pc] ++ (x.g.toList.drop 1) ++
      [x.vec.vtype, x.vec.vl, x.vec.vlb, x.gcnt, x.gsa, x.gsb, x.gsd, x.zseed,
        x.tr.fflags.setWidth 64, w64 (nbits x.mxcfg.toNat 16 5)]
    let c := crcBytes 0 (ws.flatMap (fun w => natBytes 8 w.toNat) ++ natBytes 8 (storeDigest x.digest).toNat)
    let s := s.setHart h { x with digest := [] }
    s.recordPair h 6 0 c.toNat x.tr.retcnt.toNat
  else s

/-! ## External log (R359, R380) -/

/-- `xlhead` written after the records it covers (R380). -/
def State.publishLog (s : State) : State := { s with xlog := { s.xlog with shown := s.xlog.head, shownAt := s.tick } }

/-- The log's head published where its records have been pending for 4,096 ticks (R380). -/
def State.publishLogLate (s : State) : State :=
  if s.xlog.shown ≠ s.xlog.head && decide (s.xlog.shownAt + 4096 ≤ s.tick) then s.publishLog else s

/-- One input logged, or counted as dropped; in replay it is the next arrival of the recorded log (R361). -/
def State.logInput (s : State) (source port addr : Nat) (data : List Byte) : State :=
  let s := { s with replay := dropFirst extAgent s.replay }.nextStamp
  let x := s.xlog
  if !x.en then s else
  let cap := 2 ^ x.size.toNat
  let pad := (16 - data.length % 16) % 16
  let m := 32 + data.length + pad
  let pos := x.head.toNat % cap
  let fill := if cap - pos < m then cap - pos else 0
  if x.head.toNat - x.tail.toNat + m + fill > cap then { s with xlog := { x with drop := x.drop + 1 } }
  else
    let base := nbits x.base.toNat 12 40 * 4096
    let padB := if fill = 0 then [] else natBytes 8 (fill * 65536) ++ List.replicate (fill - 8) 0
    let mem := memWriteN s.mem (base + pos) padB
    let rec0 := natBytes 8 (source + 256 * port + 65536 * data.length) ++ natBytes 8 s.stamp ++ natBytes 8 addr ++ natBytes 8 0
    let mem := memWriteN mem (base + (pos + fill) % cap) (rec0 ++ data ++ List.replicate pad 0)
    { s with mem := mem, xlog := { x with head := x.head + w64 (m + fill) } }

end Sys2Proof.Machine
end

