-- ==== Sys2Proof/Machine/Perform.lean ====
section
/-!
DEFINITION. Accesses as they perform: the slice queues, loads and stores of a hart (R92, R142, R197, R202, R303, R307,
R348).
DEDUCED (readings): logs 4, 42. DESIGN CHOICE: log 5.
-/
namespace Sys2Proof.Machine

/-- The oldest store of a slice and the queue without it. -/
def takeStore (j : Nat) : List QStore → Option (QStore × List QStore)
  | [] => none
  | q :: qs =>
    if q.slice = j then some (q, qs) else
      match takeStore j qs with
      | some (r, rs) => some (r, q :: rs)
      | none => none

/-- A place in a Haze window. -/
def Target.isHaze : Target → Bool | .haze _ => true | _ => false

/-- The oldest store of slice `j`, if it writes its bytes in part, has read the bytes it keeps (R184, R213). An expired tile
has none to read (R202). -/
def State.keepFirst (s : State) (j : Nat) : List QStore → List QStore
  | [] => []
  | q :: qs =>
    if q.slice = j then
      (if q.mask.isEmpty || !q.kept.isEmpty || q.ld.isSome || s.expired q.tgt then q
        else { q with kept := s.readT q.tgt q.bytes.length, keptAt := s.tick }) :: qs
    else q :: s.keepFirst j qs

/-- A place in a Haze tile whose birth is not before tick `t`. -/
def State.bornSince (s : State) (t : Nat) : Target → Bool
  | .haze off => (match s.birth (off / 2 ^ 22) (off % 2 ^ 22 / 4096) with | some b => decide (t ≤ b) | none => true)
  | _ => false

/-- The bytes and the mask a store writes now: where it writes in part and has read what it keeps, whole bytes with that in
them, whatever has been written to them since. What a tile held before it expired is not kept (R202, R203). -/
def State.merged (s : State) (q : QStore) : List Byte × List Byte :=
  if q.mask.isEmpty || q.kept.isEmpty || s.expired q.tgt || s.bornSince q.keptAt q.tgt then (q.bytes, q.mask)
  else ((q.bytes.zip (q.mask.zip q.kept)).map (fun (b, k, o) => (o &&& ~~~k) ||| (b &&& k)), [])

/-- The floating-point format of a kind that `vsadd` adds in (R222). -/
def AddFmt.fmt (f : AddFmt) : Option Fmt :=
  match f.kind with
  | 2 => some (if f.ew = 16 then .b16 else if f.ew = 32 then .b32 else .b64)
  | 3 => some .bf16
  | _ => none

/-- One addition in memory's format: modulo 2^`ew`, or rounded once, overflowing as with `sat` = 0 (R222, R223). -/
def AddFmt.sum (f : AddFmt) (x y : Nat) : Nat :=
  match f.fmt with
  | some m => (m.round f.rm false ((m.decode x).add f.rm (m.decode y)).1).1
  | none => (x + y) % 2 ^ f.ew

/-- What a late load read put where it belongs (R92, R141, R142). -/
def Hart.putLate (x : Hart) (l : LateLoad) (v : Nat) : Hart :=
  match l.dst with
  | .g r signed =>
    if hr : r < 32 then
      (if r = 0 then x
      else { x with g := x.g.set r (if signed then (BitVec.ofNat (8 * l.n) v).signExtend 64 else w64 v) })
    else x
  | .v r bit width shifts =>
    let put := fun (u : VecState) (k : Nat) => u.setReg k (BitVec.ofNat vregBits (nset (u.reg k).toNat bit width v))
    let u := put x.vec r
    { x with vec := if shifts = 0 || 2 < shifts then u else put u (39 + shifts), dirty := { x.dirty with dv := true } }
  | .scale i =>
    if hi : i < 256 then
      { x with vec := { x.vec with scale := x.vec.scale.set i (BitVec.ofNat 16 v) }, dirty := { x.dirty with dv := true } }
    else x

/-- The mask bit of a late element of `hzld`. -/
def Hart.putBit (x : Hart) (hz : Option (Nat × Nat)) (live : Bool) : Hart :=
  match hz with
  | some (k, e) =>
    if hk : k < 8 then
      { x with vec := { x.vec with masks := x.vec.masks.set k (BitVec.ofNat mregBits (nset x.vec.masks[k].toNat e 1 (boolNat live))) } }
    else x
  | none => x

/-- A late load performs: it reads its bytes now (R303, R381); an expired tile has none for an element of `hzld` (R202). -/
def State.performLoad (s : State) (h : Nat) (q : QStore) (l : LateLoad) (rest : List QStore) : State :=
  let live := !s.expired q.tgt
  let v := if live then bytesNat (s.readT q.tgt l.n) >>> l.sh % 2 ^ l.width else 0
  s.setHart h (({ s.hartAt h with stores := rest }.putLate l v).putBit l.hz live)

/-- The birth of a tile written whole: with the last of the writes that fill it (R202). -/
def State.birthWhole (s : State) (q : QStore) (rest : List QStore) : State :=
  match q.tgt, q.whole with
  | .haze off, some w =>
    if rest.any (fun r => r.whole = some w &&
        match r.tgt with | .haze o => o / 4096 = off / 4096 | _ => false) then s
    else s.setBirth (off / 2 ^ 22) (off % 2 ^ 22 / 4096) (some s.tick)
  | _, _ => s

/-- One queued store performs (R348, R202): the bytes, the whole-tile birth, the digest of R360, and the sync event of a
release write (R358). -/
def State.performStore (s : State) (h : Nat) (q : QStore) (rest : List QStore) : State :=
  let s := if q.rel then s.sync h 1 else s
  let s := s.writeT q.tgt (s.merged q).1 (s.merged q).2
  let x := s.hartAt h
  let (c, n) := tget (0, 0) x.digest q.slice
  let d := (crcBytes c (natBytes 8 q.va ++ q.bytes), n + 8 + q.bytes.length)
  let s := s.setHart h { x with stores := rest, digest := tset x.digest q.slice d }
  s.birthWhole q rest

/-- A sum of a `vsadd` is added to memory in one atomic access; the last of its element group is the group's sync event
(R223, R358). -/
def State.performAdd (s : State) (h : Nat) (q : QStore) (f : AddFmt) (rest : List QStore) : State :=
  let n := q.bytes.length
  let s := s.writeT q.tgt (natBytes n (f.sum (bytesNat (s.readT q.tgt n)) (bytesNat q.bytes))) []
  let s := s.setHart h { s.hartAt h with stores := rest }
  (if rest.any fun r => r.add.isSome && r.group = q.group then s else s.sync h 0).birthWhole q rest

/-- One access of the queue performs. -/
def State.perform (s : State) (h : Nat) (q : QStore) (rest : List QStore) : State :=
  match q.ld, q.add with
  | some l, _ => s.performLoad h q l rest
  | none, some f => s.performAdd h q f rest
  | none, none => s.performStore h q rest

/-- The oldest store of slice `j` in an access group that falls in the 8-byte word `w`, and the queue without it. -/
def State.takeMerged (s : State) (j g w : Nat) : List QStore → Option (QStore × List QStore)
  | [] => none
  | q :: qs =>
    if q.slice = j && q.group = g && s.key q.tgt / 8 = w then some (q, qs) else
      match s.takeMerged j g w qs with
      | some (r, rs) => some (r, q :: rs)
      | none => none

/-- The stores of an access group that fall in one word merge: they perform together, in element order (R197). -/
def State.mergeWord (s : State) (h j g w : Nat) : Nat → State
  | 0 => s
  | n + 1 =>
    match s.takeMerged j g w (s.hartAt h).stores with
    | some (q, rest) => (s.perform h q rest).mergeWord h j g w n
    | none => s

/-- The oldest store of slice `j` performs, if there is one, with those that merge with it. -/
def State.performOne (s : State) (h j : Nat) : State :=
  match takeStore j (s.hartAt h).stores with
  | some (q, rest) =>
    let t := s.perform h q rest
    if q.group = 0 then t else t.mergeWord h j q.group (s.key q.tgt / 8) rest.length
  | none => s

/-- Every store of slice `j` performs, in order (R303). -/
def State.drainSliceN (s : State) (h j : Nat) : Nat → State
  | 0 => s
  | n + 1 => (s.performOne h j).drainSliceN h j n

def State.drainSlice (s : State) (h j : Nat) : State := s.drainSliceN h j (s.hartAt h).stores.length

/-- The slices that hold a store, each once. -/
def sliceSet : List QStore → List Nat
  | [] => []
  | q :: qs => if (sliceSet qs).contains q.slice then sliceSet qs else q.slice :: sliceSet qs

/-- The slice that performs next when several hold stores (log 5). -/
def State.pickSlice (s : State) (h n : Nat) : Nat :=
  match sliceSet (s.hartAt h).stores with
  | [] => 0
  | [j] => j
  | js => js.getD (Config.sliceOrder (s.fresh + n) % js.length) 0

/-- Every store of the hart performs, its slices merged in a free order (R307, log 5). -/
def State.drainN (s : State) (h : Nat) : Nat → State
  | 0 => s
  | n + 1 => (s.performOne h (s.pickSlice h n)).drainN h n

/-- A join of every slice of a hart. -/
def State.drain (s : State) (h : Nat) : State := s.drainN h (s.hartAt h).stores.length

/-- A load of the hart has still to perform. -/
def Hart.hasLate (x : Hart) : Bool := x.stores.any fun q => q.ld.isSome

/-- The oldest late load performs, after what stands before it in its slice; n times at most. -/
def State.joinLateN (s : State) (h : Nat) : Nat → State
  | 0 => s
  | n + 1 =>
    match (s.hartAt h).stores.find? fun q => q.ld.isSome with
    | some q => (s.performOne h q.slice).joinLateN h n
    | none => s

/-- Every late load of the hart performs. -/
def State.joinLate (s : State) (h : Nat) : State := s.joinLateN h (s.hartAt h).stores.length

/-! ## Accesses of a hart -/

/-- The value `xval` takes for a failing access (R92; a timeout's syndrome names a link, R322). -/
def accessVal (cause va : Nat) : Word := if cause = 25 then 3 else w64 va

/-- An access of a published page that reaches the object's end (R211). -/
def State.beyond (s : State) (t : Target) (n : Nat) : Bool :=
  match t with
  | .pub i off => decide ((s.handle i).size < off + n)
  | _ => false

/-- A read of n bytes whose address the state `s0` resolves: the checks of R92 run, the bytes are read. -/
def State.loadVia (s s0 : State) (h va n : Nat) : State × Except Nat (List Byte) :=
  let c := s.ctxOf h
  match s0.resolve c .load va with
  | .error k => (s, .error k)
  | .ok (t, leaf) =>
    if s.beyond t n then (s, .error 5)
    else if s.expired t then (s, .error 6)
    else
      let s := s.noteLeaf c va false leaf
      (s, .ok (s.readT t n))

/-- `mem_read` (R142): the slice's earlier stores perform, then the read. -/
def State.load (s : State) (h slice : Nat) (va n : Nat) : State × Except Nat (List Byte) :=
  let s := s.drainSlice h slice
  s.loadVia s h va n

/-- The place of a load that may perform late: its checks pass, but that an element of `hzld` (`dead`) may find its tile
expired; a cluster that writes hash records has none late (log 4). -/
def State.latePlaceOf (s : State) (dead : Bool) (h va n : Nat) : Option (Target × Option (Nat × Nat × Bool)) :=
  match s.resolve (s.ctxOf h) .load va with
  | .ok (t, leaf) =>
    if s.beyond t n || (!dead && s.expired t) || (s.clusterAt (clusterOf h)).trace.on 11 then none else some (t, leaf)
  | .error _ => none

def State.latePlace (s : State) (h va n : Nat) : Option (Target × Option (Nat × Nat × Bool)) := s.latePlaceOf false h va n

/-- A load of the running hart that joins its slice's queue, to perform there: its slice's loads perform late in this step,
and it may, at a place the state `s0` resolves. Any other reads at once. -/
def State.queueLoad (s s0 : State) (slice va : Nat) (l : LateLoad) : Option State :=
  match (if nbit s.late slice then s0.latePlaceOf l.hz.isSome s.turn va l.n else none) with
  | some (t, leaf) =>
    let s := s.noteLeaf (s.ctxOf s.turn) va false leaf
    some (s.setCur { s.cur with stores := s.cur.stores ++
      [{ slice := slice, group := 0, rel := false, tgt := t, va := va, bytes := [], mask := [], whole := none, ld := some l }] })
  | none => none

/-- `mem_write` (R142) of an element of access group `group`: the checks of R92 run and the store joins its slice's
queue. -/
def State.storeIn (s : State) (h slice group : Nat) (rel : Bool) (need : Need) (va : Nat) (bytes mask : List Byte)
    (whole : Option Nat) : State × Option Nat :=
  let c := s.ctxOf h
  match s.resolve c need va with
  | .error k => (s, some k)
  | .ok (t, leaf) =>
    if s.beyond t bytes.length then (s, some 5) else
    let s := s.noteLeaf c va true leaf
    let x := s.hartAt h
    (s.setHart h { x with stores := x.stores ++
      [{ slice := slice, group := group, rel := rel, tgt := t, va := va, bytes := bytes, mask := mask, whole := whole }] }, none)

/-- A store that is an access group of its own. -/
def State.store (s : State) (h slice : Nat) (need : Need) (va : Nat) (bytes mask : List Byte) (whole : Option Nat) :
    State × Option Nat :=
  s.storeIn h slice 0 false need va bytes mask whole

/-- The checks of an n-byte access without the access: run-ahead (R210). -/
def State.probe (s : State) (h : Nat) (need : Need) (va n : Nat) : Option Nat :=
  match s.resolve (s.ctxOf h) need va with
  | .error k => some k
  | .ok (t, _) => if s.beyond t n then some 5 else if need = .load && s.expired t then some 6 else none

end Sys2Proof.Machine
end

