-- ==== Sys2Proof/Machine/Code.lean ====
section
/-!
DEFINITION. FXO code objects: reading, validation, relocation and mapping (R18-R27).
DEDUCED (readings): logs 6, 23.
-/
namespace Sys2Proof.Machine

/-- n bytes of a file at an offset, little-endian; bytes beyond the end read zero. -/
def fx (f : List Byte) (off n : Nat) : Nat := bytesNat ((f.drop off).take n)

/-- A table's offset and count from its header word (R18). -/
def fxTab (f : List Byte) (at_ : Nat) : Nat × Nat := (fx f at_ 4, fx f (at_ + 4) 4)

/-- The n-byte entries of a table by their file offsets. -/
def fxEntries (f : List Byte) (at_ n : Nat) : List Nat :=
  (List.range (fxTab f at_).2).map fun i => (fxTab f at_).1 + n * i

/-- The offset of entry `i`. -/
def fxEntry (f : List Byte) (at_ n i : Nat) : Nat := (fxTab f at_).1 + n * i

/-- Section entries (R20): kind, alignment, file offset, size of section `i`. -/
def sectKind (f : List Byte) (i : Nat) : Nat := fx f (fxEntry f 0x28 32 i) 1
def sectAlign (f : List Byte) (i : Nat) : Nat := fx f (fxEntry f 0x28 32 i + 1) 1
def sectOff (f : List Byte) (i : Nat) : Nat := fx f (fxEntry f 0x28 32 i + 8) 8
def sectSize (f : List Byte) (i : Nat) : Nat := fx f (fxEntry f 0x28 32 i + 16) 8
def sectCount (f : List Byte) : Nat := (fxTab f 0x28).2

/-- A section's bytes before relocation (kind 4 has none in the file). -/
def sectBytes (f : List Byte) (i : Nat) : List Byte :=
  if sectKind f i = 4 then List.replicate (sectSize f i) 0 else ((f.drop (sectOff f i)).take (sectSize f i))

def fxModes (f : List Byte) : Nat := fx f 0x06 2
def fxDecls (f : List Byte) : Nat := fx f 0x10 1
def fxLgmin (f : List Byte) : Nat := fx f 0x11 1
def fxLgmax (f : List Byte) : Nat := fx f 0x12 1
def fxVbmin (f : List Byte) : Nat := fx f 0x14 4
def fxVbmax (f : List Byte) : Nat := fx f 0x18 4
def fxHztiles (f : List Byte) : Nat := fx f 0x1C 2

/-- A relocation entry (R23). -/
structure Reloc where
  place : Nat
  sect : Nat
  kind : Nat
  target : Nat
  resv : Nat
  toff : Nat
  addend : Int
  deriving DecidableEq, Repr

def relocs (f : List Byte) : List Reloc :=
  (fxEntries f 0x48 16).map fun e =>
    { place := fx f e 4, sect := fx f (e + 4) 1, kind := fx f (e + 5) 1, target := fx f (e + 6) 1, resv := fx f (e + 7) 1,
      toff := fx f (e + 8) 4, addend := sext 32 (fx f (e + 12) 4) }

/-- The resolved size of frame `i` at a register size (R21). -/
def frameSize (f : List Byte) (i vbits : Nat) : Nat :=
  let e := fxEntry f 0x38 16 i
  let size := fx f e 4 + fx f (e + 4) 2 * (vbits / 8) + fx f (e + 6) 2 * 8192
  let al := 2 ^ fx f (e + 8) 1
  ceilDiv size al * al

/-- Which immediate a word has for relocation (R48): bits and whether it is a shift count; 0 none. -/
def immWidth (w : Nat) : Nat :=
  if nbits w 14 2 ≠ 0 then 0 else
  match nbits w 0 4 with
  | 0 => if nbit w 26 then (if nbits w 23 3 ≤ 3 then 12 else if nbits w 23 3 ≤ 6 then 6 else 0) else 0
  | 1 => 16 | 6 => 16
  | 11 => 16
  | 2 => 13 | 3 => 13 | 4 => 13 | 12 => 13 | 13 => 13
  | _ => 0

/-- A word with its immediate replaced (R48). -/
def setImm (w : Nat) (v : Int) : Nat :=
  match immWidth w with
  | 16 => nset w 16 16 (wrapN 16 v)
  | 13 => nset w 19 13 (wrapN 13 v)
  | 12 => nset (nset w 27 5 (wrapN 12 v / 128)) 16 7 (wrapN 12 v % 128)
  | 6 => nset (nset w 27 5 (wrapN 12 v / 128)) 16 7 (wrapN 12 v % 128)
  | _ => w

/-- The values an immediate field of n bits holds, from the first to below the second: a shift count's 0 to 63, the others
signed (R48). -/
def immRange (n : Nat) : Int × Int :=
  match n with
  | 0 => (0, 0)
  | 6 => (0, 64)
  | n => (-(2 ^ (n - 1) : Nat), (2 ^ (n - 1) : Nat))

/-- Whether a relocation's value fits the word at its place (R23, R48); where the immediate field holds operands of the
word, the word it makes must be assigned. -/
def immFits (w : Nat) (v : Int) : Bool :=
  decide ((immRange (immWidth w)).1 ≤ v) && decide (v < (immRange (immWidth w)).2) &&
    (decide (nbits w 0 4 < 11) || (decode (.p32 (BitVec.ofNat 32 (setImm w v)))).isSome)

/-- Words that carry a branch offset, and whether `jal` or `pcrel` (R23, R48). -/
def isBranchWord (w : Nat) : Bool :=
  nbits w 14 2 = 0 && ((nbits w 0 4 = 4 && nbits w 16 3 ≤ 5) || (nbits w 0 4 = 12 && (nbits w 16 3 = 3 || nbits w 16 3 = 4)))
def isJalWord (w : Nat) : Bool := nbits w 14 2 = 0 && nbits w 0 4 = 5
def isPcrelWord (w : Nat) : Bool := nbits w 14 2 = 0 && nbits w 0 4 = 8

/-- imm21 written (R48). -/
def setImm21 (w : Nat) (v : Int) : Nat := nset (nset w 16 16 (wrapN 21 v / 32)) 4 5 (wrapN 21 v % 32)

def fitsSigned (n : Nat) (v : Int) : Bool := decide (-(2 ^ (n - 1) : Nat) ≤ v) && decide (v < (2 ^ (n - 1) : Nat))

/-- hi of a `pchi21` entry (R23). -/
def pchi (t p : Int) : Int := (t - p + 0x800) / 4096

/-- The value a relocation writes at the given section addresses and register size, or none when it does not fit.
`pair` is the address and hi of the `pchi21` entry a `pclo16` pairs with. -/
def relocValue (f : List Byte) (addr : Nat → Nat) (vbits : Nat) (r : Reloc) (w : Nat) (pair : Option (Int × Int)) : Option Nat :=
  let t : Int := (addr r.target + r.toff : Nat) + r.addend
  let p : Int := (addr r.sect + r.place : Nat)
  match r.kind with
  | 1 => some (wrapN 64 t)
  | 2 => let hi := pchi t p; if isPcrelWord w && fitsSigned 21 hi then some (setImm21 w hi) else none
  | 3 =>
    match pair with
    | some (q, hi) => let v := t - q - hi * 4096; if immFits w v then some (setImm w v) else none
    | none => none
  | 4 =>
    let d := t - p
    if isBranchWord w && d % 2 = 0 && fitsSigned 13 (d / 2) then some (nset w 19 13 (wrapN 13 (d / 2))) else none
  | 5 =>
    let d := t - p
    if isJalWord w && d % 2 = 0 && fitsSigned 21 (d / 2) then some (setImm21 w (d / 2)) else none
  | 6 => let v := r.addend + (frameSize f r.toff vbits : Nat); if immFits w v then some (setImm w v) else none
  | 7 => let v := r.addend - (frameSize f r.toff vbits : Nat); if immFits w v then some (setImm w v) else none
  | _ => none

/-- The bytes of a section with `v` at an offset, n bytes. -/
def patch (bs : List Byte) (off n v : Nat) : List Byte := bs.take off ++ natBytes n v ++ bs.drop (off + n)

/-- All relocations placed in section `i` applied to its bytes; none when one does not fit (R23, R25). -/
def relocate (f : List Byte) (addr : Nat → Nat) (vbits i : Nat) (bs : List Byte) : Option (List Byte) :=
  let step (acc : Option (List Byte × Option (Reloc × Int × Int))) (r : Reloc) :=
    match acc with
    | none => none
    | some (bs, last) =>
      let t : Int := (addr r.target + r.toff : Nat) + r.addend
      let p : Int := (addr r.sect + r.place : Nat)
      let keep := if r.kind = 2 then some (r, p, pchi t p) else if r.kind = 3 then last else none
      if r.sect ≠ i then some (bs, keep) else
      let n := if r.kind = 1 then 8 else 4
      let pair := match last with
        | some (q, qp, hi) => if q.sect = r.sect then some (qp, hi) else none
        | none => none
      match relocValue f addr vbits r (fx bs r.place n) pair with
      | some v => some (patch bs r.place n v, keep)
      | none => none
  ((relocs f).foldl step (some (bs, none))).map (·.1)

/-- Every `pclo16` follows its `pchi21` with only `pclo16` entries between, in one section (R23). -/
def pairsOk : Option Nat → List Reloc → Bool
  | _, [] => true
  | last, r :: rs =>
    if r.kind = 2 then pairsOk (some r.sect) rs
    else if r.kind = 3 then (last = some r.sect) && pairsOk last rs
    else pairsOk none rs

/-- Whether what a table's `pchi21` and `pclo16` entries write can fit wherever their sections lie: within one section the
distance is fixed, and two entries of one target section differ by a fixed amount (R23, R24). -/
def loOk (f : List Byte) : Option Reloc → List Reloc → Bool
  | _, [] => true
  | last, r :: rs =>
    let w := fx (sectBytes f r.sect) r.place 4
    let at0 := fun (x : Reloc) => (x.toff : Int) + x.addend
    if r.kind = 2 then
      (r.sect ≠ r.target || (relocValue f (fun _ => 0) 0 r w none).isSome) && loOk f (some r) rs
    else if r.kind = 3 then
      (match last with
        | some q =>
          let p : Int := q.place
          (r.sect ≠ r.target || q.sect ≠ q.target ||
            (relocValue f (fun _ => 0) 0 r w (some (p, pchi (at0 q) p))).isSome) &&
          (r.target ≠ q.target ||
            (let d := at0 r - at0 q
             decide ((immRange (immWidth w)).1 ≤ d + 0x7FF) && decide (d - 0x800 < (immRange (immWidth w)).2)))
        | none => true) && loOk f last rs
    else loOk f none rs

/-- The register sizes a task can have: 0 to 8 lane groups under a declaration of 32, 16 or 8 (R128). -/
def taskVbits : List Nat := (List.range 9).flatMap fun g => [32, 16, 8].map fun d => vregBits * g / d

/-- A relocation entry that breaks no rule that is independent of addresses and register size. Sections are aligned to 8
at least, so whether a branch's distance is odd does not depend on where they lie. A frame size that fits at no register
size, one without vector registers among them, breaks R23 whatever the size. -/
def relocOk (f : List Byte) (r : Reloc) : Bool :=
  let k := sectKind f r.sect
  let w := fx (sectBytes f r.sect) r.place 4
  r.resv = 0 && decide (r.sect < sectCount f) &&
  (match r.kind with
    | 1 => (k = 2 || k = 3) && decide (r.place + 8 ≤ sectSize f r.sect) && decide (r.target < sectCount f)
    | 2 => k = 1 && isPcrelWord w && decide (r.target < sectCount f)
    | 3 => k = 1 && immWidth w ≠ 0 && decide (r.target < sectCount f)
    | 4 => k = 1 && isBranchWord w && decide (r.target < sectCount f)
    | 5 => k = 1 && isJalWord w && decide (r.target < sectCount f)
    | 6 => k = 1 && immWidth w ≠ 0 && decide (r.toff < (fxTab f 0x38).2)
    | 7 => k = 1 && immWidth w ≠ 0 && decide (r.toff < (fxTab f 0x38).2)
    | _ => false) &&
  (r.kind = 1 || decide (r.place + 4 ≤ sectSize f r.sect)) &&
  (!(r.kind = 6 || r.kind = 7) || taskVbits.any fun vb => (relocValue f (fun _ => 0) vb r w none).isSome) &&
  (!(r.kind = 4 || r.kind = 5) ||
    (((r.toff : Int) + r.addend - r.place) % 2 = 0 &&
      (r.sect ≠ r.target || (relocValue f (fun _ => 0) 0 r w none).isSome)))

def hasFrameReloc (f : List Byte) : Bool := (relocs f).any fun r => r.kind = 6 || r.kind = 7

/-- A table lies within the file. DESIGN CHOICE (log 47): a table whose offset and count reach beyond the file is refused,
an empty one with an offset past the end among them (R18 names no such refusal). -/
def tabIn (f : List Byte) (at_ n : Nat) : Bool := decide ((fxTab f at_).1 + n * (fxTab f at_).2 ≤ f.length)

/-- Profile declarations (R19, R24). -/
def profsOk (f : List Byte) : Bool :=
  let es := (fxEntries f 0x20 4).map fun e => (fx f e 1, fx f (e + 1) 1, fx f (e + 2) 2)
  es.all (fun (p, v, z) => p ≤ 6 && v ≠ 0 && z = 0 && v = 1) &&
  es.any (fun (p, _, _) => p = 0) && (es.map (·.1)).Nodup

/-- Whether the loader accepts a file (R18-R24, R25's case). DESIGN CHOICE (log 47): a function entry whose section is not
code, or is none, is refused (R21 names no such refusal), and so is one whose frame index is neither 0xFFFFFFFF nor below
the frame count (R21 names none); so is a strip entry whose function index names no function entry (R22 names none). -/
def fxoOk (f : List Byte) : Bool :=
  decide (80 ≤ f.length) && fx f 0 4 = 0x4F5846 && fx f 4 2 = 1 && fxModes f < 4 && fxDecls f < 8 &&
  fxLgmin f ≤ fxLgmax f && fxLgmax f ≤ 8 && fx f 0x13 1 = 0 && fxVbmin f ≤ fxVbmax f && fxHztiles f ≤ 1024 &&
  fx f 0x1E 2 = 0 && sectCount f ≤ 255 &&
  tabIn f 0x20 4 && tabIn f 0x28 32 && tabIn f 0x30 16 && tabIn f 0x38 16 && tabIn f 0x40 8 && tabIn f 0x48 16 &&
  profsOk f &&
  (List.range (sectCount f)).all (fun i =>
    let e := fxEntry f 0x28 32 i
    let k := sectKind f i
    1 ≤ k && k ≤ 4 && 3 ≤ sectAlign f i && sectAlign f i ≤ 16 && fx f (e + 2) 6 = 0 && fx f (e + 24) 8 = 0 &&
      (k ≠ 1 || sectSize f i % 2 = 0) && (k = 4 || decide (sectOff f i + sectSize f i ≤ f.length))) &&
  (fxEntries f 0x30 16).all (fun e =>
    fx f (e + 2) 2 = 0 && fx f e 2 < sectCount f && sectKind f (fx f e 2) = 1 &&
      (fx f (e + 12) 4 = 0xFFFFFFFF || fx f (e + 12) 4 < (fxTab f 0x38).2)) &&
  (fxEntries f 0x38 16).all (fun e => 3 ≤ fx f (e + 8) 1 && fx f (e + 8) 1 ≤ 12 && fx f (e + 9) 7 = 0) &&
  (fxEntries f 0x40 8).all (fun e =>
    fx f (e + 7) 1 = 0 && fx f (e + 4) 2 < (fxTab f 0x30).2 && fx f (e + 6) 1 < sectCount f &&
      sectKind f (fx f (e + 6) 1) = 1 &&
      (match decode (.p64 (BitVec.ofNat 64 (fx (sectBytes f (fx f (e + 6) 1)) (fx f e 4) 8))) with
        | some (.vset _ _) => true | some (.vsetb _ _) => true | _ => false)) &&
  (relocs f).all (relocOk f) && pairsOk none (relocs f) && loOk f none (relocs f) &&
  !(hasFrameReloc f && (relocs f).any (fun r => r.kind = 1 && sectKind f r.target = 1))

/-- Whether every frame relocation fits its field at a register size (R16 reason 11). -/
def framesFit (f : List Byte) (vbits : Nat) : Bool :=
  (relocs f).all fun r =>
    !(r.kind = 6 || r.kind = 7) ||
      (relocValue f (fun _ => 0) vbits r (fx (sectBytes f r.sect) r.place 4) none).isSome

/-- The virtual address of a section: from the data sections, else from the code sections. -/
def sectAddr (data code : List (Nat × Nat)) (f : List Byte) (i : Nat) : Nat :=
  if sectKind f i = 1 then (code.getD i (0, 0)).1 else (data.getD i (0, 0)).1

/-- The range of R25 holds a section at `va`, aligned as it asks. -/
def placeOk (f : List Byte) (i : Nat) (a : Nat × Nat) : Bool :=
  decide (2 ^ 54 ≤ a.1) && decide (a.1 + sectSize f i ≤ 2 ^ 55) && a.1 % 2 ^ sectAlign f i = 0 &&
  a.1 % 65536 = a.2 % 65536 && decide (a.2 + sectSize f i ≤ hbmBytes)

/-! ## The code range in the regions' page tables (R25) -/

/-- The number of 64 KiB pages that a range touches. -/
def pageCount (va size : Nat) : Nat := (va % 65536 + size + 65535) / 65536

/-- A region's page tables map a page of the code range to its place, with the permissions of its section. -/
def State.mapsPage (s : State) (root page : Nat) (p : CodePage) : Bool :=
  match s.walk root (page * 65536) with
  | some (_, e, false) =>
    nbits e 7 2 = 0 && nbits e 16 36 * 65536 = p.pa && nbit e 2 && nbit e 3 == p.write && nbit e 4 == p.exec
  | _ => false

/-- The page-table roots of the tasks on cores, those whose table does not exist aside (R208). -/
def State.codeRoots (s : State) : List Nat :=
  (s.tasks.filterMap fun (r, t) => if t.phase.onCore then some (t.ctx r).root else none).filter (· + 65536 ≤ hbmBytes)

/-- The page tables of every region with a task on a core hold what the runtime maps in all of them, and nothing of what it
has unmapped (R25, R30; log 6). -/
def State.codeMapped (s : State) : Bool :=
  s.codeRoots.all fun root => s.codeMap.all fun (page, p) => s.mapsPage root page p == p.kept

/-- The runtime's writes in page tables: entries at their physical addresses. -/
def State.writeTables (s : State) (ws : List (Nat × Nat)) : State :=
  (ws.filter fun (a, _) => a % 8 = 0 && decide (a + 8 ≤ hbmBytes)).foldl (fun s (a, v) => s.setHbm a 8 v) s

/-- A page of the code range unmapped in every region with a task: its leaf is cleared, and no cached copy of it is
left (R30). -/
def State.unmapPage (s : State) (page : Nat) : State :=
  match tfind s.codeMap page with
  | none => s
  | some p =>
    let s := s.tasks.foldl (fun s (r, t) =>
      match (if s.mapsPage (t.ctx r).root page p then s.walk (t.ctx r).root (page * 65536) else none) with
      | some (a, _, _) => s.setHbm a 8 0
      | none => s) s
    { s with codeMap := tset s.codeMap page { p with kept := false }
             tlb := s.tlb.filter fun e => e.block || e.vpage ≠ page }

/-- The pages of a section unmapped. -/
def State.unmapPages (s : State) (va size : Nat) : State :=
  (List.range (pageCount va size)).foldl (fun s j => s.unmapPage (va / 65536 + j)) s

/-- No page of a section at `va` is mapped already: sections have pages of their own (log 7). -/
def pagesFree (m : Table CodePage) (va size : Nat) : Bool :=
  (List.range (pageCount va size)).all fun j => !((tfind m (va / 65536 + j)).any (·.kept))

/-- Pages of a section that the runtime is to map in every region (R25). -/
def mapPages (m : Table CodePage) (va pa size : Nat) (write exec : Bool) : Table CodePage :=
  (List.range (pageCount va size)).foldl
    (fun m j => tset m (va / 65536 + j) { pa := (pa / 65536 + j) * 65536, write := write, exec := exec }) m

/-- One relocated copy of the code sections, written and mapped; none when a value does not fit (R25). -/
def State.instantiate (s : State) (o : CodeObj) (vbits : Nat) (addrs : List (Nat × Nat)) : Option State :=
  let f := o.fxo
  let step (acc : Option State) (i : Nat) : Option State :=
    match acc with
    | none => none
    | some s =>
      if sectKind f i ≠ 1 then some s else
      let a := addrs.getD i (0, 0)
      if !placeOk f i a || !pagesFree s.codeMap a.1 (sectSize f i) then none else
      match relocate f (sectAddr o.data addrs f) vbits i (sectBytes f i) with
      | none => none
      | some bs =>
        some { s with mem := memWriteN s.mem a.2 bs, codeMap := mapPages s.codeMap a.1 a.2 (sectSize f i) false true }
  (List.range (sectCount f)).foldl step (some s)

/-- The data sections placed, relocated and mapped once (R24, R25). -/
def State.placeData (s : State) (f : List Byte) (data shared : List (Nat × Nat)) : Option State :=
  let step (acc : Option State) (i : Nat) : Option State :=
    match acc with
    | none => none
    | some s =>
      if sectKind f i = 1 then some s else
      let a := data.getD i (0, 0)
      if !placeOk f i a || !pagesFree s.codeMap a.1 (sectSize f i) then none else
      match relocate f (sectAddr data shared f) 0 i (sectBytes f i) with
      | none => none
      | some bs =>
        some { s with mem := memWriteN s.mem a.2 bs, codeMap := mapPages s.codeMap a.1 a.2 (sectSize f i) (sectKind f i ≠ 2) false }
  (List.range (sectCount f)).foldl step (some s)

/-- Whether a page is kept for the shared instantiation of a loaded object (R25). -/
def State.pageKept (s : State) (page : Nat) : Bool :=
  s.codes.any fun (_, o) => o.loaded &&
    (match o.shared with
      | some sh => (List.range (sectCount o.fxo)).any fun i =>
          sectKind o.fxo i = 1 && decide ((sh.getD i (0, 0)).1 / 65536 ≤ page) &&
            decide (page * 65536 < (sh.getD i (0, 0)).1 + sectSize o.fxo i)
      | none => false)

/-- The sections of the given kind at `addrs` lie on no page kept for a loaded object. -/
def State.offKept (s : State) (f : List Byte) (addrs : List (Nat × Nat)) (code : Bool) : Bool :=
  (List.range (sectCount f)).all fun i =>
    let va := (addrs.getD i (0, 0)).1
    (decide (sectKind f i = 1) != code) ||
      (List.range (pageCount va (sectSize f i))).all fun j => !s.pageKept (va / 65536 + j)

/-- The places fixed at load for a shared instantiation hold it: in range, on free pages, every relocation fitting
(R24, R25). -/
def State.sharedOk (s : State) (f : List Byte) (data shared : List (Nat × Nat)) : Bool :=
  s.offKept f shared true && (s.instantiate { CodeObj.init with fxo := f, data := data } 0 shared).isSome

/-- The address of an entry word within an instantiation (R11, R17). -/
def entryAddr (inst : Inst) (entry : Nat) : Nat := (inst.addrs.getD (nbits entry 32 8) (0, 0)).1 + nbits entry 0 32

/-- Whether an address lies in one of a code object's instantiations (R28). -/
def CodeObj.covers (o : CodeObj) (a : Nat) : Bool :=
  o.insts.any fun n => (List.range (sectCount o.fxo)).any fun i =>
    sectKind o.fxo i = 1 && decide ((n.addrs.getD i (0, 0)).1 ≤ a) && decide (a < (n.addrs.getD i (0, 0)).1 + sectSize o.fxo i)

end Sys2Proof.Machine
end

