-- ==== Sys2Proof/Machine/Region.lean ====
section
/-!
DEFINITION. Regions as the dispatcher reads them: chains, effective values, launch checks, enqueueing, counters
(R9-R17, R61-R66).
DEDUCED (readings): log 22.
-/
namespace Sys2Proof.Machine

/-- A region control block's 8-byte word at an offset (R11). -/
def State.rcbW (s : State) (a off : Nat) : Nat := s.hbm (a + off) 8

/-- An aligned block in populated class-0 memory (R10). -/
def rcbAt (a : Nat) : Bool := a % 256 = 0 && decide (a + 256 ≤ hbmBytes)

/-- The blocks a walk of at most n reads, from the task's upward, and whether the chain ends well (R16). -/
def State.chainOf (s : State) (a : Nat) : Nat → List Nat × Bool
  | 0 => ([], false)
  | n + 1 =>
    if !rcbAt a then ([], false)
    else
      let p := s.rcbW a 8
      if p = 0 then ([a], true)
      else
        let (bs, ok) := s.chainOf p n
        (a :: bs, ok)

/-- A field's effective value along a chain: the block's own where it is a root or its override bit is set (R12). -/
def State.effective (s : State) (bit : Nat) (get : Nat → Nat) : List Nat → Nat
  | [] => 0
  | [b] => get b
  | b :: bs => if nbit (s.rcbW b 0) (32 + bit) then get b else s.effective bit get bs

/-- A block with version 1 and its reserved fields zero (R11, R16 reason 1). -/
def State.rcbClean (s : State) (b : Nat) : Bool :=
  let w := s.rcbW b
  nbits (w 0) 0 8 = 1 && nbits (w 0) 20 12 = 0 && nbits (w 0) 44 20 = 0 && nbits (w 0x10) 20 44 = 0 &&
  nbits (w 0x20) 52 12 = 0 && nbits (w 0x28) 36 28 = 0 && nbits (w 0x30) 40 24 = 0 && nbits (w 0x38) 40 24 = 0 &&
  nbits (w 0x58) 48 16 = 0 && nbits (w 0x60) 16 48 = 0 && w 0x78 = 0 && nbits (w 0xB8) 16 48 = 0 &&
  w 0xE0 = 0 && w 0xE8 = 0 && w 0xF0 = 0 && w 0xF8 = 0

/-- Every suffix of a chain: each region with its ancestors. -/
def suffixes : List Nat → List (List Nat)
  | [] => []
  | b :: bs => (b :: bs) :: suffixes bs

/-- The effective values of a task from its chain (R12), with the limits of every level as they stand now (R15). -/
def State.effVals (s : State) (ch : List Nat) : EffVals :=
  let w := fun off b => s.rcbW b off
  let own := ch.headD 0
  let segs := s.effective 10 (w 0x60) ch
  { split := nbit (s.effective 4 (w 0) ch) 9, prio := nbits (s.effective 0 (w 0) ch) 10 4,
    decl := nbits (s.effective 5 (w 0) ch) 14 2, lgreq := nbits (s.effective 6 (w 0) ch) 16 4,
    fdom := nbits (s.effective 1 (w 0x10) ch) 0 16, fzen := nbit (s.effective 1 (w 0x10) ch) 16,
    fzidx := nbits (s.effective 1 (w 0x10) ch) 17 3, fhandler := s.effective 1 (w 0x18) ch,
    ptroot := s.effective 2 (w 0x20) ch, code := s.effective 3 (w 0x28) ch,
    entry := s.rcbW own 0x30, entry2 := s.rcbW own 0x38, arg := s.rcbW own 0x40,
    segs := nbits segs 0 8, preSegs := nbits segs 8 8, segimg := s.effective 10 (w 0x68) ch,
    done := s.effective 11 (w 0x70) ch, chain := ch,
    limits := (suffixes ch).map fun c => (s.effective 7 (w 0x48) c, s.effective 9 (w 0x58) c) }

/-- The `bres` limits in field [lo+15:lo] of a task's region and its ancestors, with the regions (R13); 0 sets none. -/
def EffVals.resLimits (e : EffVals) (lo : Nat) : List (Nat × Nat) := e.chain.zip (e.limits.map fun l => nbits l.2 lo 16)

/-- Priorities never rise down the chain (R13). -/
def State.priosOk (s : State) : List Nat → Bool
  | [] => true
  | [_] => true
  | b :: c :: bs =>
    decide (nbits (s.effective 0 (fun x => s.rcbW x 0) (b :: c :: bs)) 10 4 ≤
      nbits (s.effective 0 (fun x => s.rcbW x 0) (c :: bs)) 10 4) && s.priosOk (c :: bs)

/-- The register size a task asks for (R128). -/
def EffVals.vbits (e : EffVals) : Nat := vregBits * e.lgreq / (32 / 2 ^ e.decl)

/-- An entry field names an even offset inside a code section (R16 reason 9). -/
def entryOkIn (f : List Byte) (e : Nat) : Bool :=
  nbits e 0 32 % 2 = 0 && decide (nbits e 32 8 < sectCount f) && sectKind f (nbits e 32 8) = 1 &&
  decide (nbits e 0 32 < sectSize f (nbits e 32 8))

/-- The first failing check of R16's table but 3 and 14, over the walked chain; 0 when none fails. -/
def State.launchReason (s : State) (ch : List Nat) (ended : Bool) : Nat :=
  if !ch.all s.rcbClean then 1
  else if !nbit (s.rcbW (ch.headD 0) 0) 8 && !ch.isEmpty then 2
  else if ch.isEmpty || !ended then 4
  else
    let e := s.effVals ch
    let o := s.codeAt (handleIndex e.code)
    let f := o.fxo
    if e.done ≠ 0 && (e.done % 8 ≠ 0 || hbmBytes < e.done + 8) then 4
    else if !s.priosOk ch then 5
    else if e.decl = 3 || e.lgreq > 8 then 6
    else if e.split != (e.entry2 ≠ 0 : Bool) then 7
    else if !o.loaded || o.unloading || o.gen ≠ handleGen e.code then 8
    else if !entryOkIn f e.entry || (e.split && !entryOkIn f e.entry2) then 9
    else if !(fxModes f).testBit (boolNat e.split) || !(fxDecls f).testBit e.decl || e.lgreq < fxLgmin f ||
        fxLgmax f < e.lgreq || e.vbits < fxVbmin f || fxVbmax f < e.vbits then 10
    else if !framesFit f e.vbits then 11
    else if e.preSegs &&& (255 - e.segs) ≠ 0 ||
        (e.resLimits 0).any (fun (_, l) => l ≠ 0 && decide (l < popN 8 e.segs)) then 12
    else 0

/-- `n` added to a counter word of every block of a chain (R14, R16). -/
def State.addChain (s : State) (off n : Nat) : List Nat → State
  | [] => s
  | b :: bs => (s.setHbm (b + off) 8 ((s.rcbW b off + n) % 2 ^ 64)).addChain off n bs

/-- A bit of an RCB's `status` set or cleared. -/
def State.rcbStatus (s : State) (a bit : Nat) (v : Bool) : State :=
  s.setHbm (a + 0xB8) 8 (nset (s.rcbW a 0xB8) bit 1 (boolNat v))

/-- A rejection recorded in the blocks the walk has read (R16). -/
def State.recordReject (s : State) (ch : List Nat) (reason : Nat) : State :=
  match ch with
  | [] => s
  | a :: _ => (s.setHbm (a + 0xB8) 8 (nset (s.rcbW a 0xB8) 8 8 reason)).addChain 0x98 1 ch

/-- A task just enqueued. -/
def Task.queued (e : EffVals) (die tick : Nat) : Task :=
  { eff := e, phase := .queued, die := die, core := 0, segs := 0, hzBase := 0, hzTiles := 0, toCopy := 0, inst := 0,
    placedAt := tick, preAt := 0, since := 0, image := [], lower := false, proj := [], mflags := [], notified := false,
    saved := [], held := [], rest := [], decl := BitVec.ofNat 2 e.decl, dying := false, ended := 0, blocks := false,
    claim := none }

/-- An entry just queued. -/
def QEntry.fresh (rcb : Nat) : QEntry := { rcb := rcb, passed := none, blocking := false }

/-- An entry that is no head: nothing passes it over, though one that blocks still does (R67). -/
def QEntry.behind (x : QEntry) : QEntry := { x with passed := none }

/-- A queue of a die with an entry at its tail (R66). -/
def State.pushQueue (s : State) (die prio rcb : Nat) : State :=
  let d := s.dieAt die
  let q := d.queues[prio % 16]'(Nat.mod_lt _ (by decide))
  s.setDie die { d with queues := d.queues.set (prio % 16) (q ++ [QEntry.fresh rcb]) (Nat.mod_lt _ (by decide)) }

/-- A task that returns to the front of its queue (R77). DESIGN CHOICE (log 47): a full queue then holds more than its 4,096
entries; no rule says what becomes of the task. -/
def State.returnQueue (s : State) (die prio rcb : Nat) (blocking : Bool) : State :=
  let d := s.dieAt die
  let q := d.queues[prio % 16]'(Nat.mod_lt _ (by decide))
  s.setDie die { d with
    queues := d.queues.set (prio % 16) ({ QEntry.fresh rcb with blocking := blocking } :: q.map QEntry.behind)
      (Nat.mod_lt _ (by decide)) }

/-- An entry taken out of a die's queues (R67). -/
def State.dropQueue (s : State) (die rcb : Nat) : State :=
  let d := s.dieAt die
  s.setDie die { d with queues := d.queues.map (·.filter fun e => e.rcb ≠ rcb) }

/-- A launch at enqueue (R16, R63): the state after it and the reason, 0 when accepted. -/
def State.enqueue (s : State) (die a : Nat) : State × Nat :=
  let (ch, ended) := s.chainOf a 8
  let first := s.launchReason ch ended
  if first = 1 || first = 2 then (s.recordReject ch first, first)
  else if ch.isEmpty then (s, 4)
  else if nbit (s.rcbW a 0xB8) 0 then (s.recordReject ch 3, 3)
  else if first ≠ 0 then (s.recordReject ch first, first)
  else
    let e := s.effVals ch
    let d := s.dieAt die
    if 4096 ≤ (d.queues[e.prio % 16]'(Nat.mod_lt _ (by decide))).length then (s.recordReject ch 14, 14)
    else
      let s := (s.rcbStatus a 0 true).addChain 0x88 1 ch
      let s := s.pushQueue die e.prio a
      (s.setTask a (Task.queued e die s.tick), 0)

/-- Cycles are running up for a task: from its first instruction until the last of its harts stops (R78). -/
def State.charging (s : State) (rcb : Nat) (t : Task) : Bool :=
  t.phase = .running || t.harts.any fun h => (s.hartAt h).rcb = rcb && (s.hartAt h).run.active

/-- The cycles a task has run uncharged, charged to its chain (R14, R78). -/
def State.charge (s : State) (rcb : Nat) : State :=
  match s.task? rcb with
  | none => s
  | some t =>
    if s.charging rcb t then
      (s.addChain 0x80 (s.cycle - t.since) t.eff.chain).setTask rcb { t with since := s.cycle }
    else s

/-- Cycles left at one level (R80): its limit, as read at placement, less what is charged there now and running. -/
def State.levelLeft (s : State) (region bcyc running : Nat) : Option Nat :=
  if bcyc = 2 ^ 64 - 1 then none else some (bcyc - s.rcbW region 0x80 - running)

/-- `budget` (R80). -/
def State.budget (s : State) (h : Nat) : Nat :=
  match s.taskOf h with
  | none => 2 ^ 63
  | some t =>
    let run := if s.charging (s.hartAt h).rcb t then s.cycle - t.since else 0
    let levels := (t.eff.chain.zip t.eff.limits).map fun (r, l) => s.levelLeft r l.1 run
    let best := levels.zipIdx.foldl (fun (acc : Option (Nat × Nat)) (l, i) =>
      match l, acc with
      | none, _ => acc
      | some n, none => some (n, i)
      | some n, some (m, j) => if n < m then some (n, i) else some (m, j)) none
    match best with
    | none => 2 ^ 63
    | some (n, i) => min n (2 ^ 48 - 1) + 2 ^ 48 * i

/-- Whether a level's budget is used up (R79). -/
def State.overBudget (s : State) (h : Nat) : Option Nat :=
  let b := s.budget h
  if nbit b 63 then none else if nbits b 0 48 = 0 then some (nbits b 48 3) else none

end Sys2Proof.Machine
end

