-- ==== Sys2Proof/Machine/Context.lean ====
section
/-!
DEFINITION. Context images (R331): written by `trap yld`, `trap fwd` and the direct paths, read at resumption.
DEDUCED (readings): log 28.
-/
namespace Sys2Proof.Machine

/-- A register number of the tag and register files: `v` 0-31, `o` 32-39, `l` 40-41. -/
def regsUnder (d : Nat) : List Nat := List.range d ++ (List.range (d / 4)).map (32 + ·) ++ [40, 41]

/-- Slot n of a tag window: the register it shows, if any (R135). -/
def windowReg (sel n : Nat) : Option Nat :=
  match sel with
  | 0 => some n
  | 1 => some (20 + n)
  | _ => if n < 2 then some (40 + n) else none

/-- `vtags` as a read returns it with a window selected (R135). -/
def VecState.window (v : VecState) (sel : Nat) : Nat :=
  sel + ((List.range 20).map fun n =>
    match windowReg sel n with
    | some r => (v.tag r).toNat * 2 ^ (3 * n + 3)
    | none => 0).sum

/-- The tags of a window written, of registers that exist under D (R135). -/
def VecState.setWindow (v : VecState) (sel w d : Nat) : VecState :=
  (List.range 20).foldl (fun v n =>
    match windowReg sel n with
    | some r => if (regsUnder d).contains r then v.setTag r (BitVec.ofNat 3 (nbits w (3 * n + 3) 3)) else v
    | none => v) v

/-- `xstat` (R323) and `dirty` (R328) as they read. -/
def TrapRegs.xstat (t : TrapRegs) : Nat := boolNat t.hl + 2 * boolNat t.ss + 4 * boolNat t.tne + 8 * boolNat t.ppend
def Dirty.word (d : Dirty) : Nat :=
  boolNat d.von + 2 * boolNat d.mon + 256 * boolNat d.dv + 512 * boolNat d.dm + 1024 * boolNat d.db +
    2048 * boolNat d.ds + 4096 * boolNat d.dc
def Dirty.ofWord (n : Nat) : Dirty :=
  { von := nbit n 0, mon := nbit n 1, dv := nbit n 8, dm := nbit n 9, db := nbit n 10, ds := nbit n 11, dc := nbit n 12 }

/-- `vdecl`: the hart's pending declaration and the one in force on it (R132). -/
def State.vdecl (s : State) (h : Nat) : Nat := (s.hartAt h).vec.pend.toNat + 256 * (s.declIn h).toNat

/-- A byte string padded with zeros to n bytes. -/
def padTo (n : Nat) (bs : List Byte) : List Byte := bs ++ List.replicate (n - bs.length) 0

def words8 (ws : List Nat) : List Byte := ws.flatMap (natBytes 8)

/-- The base region: resume PC, `g`, the trap words, `vdecl`, the kind. -/
def baseBytes (x : Hart) (pc : Word) (vdecl : Nat) (full : Bool) : List Byte :=
  let t := x.tr
  padTo 0x400 (
    padTo 0x100 (words8 (pc.toNat :: (x.g.toList.drop 1).map (·.toNat))) ++
    words8 ([t.xcause, t.xpc, t.xval, t.xvec].map (·.toNat) ++
      [t.xstat, t.xsave.toNat, t.est.toNat, t.ecm.toNat, x.dirty.word, t.fmode.toNat, t.fflags.toNat, x.mxcfg.toNat,
        t.retcnt.toNat, vdecl, boolNat full]))

/-- The queue region of an access hart of a split task. -/
def queueBytes (k : Core) : List Byte :=
  let sq := (List.range 4).flatMap fun q => padTo 128 (words8 (((k.sq.toList.getD q []).map (·.toNat))))
  let counts := (k.sq.toList.map fun q => q.length) ++ [k.bq.length] ++ k.vq.toList.map fun q => q.length
  let bq := (k.bq.zipIdx.map fun (b, i) => boolNat b * 2 ^ i).sum
  let part := (k.part.toList.zipIdx.map fun (p, i) => boolNat p.isSome * 2 ^ i).sum
  let imgs := fun q => k.vq.toList.getD q [] ++ (match k.part.toList.getD q none with | some p => [p] | none => [])
  let tags := (List.range 4).flatMap fun q => padTo 4 ((imgs q).map fun i => i.tag.setWidth 8)
  padTo 0xA00 (padTo 0x210 (sq ++ counts.map (BitVec.ofNat 8)) ++ words8 [bq, part] ++ tags)

/-- The small classes (R331). -/
def smallBytes (x : Hart) : List Byte :=
  let v := x.vec
  padTo 0x1000 (
    padTo 0x40 (words8 [x.gcnt.toNat, x.gsa.toNat, x.gsb.toNat, x.gsd.toNat, x.zseed.toNat]) ++
    words8 (x.bob.toList.map (·.toNat)) ++ words8 (x.sig.toList.map (·.toNat)) ++
    words8 [v.vtype.toNat, v.vl.toNat, v.vlb.toNat, v.window 0, v.window 1, v.window 2, v.strip.toNat, v.stripaddr.toNat,
      v.sel.toNat])

/-- The image a hart's context makes, its registers those of the declaration in force (R331, R132). -/
def State.imageBytes (s : State) (h : Nat) (pc : Word) (full : Bool) : List Byte :=
  let x := s.hartAt h
  let split := s.isSplit h && slotOf h = 0
  let k := s.coreAt (coreOf h)
  let vb := s.vbits h / 8
  let head := baseBytes x pc (s.vdecl h) full ++ x.vec.scale.toList.flatMap (fun e => natBytes 2 e.toNat) ++
    (if split then queueBytes k else List.replicate 0xA00 0)
  if !full then head
  else
    head ++ smallBytes x ++ x.vec.masks.toList.flatMap (fun m => natBytes 8192 m.toNat) ++
    (regsUnder (declOf (s.declIn h))).flatMap (fun r => natBytes vb (x.vec.reg r).toNat) ++
    (if split then (List.range 4).flatMap fun q =>
        let imgs := k.vq.toList.getD q [] ++ (match k.part.toList.getD q none with | some p => [p] | none => [])
        padTo (4 * vb) (imgs.flatMap fun i => natBytes vb i.bits.toNat)
      else [])

/-- The places of n bytes from `va`, a 4 KiB piece at a time, each in class 0 or 1 with `need` (R331). -/
def State.pieces (s : State) (c : Ctx) (need : Need) (va : Nat) : Nat → Option (List (Nat × Nat × Option (Nat × Nat × Bool)))
  | 0 => some []
  | n + 1 =>
    match s.resolve c need va with
    | .ok (.phys cls pa, leaf) =>
      if cls ≤ 1 then (s.pieces c need (va + 4096) n).map ((physKey cls pa, va, leaf) :: ·) else none
    | _ => none

/-- The image written at `xsave`; none when R331 forbids it or a page refuses. -/
def State.writeImage (s : State) (h : Nat) (pc : Word) (full : Bool) : Option State :=
  let x := (s.hartAt h).tr.xsave.toNat
  if x = 0 || x % 4096 ≠ 0 then none else
  let bs := s.imageBytes h pc full
  let c := s.ctxOf h
  match s.pieces c .store x (ceilDiv bs.length 4096) with
  | none => none
  | some ps =>
    some (ps.zipIdx.foldl (fun s ((key, va, leaf), i) =>
      let s := s.noteLeaf c va true leaf
      { s with mem := memWriteN s.mem key ((bs.drop (4096 * i)).take 4096) }) s)

/-- n bytes of an image read at an address, and the state with the pages noted; none when a page refuses. -/
def State.readImage (s : State) (c : Ctx) (va n : Nat) : Option (State × List Byte) :=
  (s.pieces c .load va (ceilDiv n 4096)).map fun ps =>
    (ps.foldl (fun s (_, a, leaf) => s.noteLeaf c a false leaf) s,
      ps.zipIdx.flatMap fun ((key, _, _), i) => memReadN s.mem key (min 4096 (n - 4096 * i)))

/-- A declaration in force in place of `old`: where it is another, registers and tags read zero (R131). -/
def VecState.declare (v : VecState) (old code : BitVec 2) : VecState :=
  if code = old then { v with cur := code }
  else { v with cur := code, regs := Vector.replicate 42 0, tags := Vector.replicate 42 0 }

/-- The base, scale and queue regions put back, on a core where the declaration `old` is in force (R132, R332, R333, R346). -/
def Hart.fromBase (x : Hart) (old : BitVec 2) (im : List Byte) : Hart :=
  let w := fun off => fx im off 8
  let v := x.vec.declare old (BitVec.ofNat 2 (nbits (w 0x168) 8 2))
  { x with
    pc := w64 (w 0)
    g := Vector.ofFn fun (i : Fin 32) => if i.val = 0 then 0 else w64 (w (8 * i.val))
    tr := { x.tr with
      xcause := w64 (w 0x100), xpc := w64 (w 0x108), xval := w64 (w 0x110), xvec := w64 (w 0x118),
      hl := nbit (w 0x120) 0, ss := nbit (w 0x120) 1, tne := nbit (w 0x120) 2, ppend := false,
      xsave := w64 (w 0x128), est := w64 (w 0x130), ecm := w64 (w 0x138),
      fmode := BitVec.ofNat 9 (w 0x148), fflags := BitVec.ofNat 5 (w 0x150), retcnt := w64 (w 0x160) }
    dirty := Dirty.ofWord (w 0x140)
    mxcfg := w64 (w 0x158)
    vec := { v with pend := BitVec.ofNat 2 (nbits (w 0x168) 0 2)
                    scale := Vector.ofFn fun (i : Fin 256) => BitVec.ofNat 16 (fx im (0x400 + 2 * i.val) 2) } }

/-- The remaining regions of a full image (R333). -/
def Hart.fromFull (x : Hart) (im : List Byte) (vb : Nat) : Hart :=
  let w := fun off => w64 (fx im off 8)
  let d := declOf x.vec.cur
  let v := { x.vec with
    vtype := w 0x1100, vl := w 0x1108, vlb := w 0x1110, strip := w 0x1130, stripaddr := w 0x1138,
    masks := Vector.ofFn fun (k : Fin 8) => BitVec.ofNat mregBits (fx im (0x2000 + 8192 * k.val) 8192) }
  let v := (regsUnder d).zipIdx.foldl (fun v (r, j) => v.setReg r (BitVec.ofNat vregBits (fx im (0x12000 + vb * j) vb))) v
  let v := ((v.setWindow 0 (fx im 0x1118 8) d).setWindow 1 (fx im 0x1120 8) d).setWindow 2 (fx im 0x1128 8) d
  { x with
    gcnt := w 0x1000, gsa := w 0x1008, gsb := w 0x1010, gsd := w 0x1018, zseed := w 0x1020,
    bob := Vector.ofFn fun (i : Fin 8) => w (0x1040 + 8 * i.val),
    sig := Vector.ofFn fun (i : Fin 16) => w (0x1080 + 8 * i.val),
    vec := { v with sel := BitVec.ofNat 2 (fx im 0x1140 8) } }

/-- The images the core holds in a vector queue, the one under assembly last. -/
def Core.images (k : Core) (q : Nat) : List VReg :=
  (k.vq.toList.getD q [] ++ (k.part.toList.getD q none).toList).map (·.bits)

/-- What the storage of a vector queue holds, entry by entry from the head of the queue on. -/
def Core.held (k : Core) (q : Nat) : List (Option VReg) := (k.images q).map some ++ k.left.toList.getD q []

/-- Image j of a vector queue as the core holds it: what the last context left there (R346); a free value where no context
has filled the entry (log 15). -/
def Core.vqHeld (k : Core) (fresh q j : Nat) : VReg :=
  ((k.held q).getD j none).getD (Config.queueFill (fresh + 4 * q + j))

/-- A core as the next task finds it: its queues empty, their storage as it was left. -/
def Core.leave (k : Core) : Core := { Core.init with left := Vector.ofFn fun (q : Fin 4) => k.held q }

/-- The queues put back from an access hart's image: the entries, counts and tags of the queue region, and the vector
images of a full one. A partial image has none, and the queues keep what their storage holds (R331, R332, R346). -/
def Core.fromImage (k : Core) (im : List Byte) (full : Bool) (nregs vb fresh : Nat) : Core :=
  let sq := Vector.ofFn fun (q : Fin 4) =>
    (List.range (fx im (0x800 + q.val) 1)).map fun j => w64 (fx im (0x600 + 128 * q.val + 8 * j) 8)
  let bq := (List.range (fx im 0x804 1)).map fun i => nbit (fx im 0x810 8) i
  let count := fun q => fx im (0x805 + q) 1 + boolNat (nbit (fx im 0x818 8) q)
  let img := fun q j => (VqImage.mk
    (if full then BitVec.ofNat vregBits (fx im (0x12000 + vb * nregs + vb * (4 * q + j)) vb) else k.vqHeld fresh q j)
    (BitVec.ofNat 3 (fx im (0x820 + 4 * q + j) 1)))
  { k with
    sq := sq
    bq := bq
    vq := Vector.ofFn fun (q : Fin 4) => (List.range (fx im (0x805 + q.val) 1)).map (img q.val)
    part := Vector.ofFn fun (q : Fin 4) =>
      if nbit (fx im 0x818 8) q.val then some (img q.val (fx im (0x805 + q.val) 1)) else none
    left := Vector.ofFn fun (q : Fin 4) => (k.held q).drop (count q.val) }

/-- A hart's context put back from its image at `va` (R332, R333, R346); none when the image cannot be read. The image's
own declaration gives its layout (R331). -/
def State.restore (s : State) (h va : Nat) (full : Bool) : Option State :=
  let c := s.ctxOf h
  match s.readImage c va 0x1000 with
  | none => none
  | some (s, base) =>
    let x := (s.hartAt h).fromBase (s.declIn h) base
    let split := s.isSplit h && slotOf h = 0
    if !full then
      let x := { x with tr := { x.tr with hl := true }, dirty := { x.dirty with von := false, mon := true } }
      let s := s.setHart h x
      some (if split then s.setCore (coreOf h) ((s.coreAt (coreOf h)).fromImage base false 0 0 s.fresh) else s)
    else
      let vb := vregBits * s.laneGroups h / declOf x.vec.cur / 8
      let nregs := (regsUnder (declOf x.vec.cur)).length
      match s.readImage c va (0x12000 + vb * nregs + if split then 16 * vb else 0) with
      | none => none
      | some (s, im) =>
        let s1 := s.setHart h (x.fromFull im vb)
        some (if split then s1.setCore (coreOf h) ((s1.coreAt (coreOf h)).fromImage im true nregs vb s.fresh) else s1)

end Sys2Proof.Machine
end

