-- ==== Sys2Proof/Machine/Ops.lean ====
section
/-!
DEFINITION. The operations every meaning shares: retiring an instruction, taking an exception and leaving one, forwards
and switches (R322-R341), and how the effect of one instruction becomes an outcome.
DEDUCED (readings): logs 18, 20, 26, 27.
-/
namespace Sys2Proof.Machine

/-! ## Retirement (R351, R353, R360) -/

/-- One instruction of a hart counted, its result computed now (R348); a step armed by `tret` comes due at task level (R341). -/
def State.retire (s : State) (h : Nat) : State :=
  let x := s.hartAt h
  let due := x.stepArm && !x.tr.hl
  let x := { x with
    tr := { x.tr with retcnt := x.tr.retcnt + 1 },
    suspects := 0,
    lastAt := s.cycle,
    stepArm := x.stepArm && !due,
    pending := { x.pending with step := x.pending.step || due } }
  ((s.setHart h x).count h fun k => { k with kret := k.kret + 1 }).hashRecord h

/-- A completed instruction: the next PC, the hart moving on. -/
def State.finish (s : State) (h : Nat) (pc : Word) : State :=
  let x := s.hartAt h
  (s.setHart h { x with pc := pc, run := .running, resuming := false, lim := none }).retire h

/-! ## Fault records (R326) -/

/-- The 64 bytes of a fault record. -/
structure FaultRec where
  cause : Nat
  dbl : Bool
  dir : Bool
  lost : Bool
  pc : Word
  val : Word
  est : Word
  ecm : Word
  task : Nat
  hart : Nat
  frame : Nat
  tick : Nat
  deriving DecidableEq, Repr

def FaultRec.bytes (r : FaultRec) : List Byte :=
  words8 [r.cause % 256 + 256 * boolNat r.dbl + 512 * boolNat r.dir + 65536 * (if r.lost then 31 else 0),
    r.pc.toNat, r.val.toNat, nbits r.est.toNat 0 48 + 2 ^ 48 * nbits r.ecm.toNat 0 3, r.task, r.hart, r.frame, r.tick]

/-- A record to a Zenith core. -/
def State.toZenith (s : State) (z : Nat) (r : List Byte) : State :=
  { s with mailbox := tset s.mailbox z (tget [] s.mailbox z ++ [r]) }

/-- Bytes written one by one where a task's pages allow it; none where one does not translate (R326). -/
def State.writeVa (s : State) (c : Ctx) (va : Nat) : List Byte → Option State
  | [] => some s
  | b :: bs =>
    match s.resolve c .store va with
    | .ok (.phys cls pa, leaf) =>
      let s := s.noteLeaf c va true leaf
      { s with mem := memWrite s.mem (physKey cls pa) b }.writeVa c (va + 1) bs
    | .ok (.pub i off, leaf) =>
      let s := s.noteLeaf c va true leaf
      { s with mem := memWrite s.mem (s.key (.pub i off)) b }.writeVa c (va + 1) bs
    | _ => none

/-- A record to a handler region: written at its `arg`, its task launched, with the core of the forwarded trap noted (R77);
else to Zenith core 0 (R326). -/
def State.toHandler (s : State) (die handler : Nat) (core : Option Nat) (r : List Byte) : State :=
  let e := s.effVals (s.chainOf handler 8).1
  let c : Ctx := { cluster := die * 64, core := die * 256, asn := e.ptroot % 65536, root := nbits e.ptroot 16 36 * 65536, rcb := handler }
  match (if rcbAt handler then s.writeVa c e.arg r else none) with
  | none => s.toZenith 0 r
  | some s1 =>
    match s1.enqueue die handler with
    | (s2, 0) => (match s2.task? handler with | some t => s2.setTask handler { t with claim := core } | none => s2)
    | (s2, _) => s2.toZenith 0 r

/-- A record delivered to the stopped task's fault domain, or left waiting, in arrival order, while the domain's handler
lives or an earlier record waits (R326). -/
def State.deliver (s : State) (t : Task) (rcb : Nat) (r : List Byte) : State :=
  let s := s.addChain 0xA0 1 t.eff.chain
  if t.eff.fzen then s.toZenith t.eff.fzidx r
  else if (s.task? t.eff.fhandler).isSome || s.records.any (fun r => r.dom = t.eff.fhandler) then
    { s with records := s.records ++ [{ dom := t.eff.fhandler, rcb := rcb, record := r }] }
  else s.toHandler t.die t.eff.fhandler (some t.core) r

/-! ## Stopping a hart -/

/-- A hart that no longer issues. -/
def State.halt (s : State) (h : Nat) : State :=
  (s.setHart h { s.hartAt h with run := .stopped, lim := none }).traceStop h

/-- A pre-emption request to a hart (R332); two before the halt count as one. -/
def State.requestPre (s : State) (h : Nat) : State :=
  let x := s.hartAt h
  match x.run with
  | .running => s.setHart h { x with tr := { x.tr with ppend := true } }
  | .waiting _ => s.setHart h { x with tr := { x.tr with ppend := true } }
  | _ => s

/-- The declaration in force on a core's task: the execute hart's in split mode (R132). -/
def State.declOn (s : State) (t : Task) : BitVec 2 :=
  (s.hartAt (if t.eff.split then 2 * t.core + 1 else 2 * t.core)).vec.cur

/-- The task's record of a stopped hart: its image and what it resumes at, the causes it holds, the declaration and the
projection slots, and the phase the stop leads to. -/
def State.noteImage (s : State) (h : Nat) (phase : Phase) (frame kind : Nat) (pc : Word) : State :=
  let rcb := (s.hartAt h).rcb
  match s.task? rcb with
  | none => s
  | some t =>
    let phase := if t.phase = .orphaned || (t.phase = .forwarded && phase = .bound) then t.phase else phase
    let proj := if (s.coreAt t.core).owner = rcb then (s.coreAt t.core).proj.toList else t.proj
    s.setTask rcb { t with
      phase := phase, image := tset t.image (slotOf h) (frame, kind), proj := proj, decl := s.declOn t,
      saved := tset t.saved (slotOf h)
        { pc := pc.toNat, xpc := (s.hartAt h).tr.xpc.toNat, est := (s.hartAt h).tr.est, ecm := (s.hartAt h).tr.ecm,
          cut := (s.hartAt h).cut },
      held := tset t.held (slotOf h) (s.hartAt h).pending
      rest := tset t.rest (slotOf h) (s.hartAt h).rest }

/-- The partner of a split task's hart. -/
def partnerOf (h : Nat) : Nat := if slotOf h = 0 then h + 1 else h - 1

/-- The other hart of a split task is asked to stop too (R332). -/
def State.requestPartner (s : State) (h : Nat) : State :=
  if s.isSplit h then s.requestPre (partnerOf h) else s

/-- A copy of `shsync` stopped by the engine: a free number of its bytes have moved (R318, log 11). -/
def State.shsyncPart (s : State) (h : Nat) : State :=
  let x := s.hartAt h
  match x.run with
  | .waiting w =>
    (match w.instr with
      | .shsync _ a b c =>
        if w.mark = 0 then s else
        let e := s.handle (handleIndex (x.reg a).toNat)
        let n := min (x.reg b).toNat (Config.copyProgress s.fresh)
        if w.mark % 2 = 0 then s.copyBacking e.back1 e.back0 (x.reg c).toNat n
        else s.copyBacking e.back0 e.back1 (x.reg c).toNat n
      | _ => s)
  | _ => s

/-- A hart taken out of a wait: an arrival at a barrier is withdrawn (R313), a copy of `shsync` stops (R318). -/
def State.withdraw (s : State) (h : Nat) : State :=
  let s := s.shsyncPart h
  let x := s.hartAt h
  match x.run with
  | .waiting w =>
    let s := s.setHart h { x with run := .running }
    (match w.instr with
      | .bar id _ _ =>
        let c := s.clusterAt (clusterOf h)
        let b := c.bars[id.toNat]
        s.setCluster (clusterOf h) { c with bars := c.bars.set id.toNat { b with count := b.count - 1 } }
      | _ => s)
  | _ => s

/-- The pre-emption request of a hart is done with. -/
def State.clearPre (s : State) (h : Nat) : State :=
  s.setHart h { s.hartAt h with ptaken := false, tr := { (s.hartAt h).tr with ppend := false } }

/-- A hart stopped where it stands by a forward of its task: every slice performs and the full image is written where it
can be. Answers the image's address and kind. -/
def State.stopForward (s : State) (h : Nat) (pc : Word) : State × Nat × Nat :=
  let s := ((s.withdraw h).drain h).clearPre h
  let x := s.hartAt h
  let (s, frame, kind) := match s.writeImage h pc true with
    | some s' => (s', x.tr.xsave.toNat, 2)
    | none => (s, 0, 0)
  (((s.charge x.rcb).noteImage h .forwarded frame kind pc).halt h, frame, kind)

/-- The record of a direct forward, delivered (R326, R333). -/
def State.recordForward (s : State) (h cause : Nat) (val : Word) (dbl : Bool) (pc : Word) (frame kind : Nat) : State :=
  let x := s.hartAt h
  match s.task? x.rcb with
  | none => s
  | some t =>
    s.deliver t x.rcb (FaultRec.bytes
      { cause := cause, dbl := dbl, dir := true, lost := kind = 0, pc := pc, val := val, est := x.tr.est, ecm := x.tr.ecm,
        task := x.rcb, hart := h, frame := frame, tick := s.tick })

/-- The other hart of a forwarded split task stops with its state saved, entering no handler and adding nothing to `cpre`
(R79, R333); where its image cannot be written it is forwarded itself, with `cause`. -/
def State.stopPartner (s : State) (h cause : Nat) : State :=
  let p := partnerOf h
  if s.isSplit h && (s.hartAt p).run.active then
    let pc := (s.hartAt p).pc
    let (s, frame, kind) := s.stopForward p pc
    if kind = 0 then s.recordForward p cause 0 false pc frame kind else s
  else s

/-- A hart stopped by a forward, its record delivered. -/
def State.forwardHart (s : State) (h cause : Nat) (val : Word) (dbl : Bool) (pc : Word) : State :=
  let (s, frame, kind) := s.stopForward h pc
  s.recordForward h cause val dbl pc frame kind

/-- A direct forward (R333): the hart stops, its partner too, and the record goes to the fault domain. -/
def State.directForward (s : State) (h cause : Nat) (val : Word) (dbl : Bool) (pc : Word) : State :=
  (s.forwardHart h cause val dbl pc).stopPartner h (if cause = 15 then 15 else 16)

/-- A direct switch for a pre-emption request (R333): as a forward, without a record; a context whose image cannot be
written is forwarded with cause 16 instead. -/
def State.directSwitch (s : State) (h : Nat) (pc : Word) : State :=
  let s := (s.withdraw h).drain h
  let s := s.clearPre h
  let x := s.hartAt h
  match s.writeImage h pc true with
  | none => s.directForward h 16 0 false pc
  | some s =>
    let s := s.charge x.rcb
    let s := match s.task? x.rcb with
      | some t => s.addChain 0xB0 1 t.eff.chain
      | none => s
    ((s.noteImage h .bound x.tr.xsave.toNat 2 pc).halt h).requestPartner h

/-! ## Taking an exception (R325) -/

/-- Trap entry of a hart. `resume` is what `xpc` takes; `sync` tells a synchronous cause, which at handler level is a
double trap; a machine check is asynchronous however it is met (R322). The PC is always even (R45). -/
def State.takeTrap (s : State) (h cause : Nat) (val resume : Word) (sync : Bool) : State :=
  let s := s.withdraw h
  let s := s.setHart h { s.hartAt h with run := .running, lim := none }
  let x := s.hartAt h
  if x.tr.hl && sync && cause ≠ 25 then s.directForward h cause val true resume
  else if cause = 15 || cause = 25 || cause = 27 || x.tr.xvec = 0 then s.directForward h cause val false resume
  else
    s.setHart h { x with
      pc := x.tr.xvec &&& ~~~1
      stepArm := false
      tr := { x.tr with xcause := w64 cause, xval := val, xpc := resume, hl := true, ss := false } }

/-- Leaving handler level (R341): task level at `xpc`; a step is armed if `ss` was 1. -/
def State.leaveTrap (s : State) (h : Nat) : State :=
  let x := s.hartAt h
  s.setHart h { x with
    pc := x.tr.xpc
    resuming := true
    ptaken := false
    stepArm := x.tr.ss
    tr := { x.tr with hl := false } }

/-! ## Effects -/

/-- A synchronous trap that resumes at the next word, once its instruction has retired (R342, R351): no single step is
taken after it (R341), and `est` is 0 (R142). -/
def State.retireTrap (s : State) (h cause : Nat) (val resume : Word) : State :=
  let x := s.hartAt h
  let s := (s.setHart h { x with stepArm := false, tr := { x.tr with est := 0 } }).retire h
  s.takeTrap h cause val resume true

/-- What one instruction did. -/
inductive Eff where
  | done (s : State)                                   -- completed; the next word follows
  | jump (s : State) (pc : Word)                       -- completed; `pc` follows
  | trap (s : State) (cause : Nat) (val : Word)        -- trapped at its own address
  | trapNext (s : State) (cause : Nat) (val : Word)    -- took effect as a trap that resumes at the next word
  | wait (s : State) (queue : Option Nat) (mark : Nat) -- waits, nothing done
  | part (s : State)                                   -- stopped at the element limit, to be continued
  | out (s : State)                                    -- the hart has left this instruction by its own means

/-- The effect as an outcome: `len` is the length of the word or convoy in bytes. -/
def commit (i : Instr) (len : Nat) (e : Eff) : Host.Outcome State Fault Refusal :=
  match e with
  | .done s => .next (s.finish s.turn (s.cur.pc + w64 len))
  | .jump s pc => .next (s.finish s.turn pc)
  | .trap s c v => .next (s.takeTrap s.turn c v s.cur.pc true)
  | .trapNext s c v => .next (s.retireTrap s.turn c v (s.cur.pc + w64 len))
  | .wait s q m =>
    let x := s.cur
    let since := match x.run with
      | .waiting w => if w.instr = i then w.since else s.tick
      | _ => s.tick
    .next (s.setCur { x with run := .waiting { instr := i, since := since, queue := q, mark := m } })
  | .part s => .next (s.setCur { s.cur with run := .running, lim := none })
  | .out s => .next s

/-- The record of a wait, while the hart waits in this instruction. -/
def State.waitRec (s : State) (i : Instr) : Option WaitRec :=
  match s.cur.run with
  | .waiting w => if w.instr = i then some w else none
  | _ => none

/-! ## Stores of the running hart -/

/-- A number of the running instruction's own, by member inside a convoy. -/
def State.opId (s : State) : Nat := s.fresh + 2 ^ 40 * (s.cur.tr.ecm.toNat % 8)

/-- A write of the running hart performs: a release fence before it has its release write (R309). -/
def State.clearFence (s : State) : State := if s.cur.relFence then s.setCur { s.cur with relFence := false } else s

/-- A store of the running hart; the first after a release fence is that fence's release write (R309, R358). -/
def State.storeNext (s : State) (slice group : Nat) (va : Nat) (bytes mask : List Byte) : State × Option Nat :=
  match s.storeIn s.turn slice group s.cur.relFence .store va bytes mask none with
  | (u, none) => (u.clearFence, none)
  | r => r

/-! ## Queue crossings (R261, R307) -/

/-- The commands on the tile rows of the running hart's cluster marked. -/
def State.markCmds (s : State) (f : MxCmd → MxCmd) : State :=
  let c := s.clusterAt (clusterOf s.turn)
  if c.rows.toList.all fun r => r.cmds.isEmpty then s
  else s.setCluster (clusterOf s.turn) { c with rows := c.rows.map fun r => { r with cmds := r.cmds.map f } }

/-- The queues of a core by number: 0 to 3 the `sq`, 4 the flags, 5 to 8 the `vq`; and the entries each holds. -/
def Core.queueLens (k : Core) : List Nat := k.sq.toList.map List.length ++ [k.bq.length] ++ k.vq.toList.map List.length

/-- An entry of queue `q` received: one that was sent before the command, or the first sent after it. -/
def MxCmd.receive (c : MxCmd) (q : Nat) : MxCmd :=
  match c.before.getD q 0 with
  | 0 => { c with seen := true }
  | n + 1 => { c with before := c.before.set q n }

/-- What an append to a queue comes after: it is a release at core scope. -/
def State.queueRelease (s : State) : State := s.drain s.turn

/-- What the receipt of an entry of queue `q` orders: it is an acquire, and the partner's commands before that entry was
sent are seen. -/
def State.queueAcquire (s : State) (q : Nat) : State :=
  (s.drain s.turn).markCmds fun c => if c.hart = partnerOf s.turn then c.receive q else c

/-! ## Issue checks (R47, R128, R329, R97) -/

/-- The causes an instruction that reads or writes vector state meets first: no lanes (23), first use, vector (17). -/
def State.vecIssue (s : State) : Option Nat :=
  if s.laneGroups s.turn = 0 then some 23
  else if !s.cur.tr.hl && !s.cur.dirty.von then some 17
  else none

/-- First use, matrix (18), of a unit-7 instruction. -/
def State.mxIssue (s : State) : Option Nat := if !s.cur.tr.hl && !s.cur.dirty.mon then some 18 else none

/-- Class V, M, B, S, C written (R328). -/
def State.dirtyV (s : State) : State := s.setCur { s.cur with dirty := { s.cur.dirty with dv := true } }
def State.dirtyM (s : State) : State := s.setCur { s.cur with dirty := { s.cur.dirty with dm := true } }
def State.dirtyB (s : State) : State := s.setCur { s.cur with dirty := { s.cur.dirty with db := true } }
def State.dirtyS (s : State) : State := s.setCur { s.cur with dirty := { s.cur.dirty with ds := true } }
def State.dirtyC (s : State) : State := s.setCur { s.cur with dirty := { s.cur.dirty with dc := true } }

/-- `est` and `ecm` set. -/
def State.setEst (s : State) (e : Nat) : State := s.setCur { s.cur with tr := { s.cur.tr with est := w64 e } }
def State.setEcm (s : State) (e : Nat) : State := s.setCur { s.cur with tr := { s.cur.tr with ecm := w64 e } }

/-- `raise` outside any element: a trap met while running leaves `est` 0 (R142); one met at issue leaves it (R344). -/
def raiseEff (s : State) (c : Nat) (v : Word) : Eff := .trap (s.setEst 0) c v

end Sys2Proof.Machine
end

