-- ==== Sys2Proof/Machine/Fetch.lean ====
section
/-!
DEFINITION. Instruction fetch (R44, R45): parcels, words and convoys, with execute permission.
-/
namespace Sys2Proof.Machine

/-- One parcel of the running hart, or why it cannot be fetched. A host-class page and a published page that ends early
fail as R205 and R211 say; an expired Haze tile cannot arise, since no window holds code (R45). -/
def State.fetchParcel (s : State) (va : Nat) : State × Except Nat Nat :=
  let c := s.ctxOf s.turn
  match s.resolve c .fetch va with
  | .error k => (s, .error k)
  | .ok (t, leaf) =>
    if s.beyond t 2 then (s, .error 5)
    else
      let s := s.noteLeaf c va false leaf
      (s, .ok (bytesNat (s.readT t 2)))

/-- n parcels from `va`: the number they spell, or the first that fails with its cause and address. -/
def State.fetchParcels (s : State) (va : Nat) : Nat → State × Except (Nat × Nat) Nat
  | 0 => (s, .ok 0)
  | n + 1 =>
    match s.fetchParcel (va % 2 ^ 64) with
    | (s, .error k) => (s, .error (k, va % 2 ^ 64))
    | (s, .ok p) =>
      match s.fetchParcels (va + 2) n with
      | (s, .error f) => (s, .error f)
      | (s, .ok w) => (s, .ok (p + 65536 * w))

/-- Members of a convoy by its header's `cnt`, none where the header is illegal (R56). -/
def headerMembers (w : Nat) : Nat := if nbits w 12 4 = 12 && nbits w 9 3 ≤ 4 then nbits w 9 3 + 2 else 0

/-- The word at the PC, with every parcel of a convoy's members fetched before any executes (R45). -/
def State.fetchWord (s : State) : State × Except (Nat × Nat) Enc :=
  let pc := s.cur.pc.toNat
  match s.fetchParcel pc with
  | (s, .error k) => (s, .error (k, pc))
  | (s, .ok p) =>
    let n := wordLen (BitVec.ofNat 16 p)
    match s.fetchParcels (pc + 2) (n / 2 - 1) with
    | (s, .error f) => (s, .error f)
    | (s, .ok w) =>
      let word := p + 65536 * w
      if n = 4 then
        match s.fetchParcels (pc + 4) (4 * headerMembers word) with
        | (s, .error f) => (s, .error f)
        | (s, .ok _) => (s, .ok (encOf n word))
      else (s, .ok (encOf n word))

/-- A convoy header. -/
def isCvh : Instr → Bool | .cvh .. => true | _ => false

/-- The next word with the instruction it is, none where it is illegal (R46): a hart that resumes inside a convoy needs a
legal header (R59). -/
def State.fetchNext (s : State) : State × Except (Nat × Nat) (Enc × Option Instr) :=
  match s.fetchWord with
  | (s, .error f) => (s, .error f)
  | (s, .ok w) =>
    (s, .ok (w, (decode w).filter fun i => !(s.cur.resuming && !s.cur.tr.hl && s.cur.tr.ecm ≠ 0 && !isCvh i)))

end Sys2Proof.Machine
end

