-- ==== Sys2Proof/Machine/Atomic.lean ====
section
/-!
DEFINITION. Atomics (R311, R312), fences (R309), acquire and release accesses (R310), the barrier (R313), `wmon` (R315).
DEDUCED (readings): log 38.
-/
namespace Sys2Proof.Machine

/-- Whether a place is host-class (R205). -/
def Target.isHost : Target → Bool
  | .phys cls _ => cls = 2
  | _ => false

/-- The checks of an atomic of n bytes at `va`: its place, or the failing cause (R311, R205). -/
def State.atomicPlace (s : State) (h va n : Nat) (hostOk : Bool) : Except Nat (Target × Option (Nat × Nat × Bool)) :=
  match s.resolve (s.ctxOf h) .both va with
  | .error c => .error c
  | .ok (t, leaf) => if (t.isHost && !hostOk) || s.beyond t n then .error 5 else if s.expired t then .error 6 else .ok (t, leaf)

/-- One single-copy atomic step: `f` gives the new value, none when nothing is written. A write of the running hart is the
next one after its release fence, if one stands (R309). -/
def State.atomicStep (s : State) (h va n : Nat) (t : Target) (leaf : Option (Nat × Nat × Bool)) (f : Nat → Option Nat) :
    State × Nat :=
  let old := bytesNat (s.readT t n)
  match f old with
  | some new => (((s.noteLeaf (s.ctxOf h) va true leaf).writeT t (natBytes n new) []).clearFence, old)
  | none => (s.noteLeaf (s.ctxOf h) va false leaf, old)

/-- The accesses an atomic comes after: an acquire or a release joins every slice, `rlx` gives slice order (R307, R312). -/
def State.atomicJoin (s : State) (ord : BitVec 2) : State := if ord = 0 then s.drainSlice s.turn 0 else s.drain s.turn

/-- An atomic of 4 or 8 bytes (R311, R312). -/
def amoEff (s : State) (sz8 : Bool) (ord : BitVec 2) (d a b : Reg) (hostOk : Bool) (f : Nat → Nat → Nat → Nat → Option Nat) : Eff :=
  let n := if sz8 then 8 else 4
  let va := (s.g a).toNat
  let x := (s.g b).toNat % 2 ^ (8 * n)
  let cmp := (s.g d).toNat % 2 ^ (8 * n)
  if s.isExec s.turn then .trap s 2 0
  else if va % n ≠ 0 then raiseEff s 3 (s.g a)
  else
    let s := s.atomicJoin ord
    match s.atomicPlace s.turn va n hostOk with
    | .error c => raiseEff s c (accessVal c va)
    | .ok (t, leaf) =>
      let (s, old) := s.atomicStep s.turn va n t leaf (fun old => f (8 * n) old x cmp)
      let s := s.sync s.turn 0
      .done (s.setG d (if sz8 then w64 old else (BitVec.ofNat 32 old).signExtend 64))

/-- Signed order of two n-bit numbers. -/
def sless (n a b : Nat) : Bool := sext n a < sext n b

def execAmoSwap (z : Bool) (o : BitVec 2) (d a b : Reg) (s : State) :=
  commit (.amoSwap z o d a b) 4 (amoEff s z o d a b true fun _ _ x _ => some x)
def execAmoAdd (z : Bool) (o : BitVec 2) (d a b : Reg) (s : State) :=
  commit (.amoAdd z o d a b) 4 (amoEff s z o d a b true fun w old x _ => some ((old + x) % 2 ^ w))
def execAmoAnd (z : Bool) (o : BitVec 2) (d a b : Reg) (s : State) :=
  commit (.amoAnd z o d a b) 4 (amoEff s z o d a b false fun _ old x _ => some (old &&& x))
def execAmoOr (z : Bool) (o : BitVec 2) (d a b : Reg) (s : State) :=
  commit (.amoOr z o d a b) 4 (amoEff s z o d a b false fun _ old x _ => some (old ||| x))
def execAmoXor (z : Bool) (o : BitVec 2) (d a b : Reg) (s : State) :=
  commit (.amoXor z o d a b) 4 (amoEff s z o d a b false fun _ old x _ => some (old ^^^ x))
def execAmoMin (z : Bool) (o : BitVec 2) (d a b : Reg) (s : State) :=
  commit (.amoMin z o d a b) 4 (amoEff s z o d a b false fun w old x _ => some (if sless w x old then x else old))
def execAmoMax (z : Bool) (o : BitVec 2) (d a b : Reg) (s : State) :=
  commit (.amoMax z o d a b) 4 (amoEff s z o d a b false fun w old x _ => some (if sless w old x then x else old))
def execAmoMinu (z : Bool) (o : BitVec 2) (d a b : Reg) (s : State) :=
  commit (.amoMinu z o d a b) 4 (amoEff s z o d a b false fun _ old x _ => some (min old x))
def execAmoMaxu (z : Bool) (o : BitVec 2) (d a b : Reg) (s : State) :=
  commit (.amoMaxu z o d a b) 4 (amoEff s z o d a b false fun _ old x _ => some (max old x))
def execAmoCas (z : Bool) (o : BitVec 2) (d a b : Reg) (s : State) :=
  commit (.amoCas z o d a b) 4 (amoEff s z o d a b true fun _ old x cmp => if old = cmp then some x else none)

/-- The 128-bit add (R311). -/
def addqEff (s : State) (ord : BitVec 2) (d a b : Reg) : Eff :=
  let va := (s.g a).toNat
  if s.isExec s.turn then .trap s 2 0
  else if b.getLsbD 0 || d.getLsbD 0 then .trap s 2 0
  else
    let x := if b = 0 then 0 else (s.g (b + 1)).toNat * 2 ^ 64 + (s.g b).toNat
    if va % 16 ≠ 0 then raiseEff s 3 (s.g a)
    else
      let s := s.atomicJoin ord
      match s.atomicPlace s.turn va 16 false with
      | .error c => raiseEff s c (accessVal c va)
      | .ok (t, leaf) =>
        let (s, old) := s.atomicStep s.turn va 16 t leaf (fun old => some ((old + x) % 2 ^ 128))
        let s := s.sync s.turn 0
        .done (if d = 0 then s else (s.setG d (w64 old)).setG (d + 1) (w64 (old / 2 ^ 64)))

def execAmoAddq (o : BitVec 2) (d a b : Reg) (s : State) := commit (.amoAddq o d a b) 4 (addqEff s o d a b)

/-! ## Fences (R309): every one joins the hart's slices -/

def fenceEff (s : State) (release : Bool) : Eff :=
  let s := s.drain s.turn
  .done (if release then s.setCur { s.cur with relFence := true } else s)

def execLsync (s : State) := commit .lsync 4 (fenceEff s false)
def execFenceAcquireCore (s : State) := commit .fenceAcquireCore 4 (fenceEff s false)
def execFenceAcquireCluster (s : State) := commit .fenceAcquireCluster 4 (fenceEff s false)
def execFenceAcquireDevice (s : State) := commit .fenceAcquireDevice 4 (fenceEff s false)
def execFenceAcquireSystem (s : State) := commit .fenceAcquireSystem 4 (fenceEff s false)
def execFenceReleaseCore (s : State) := commit .fenceReleaseCore 4 (fenceEff s true)
def execFenceReleaseCluster (s : State) := commit .fenceReleaseCluster 4 (fenceEff s true)
def execFenceReleaseDevice (s : State) := commit .fenceReleaseDevice 4 (fenceEff s true)
def execFenceReleaseSystem (s : State) := commit .fenceReleaseSystem 4 (fenceEff s true)
def execFenceFullCore (s : State) := commit .fenceFullCore 4 (fenceEff s true)
def execFenceFullCluster (s : State) := commit .fenceFullCluster 4 (fenceEff s true)
def execFenceFullDevice (s : State) := commit .fenceFullDevice 4 (fenceEff s true)
def execFenceFullSystem (s : State) := commit .fenceFullSystem 4 (fenceEff s true)

/-! ## Acquire and release accesses (R310) -/

def accBytes (sz : BitVec 2) : Nat := 2 ^ sz.toNat

/-- An acquire read is a join of the hart's slices (R307, R310). -/
def ldAcqEff (s : State) (sz : BitVec 2) (d a : Reg) : Eff :=
  let n := accBytes sz
  let va := (s.g a).toNat
  if s.isExec s.turn then .trap s 2 0
  else if va % n ≠ 0 then raiseEff s 3 (s.g a)
  else
    match (s.drain s.turn).load s.turn 0 va n with
    | (s, .ok bs) => .done ((s.sync s.turn 2).setG d (w64 (bytesNat bs)))
    | (s, .error c) => raiseEff s c (accessVal c va)

/-- Every earlier access of every slice performs before the release write is handed over, which is a sync event as it
performs (R310, R358). -/
def stRelEff (s : State) (sz : BitVec 2) (r a : Reg) : Eff :=
  let n := accBytes sz
  let va := (s.g a).toNat
  if s.isExec s.turn then .trap s 2 0
  else if va % n ≠ 0 then raiseEff s 3 (s.g a)
  else
    let bs := natBytes n (s.g r).toNat
    let s := s.drain s.turn
    match s.storeIn s.turn 0 0 true .store va bs [] none with
    | (s, none) => .done s.clearFence
    | (s, some c) => raiseEff s c (accessVal c va)

def execLdAcq (sz sc : BitVec 2) (d a : Reg) (s : State) := commit (.ldAcq sz sc d a) 4 (ldAcqEff s sz d a)
def execStRel (sz sc : BitVec 2) (r a : Reg) (s : State) := commit (.stRel sz sc r a) 4 (stRelEff s sz r a)

/-! ## The barrier (R313, R314) -/

/-- A waiting participant released: its `bar` has completed. -/
def State.releaseAt (s : State) (id : BitVec 3) (h : Nat) : State :=
  match (s.hartAt h).run with
  | .waiting w =>
    (match w.instr with
      | .bar id' _ _ => if id' = id then (s.finish h ((s.hartAt h).pc + 4)).sync h 3 else s
      | _ => s)
  | _ => s

def barEff (s : State) (i : Instr) (id : BitVec 3) (a : Reg) : Eff :=
  match s.waitRec i with
  | some w => .wait s none w.mark
  | none =>
    let m := (s.g a).toNat
    if m < 1 || m > 8 then .trap s 2 0
    else
      let cl := clusterOf s.turn
      let b := (s.clusterAt cl).bars[id.toNat]
      if b.count ≠ 0 && m ≠ b.target then .trap s 2 0
      else
        let s := s.drain s.turn
        let c := s.clusterAt cl
        if b.count + 1 = m then
          let s := s.setCluster cl { c with bars := c.bars.set id.toNat { count := 0, target := m, release := b.release + 1 } }
          let s := (List.range 8).foldl (fun s k => if 8 * cl + k = s.turn then s else s.releaseAt id (8 * cl + k)) s
          .done (s.sync s.turn 3)
        else
          .wait (s.setCluster cl { c with bars := c.bars.set id.toNat { b with count := b.count + 1, target := m } }) none 0

def execBar (id : BitVec 3) (dev : Bool) (a : Reg) (s : State) :=
  commit (.bar id dev a) 4 (barEff s (.bar id dev a) id a)

/-! ## Waiting on memory (R315) -/

/-- `mark` holds 1 + the limit tick, or 0 for none. -/
def wmonEff (s : State) (i : Instr) (sz : BitVec 2) (t : BitVec 5) (d a : Reg) : Eff :=
  if s.isExec s.turn then .trap s 2 0
  else if sz.toNat < 2 then .trap s 2 0
  else
    let n := accBytes sz
    let va := (s.g a).toNat
    if va % n ≠ 0 then raiseEff s 3 (s.g a)
    else
      let x := (s.g d).toNat % 2 ^ (8 * n)
      let mark := match s.waitRec i with
        | some w => w.mark
        | none => if t = 31 then 0 else s.tick + 2 ^ t.toNat + 1
      match (s.drain s.turn).load s.turn 0 va n with
      | (s, .error c) => raiseEff s c (accessVal c va)
      | (s, .ok bs) =>
        if bytesNat bs ≠ x || (mark ≠ 0 && mark ≤ s.tick + 1) then
          .done ((s.sync s.turn 2).setG d (w64 (bytesNat bs)))
        else .wait s none mark

def execWmon (sz sc : BitVec 2) (t : BitVec 5) (d a : Reg) (s : State) :=
  commit (.wmon sz sc t d a) 4 (wmonEff s (.wmon sz sc t d a) sz t d a)

/-! ## Publication (R316-R318) -/

def pubEff (s : State) (d a : Reg) : Eff :=
  let h := (s.g a).toNat
  if s.isExec s.turn then .trap s 2 0
  else if nbits h 36 28 ≠ 0 then .trap s 2 0
  else
    let s := s.drain s.turn
    let e := s.handle (handleIndex h)
    if !e.hvalid || e.gen ≠ handleGen h then raiseEff s 12 (w64 h)
    else
      let s := (s.flipPhase (handleIndex h)).sync s.turn 6
      .done (s.setG d (if e.phase then 0 else 1))

def execPub (d a : Reg) (s : State) := commit (.pub d a) 8 (pubEff s d a)

/-- Accepted commands and `shsync` copies of a cluster's engine (R235, R318). -/
def State.engineLoad (s : State) (cl : Nat) : Nat :=
  (List.range 8).foldl (fun n k =>
    let x := s.hartAt (8 * cl + k)
    n + (x.slots.toList.filter fun sl => nbits sl.status.toNat 0 2 = 1).length +
      (match x.run with
        | .waiting w => (match w.instr with | .shsync _ _ _ _ => boolNat (w.mark ≠ 0) | _ => 0)
        | _ => 0)) 0

/-- `mark` is 0 until the engine takes the copy, then as in `Hart.noteFlip`. -/
def shsyncEff (s : State) (i : Instr) (d a b c : Reg) : Eff :=
  let h := (s.g a).toNat
  let n := (s.g b).toNat
  let off := (s.g c).toNat
  if s.isExec s.turn then .trap s 2 0
  else if nbits h 36 28 ≠ 0 || n > 524288 then .trap s 2 0
  else
    let e := s.handle (handleIndex h)
    match s.waitRec i with
    | some ⟨_, _, _, k + 1⟩ =>
      let (src, dst) := if k % 2 = 1 then (e.back1, e.back0) else (e.back0, e.back1)
      let t := s.copyBacking src dst off n
      -- an access behind a down link times out (R375)
      if min (s.backingRun src off n) (s.backingRun dst off n) < n then raiseEff t 25 (accessVal 25 0)
      else .done (t.setG d (if k < 2 then 0 else 1))
    | _ =>
      if !e.hvalid || e.gen ≠ handleGen h then raiseEff s 12 (s.g a)
      else if off + n > e.size then raiseEff s 5 (s.g a)
      else if n = 0 then .done (s.setG d 0)
      else if 16 ≤ s.engineLoad (clusterOf s.turn) then .wait s none 0
      else .wait (s.drain s.turn) none (1 + boolNat e.phase)

def execShsync (d a b c : Reg) (s : State) := commit (.shsync d a b c) 8 (shsyncEff s (.shsync d a b c) d a b c)

end Sys2Proof.Machine
end

