-- ==== Sys2Proof/Machine/Elementary.lean ====
section
/-!
DEFINITION. The special functions (R119): each value correctly rounded, by enclosing the exact value between two fixed
point numbers whose leading bits agree. Where no rational value can occur the enclosed value is irrational, so its leading
bits with a sticky rest decide every rounding.
DESIGN CHOICE: log 14.
-/
namespace Sys2Proof.Machine

/-- An enclosure lo ≤ v ≤ hi in units of 2^-p. -/
structure Encl where
  lo : Int
  hi : Int
  deriving DecidableEq, Repr

namespace Sfu

/-- Sums and scalings of enclosures. -/
def add (a b : Encl) : Encl := ⟨a.lo + b.lo, a.hi + b.hi⟩
def sub (a b : Encl) : Encl := ⟨a.lo - b.hi, a.hi - b.lo⟩
def times (a : Encl) (k : Int) : Encl := if k < 0 then ⟨a.hi * k, a.lo * k⟩ else ⟨a.lo * k, a.hi * k⟩
def shl (a : Encl) (k : Nat) : Encl := ⟨a.lo * 2 ^ k, a.hi * 2 ^ k⟩

/-- Products and quotients of enclosures of numbers that are not negative. -/
def mul (p : Nat) (a b : Encl) : Encl := ⟨a.lo * b.lo / 2 ^ p, a.hi * b.hi / 2 ^ p + 1⟩
def div (p : Nat) (a b : Encl) : Encl := ⟨a.lo * 2 ^ p / b.hi, a.hi * 2 ^ p / b.lo + 1⟩

def one (p : Nat) : Encl := ⟨2 ^ p, 2 ^ p⟩

/-- m·2^e at precision p, exact where p covers it. -/
def ofNum (p m : Nat) (e : Int) : Encl :=
  let k := e + p
  if 0 ≤ k then ⟨(m : Int) * 2 ^ k.toNat, (m : Int) * 2 ^ k.toNat⟩
  else ⟨(m : Int) / 2 ^ (-k).toNat, (m : Int) / 2 ^ (-k).toNat + 1⟩

/-- Σ ± z^(2k+1)/(2k+1) for z = 1/q: `alt` gives atan, else atanh. -/
def invSeries (p q : Nat) (alt : Bool) : Nat → Nat → Int → Encl → Encl
  | 0, _, _, acc => ⟨acc.lo - 2, acc.hi + 2⟩
  | n + 1, k, t, acc =>
    -- t encloses z^(2k+1) from below within one unit
    let d : Int := 2 * k + 1
    let lo := t / d
    let hi := (t + 1) / d + 1
    let acc := if alt && k % 2 = 1 then sub acc ⟨lo, hi⟩ else add acc ⟨lo, hi⟩
    invSeries p q alt n (k + 1) (t / ((q : Int) * q)) acc

def atanInv (p q n : Nat) : Encl := invSeries p q true n 0 (2 ^ p / (q : Int)) ⟨0, 0⟩
def atanhInv (p q n : Nat) : Encl := invSeries p q false n 0 (2 ^ p / (q : Int)) ⟨0, 0⟩

/-- ln 2 = 18 atanh(1/26) - 2 atanh(1/4801) + 8 atanh(1/8749). -/
def ln2 (p : Nat) : Encl :=
  add (sub (times (atanhInv p 26 (p / 9 + 4)) 18) (times (atanhInv p 4801 (p / 24 + 4)) 2))
    (times (atanhInv p 8749 (p / 26 + 4)) 8)

/-- π = 16 atan(1/5) - 4 atan(1/239). -/
def pi (p : Nat) : Encl := sub (times (atanInv p 5 (p / 4 + 4)) 16) (times (atanInv p 239 (p / 15 + 4)) 4)

/-- Σ r^i/i! for 0 ≤ r ≤ 1, lower and upper terms. -/
def expSeries (p : Nat) (r : Encl) : Nat → Nat → Encl → Encl → Encl
  | 0, _, t, acc => ⟨acc.lo, acc.hi + t.hi + 1⟩
  | n + 1, i, t, acc =>
    let t : Encl := ⟨t.lo * r.lo / 2 ^ p / i, (t.hi * r.hi / 2 ^ p + 1) / i + 1⟩
    expSeries p r n (i + 1) t (add acc t)

def expUnit (p : Nat) (r : Encl) : Encl := expSeries p r (p / 5 + 20) 1 (one p) (one p)

/-- e^x for an exact x ≥ 0. -/
def exp (p : Nat) (x : Encl) : Encl :=
  let l := ln2 p
  let k := x.lo / l.hi
  shl (expUnit p (sub x (times l k))) k.toNat

/-- Σ (-1)^i θ^(2i+1)/(2i+1)! for 0 ≤ θ ≤ 2. -/
def sinSeries (p : Nat) (sq : Encl) : Nat → Nat → Encl → Encl → Encl
  | 0, _, t, acc => ⟨acc.lo - t.hi, acc.hi + t.hi⟩
  | n + 1, i, t, acc =>
    let d : Int := (2 * i + 2) * (2 * i + 3)
    let u : Encl := ⟨t.lo * sq.lo / 2 ^ p / d, (t.hi * sq.hi / 2 ^ p + 1) / d + 1⟩
    sinSeries p sq n (i + 1) u (if i % 2 = 0 then sub acc u else add acc u)

def sin (p : Nat) (θ : Encl) : Encl := sinSeries p (mul p θ θ) (p / 8 + 20) 0 θ θ

/-- Σ z^(2k+1)/(2k+1) for 0 ≤ z ≤ 1/3. -/
def atanhSeries (p : Nat) (sq : Encl) : Nat → Nat → Encl → Encl → Encl
  | 0, _, t, acc => ⟨acc.lo, acc.hi + t.hi⟩
  | n + 1, k, t, acc =>
    let t := mul p t sq
    let d : Int := 2 * k + 3
    atanhSeries p sq n (k + 1) t (add acc ⟨t.lo / d, t.hi / d + 1⟩)

/-- ln of m/2^l in [1, 2). -/
def lnUnit (p m l : Nat) : Encl :=
  let z := div p (ofNum p (m - 2 ^ l) (-(l : Int))) (ofNum p (m + 2 ^ l) (-(l : Int)))
  times (atanhSeries p (mul p z z) (p / 3 + 4) 0 z z) 2

/-- Σ x^(2n+1)/(1·3·…·(2n+1)). -/
def phiSeries (p : Nat) (sq : Encl) : Nat → Nat → Encl → Encl → Encl
  | 0, _, t, acc => ⟨acc.lo, acc.hi + t.hi + 1⟩
  | n + 1, k, t, acc =>
    let d : Int := 2 * k + 3
    let u := mul p t sq
    let t : Encl := ⟨u.lo / d, u.hi / d + 1⟩
    phiSeries p sq n (k + 1) t (add acc t)

/-- Φ(x) - 1/2 for x ≥ 0, `n` terms of its series. -/
def phiHalf (p n : Nat) (x : Encl) : Encl :=
  let sq := mul p x x
  let s := phiSeries p sq n 0 x x
  let e := exp p ⟨sq.lo / 2, sq.lo / 2⟩
  -- the exponent's own enclosure, at most two units wide
  let e : Encl := ⟨e.lo, e.hi + e.hi * 4 / 2 ^ p + 4⟩
  let root : Encl :=
    let t := times (pi p) 2
    ⟨(isqrt (t.lo * 2 ^ p).toNat : Nat), (isqrt (t.hi * 2 ^ p).toNat + 1 : Nat)⟩
  div p s (mul p e root)

/-- The leading bits of a positive enclosed irrational number, when both ends agree on at least 80 of them. -/
def decide? (p : Nat) (neg : Bool) (v : Encl) : Option Exact :=
  if v.lo ≤ 0 then none else
  let sh := v.hi.toNat.log2 - 110
  let m := v.lo.toNat >>> sh
  if v.hi.toNat >>> sh = m && 2 ^ 80 ≤ m then some (.num neg m ((sh : Int) - p) true) else none

/-- A value a little below m·2^e. -/
def below (neg : Bool) (m : Nat) (e : Int) : Exact := .num neg (m * 2 ^ 120 - 1) (e - 120) true

/-- A nonzero value below, or beyond, every format. -/
def vanishing (neg : Bool) : Exact := .num neg (2 ^ 100) (-20000) true
def enormous : Exact := .num false (2 ^ 100) 20000 true

/-- A decision at precision `p` or, `n` times, at twice the precision before. -/
def decideFrom (f : Nat → Option Exact) : Nat → Nat → Option Exact
  | 0, _ => none
  | n + 1, p => match f p with | some x => some x | none => decideFrom f n (2 * p)

/-- The value decided at the first of 64 doubling precisions that decides it. An exact value that no finite precision
decides is a short binary number, and those the callers answer themselves (log 14). -/
def refine (fn m : Nat) (neg : Bool) (base : Nat) (f : Nat → Option Exact) : Exact :=
  match decideFrom f 64 (base + 160) with
  | some x => x
  | none => .num neg (2 ^ 100 + Config.sfuUnresolved fn m % 2 ^ 100) (-100) true

/-- ⌊log2⌋ of m·2^e, and its bits below one. -/
def top (m : Nat) (e : Int) : Int := (m.log2 : Int) + e
def small (m : Nat) (e : Int) : Nat := 3 * (-(top m e)).toNat

/-- m·2^e is at least n. -/
def atLeast (m : Nat) (e : Int) (n : Nat) : Bool := if 0 ≤ e then n ≤ m * 2 ^ e.toNat else n * 2 ^ (-e).toNat ≤ m

/-- ⌊m·2^e⌋. -/
def floorNat (m : Nat) (e : Int) : Nat := if 0 ≤ e then m * 2 ^ e.toNat else m / 2 ^ (-e).toNat

/-- ⌊±m·2^e⌋ and the fraction above it. -/
def split (neg : Bool) (m : Nat) (e : Int) : Int × Nat :=
  if 0 ≤ e then (if neg then -(m * 2 ^ e.toNat : Nat) else (m * 2 ^ e.toNat : Nat), 0)
  else
    let d := 2 ^ (-e).toNat
    let v := sgn neg m
    (v / d, (v % d).toNat)

/-- sin(π·n/2^k) for 0 ≤ n < 2^(k+1), not a multiple of one half. -/
def sinTurn (fn base n k : Nat) : Exact :=
  let neg := decide (2 ^ k ≤ n)
  let n := n % 2 ^ k
  let n := if 2 * n ≤ 2 ^ k then n else 2 ^ k - n
  refine fn n neg base fun p => decide? p neg (sin p (mul p (pi p) (ofNum p n (-(k : Int)))))

/-- 2^x (R119). -/
def exp2 (neg : Bool) (m : Nat) (e : Int) : Exact :=
  if m = 0 then .ofInt 1
  else if atLeast m e 8192 then (if neg then vanishing false else enormous)
  else
    let (k, fr) := split neg m e
    if fr = 0 then .num false 1 k false
    else
      match refine 3 m false (small m e) fun p =>
        decide? p false (expUnit p (mul p (ln2 p) (ofNum p fr e))) with
      | .num n a b st => .num n a (b + k) st
      | x => x

/-- log2 x for x > 0. -/
def log2 (m : Nat) (e : Int) : Exact :=
  let l := m.log2
  let k := (l : Int) + e
  if m = 2 ^ l then .ofInt k
  else
    refine 4 m (k < 0) 0 fun p =>
      let v := add (div p (lnUnit p m l) (ln2 p)) ⟨k * 2 ^ p, k * 2 ^ p⟩
      if k < 0 then decide? p true ⟨-v.hi, -v.lo⟩ else decide? p false v

/-- 1/√x for x > 0. -/
def rsqrt (m : Nat) (e : Int) : Exact :=
  let k := 262 + m.log2
  let k := if (e + k) % 2 = 0 then k else k + 1
  let r := isqrt (2 ^ k / m)
  .num false r ((-e - k) / 2) (r * r * m ≠ 2 ^ k)

/-- sin(πx) and cos(πx): an integer multiple of one half gives an exact result. -/
def sinpi (neg : Bool) (m : Nat) (e : Int) : Exact :=
  let k := (-e).toNat
  let n := (sgn neg (if 0 ≤ e then m * 2 ^ e.toNat else m) % 2 ^ (k + 1)).toNat
  if n % 2 ^ k = 0 then .zero neg
  else if 2 * n = 2 ^ k then .ofInt 1 else if 2 * n = 3 * 2 ^ k then .ofInt (-1)
  else sinTurn 7 (small m e) n k

def cospi (neg : Bool) (m : Nat) (e : Int) : Exact :=
  let k := max 1 (-e).toNat
  let v := sgn neg (if 0 ≤ e then m * 2 ^ e.toNat * 2 else m * 2 ^ (k - (-e).toNat))
  let n := ((v + 2 ^ (k - 1)) % 2 ^ (k + 1)).toNat
  if n % 2 ^ k = 0 then .zero false
  else if 2 * n = 2 ^ k then .ofInt 1 else if 2 * n = 3 * 2 ^ k then .ofInt (-1)
  else sinTurn 8 (small m e) n k

/-- tanh of ±m·2^e. -/
def tanh (neg : Bool) (m : Nat) (e : Int) : Exact :=
  if m = 0 then .zero neg
  else if atLeast m e 800 then below neg 1 0
  else
    refine 9 m neg (small m e + 4 * floorNat m e) fun p =>
      let q := exp p (ofNum p (2 * m) e)
      decide? p neg (div p (sub q (one p)) (add q (one p)))

/-- 1/(1 + e^-x). -/
def sigmE (p : Nat) (neg : Bool) (m : Nat) (e : Int) : Encl :=
  let q := exp p (ofNum p m e)
  if neg then div p (one p) (add (one p) q) else div p q (add (one p) q)

def sigm (neg : Bool) (m : Nat) (e : Int) : Exact :=
  if m = 0 then .num false 1 (-1) false
  else if atLeast m e 800 then (if neg then vanishing false else below false 1 0)
  else refine 10 m false (small m e + 4 * floorNat m e) fun p => decide? p false (sigmE p neg m e)

/-- x·Φ(x). -/
def gelu (neg : Bool) (m : Nat) (e : Int) : Exact :=
  if m = 0 then .zero neg
  else if atLeast m e 40 then (if neg then vanishing true else below false m e)
  else
    let b := (floorNat m e + 1) * (floorNat m e + 1)
    refine 11 m neg (small m e + 2 * b) fun p =>
      let x := ofNum p m e
      let h := phiHalf p (p + 2 * b) x
      let half : Encl := ⟨2 ^ (p - 1), 2 ^ (p - 1)⟩
      decide? p neg (mul p x (if neg then sub half h else add half h))

/-- x/(1 + e^-x). -/
def silu (neg : Bool) (m : Nat) (e : Int) : Exact :=
  if m = 0 then .zero neg
  else if atLeast m e 800 then (if neg then vanishing true else below false m e)
  else refine 12 m neg (small m e + 4 * floorNat m e) fun p => decide? p neg (mul p (ofNum p m e) (sigmE p neg m e))

end Sfu

/-- A special function by its `op` code 3 to 12, on an exact operand: the value and the flags of the table of R119. -/
def sfu (op : Nat) (x : Exact) : Exact × Nat :=
  match x with
  | .nan s => (.nan false, if s then 1 else 0)
  | .inf neg =>
    (match op with
      | 3 => if neg then (.zero false, 0) else (.inf false, 0)
      | 4 => if neg then (.nan false, 1) else (.inf false, 0)
      | 5 => (.zero neg, 0)
      | 6 => if neg then (.nan false, 1) else (.zero false, 0)
      | 7 => (.nan false, 1)
      | 8 => (.nan false, 1)
      | 9 => (.num neg 1 0 false, 0)
      | 10 => if neg then (.zero false, 0) else (.ofInt 1, 0)
      | _ => if neg then (.zero true, 0) else (.inf false, 0))
  | .num neg m e st =>
    (match op with
      | 3 => (Sfu.exp2 neg m e, 0)
      | 4 => if m = 0 then (.inf true, 2) else if neg then (.nan false, 1) else (Sfu.log2 m e, 0)
      | 5 => if m = 0 then (.inf neg, 2) else (Exact.ofInt 1).div (.num neg m e st)
      | 6 => if m = 0 then (.inf neg, 2) else if neg then (.nan false, 1) else (Sfu.rsqrt m e, 0)
      | 7 => (Sfu.sinpi neg m e, 0)
      | 8 => (Sfu.cospi neg m e, 0)
      | 9 => (Sfu.tanh neg m e, 0)
      | 10 => (Sfu.sigm neg m e, 0)
      | 11 => (Sfu.gelu neg m e, 0)
      | _ => (Sfu.silu neg m e, 0))

end Sys2Proof.Machine
end

