-- ==== Sys2Proof/Machine/Flags.lean ====
section
/-!
DEFINITION. Floating-point flags and their traps (R93, R96), and the conditions of comparisons.
-/
namespace Sys2Proof.Machine

/-- The rounding mode in force (R93). -/
def State.rm (s : State) : Nat := nbits s.cur.tr.fmode.toNat 0 3

/-- Flags ORed into `fflags`. -/
def State.orFlags (s : State) (fl : Nat) : State :=
  if fl = 0 then s else s.setCur { s.cur with tr := { s.cur.tr with fflags := s.cur.tr.fflags ||| BitVec.ofNat 5 fl } }

/-- Whether `fmode` enables a trap on one of the flags (R96). -/
def State.flagTraps (s : State) (fl : Nat) : Bool := fl &&& nbits s.cur.tr.fmode.toNat 3 5 ≠ 0

/-- A scalar floating-point result with the flags it raises: the flags stay set, and a trap leaves g[d] (R96). -/
def fpEff (s : State) (d : Reg) (res : Word) (fl : Nat) : Eff :=
  let s := s.orFlags fl
  if s.flagTraps fl then raiseEff s 13 (w64 fl) else .done (s.setG d res)

/-- The eight conditions of `vcmp` on an order (R158): eq, ne, lt, ge, le, gt. -/
def condEq (o : Ordering) : Bool := o = .eq
def condLt (o : Ordering) : Bool := o = .lt
def condLe (o : Ordering) : Bool := o ≠ .gt
def condGt (o : Ordering) : Bool := o = .gt
def condGe (o : Ordering) : Bool := o ≠ .lt

end Sys2Proof.Machine
end

