-- ==== Sys2Proof/Machine/Sched.lean ====
section
/-!
DEFINITION. Cores and placement: eligibility (R69), lane groups (R71), Haze runs (R200), a task's first instruction
(R17, R330), leaving and resuming a core (R68, R290, R332).
DEDUCED (readings): log 22.
-/
namespace Sys2Proof.Machine

/-- A core runs a task: one has been placed on it and has neither completed nor left, or a hart still issues (R70). -/
def State.coreBusy (s : State) (k : Nat) : Bool :=
  (s.hartAt (2 * k)).run.active || (s.hartAt (2 * k + 1)).run.active ||
    s.tasks.any fun (_, t) => t.core = k && (t.phase = .placed || t.phase = .running)

/-- The priority a bound task counts with (R104). -/
def Task.prioBound (t : Task) : Int := (t.eff.prio : Int) - (if t.lower then 1 else 0)

/-- Segments of a core held by tasks on it other than `rcb`; a preload does not hold its own (R193, R69). -/
def State.segsHeld (s : State) (k rcb : Nat) : Nat :=
  s.tasks.foldl (fun m (r, t) => if r ≠ rcb && t.core = k && t.phase.onCore then m ||| t.segs else m) 0

/-- A tile reserved by some task of the cluster but `rcb` (R200). -/
def State.tileReserved (s : State) (cl rcb tile : Nat) : Bool :=
  s.tasks.any fun (r, t) =>
    r ≠ rcb && t.core / 4 = cl && (t.phase.onCore || t.phase = .preloaded) && t.hzBase ≤ tile && tile < t.hzBase + t.hzTiles

/-- The lowest free run of n tiles at or above `from_`, found by counting free tiles in a row (R200). -/
def State.hazeRun (s : State) (cl rcb n : Nat) : Option Nat :=
  if n = 0 then some 0 else
  let r := (List.range 1024).foldl (fun (acc : Option Nat × Nat) tile =>
    match acc with
    | (some b, k) => (some b, k)
    | (none, k) =>
      if s.tileReserved cl rcb tile then (none, 0)
      else if k + 1 = n then (some (tile + 1 - n), 0) else (none, k + 1)) (none, 0)
  r.1

/-- Whether a core has a running, preloaded or bound task, other than `but` if one is named (R71, R72). -/
def State.coreTaken (s : State) (k : Nat) (but : Option Nat) : Bool :=
  s.coreBusy k || s.tasks.any fun (r, t) => some r ≠ but && t.core = k && (t.phase.onCore || t.phase = .preloaded)

/-- The partition after core k of a cluster is given n groups; none when they cannot be found (R71). -/
def State.giveGroups (s : State) (k n rcb : Nat) : Option Cluster :=
  let c := s.clusterAt (k / 4)
  let mine := c.groups (k % 4)
  let release := fun (asg : BitVec 8) (gs : List Nat) => gs.foldl (fun a g => a &&& ~~~(BitVec.ofNat 8 (2 ^ g))) asg
  let assign := fun (c : Cluster) (g : Nat) =>
    { c with own := BitVec.ofNat 16 (nset c.own.toNat (2 * g) 2 (k % 4)), asg := c.asg ||| BitVec.ofNat 8 (2 ^ g) }
  if n ≤ mine.length then some { c with asg := release c.asg (mine.drop n) }
  else
    let free := (List.range 8).filter fun g => !c.asg.getLsbD g
    let idle := (List.range 8).filter fun g =>
      c.asg.getLsbD g && nbits c.own.toNat (2 * g) 2 ≠ k % 4 && !s.coreTaken (4 * (k / 4) + nbits c.own.toNat (2 * g) 2) (some rcb)
    let need := n - mine.length
    let take := (free ++ idle).take need
    if take.length < need then none else some (take.foldl assign c)

/-- Phases in which a task's lane groups are its own: a stopped task gave its up (R68), and a preload reserves none
(R76). -/
def Phase.hasLanes : Phase → Bool
  | .placed => true | .running => true | _ => false

/-- A hart of a task still issues. -/
def State.issues (s : State) (rcb : Nat) (t : Task) : Bool :=
  t.harts.any fun h => (s.hartAt h).rcb = rcb && (s.hartAt h).run.active

/-- What a task holds now, for the limits of `bres`: segments, tile rows, lane groups, as long as one of its harts runs on
them (R13). -/
def State.holding (s : State) (rcb : Nat) (t : Task) : Nat × Nat × Nat :=
  (popN 8 t.segs,
    ((s.clusterAt (t.core / 4)).rows.toList.filter fun r => r.holder = some rcb).length,
    if t.phase.hasLanes || s.issues rcb t then t.eff.lgreq else 0)

/-- Held by every task but `rcb` whose chain runs through a region; the runner of core `freed`, if one is named, is taken
to have given up its lane groups (R68). DEDUCED (log 22): a preloaded task's segments count, as R76 reserves them, although
R193 has it hold no segment yet. -/
def State.heldUnder (s : State) (region rcb : Nat) (freed : Option Nat) : Nat × Nat × Nat :=
  s.tasks.foldl (fun (a, b, c) (r, t) =>
    if r ≠ rcb && t.eff.chain.contains region && (t.phase.onCore || t.phase = .preloaded) then
      let (x, y, z) := s.holding r t
      (a + x, b + y, c + if some t.core = freed && (t.phase = .running || s.issues r t) then 0 else z)
    else (a, b, c)) (0, 0, 0)

/-- No `bres` limit is exceeded at any level when the task's segments and lane groups are held too (R13, R69). -/
def State.bresOk (s : State) (rcb : Nat) (e : EffVals) (freed : Option Nat) : Bool :=
  (e.resLimits 0).all (fun (r, l) => l = 0 || decide ((s.heldUnder r rcb freed).1 + popN 8 e.segs ≤ l)) &&
  (e.resLimits 32).all (fun (r, l) => l = 0 || decide ((s.heldUnder r rcb freed).2.2 + e.lgreq ≤ l))

/-- The effective values' code object needs n Haze tiles. -/
def State.tilesOf (s : State) (e : EffVals) : Nat := fxHztiles (s.codeAt (handleIndex e.code)).fxo

/-- Stopped by a forward, or orphaned: bound to its core, and run again only by its domain's order (R327). -/
def Phase.forwardedOut : Phase → Bool
  | .forwarded => true | .orphaned => true | _ => false

/-- A handler task of priority `prio` claims a core: the trap that started it was forwarded there, and the core's preload is
of lower priority (R77). -/
def State.claims (s : State) (k rcb prio : Nat) : Bool :=
  (match s.task? rcb with | some t => t.claim = some k | none => false) &&
  s.tasks.any fun (r, t) => r ≠ rcb && t.core = k && t.phase = .preloaded && decide (t.eff.prio < prio)

/-- A task bound to the core stands in the way of one of priority `prio`; the preload of the core and a claiming handler
pass one stopped by a forward (R69, R77, R327). -/
def State.boundBars (s : State) (k rcb prio : Nat) (pass : Bool) : Bool :=
  s.tasks.any fun (r, t) =>
    r ≠ rcb && t.core = k && (t.phase = .bound || (t.phase.forwardedOut && !pass)) && decide ((prio : Int) ≤ t.prioBound)

/-- A core is eligible for a task, its present runner treated as gone when `freed` (R68, R69, R77, R327, R370). DESIGN CHOICE
(log 47): the Haze tiles and `bres` segments of a preload that the pre-emption would drop still count as reserved; R68 has
only the victim's own counted as held. -/
def State.eligible (s : State) (k rcb : Nat) (e : EffVals) (freed : Bool) : Bool :=
  let pre := match s.task? rcb with | some t => decide (t.phase = .preloaded ∧ t.core = k) | none => false
  let claim := s.claims k rcb e.prio
  s.status.dclus.getLsbD (k / 4) &&
  (freed || !s.coreBusy k) &&
  s.tasks.all (fun (r, t) =>
    r = rcb || t.core ≠ k || t.phase ≠ .preloaded || (decide (t.eff.prio < e.prio) && (freed || claim))) &&
  !s.boundBars k rcb e.prio (pre || claim) &&
  (s.segsHeld k rcb &&& e.segs = 0) &&
  (s.giveGroups k e.lgreq rcb).isSome &&
  (s.hazeRun (k / 4) rcb (s.tilesOf e)).isSome &&
  s.bresOk rcb e (if freed then some k else none)

/-- The core R69 picks: a preloaded task waits for its own; a handler takes a core it claims first (R77); else the first
with exactly the groups, else the first eligible; only cores of the die. -/
def State.pickCore (s : State) (die rcb : Nat) (e : EffVals) (pre : Option Nat) : Option Nat :=
  match pre with
  | some k => if s.eligible k rcb e false then some k else none
  | none =>
    let ok := ((List.range 256).map (die * 256 + ·)).filter fun k => s.eligible k rcb e false
    match ok.find? (fun k => s.claims k rcb e.prio) with
    | some k => some k
    | none =>
      match ok.find? (fun k => ((s.clusterAt (k / 4)).groups (k % 4)).length = e.lgreq) with
      | some k => some k
      | none => ok.head?

/-- Whether every hart a task still runs can be switched out (R331). -/
def State.switchable (s : State) (t : Task) : Bool :=
  t.harts.all fun h => !(s.hartAt h).run.active || (s.hartAt h).tr.xsave ≠ 0

/-- Segments cleared on a core (R195). -/
def State.clearSegs (s : State) (k mask : Nat) : State :=
  (List.range 8).foldl (fun s g =>
    if nbit mask g then { s with mem := memClear s.mem (spadKey (k * 2 ^ 19 + g * 65536)) 65536 } else s) s

/-- A run of tiles expired (R17, R201). -/
def State.expireTiles (s : State) (cl base n : Nat) : State :=
  (List.range n).foldl (fun s i => s.setBirth cl (base + i) none) s

/-- The state a starting hart holds (R17, R330); a slot's copy commands belong to the engine and stay (R236). -/
def Hart.start (x : Hart) (rcb : Nat) (pc arg hz : Word) (decl : Nat) : Hart :=
  let code : BitVec 2 := BitVec.ofNat 2 decl
  { Hart.init with
    run := .running, rcb := rcb, pc := pc
    g := (Hart.init.g.set 1 arg).set 2 hz
    vec := { VecState.init with pend := code, cur := code }
    slots := x.slots, dues := x.dues, stores := x.stores, lastAt := x.lastAt, digest := x.digest, lastNotice := x.lastNotice }

/-- The Haze window address of a task's tiles (R17). -/
def hazeAddr (base n : Nat) : Word := if n = 0 then 0 else w64 (0xF200000000000000 + base * 4096)

/-- Tasks ordered to run again join the front of their queues as the preload of their core starts or is gone (R77). -/
def State.joinRerun (s : State) (k : Nat) : State :=
  s.tasks.foldl (fun s (r, t) =>
    if t.core = k && t.phase = .rerun then
      (s.setTask r { t with phase := .queued, core := 0 }).returnQueue t.die t.eff.prio r false
    else s) s

/-- Images a preload of the core has in segments that the starting task takes are copied again after it (R76, R77). -/
def State.recopy (s : State) (k segs : Nat) : State :=
  { s with tasks := s.tasks.map fun (r, u) =>
      if u.core = k && u.phase = .preloaded then (r, { u with toCopy := u.toCopy ||| (u.eff.preSegs &&& segs) }) else (r, u) }

/-- A placed task's first instructions: its harts start (R17, R70, R195, R290, R330), what earlier harts of its slots stored
performed before (R191). -/
def State.startTask (s : State) (rcb : Nat) (t : Task) : State :=
  let o := s.codeAt (handleIndex t.eff.code)
  let inst := o.insts.getD t.inst { vbits := 0, addrs := [], used := 0 }
  let s := t.harts.foldl (fun s h => s.drain h) s
  let s := s.expireTiles (t.core / 4) t.hzBase t.hzTiles
  let s := s.setCore t.core { (s.coreAt t.core).leave with owner := rcb }
  let hz := hazeAddr t.hzBase t.hzTiles
  let one := fun (s : State) (h entry : Nat) =>
    (s.setHart h ((s.hartAt h).start rcb (w64 (entryAddr inst entry)) (w64 t.eff.arg) hz t.eff.decl)).sync h 8
  let s := one s (2 * t.core) t.eff.entry
  let s := if t.eff.split then one s (2 * t.core + 1) t.eff.entry2 else s
  let s := s.setTask rcb { t with phase := .running, since := s.cycle, placedAt := s.tick, lower := false, ended := 0 }
  (s.recopy t.core t.eff.segs).joinRerun t.core

/-- A task's slot harts cleared from its core, their stores performed (R191), and its missed promises gone (R247). -/
def State.clearHarts (s : State) (rcb : Nat) (t : Task) : State :=
  t.harts.foldl (fun s h =>
    let x := s.hartAt h
    let s := if x.dues.isEmpty then s else s.setHart h { x with dues := x.dues.filter (·.2 ≠ rcb) }
    if (s.hartAt h).rcb = rcb then
      let s := s.drain h
      s.setHart h { s.hartAt h with run := .empty }
    else s) s

/-- The tile rows of a task released, their pending commands lost (R254, R265). -/
def State.detachAll (s : State) (rcb : Nat) (cl : Nat) : State :=
  let c := s.clusterAt cl
  s.setCluster cl { c with rows := c.rows.map fun r => if r.holder = some rcb then TileRow.init else r }

/-! ## Copy slots (R248, R251) -/

/-- Slot n of a hart. -/
def State.slotAt (s : State) (h : Nat) (n : Fin 4) : CopySlot := (s.hartAt h).slots[n]
def State.setSlot (s : State) (h : Nat) (n : Fin 4) (sl : CopySlot) : State :=
  let x := s.hartAt h
  s.setHart h { x with slots := x.slots.set n sl }

/-- Fields of the status word (R248). -/
def CopySlot.state (sl : CopySlot) : Nat := nbits sl.status.toNat 0 2
def CopySlot.running (sl : CopySlot) : Bool := sl.state = 1
def CopySlot.put (sl : CopySlot) (lo n v : Nat) : CopySlot := { sl with status := w64 (nset sl.status.toNat lo n v) }

/-- An entry of a list taken out: the only one, or one at a free place. -/
def takeFree {α : Type} (n : Nat) : List α → Option (α × List α)
  | [] => none
  | [x] => some (x, [])
  | x :: y :: l => some ((x :: y :: l).getD (n % (l.length + 2)) x, (x :: y :: l).eraseIdx (n % (l.length + 2)))

/-- k of the writes a command has issued perform, in a free order (R241, R383, log 11). -/
def State.copyFlushN (s : State) (h : Nat) (n : Fin 4) : Nat → State
  | 0 => s
  | k + 1 =>
    match (s.slotAt h n).cmd with
    | none => s
    | some c =>
      match takeFree (Config.copyProgress (s.fresh + 128 + k)) c.pend with
      | none => s
      | some (ws, rest) =>
        let s := ws.foldl (fun s w => s.writeT w.1 w.2.1 w.2.2) s
        (s.setSlot h n { s.slotAt h n with cmd := some { c with pend := rest } }).copyFlushN h n k

/-- All of them. -/
def State.copyFlush (s : State) (h : Nat) (n : Fin 4) : State :=
  match (s.slotAt h n).cmd with
  | some c => s.copyFlushN h n c.pend.length
  | none => s

/-- What the harts of a cluster have handed to their slices, and what its engine has issued, performed. -/
def State.quiet (s : State) (cl : Nat) : State :=
  (List.range 8).foldl (fun s i =>
    let h := 8 * cl + i
    (List.range 4).foldl (fun s n => s.copyFlush h ⟨n % 4, Nat.mod_lt _ (by decide)⟩)
      (if (s.hartAt h).stores.isEmpty then s else s.drain h)) s

/-- A command about to stop before its end: what it has issued performs, and a tile it has filled takes its birth from the
last byte it wrote there, unless a later one has given it another (R202). -/
def State.copyStop (s : State) (h : Nat) (n : Fin 4) : State :=
  let s := s.copyFlush h n
  match (s.slotAt h n).cmd with
  | none => s
  | some c =>
    c.fills.foldl (fun s (tile, t) =>
      match s.birth (c.core / 4) tile with
      | some b => if b < t then s.setBirth (c.core / 4) tile (some t) else s
      | none => s) s

/-- A running command of a slot cancelled (R251): the elements moved so far stay. -/
def State.copyCancel (s : State) (h : Nat) (n : Fin 4) : State :=
  if (s.slotAt h n).running then
    let s := s.copyStop h n
    s.setSlot h n { (s.slotAt h n).put 0 2 3 with cmd := none }
  else s

/-- The running commands of a task's slots cancelled. -/
def State.cancelCopies (s : State) (rcb : Nat) (t : Task) : State :=
  t.harts.foldl (fun s h => (List.range 4).foldl (fun s i =>
    let n : Fin 4 := ⟨i % 4, Nat.mod_lt _ (by decide)⟩
    match (s.slotAt h n).cmd with
    | some c => if c.rcb = rcb then s.copyCancel h n else s
    | none => s) s) s

/-- Everything a stopped task holds released (R340): binding, segments, tiles, rows, copies, counters. -/
def State.releaseTask (s : State) (rcb : Nat) (t : Task) : State :=
  let s := s.charge rcb
  let s := (s.cancelCopies rcb t).detachAll rcb (t.core / 4)
  s.clearHarts rcb t

/-- A preload or a placed task taken off its core: `status` [1] clears, the task returns to the front of its queue
(R77). -/
def State.dropPreload (s : State) (rcb : Nat) (t : Task) : State :=
  let s := (s.rcbStatus rcb 1 false).setTask rcb
    { t with phase := .queued, core := 0, segs := 0, hzBase := 0, hzTiles := 0, toCopy := 0, blocks := false }
  (s.returnQueue t.die t.eff.prio rcb t.blocks).joinRerun t.core

/-- The preloads of a core dropped (R68, R77). -/
def State.dropPreloads (s : State) (k : Nat) : State :=
  s.tasks.foldl (fun s (r, t) => if t.core = k && t.phase = .preloaded then s.dropPreload r t else s) s

end Sys2Proof.Machine
end

