-- ==== Sys2Proof/Machine/VType.lean ====
section
/-!
DEFINITION. The element type (R105, R136) and the lengths that follow from it (R128, R138).
DEDUCED (readings): logs 29, 31.
-/
namespace Sys2Proof.Machine

/-- `vtype` by its fields (R136). `ew` and `grp` are decoded: 4 to 64 bits, 1 to 8 registers. -/
structure VT where
  ew : Nat
  ewCode : Nat
  kind : Nat
  grp : Nat
  tail : Bool
  mpol : Bool
  blk : Nat
  skind : Nat
  sat : Bool
  gran : Bool
  deriving DecidableEq, Repr

/-- The width an `ew` code names. -/
def ewBits (c : Nat) : Nat := match c with | 0 => 8 | 1 => 16 | 2 => 32 | 3 => 64 | _ => 4

def VT.ofNat (w : Nat) : VT :=
  { ew := ewBits (nbits w 0 3), ewCode := nbits w 0 3, kind := nbits w 3 4, grp := 2 ^ nbits w 7 2, tail := nbit w 9,
    mpol := nbit w 10, blk := nbits w 11 3, skind := nbits w 14 2, sat := nbit w 16, gran := nbit w 17 }

/-- The combinations of R105. -/
def kindLegal (kind ew skind : Nat) : Bool :=
  match kind with
  | 0 => (ew = 0 || ew = 1 || ew = 2 || ew = 3) && (skind = 0 || (skind = 1 && ew = 0))
  | 1 => (ew = 0 || ew = 1 || ew = 2 || ew = 3) && skind = 0
  | 2 => (ew = 1 || ew = 2 || ew = 3) && skind = 0
  | 3 => ew = 1 && skind = 0
  | 4 => ew = 0
  | 5 => ew = 0
  | 6 => ew = 0
  | 7 => ew = 0
  | 8 => ew = 4
  | 9 => ew = 4
  | 10 => (ew = 2 || ew = 3) && skind ≤ 1
  | 11 => (ew = 2 || ew = 3) && skind ≤ 1
  | 12 => (ew = 2 || ew = 3) && skind ≤ 1
  | _ => false

/-- A value `vtype` accepts (R136). -/
def vtypeLegal (w : Nat) : Bool :=
  nbits w 18 46 = 0 && kindLegal (nbits w 3 4) (nbits w 0 3) (nbits w 14 2) &&
  (nbits w 17 1 = 0 || (10 ≤ nbits w 3 4 && nbits w 3 4 ≤ 12)) && (nbits w 14 2 ≠ 0 || nbits w 11 3 = 0)

/-- The type in force on a hart. -/
def State.vt (s : State) : VT := VT.ofNat s.cur.vec.vtype.toNat

/-- `vlmax` at a register size (R128). -/
def VT.vlmax (t : VT) (vbits : Nat) : Nat := min 65536 (vbits / t.ew * t.grp)

def State.vlmaxOf (s : State) (h : Nat) : Nat := (VT.ofNat (s.hartAt h).vec.vtype.toNat).vlmax (s.vbits h)

/-- `lanes` (R128). -/
def State.lanes (s : State) (h : Nat) : Nat := 64 * s.laneGroups h

end Sys2Proof.Machine
end

