-- ==== Sys2Proof/Machine/Operands.lean ====
section
/-!
DEFINITION. Vector operands (R52, R97, R99, R129, R133-R137, R145), scaled elements (R116, R148-R150), the common frame
(R142, R143) and what the completion of a vector instruction does (R141, R99).
DEDUCED (readings): logs 19, 30, 31. DESIGN CHOICE: log 15.
-/
namespace Sys2Proof.Machine

/-! ## Kinds (R105, R148) -/

/-- The format of a floating kind. -/
def VT.fmt (t : VT) : Option Fmt :=
  match t.kind with
  | 2 => if t.ew = 16 then some .b16 else if t.ew = 32 then some .b32 else some .b64
  | 3 => some .bf16 | 4 => some .e4m3 | 5 => some .e5m2 | 6 => some .e2m3 | 7 => some .e3m2 | 8 => some .e2m1
  | _ => none

def VT.isF (t : VT) : Bool := t.fmt.isSome
def VT.isI (t : VT) : Bool := !t.isF
def VT.coded (t : VT) : Bool := 10 ≤ t.kind
def VT.signed (t : VT) : Bool := t.kind = 0 || t.kind = 9 || t.kind = 11 || t.kind = 12

/-- Bits [7:6] of an FP6 element are written as zero (R106). -/
def VT.clean (t : VT) (raw : Nat) : Nat := if t.kind = 6 || t.kind = 7 then raw % 64 else raw % 2 ^ t.ew

/-- An element read as an integer of the kind. -/
def VT.int (t : VT) (raw : Nat) : Int := if t.signed then sext t.ew raw else (raw % 2 ^ t.ew : Nat)

/-- An element's unscaled exact value. -/
def VT.exact (t : VT) (raw : Nat) : Exact :=
  match t.fmt with
  | some f => f.decode raw
  | none => .ofInt (t.int raw)

/-- An exact integer result narrowed to the kind: wrapped, or clamped under `sat` (R107). -/
def VT.narrow (t : VT) (v : Int) : Nat := wrapN t.ew (if t.sat then clampInt t.signed t.ew v else v)

/-- A scale entry's value (R116, R118). A signalling BF16 NaN stays one, and raises NV where it is an operand (R109). -/
def scaleValue (skind entry : Nat) : Exact :=
  match skind with
  | 1 => if entry % 256 = 255 then .nan false else .num false 1 ((entry % 256 : Nat) - 127) false
  | 2 =>
    let e := nbits entry 5 3; let m := nbits entry 0 5
    if e = 0 then .num false m (-7) false else .num false (32 + m) ((e : Int) - 8) false
  | _ => Fmt.bf16.decode entry

/-- The scale of element e (R116). -/
def State.scaleOf (s : State) (t : VT) (e : Nat) : Exact :=
  scaleValue t.skind (s.cur.vec.scale.toList.getD (e / 2 ^ t.blk) 0).toNat

/-- `elem`: an element's value, scaled, with the flags its reading raises (R116, R142). -/
def State.elemX (s : State) (t : VT) (e raw : Nat) : Exact × Nat :=
  if t.skind = 0 then (t.exact raw, 0) else (t.exact raw).mul (s.scaleOf t e)

/-- `round_to` into the kind: the scaled quotient rounded once (R112, R116). An integer kind takes the quotient rounded
by `rm`, then wrapped or clamped, without a floating-point flag but for a NaN or a scale that has no quotient (R153). -/
def State.writeX (s : State) (t : VT) (e : Nat) (x : Exact) : Nat × Nat :=
  let sc := if t.skind = 0 then Exact.ofInt 1 else s.scaleOf t e
  if sc.isNan || sc.isInf || sc.isZero then ((match t.fmt with | some f => f.nanBits | none => 0), 1)
  else
    let q := if t.skind = 0 then (x, 0) else x.div sc
    match t.fmt with
    | some f =>
      let (b, fl) := f.round s.rm t.sat q.1
      (b, q.2 ||| fl)
    | none =>
      match q.1 with
      | .nan _ => (0, 1)
      | .inf neg => (wrapN t.ew (if neg then intMin t.signed t.ew else intMax t.signed t.ew), 1)
      | .num neg m ex st => (t.narrow (Exact.toInt s.rm neg m ex st).1, 0)

/-- More than 256 scale entries would be used (R116). -/
def State.scaleOver (s : State) (t : VT) : Bool :=
  t.skind ≠ 0 && s.cur.vec.vl ≠ 0 && decide (256 ≤ (s.cur.vec.vl.toNat - 1) / 2 ^ t.blk)

/-! ## Vector specifiers (R52, R97, R129, R133) -/

/-- D of the declaration in force on the hart. -/
def State.declD (s : State) : Nat := declOf (s.declIn s.turn)

/-- A queue specifier's queue. -/
def vqOf (r : VSpec) : Option (Fin 4) := if h : 48 ≤ r.toNat ∧ r.toNat < 52 then some ⟨r.toNat - 48, by omega⟩ else none

/-- Whether specifier `r` is a group of n registers the hart may name, as a destination when `dst`. The `o` and `l`
registers only under grp = 1, where a source of a wider type may still be a group of them (R133, R155, R214).
DESIGN CHOICE (log 47): an access hart's vector instruction all of whose operands are queues runs, whatever its unit
(R70). DESIGN CHOICE (log 47): a queue is one register's image, so a source of more than one register that names one is an
illegal operand under grp = 1 too; R133 says so for grp above 1. -/
def State.vspecOk (s : State) (r : VSpec) (n : Nat) (dst : Bool) : Bool :=
  let k := r.toNat
  let grp1 := s.vt.grp = 1
  let one := n = 1 && grp1
  let access := s.isSplit s.turn && slotOf s.turn = 0
  if k < 32 then !access && k % n = 0 && decide (k + n ≤ s.declD)
  else if k < 40 then !access && grp1 && k % n = 0 && decide (k - 32 + n ≤ s.declD / 4)
  else if k < 42 then !access && grp1 && k % n = 0 && decide (k + n ≤ 42) && !dst
  else
    match vqOf r with
    | some q => one && s.isSplit s.turn && ((q.val < 2) == (access == dst))
    | none => false

/-- The bytes of a group as one number, element i at bit ew·i (R133); a queue's image is the one at its head. -/
def State.groupBits (s : State) (r : VSpec) (n : Nat) : Nat :=
  match vqOf r with
  | some q => (match (s.coreAt (coreOf s.turn)).vq[q] with | i :: _ => i.bits.toNat | [] => 0)
  | none =>
    let vb := s.vbits s.turn
    ((List.range n).map fun i => (s.cur.vec.reg (r.toNat + i)).toNat % 2 ^ vb * 2 ^ (vb * i)).sum

/-- What a destination group holds before the instruction; a queue image under assembly starts free (log 15). -/
def State.destBits (s : State) (r : VSpec) (n : Nat) : Nat :=
  match vqOf r with
  | some q =>
    (match (s.coreAt (coreOf s.turn)).part[q] with
      | some i => i.bits.toNat
      | none => (Config.queueFill s.fresh).toNat % 2 ^ s.vbits s.turn)
  | none => s.groupBits r n

/-- A group written, its tags set (R134, R151). -/
def State.setGroup (s : State) (r : VSpec) (n code bits : Nat) : State :=
  let tag : BitVec 3 := BitVec.ofNat 3 code
  let vb := s.vbits s.turn
  match vqOf r with
  | some q =>
    let k := s.coreAt (coreOf s.turn)
    s.setCore (coreOf s.turn)
      { k with part := k.part.set q (some { bits := BitVec.ofNat vregBits (nbits bits 0 vb), tag := tag }),
               left := if k.part[q].isNone then k.left.set q (k.left[q].drop 1) else k.left }
  | none =>
    let v := (List.range n).foldl (fun v i =>
      (v.setReg (r.toNat + i) (BitVec.ofNat vregBits (nbits bits (vb * i) vb))).setTag (r.toNat + i) tag) s.cur.vec
    (s.setCur { s.cur with vec := v }).dirtyV

/-- The reshuffle before a read at another width: the tags change and the counter of R353 (R134). -/
def State.reshuffle (s : State) (r : VSpec) (n code : Nat) : State :=
  if (vqOf r).isSome then s else
  (List.range n).foldl (fun s i =>
    let k := r.toNat + i
    if (s.cur.vec.tag k).toNat = code then s
    else ((s.setCur { s.cur with vec := s.cur.vec.setTag k (BitVec.ofNat 3 code) }).dirtyV).count s.turn
      fun c => { c with kshuf := c.kshuf + 1 }) s

/-! ## Masks (R130, R137, R144) -/

/-- A mask register as a number. -/
def State.mask (s : State) (m : BitVec 3) : Nat := s.cur.vec.masks[m.toNat].toNat

/-- The governing mask's bits; all ones below `vl` without one. -/
def State.maskBits (s : State) (m : VMask) : Nat := match m with | some k => s.mask k | none => 2 ^ s.cur.vec.vl.toNat - 1

/-- A mask destination written. -/
def State.setMask (s : State) (m : BitVec 3) (bits : Nat) : State :=
  (s.setCur { s.cur with vec := { s.cur.vec with masks := s.cur.vec.masks.set m.toNat (BitVec.ofNat mregBits bits) } }).dirtyV

/-- A mask result with bits 0 to vl-1 given: the bits above follow `tail` (R137). -/
def State.maskTail (s : State) (old bits : Nat) : Nat :=
  let vl := s.cur.vec.vl.toNat
  bits % 2 ^ vl + (if s.vt.tail then 0 else old / 2 ^ vl * 2 ^ vl)

/-! ## The issue of a vector instruction -/

/-- A source: the specifier, the registers of its group, the width code it is read at. -/
structure VRead where
  r : VSpec
  n : Nat
  code : Nat
  deriving DecidableEq, Repr

/-- The overlap rule: a destination group meets a source group that is not the same at the same width (R145). -/
def overlaps (d : VSpec) (n code : Nat) (x : VRead) : Bool :=
  (vqOf d).isNone && (vqOf x.r).isNone && decide (d.toNat < x.r.toNat + x.n) && decide (x.r.toNat < d.toNat + n) &&
    !(d = x.r && n = x.n && code = x.code)

/-- Lane groups that elements below `vl` use (R147). -/
def State.usedGroups (s : State) : Nat := 2 ^ min 8 (ceilDiv s.cur.vec.vl.toNat 64) - 1

/-- The gated groups a vector instruction needs wake (R147, R353). -/
def State.wakeGroups (s : State) : State :=
  let w := s.cur.gated.toNat &&& s.usedGroups &&& (2 ^ s.laneGroups s.turn - 1)
  if w = 0 then s else
  (s.setCur { s.cur with gated := s.cur.gated &&& ~~~(BitVec.ofNat 8 w) }).count s.turn
    fun c => { c with kwake := c.kwake + popN 8 w }

/-- The elements a vector instruction works on: those below `vl`, but for the moves that ignore it (R224-R227). -/
def State.vlN (s : State) : Nat := s.cur.vec.vl.toNat

/-- The governing mask of n elements, as the present run found it. -/
def State.runMask (s : State) (n : Nat) (m : VMask) : Nat :=
  match m with
  | none => 2 ^ n - 1
  | some k => s.cur.runMasks[k.toNat].toNat % 2 ^ n

/-- Element groups of n elements in the present run, from its first element on, and those of them with an active element
(R144). -/
def State.runGroups (s : State) (n : Nat) : List Nat :=
  (List.range (ceilDiv n (max 1 (s.lanes s.turn)))).filter fun g => decide (s.cur.runFrom < max 1 (s.lanes s.turn) * (g + 1))
def State.servedGroups (s : State) (n : Nat) (m : VMask) : Nat :=
  let l := max 1 (s.lanes s.turn)
  let b := s.runMask n m / 2 ^ s.cur.runFrom * 2 ^ s.cur.runFrom
  ((s.runGroups n).filter fun g => nbits b (l * g) l ≠ 0).length

/-! ## Pipe records (R355, R356) -/

/-- A pipe record: type 2 begin, 3 end. Inside a convoy it is held until the chained members end. -/
def State.pipeRecord (s : State) (rtype unit groups : Nat) : State :=
  if !(s.clusterAt (clusterOf s.turn)).trace.on 9 then s else
  match s.cur.pipes with
  | none => s.record s.turn rtype (unit + 256 * groups) s.cur.tr.retcnt.toNat
  | some l =>
    s.setCur { s.cur with pipes := some (l ++ [(rtype, unit + 16 * (s.cur.tr.ecm.toNat % 8) + 256 * groups)]) }

/-- The records of an instruction that its pipe has served to the end, `groups` element groups in this run. -/
def State.pipe (s : State) (unit groups : Nat) : State :=
  if groups = 0 then s else (if s.cur.runFrom = 0 then s.pipeRecord 2 unit 0 else s).pipeRecord 3 unit groups

/-- The begin record of a run over n elements that has reached element `e`: its first active element was served in it. -/
def State.pipeBegin (s : State) (n unit e : Nat) (m : VMask) : State :=
  let b := s.runMask n m
  let first := if unit = 6 then s.cur.runFrom = 0 && s.cur.vec.vlb ≠ 0 else nbits b 0 s.cur.runFrom = 0 && nbits b 0 e ≠ 0
  if first then s.pipeRecord 2 unit 0 else s

/-- The records of a run that reaches its end. DEDUCED (log 39): a resumed run ends with the groups it served itself. A
coded instruction occupies its unit by the bits, not by the elements (R180). -/
def State.pipeEnd (s : State) (n unit : Nat) (m : VMask) : State :=
  let k := if unit = 6 then ceilDiv (8 * s.cur.vec.vlb.toNat) (max 1 (s.lanes s.turn)) else s.servedGroups n m
  if k = 0 then s else (s.pipeBegin n unit n m).pipeRecord 3 unit k

/-- The records held, written: the begins of the chained members, then their ends. -/
def State.flushPipes (s : State) (keep : Option (List (Nat × Nat))) : State :=
  let l := s.cur.pipes.getD []
  ((l.filter (·.1 = 2)) ++ (l.filter (·.1 = 3))).foldl
    (fun s r => s.record s.turn r.1 r.2 s.cur.tr.retcnt.toNat) (s.setCur { s.cur with pipes := keep })

/-- Queue images consumed by a completed instruction, each queue once (R99): each is an acquire (R307). -/
def State.popQueues (s : State) (rs : List VSpec) : State :=
  ((rs.filterMap vqOf).eraseDups).foldl (fun (s : State) (q : Fin 4) =>
    let s := s.queueAcquire (5 + q.val)
    let k := s.coreAt (coreOf s.turn)
    (s.setCore (coreOf s.turn) { k with
      vq := k.vq.set q k.vq[q].tail, left := k.left.set q (k.left[q] ++ (k.vq[q].take 1).map fun i => some i.bits) }).sync s.turn 5) s

/-- What a destination register or a queue image under assembly holds, with its tag. -/
def State.destImage (s : State) (d : VSpec) : VReg × BitVec 3 :=
  match vqOf d with
  | some q => (match (s.coreAt (coreOf s.turn)).part[q] with | some i => (i.bits, i.tag) | none => (0, 0))
  | none => (s.cur.vec.reg d.toNat, s.cur.vec.tag d.toNat)

/-- A late load's destination once the result file has taken register `d`. -/
def LateLoad.shifted (l : LateLoad) (d : Nat) : LateLoad :=
  match l.dst with
  | .v r bit width k => if k ≠ 0 || r = d then { l with dst := .v r bit width (k + 1) } else l
  | _ => l

/-- The result file shifted: `l1` takes `l0`, `l0` the image of register `d` (R141), and a load of it that performs late
follows. -/
def State.shiftL (s : State) (d : Nat) (img : VReg × BitVec 3) : State :=
  let x := s.cur
  let v := (x.vec.setReg 41 (x.vec.reg 40)).setTag 41 (x.vec.tag 40)
  let stores := if x.hasLate then x.stores.map fun q => { q with ld := q.ld.map (·.shifted d) } else x.stores
  (s.setCur { x with vec := (v.setReg 40 img.1).setTag 40 img.2, stores := stores }).dirtyV

/-- A completed destination: a queue image is appended, as a release (R307), and the result file shifts when grp = 1
(R99, R141). DESIGN CHOICE (log 47): an access hart's instruction whose destination is a queue shifts an `l` file of that
hart's own; R132 gives the file the program reads to the execute hart, and R141 does not say which file this one
shifts. -/
def State.finishDest (s : State) (d : VSpec) : State :=
  let img := s.destImage d
  let s : State := match vqOf d with
    | some q =>
      let s := s.queueRelease
      let k := s.coreAt (coreOf s.turn)
      (s.setCore (coreOf s.turn)
        { k with vq := k.vq.set q (k.vq[q] ++ [{ bits := img.1, tag := img.2 }]), part := k.part.set q none }).sync s.turn 4
    | none => s
  if s.vt.grp = 1 then s.shiftL d.toNat img else s

/-- A source queue that is empty or a destination queue that is full (R98, R99): the code of R100. -/
def State.queueWait (s : State) (srcs : List VRead) (dst : Option VSpec) : Option Nat :=
  let k := s.coreAt (coreOf s.turn)
  match (srcs.filterMap fun x => vqOf x.r).find? (fun q => k.vq[q].isEmpty) with
  | some q => some (4 + q.val)
  | none =>
    match dst.bind vqOf with
    | some q => if 4 ≤ k.vq[q].length then some (20 + q.val) else none
    | none => none

/-- The state a vector instruction's own work starts from: its sources reshuffled, the gated groups it needs awake, and
its first element and the masks noted. -/
def State.readied (s : State) (srcs : List VRead) : State :=
  let s := (srcs.foldl (fun s x => s.reshuffle x.r x.n x.code) s).wakeGroups
  s.setCur { s.cur with runFrom := s.cur.tr.est.toNat, runMasks := s.cur.vec.masks }

/-- The groups of a masked instruction without an active element that the present run passed over, counted: those whose
elements below `vl` all lie below `e` (R144, R353). -/
def State.skipGroups (s : State) (m : VMask) (e : Nat) : State :=
  match m with
  | none => s
  | some _ =>
    let l := max 1 (s.lanes s.turn)
    let skip := ((s.runGroups s.vlN).filter fun g =>
      decide (min (l * (g + 1)) s.vlN ≤ e) && nbits (s.runMask s.vlN m) (l * g) l = 0).length
    if skip = 0 then s else s.count s.turn fun c => { c with kskip := c.kskip + skip }

/-- What follows the work of a vector instruction that completes: the counter and the records of R353 and R355, queue
images, the result file. -/
def State.vecDoneOf (s : State) (n unit : Nat) (srcs : List VRead) (dst : Option (VSpec × Nat)) (m : VMask) : State :=
  let s := ((s.skipGroups m s.vlN).pipeEnd n unit m).popQueues (srcs.map (·.r))
  match dst with | some (d, _) => s.finishDest d | none => s

/-- The same of an instruction over the elements below `vl`. -/
def State.vecDone (s : State) (unit : Nat) (srcs : List VRead) (dst : Option (VSpec × Nat)) (m : VMask) : State :=
  s.vecDoneOf s.vlN unit srcs dst m

/-- What follows a run that a trap or a request ended before element `e`; in a trap, element `e` was begun. -/
def State.vecStop (s : State) (n unit e : Nat) (m : VMask) (trap : Bool) : State :=
  (s.skipGroups m e).pipeBegin n unit (e + boolNat trap) m

/-- Whether the hart may name the sources and the destination. -/
def State.specsOk (s : State) (srcs : List VRead) (dst : Option (VSpec × Nat)) : Bool :=
  srcs.all (fun x => s.vspecOk x.r x.n false) && (match dst with | some (d, n) => s.vspecOk d n true | none => true)

/-- How a vector instruction runs: the checks of R47, the queues, the reshuffles, its own work, and what follows its
completion. `dst` is the vector destination with its number of registers, `els` the elements it works on. -/
def vectorOver (els : State → Nat) (s : State) (unit : Nat) (srcs : List VRead) (dst : Option (VSpec × Nat)) (bad : Bool) (m : VMask)
    (body : State → Eff) : Eff :=
  match s.vecIssue with
  | some c => .trap s c 0
  | none =>
    if bad || !s.specsOk srcs dst then .trap s 2 0
    else
      match s.queueWait srcs (dst.map (·.1)) with
      | some q => .wait s (some q) 0
      | none =>
        match body (s.readied srcs) with
        | .done s => .done (s.vecDoneOf (els s) unit srcs dst m)
        | .trap s c v => .trap (s.vecStop (els s) unit s.cur.tr.est.toNat m true) c v
        | .part s => .part (s.vecStop (els s) unit s.cur.tr.est.toNat m false)
        | e => e

/-- The same over the elements below `vl`. -/
def vectorEff (s : State) (unit : Nat) (srcs : List VRead) (dst : Option (VSpec × Nat)) (bad : Bool) (m : VMask)
    (body : State → Eff) : Eff :=
  vectorOver State.vlN s unit srcs dst bad m body

/-! ## The common frame (R143) -/

/-- What OP(e) does. -/
inductive ERes where
  | val (x fl : Nat)
  | keep                               -- nothing is written to the destination element
  | trap (cause : Nat) (val : Word)
  deriving DecidableEq, Repr

/-- Where a frame ended: the state, the destination's bits, and the element it stopped at, with the trap if it was one. -/
structure FOut where
  s : State
  acc : Nat
  stop : Option (Nat × Option (Nat × Word))

/-- Elements e, e+1, … of a frame, `fuel` of them. `act` tells the active ones; an inactive one is zeroed when `zero`. -/
def frame (act : Nat → Bool) (op : State → Nat → State × ERes) (ew : Nat) (zero : Bool) : Nat → Nat → State → Nat → FOut
  | 0, _, s, acc => ⟨s, acc, none⟩
  | fuel + 1, e, s, acc =>
    if s.cur.lim = some e then ⟨s, acc, some (e, none)⟩
    else if act e then
      match op s e with
      | (s, .val x fl) =>
        let s := s.orFlags fl
        if s.flagTraps fl then ⟨s, acc, some (e, some (13, w64 fl))⟩
        else frame act op ew zero fuel (e + 1) s (nset acc (ew * e) ew x)
      | (s, .keep) => frame act op ew zero fuel (e + 1) s acc
      | (s, .trap c v) => ⟨s, acc, some (e, some (c, v))⟩
    else frame act op ew zero fuel (e + 1) s (if zero then nset acc (ew * e) ew 0 else acc)

def State.est (s : State) : Nat := s.cur.tr.est.toNat

/-- The frame over the active elements below `vl`, from `est`. -/
def State.runFrame (s : State) (m : VMask) (ew : Nat) (zero : Bool) (old : Nat) (op : State → Nat → State × ERes) : FOut :=
  let mb := s.maskBits m
  frame (fun e => nbit mb e) op ew zero (s.cur.vec.vl.toNat - s.est) s.est s old

/-- How a frame's end becomes the effect: `put` writes the destination. DESIGN CHOICE (log 47): an instruction that completes
has written its destination, and sets its width tag, though it wrote no element (`vl` 0, `tail` 0); R134 does not say. -/
def FOut.eff (o : FOut) (start : Nat) (put : State → Nat → State) (tail : Nat → Nat) : Eff :=
  match o.stop with
  | none => .done ((put o.s (tail o.acc)).setEst 0)
  | some (e, some (c, v)) => .trap ((if start < e then put o.s o.acc else o.s).setEst e) c v
  | some (e, none) => .part ((if start < e then put o.s o.acc else o.s).setEst e)

/-- The tail policy on a group of the current width (R137). -/
def State.vtail (s : State) (acc : Nat) : Nat :=
  if s.vt.tail then acc % 2 ^ (s.vt.ew * s.cur.vec.vl.toNat) else acc

/-- An element-wise instruction with destination group vd, inside `vectorEff` (R143). -/
def State.elementwise (s : State) (vd : VSpec) (m : VMask) (op : State → Nat → State × ERes) : Eff :=
  let t := s.vt
  (s.runFrame m t.ew t.mpol (s.destBits vd t.grp) op).eff s.est (fun u b => u.setGroup vd t.grp t.ewCode b) s.vtail

/-- An element-wise instruction with a mask destination (R137, R158). -/
def State.maskwise (s : State) (md : BitVec 3) (m : VMask) (op : State → Nat → State × ERes) : Eff :=
  let old := s.mask md
  (s.runFrame m 1 s.vt.mpol old op).eff s.est (fun u b => u.setMask md b) (fun b => s.maskTail old b)

/-- A pure OP. -/
def pureOp (f : Nat → ERes) : State → Nat → State × ERes := fun s e => (s, f e)

/-! ## The second source (R150) -/

/-- The second source's vector read, if it has one. -/
def srcReads (b : VSrc) (t : VT) : List VRead := match b with | .vv r => [⟨r, t.grp, t.ewCode⟩] | _ => []

/-- The source group read at the current type. -/
def VT.read (t : VT) (r : VSpec) : VRead := ⟨r, t.grp, t.ewCode⟩

/-- `opb` as an exact value with the flags of its reading. -/
def State.opbX (s : State) (t : VT) (b : VSrc) : Nat → Exact × Nat :=
  match b with
  | .vv r => let g := s.groupBits r t.grp; fun e => s.elemX t e (nbits g (t.ew * e) t.ew)
  | .vs r => let x := t.exact ((s.g r).toNat % 2 ^ t.ew); fun _ => (x, 0)
  | .vi i => let x := if t.isF then Fmt.b16.decode i.toNat else .ofInt i.toInt; fun _ => (x, 0)

/-- `opb` as an unscaled integer of an I kind, an immediate exact. -/
def State.opbI (s : State) (t : VT) (b : VSrc) : Nat → Int :=
  match b with
  | .vv r => let g := s.groupBits r t.grp; fun e => t.int (nbits g (t.ew * e) t.ew)
  | .vs r => let x := t.int (s.g r).toNat; fun _ => x
  | .vi i => fun _ => i.toInt

end Sys2Proof.Machine
end

