-- ==== Sys2Proof/Machine/VecArith.lean ====
section
/-!
DEFINITION. Units 0, 1 and 2 and the compact forms (R148-R162, R173). An `eff…` is what the instruction does; its `exec…`
commits it. A convoy runs the same `eff…` (R58).
DEDUCED (readings): logs 30, 31.
-/
namespace Sys2Proof.Machine

/-! ## What the members share -/

/-- An enable is set in `fmode`. -/
def State.anyEnable (s : State) : Bool := nbits s.cur.tr.fmode.toNat 3 5 ≠ 0

/-- Illegal under the type in force: the kind classes, coded kinds with a scale, more scales than the file (R116, R148,
R149). -/
def State.kindBad (s : State) (i f : Bool) : Bool :=
  let t := s.vt
  (t.isI && !i) || (t.isF && !f) || (t.coded && t.skind ≠ 0) || s.scaleOver t

/-- Whether an arithmetic member can raise a flag that traps (R145). -/
def State.flagRule (s : State) : Bool := (s.vt.isF || s.vt.skind ≠ 0) && s.anyEnable

/-- The overlap rule over the sources, when `on` (R145). -/
def State.overlapBad (s : State) (on : Bool) (vd : VSpec) (srcs : List VRead) : Bool :=
  on && srcs.any (overlaps vd s.vt.grp s.vt.ewCode)

/-- An element-wise member: sources, whether it is illegal, whether the overlap rule holds, and its OP. -/
def ewEff (s : State) (unit : Nat) (vd : VSpec) (srcs : List VRead) (bad rule : Bool) (m : VMask)
    (op : State → Nat → ERes) : Eff :=
  vectorEff s unit srcs (some (vd, s.vt.grp)) (bad || s.overlapBad rule vd srcs) m fun s =>
    s.elementwise vd m (pureOp (op s))

/-- Element e of the group at a specifier, raw. -/
def State.rawAt (s : State) (r : VSpec) : Nat → Nat :=
  let g := s.groupBits r s.vt.grp
  fun e => nbits g (s.vt.ew * e) s.vt.ew

/-- An exact result with the flags so far, written into the kind. -/
def State.putX (s : State) (e : Nat) (r : Exact × Nat) (fl : Nat) : ERes :=
  let w := s.writeX s.vt e r.1
  .val w.1 (w.2 ||| r.2 ||| fl)

/-- Whether the member works on plain integers: an I kind without scales. -/
def VT.plainInt (t : VT) : Bool := t.isI && t.skind = 0

/-- a and b combined: `fi` on plain integers, `fx` on exact values (R153, R160). -/
def binEff (s : State) (unit : Nat) (vd va : VSpec) (b : VSrc) (m : VMask) (fi : Int → Int → Int)
    (fx : Nat → Exact → Exact → Exact × Nat) : Eff :=
  let t := s.vt
  ewEff s unit vd (t.read va :: srcReads b t) (s.kindBad true true) s.flagRule m fun s =>
    let ra := s.rawAt va; let bi := s.opbI t b; let bx := s.opbX t b
    fun e =>
      if t.plainInt then .val (t.narrow (fi (t.int (ra e)) (bi e))) 0
      else
        let x := s.elemX t e (ra e); let y := bx e
        s.putX e (fx s.rm x.1 y.1) (x.2 ||| y.2)

/-- x · 2^k. -/
def Exact.scl (x : Exact) (k : Int) : Exact := match x with | .num n m e st => .num n m (e + k) st | y => y

/-- ⌊x⌋ of a finite value, and whether x is not an integer. -/
def Exact.floor? (x : Exact) : Option (Int × Bool) := match x with | .num n m e st => some (Exact.toInt 2 n m e st) | _ => none

/-- The `ew` bits of a value an integer kind reads; free where it is no integer (log 31). -/
def bitsOfX (t : VT) (entry raw : Nat) (x : Exact) : Nat :=
  match x.floor? with
  | some (v, false) => wrapN t.ew v
  | _ => Config.scaledBits entry raw % 2 ^ t.ew

/-- The scale entry of element e. -/
def State.entryOf (s : State) (t : VT) (e : Nat) : Nat := (s.cur.vec.scale.toList.getD (e / 2 ^ t.blk) 0).toNat

/-- The `ew` bits of `opb`. -/
def State.opbBits (s : State) (t : VT) (b : VSrc) : Nat → Nat :=
  match b with
  | .vv r =>
    let g := s.groupBits r t.grp
    fun e => let raw := nbits g (t.ew * e) t.ew
      if t.skind = 0 then wrapN t.ew (t.int raw) else bitsOfX t (s.entryOf t e) raw (s.elemX t e raw).1
  | b => let i := s.opbI t b; fun e => wrapN t.ew (i e)

/-- A bitwise or shift member on the `ew` bits of a and b; with scales, of their scaled values, the result written as an
integer of the kind (R116, R149, R153). -/
def bitEff (s : State) (vd va : VSpec) (b : VSrc) (m : VMask) (f : VT → Nat → Nat → Nat) : Eff :=
  let t := s.vt
  ewEff s 0 vd (t.read va :: srcReads b t) (s.kindBad true false) s.flagRule m fun s =>
    let ra := s.rawAt va; let bb := s.opbBits t b; let bx := s.opbX t b
    fun e =>
      if t.plainInt then .val (f t (ra e) (bb e) % 2 ^ t.ew) 0
      else
        let x := s.elemX t e (ra e)
        s.putX e (.ofInt (t.int (f t (bitsOfX t (s.entryOf t e) (ra e) x.1) (bb e))), 0) (x.2 ||| (bx e).2)

/-- A unary arithmetic member. -/
def unEff (s : State) (unit : Nat) (vd va : VSpec) (m : VMask) (i : Bool) (fi : Int → Int) (fx : Exact → Exact × Nat) : Eff :=
  let t := s.vt
  ewEff s unit vd [t.read va] (s.kindBad i true) s.flagRule m fun s =>
    let ra := s.rawAt va
    fun e =>
      if t.plainInt then .val (t.narrow (fi (t.int (ra e)))) 0
      else
        let x := s.elemX t e (ra e)
        s.putX e (fx x.1) x.2

/-! ## Unit 0 -/

def effVadd (vd va : VSpec) (b : VSrc) (m : VMask) (s : State) : Eff := binEff s 0 vd va b m (· + ·) fun rm x y => x.add rm y
def execVadd (vd va : VSpec) (b : VSrc) (m : VMask) (s : State) := commit (.vadd vd va b m) 8 (effVadd vd va b m s)
def effVsub (vd va : VSpec) (b : VSrc) (m : VMask) (s : State) : Eff := binEff s 0 vd va b m (· - ·) fun rm x y => x.add rm y.negate
def execVsub (vd va : VSpec) (b : VSrc) (m : VMask) (s : State) := commit (.vsub vd va b m) 8 (effVsub vd va b m s)
def effVrsb (vd va : VSpec) (b : VSrc) (m : VMask) (s : State) : Eff := binEff s 0 vd va b m (fun x y => y - x) fun rm x y => y.add rm x.negate
def execVrsb (vd va : VSpec) (b : VSrc) (m : VMask) (s : State) := commit (.vrsb vd va b m) 8 (effVrsb vd va b m s)
def effVmin (vd va : VSpec) (b : VSrc) (m : VMask) (s : State) : Eff := binEff s 0 vd va b m min fun _ x y => Exact.minMax false x y
def execVmin (vd va : VSpec) (b : VSrc) (m : VMask) (s : State) := commit (.vmin vd va b m) 8 (effVmin vd va b m s)
def effVmax (vd va : VSpec) (b : VSrc) (m : VMask) (s : State) : Eff := binEff s 0 vd va b m max fun _ x y => Exact.minMax true x y
def execVmax (vd va : VSpec) (b : VSrc) (m : VMask) (s : State) := commit (.vmax vd va b m) 8 (effVmax vd va b m s)
def effVand (vd va : VSpec) (b : VSrc) (m : VMask) (s : State) : Eff := bitEff s vd va b m fun _ x y => x &&& y
def execVand (vd va : VSpec) (b : VSrc) (m : VMask) (s : State) := commit (.vand vd va b m) 8 (effVand vd va b m s)
def effVor (vd va : VSpec) (b : VSrc) (m : VMask) (s : State) : Eff := bitEff s vd va b m fun _ x y => x ||| y
def execVor (vd va : VSpec) (b : VSrc) (m : VMask) (s : State) := commit (.vor vd va b m) 8 (effVor vd va b m s)
def effVxor (vd va : VSpec) (b : VSrc) (m : VMask) (s : State) : Eff := bitEff s vd va b m fun _ x y => x ^^^ y
def execVxor (vd va : VSpec) (b : VSrc) (m : VMask) (s : State) := commit (.vxor vd va b m) 8 (effVxor vd va b m s)
def effVandn (vd va : VSpec) (b : VSrc) (m : VMask) (s : State) : Eff := bitEff s vd va b m fun t x y => x &&& (2 ^ t.ew - 1 - y)
def execVandn (vd va : VSpec) (b : VSrc) (m : VMask) (s : State) := commit (.vandn vd va b m) 8 (effVandn vd va b m s)
/-- a · 2^s: exact, so a scaled a need not be an integer. -/
def effVshl (vd va : VSpec) (b : VSrc) (m : VMask) (s : State) : Eff :=
  let t := s.vt
  ewEff s 0 vd (t.read va :: srcReads b t) (s.kindBad true false) s.flagRule m fun s =>
    let ra := s.rawAt va; let bb := s.opbBits t b; let bx := s.opbX t b
    fun e =>
      if t.plainInt then .val (t.narrow (t.int (ra e) * 2 ^ (bb e % t.ew)) % 2 ^ t.ew) 0
      else
        let x := s.elemX t e (ra e)
        s.putX e (x.1.scl (bb e % t.ew : Nat), 0) (x.2 ||| (bx e).2)
def execVshl (vd va : VSpec) (b : VSrc) (m : VMask) (s : State) := commit (.vshl vd va b m) 8 (effVshl vd va b m s)
def effVshr (vd va : VSpec) (b : VSrc) (m : VMask) (s : State) : Eff := bitEff s vd va b m fun t x y => x >>> (y % t.ew)
def execVshr (vd va : VSpec) (b : VSrc) (m : VMask) (s : State) := commit (.vshr vd va b m) 8 (effVshr vd va b m s)
def effVsar (vd va : VSpec) (b : VSrc) (m : VMask) (s : State) : Eff := bitEff s vd va b m fun t x y => wrapN t.ew (sext t.ew x / 2 ^ (y % t.ew))
def execVsar (vd va : VSpec) (b : VSrc) (m : VMask) (s : State) := commit (.vsar vd va b m) 8 (effVsar vd va b m s)
def effVabs (vd va : VSpec) (m : VMask) (s : State) : Eff := unEff s 0 vd va m true (fun x => x.natAbs) fun x => (x.abs, 0)
def execVabs (vd va : VSpec) (m : VMask) (s : State) := commit (.vabs vd va m) 8 (effVabs vd va m s)
def effVneg (vd va : VSpec) (m : VMask) (s : State) : Eff := unEff s 0 vd va m true (fun x => -x) fun x => (x.negate, 0)
def execVneg (vd va : VSpec) (m : VMask) (s : State) := commit (.vneg vd va m) 8 (effVneg vd va m s)

/-- `vclamp` (R154): min(max(a, lo), hi). -/
def effVclamp (vd va : VSpec) (b : VSrc) (c : BitVec 6) (m : VMask) (s : State) : Eff :=
  let t := s.vt
  let hiSrc : VSrc := match b with | .vv _ => .vv c | _ => .vs (c.setWidth 5)
  ewEff s 0 vd (t.read va :: srcReads b t ++ srcReads hiSrc t) (s.kindBad true true) s.flagRule m fun s =>
    let ra := s.rawAt va; let lo := s.opbX t b; let hi := s.opbX t hiSrc
    let li := s.opbI t b; let hj := s.opbI t hiSrc
    fun e =>
      if t.plainInt then .val (t.narrow (min (max (t.int (ra e)) (li e)) (hj e))) 0
      else
        let x := s.elemX t e (ra e)
        let y := Exact.minMax true x.1 (lo e).1
        let z := Exact.minMax false y.1 (hi e).1
        s.putX e z (x.2 ||| y.2 ||| (lo e).2 ||| (hi e).2)
def execVclamp (vd va : VSpec) (b : VSrc) (c : BitVec 6) (m : VMask) (s : State) :=
  commit (.vclamp vd va b c m) 8 (effVclamp vd va b c m s)

/-- The source type of a conversion (R155). -/
def srcType (t : VT) (st : BitVec 7) : VT :=
  { t with ew := ewBits (nbits st.toNat 0 3), ewCode := nbits st.toNat 0 3, kind := nbits st.toNat 3 4, skind := 0, blk := 0 }

def srcLegal (st : BitVec 7) : Bool := nbits st.toNat 3 4 < 10 && kindLegal (nbits st.toNat 3 4) (nbits st.toNat 0 3) 0

/-- Registers of the source group. -/
def srcGroup (t u : VT) : Nat := max 1 (t.grp * u.ew / t.ew)

/-- A source value written into the type in force (R112-R114). Between equal types a quiet NaN passes as it is, as in
`vmv`. -/
def State.convert (s : State) (u : VT) (e raw : Nat) : ERes :=
  let t := s.vt
  if t.skind = 0 && u.kind = t.kind && u.ew = t.ew && (u.exact raw).isNan && !(u.exact raw).isSig then .val (raw % 2 ^ t.ew) 0
  else if u.isI && t.plainInt then .val (t.narrow (u.int raw)) 0
  else if u.isF && t.isI then
    let q := if t.skind = 0 then (u.exact raw, 0) else (u.exact raw).div (s.scaleOf t e)
    let bad := t.skind ≠ 0 && ((s.scaleOf t e).isNan || (s.scaleOf t e).isInf || (s.scaleOf t e).isZero)
    if bad then .val 0 1
    else
      let (b, fl) := roundInt t.signed t.ew s.rm q.1
      .val b (fl ||| q.2)
  else s.putX e (u.exact raw, 0) 0

/-- `vcvt` (R155). -/
def effVcvt (vd va : VSpec) (st : BitVec 7) (m : VMask) (s : State) : Eff :=
  let t := s.vt
  let u := srcType t st
  let sg := srcGroup t u
  ewEff s 0 vd [⟨va, sg, u.ewCode⟩] (s.kindBad true true || !srcLegal st || 8 < sg)
    ((t.isF || u.isF || t.skind ≠ 0) && s.anyEnable) m fun s =>
      let g := s.groupBits va sg
      fun e => s.convert u e (nbits g (u.ew * e) u.ew)
def execVcvt (vd va : VSpec) (st : BitVec 7) (m : VMask) (s : State) := commit (.vcvt vd va st m) 8 (effVcvt vd va st m s)

/-! ### `vcvt.sb` (R117, R118, R156) -/

/-- The destinations of the table of R156. -/
def sbLegal (t : VT) (g : Reg) : Bool :=
  match t.skind with
  | 1 => g = 0 && (t.kind = 4 || t.kind = 5 || t.kind = 6 || t.kind = 7 || t.kind = 8 || (t.kind = 0 && t.ew = 8))
  | 2 => t.kind = 8 && t.blk = 3
  | _ => false

/-- emax of an element kind (R117). -/
def emaxOf (kind : Nat) : Int := match kind with | 8 => 2 | 6 => 2 | 7 => 4 | 4 => 8 | 5 => 15 | _ => 0

/-- Whether |x| is the larger magnitude. -/
def magLess (x y : Exact) : Bool := x.abs.cmp y.abs = .lt

/-- The largest magnitude of a block, NaNs left out. -/
def blockMax (xs : List Exact) : Exact := (xs.filter fun x => !x.isNan).foldl (fun a x => if magLess a x then x.abs else a) (.zero false)

/-- The E8M0 field of R117 for a largest magnitude. -/
def mxField (kind : Nat) (a : Exact) : Nat :=
  match a with
  | .num _ m e _ => if m = 0 then 0 else (max (-127) (min 127 ((m.log2 : Int) + e - emaxOf kind)) + 127).toNat
  | _ => 254

/-- The smallest E3M5 byte s with a ≤ 6·s·|band|, or 0xFF (R118). -/
def f4Field (a band : Exact) : Nat :=
  ((List.range 256).find? fun b =>
    (((scaleValue 2 b).mul (Exact.ofInt 6)).1.mul band.abs).1.cmp a ≠ .lt).getD 255

/-- An element of a block, saturating (R156). DESIGN CHOICE (log 47): an infinite element raises nothing in E4M3, OF and NX
in E5M2, and NV in FP6, FP4 and int8; R114 and R156 name different flags for it. -/
def sbElem (t : VT) (rm : Nat) (x sc : Exact) : Nat × Nat :=
  let q := x.div sc
  match t.fmt, q.1 with
  | some f, .inf neg => (f.signBit neg + f.maxBits, match f.sp with | .none => 1 | .e4m3 => 0 | .ieee => 20)
  | some f, y =>
    let (b, fl) := f.round rm true y
    (b, fl ||| q.2)
  | none, .num neg m e st =>
    let (v, inex) := Exact.toInt rm neg m e st
    if 127 < v.natAbs then (wrapN 8 (if neg then -127 else 127), 20) else (wrapN 8 v, if inex then 16 else 0)
  | none, .inf neg => (wrapN 8 (if neg then -127 else 127), 1)
  | none, .nan _ => (0, 1)

/-- One block: the scale entry, its elements and the flags. `band` is none under `skind` 1. DESIGN CHOICE (log 47): a NaN of an
MX block, which makes its elements 0 under entry 0xFF (R117, R156), raises NV only if it signals; and under a band scale
that is zero, infinite or NaN, where R156 gives the elements and NV alone, the block's entry is written as 0. -/
def sbBlock (t : VT) (rm : Nat) (band : Option Exact) (xs : List Exact) : Nat × List Nat × Nat :=
  let sig := if xs.any Exact.isSig then 1 else 0
  let a := blockMax xs
  match band with
  | none =>
    if xs.any Exact.isNan then (255, xs.map fun _ => 0, sig)
    else
      let x := mxField t.kind a
      let entry := if t.kind = 0 then x - 6 else x
      let rs := xs.map fun x => sbElem t rm x (scaleValue 1 entry)
      (entry, rs.map (·.1), rs.foldl (fun f r => f ||| r.2) 0)
  | some b =>
    if b.isNan || b.isInf || b.isZero then (0, xs.map fun _ => 0, 1)
    else
      let entry := if a.isZero then 0 else f4Field a b
      let rs := xs.map fun x =>
        if x.isNan then (0, 1) else if entry = 0 then (0, 0) else sbElem t rm x ((scaleValue 2 entry).mul b).1
      (entry, rs.map (·.1), rs.foldl (fun f r => f ||| r.2) sig)

/-- `vcvt.sb`: whole. -/
def effVcvtSb (vd va : VSpec) (st : BitVec 7) (g : Reg) (m : VMask) (s : State) : Eff :=
  let t := s.vt
  let u := srcType t st
  let sg := srcGroup t u
  let srcs : List VRead := [⟨va, sg, u.ewCode⟩]
  let bad := m.isSome || s.kindBad true true || !srcLegal st || 8 < sg || !sbLegal t g || s.overlapBad s.anyEnable vd srcs
  vectorEff s 0 srcs (some (vd, t.grp)) bad none fun s =>
    let vl := s.cur.vec.vl.toNat
    let gb := s.groupBits va sg
    let band := if t.skind = 1 then none else some (Fmt.bf16.decode ((s.g g).toNat % 65536))
    let size := 2 ^ t.blk
    let blocks := (List.range (ceilDiv vl size)).map fun j =>
      sbBlock t s.rm band ((List.range (min size (vl - j * size))).map fun i =>
        u.exact (nbits gb (u.ew * (j * size + i)) u.ew))
    let fl := blocks.foldl (fun f b => f ||| b.2.2) 0
    let s := s.orFlags fl
    if s.flagTraps fl then .trap (s.setEst 0) 13 (w64 fl)
    else
      let elems := blocks.flatMap (·.2.1)
      let acc := elems.zipIdx.foldl (fun acc (x, e) => nset acc (t.ew * e) t.ew x) (s.destBits vd t.grp)
      let scale := blocks.zipIdx.foldl (fun (v : Vector (BitVec 16) 256) (b, j) =>
        if h : j < 256 then v.set j (BitVec.ofNat 16 b.1) else v) s.cur.vec.scale
      let s := s.setCur { s.cur with vec := { s.cur.vec with scale := scale } }
      .done ((s.setGroup vd t.grp t.ewCode (s.vtail acc)).setEst 0)
def execVcvtSb (vd va : VSpec) (st : BitVec 7) (g : Reg) (m : VMask) (s : State) :=
  commit (.vcvtSb vd va st g m) 8 (effVcvtSb vd va st g m s)

/-- The exponent of `vscl`, clamped (R157). -/
def State.sclExp (s : State) (b : VSrc) : Int :=
  let k := match b with | .vs r => (s.g r).toInt | .vi i => i.toInt | .vv _ => 0
  max (-4096) (min 4095 k)

/-- `vscl` (R157). -/
def effVscl (vd va : VSpec) (b : VSrc) (m : VMask) (s : State) : Eff :=
  let t := s.vt
  ewEff s 0 vd [t.read va] (s.kindBad true true) s.flagRule m fun s =>
    let ra := s.rawAt va; let k := s.sclExp b
    fun e =>
      let x := s.elemX t e (ra e)
      s.putX e (x.1.scl k, 0) x.2
def execVscl (vd va : VSpec) (b : VSrc) (m : VMask) (s : State) := commit (.vscl vd va b m) 8 (effVscl vd va b m s)

/-- A condition of `vcmp` on two values: the bit and the flags (R158). Only the equality compares take −0 as equal to
+0 (R110). -/
def condOf (cond : Nat) (x y : Exact) : Bool × Nat :=
  match cond with
  | 0 => x.compare y true condEq
  | 1 => let r := x.compare y true condEq; (!r.1, r.2)
  | 2 => x.compare y false condLt
  | 3 => x.compare y false condLe
  | 4 => x.compare y false condGt
  | 5 => x.compare y false condGe
  | 6 => (x.isNan || y.isNan, if x.isSig || y.isSig then 1 else 0)
  | _ => (!(x.isNan || y.isNan), if x.isSig || y.isSig then 1 else 0)

/-- `vcmp` (R158). -/
def effVcmp (md : BitVec 3) (va : VSpec) (b : VSrc) (cond : BitVec 4) (m : VMask) (s : State) : Eff :=
  let t := s.vt
  let bad := s.kindBad true true || (t.isI && 6 ≤ cond.toNat) || (s.anyEnable && m = some md)
  vectorEff s 0 (t.read va :: srcReads b t) none bad m fun s =>
    let ra := s.rawAt va; let bx := s.opbX t b
    s.maskwise md m (pureOp fun e =>
      let x := s.elemX t e (ra e); let y := bx e
      let r := if t.isF then condOf cond.toNat x.1 y.1 else condOf cond.toNat x.1.plainZero y.1.plainZero
      .val (boolNat r.1) (r.2 ||| x.2 ||| y.2))
def execVcmp (md : BitVec 3) (va : VSpec) (b : VSrc) (cond : BitVec 4) (m : VMask) (s : State) :=
  commit (.vcmp md va b cond m) 8 (effVcmp md va b cond m s)

/-- A move of raw bits under a coded kind with a scale is illegal too (R149). -/
def State.moveBad (s : State) : Bool := s.vt.coded && s.vt.skind ≠ 0

/-- `vsel` (R159): the mask picks the source. -/
def effVsel (vd va vb : VSpec) (mk : BitVec 3) (s : State) : Eff :=
  let t := s.vt
  ewEff s 0 vd [t.read va, t.read vb] s.moveBad false none fun s =>
    let ra := s.rawAt va; let rb := s.rawAt vb; let k := s.mask mk
    fun e => .val (t.clean (if nbit k e then ra e else rb e)) 0
def execVsel (vd va vb : VSpec) (mk : BitVec 3) (s : State) := commit (.vsel vd va vb mk) 8 (effVsel vd va vb mk s)

/-- `vmv` (R159). -/
def effVmv (vd va : VSpec) (m : VMask) (s : State) : Eff :=
  let t := s.vt
  ewEff s 0 vd [t.read va] s.moveBad false m fun s =>
    let ra := s.rawAt va
    fun e => .val (t.clean (ra e)) 0
def execVmv (vd va : VSpec) (m : VMask) (s : State) := commit (.vmv vd va m) 8 (effVmv vd va m s)

/-- `vdup` (R159). -/
def effVdup (vd : VSpec) (b : VSrc) (m : VMask) (s : State) : Eff :=
  let t := s.vt
  ewEff s 0 vd [] s.moveBad false m fun s =>
    let r : Nat × Nat := match b with
      | .vs g => (t.clean (s.g g).toNat, 0)
      | .vi i => (match t.fmt with
        | some f => f.round s.rm t.sat (Fmt.b16.decode i.toNat)
        | none => (t.narrow i.toInt, 0))
      | .vv _ => (0, 0)
    fun _ => .val r.1 r.2
def execVdup (vd : VSpec) (b : VSrc) (m : VMask) (s : State) := commit (.vdup vd b m) 8 (effVdup vd b m s)

/-- `vid` (R159). -/
def effVid (vd : VSpec) (m : VMask) (s : State) : Eff :=
  let t := s.vt
  ewEff s 0 vd [] (s.kindBad true true) false m fun s e =>
    if t.plainInt then .val (t.narrow e) 0 else s.putX e (.ofInt e, 0) 0
def execVid (vd : VSpec) (m : VMask) (s : State) := commit (.vid vd m) 8 (effVid vd m s)

/-! ## Unit 1 (R160) -/

def effVmul (vd va : VSpec) (b : VSrc) (m : VMask) (s : State) : Eff := binEff s 1 vd va b m (· * ·) fun _ x y => x.mul y
def execVmul (vd va : VSpec) (b : VSrc) (m : VMask) (s : State) := commit (.vmul vd va b m) 8 (effVmul vd va b m s)

/-- Bits [2ew−1:ew] of the exact product (R160). -/
def effVmulh (vd va : VSpec) (b : VSrc) (m : VMask) (s : State) : Eff :=
  let t := s.vt
  ewEff s 1 vd (t.read va :: srcReads b t) (s.kindBad true false) s.flagRule m fun s =>
    let ra := s.rawAt va; let bi := s.opbI t b; let bx := s.opbX t b
    fun e =>
      if t.plainInt then .val (wrapN t.ew (t.int (ra e) * bi e / 2 ^ t.ew)) 0
      else
        let x := s.elemX t e (ra e)
        let p := x.1.mul (bx e).1
        let hi := match p.1.floor? with | some (v, _) => Exact.ofInt (t.int (wrapN t.ew (v / 2 ^ t.ew))) | none => p.1
        s.putX e (hi, 0) (x.2 ||| (bx e).2 ||| p.2)
def execVmulh (vd va : VSpec) (b : VSrc) (m : VMask) (s : State) := commit (.vmulh vd va b m) 8 (effVmulh vd va b m s)

/-- The fused members: ±(a × b) ± d, d read from the destination. -/
def fmaEff (s : State) (vd va : VSpec) (b : VSrc) (m : VMask) (np nd : Bool) : Eff :=
  let t := s.vt
  ewEff s 1 vd (t.read va :: t.read vd :: srcReads b t) (s.kindBad true true) s.flagRule m fun s =>
    let ra := s.rawAt va; let rd := s.rawAt vd; let bi := s.opbI t b; let bx := s.opbX t b
    fun e =>
      if t.plainInt then
        let p := t.int (ra e) * bi e
        .val (t.narrow ((if np then -p else p) + (if nd then -t.int (rd e) else t.int (rd e)))) 0
      else
        let x := s.elemX t e (ra e); let y := bx e; let d := s.elemX t e (rd e)
        s.putX e (Exact.fma s.rm (if np then x.1.negate else x.1) y.1 (if nd then d.1.negate else d.1)) (x.2 ||| y.2 ||| d.2)

def effVfma (vd va : VSpec) (b : VSrc) (m : VMask) (s : State) : Eff := fmaEff s vd va b m false false
def execVfma (vd va : VSpec) (b : VSrc) (m : VMask) (s : State) := commit (.vfma vd va b m) 8 (effVfma vd va b m s)
def effVfms (vd va : VSpec) (b : VSrc) (m : VMask) (s : State) : Eff := fmaEff s vd va b m false true
def execVfms (vd va : VSpec) (b : VSrc) (m : VMask) (s : State) := commit (.vfms vd va b m) 8 (effVfms vd va b m s)
def effVfnma (vd va : VSpec) (b : VSrc) (m : VMask) (s : State) : Eff := fmaEff s vd va b m true false
def execVfnma (vd va : VSpec) (b : VSrc) (m : VMask) (s : State) := commit (.vfnma vd va b m) 8 (effVfnma vd va b m s)

/-! ## Unit 2 (R119, R161) -/

/-- Two exact finite values as integers over one power of two. -/
def alignX (x y : Exact) : Option (Int × Int × Int) :=
  match x, y with
  | .num na ma ea _, .num nb mb eb _ =>
    let e := min ea eb
    some (sgn na (ma <<< (ea - e).toNat), sgn nb (mb <<< (eb - e).toNat), e)
  | _, _ => none

/-- Division: `rem` asks for the remainder. With scales the result, that of a zero divisor too, is written as any value of
the kind is (R116, R149). -/
def divEff2 (s : State) (vd va : VSpec) (b : VSrc) (m : VMask) (rem : Bool) (f : Bool) : Eff :=
  let t := s.vt
  let eid := s.cur.tr.fmode.getLsbD 8
  ewEff s 2 vd (t.read va :: srcReads b t) (s.kindBad true f) (s.flagRule || (t.isI && eid)) m fun s =>
    let ra := s.rawAt va; let bi := s.opbI t b; let bx := s.opbX t b
    fun e =>
      if t.plainInt then
        let x := t.int (ra e)
        if bi e = 0 then (if eid then .trap 14 0 else .val (if rem then ra e else 2 ^ t.ew - 1) 0)
        else .val (t.narrow (if rem then x.tmod (bi e) else x.tdiv (bi e))) 0
      else
        let x := s.elemX t e (ra e); let y := bx e
        if t.isF then s.putX e (x.1.div y.1) (x.2 ||| y.2)
        else if y.1.isZero then
          (if eid then .trap 14 0 else s.putX e (if rem then x.1 else .ofInt (t.int (2 ^ t.ew - 1)), 0) (x.2 ||| y.2))
        else
          match alignX x.1 y.1 with
          | some (a, c, k) => s.putX e (if rem then .ofIntE (a.tmod c) k else .ofInt (a.tdiv c), 0) (x.2 ||| y.2)
          | none => s.putX e (.nan false, 0) (x.2 ||| y.2)

def effVdiv (vd va : VSpec) (b : VSrc) (m : VMask) (s : State) : Eff := divEff2 s vd va b m false true
def execVdiv (vd va : VSpec) (b : VSrc) (m : VMask) (s : State) := commit (.vdiv vd va b m) 8 (effVdiv vd va b m s)
def effVmod (vd va : VSpec) (b : VSrc) (m : VMask) (s : State) : Eff := divEff2 s vd va b m true false
def execVmod (vd va : VSpec) (b : VSrc) (m : VMask) (s : State) := commit (.vmod vd va b m) 8 (effVmod vd va b m s)
def effVsqrt (vd va : VSpec) (m : VMask) (s : State) : Eff := unEff s 2 vd va m false id fun x => x.sqrt
def execVsqrt (vd va : VSpec) (m : VMask) (s : State) := commit (.vsqrt vd va m) 8 (effVsqrt vd va m s)
def effVexp2 (vd va : VSpec) (m : VMask) (s : State) : Eff := unEff s 2 vd va m false id (sfu 3)
def execVexp2 (vd va : VSpec) (m : VMask) (s : State) := commit (.vexp2 vd va m) 8 (effVexp2 vd va m s)
def effVlog2 (vd va : VSpec) (m : VMask) (s : State) : Eff := unEff s 2 vd va m false id (sfu 4)
def execVlog2 (vd va : VSpec) (m : VMask) (s : State) := commit (.vlog2 vd va m) 8 (effVlog2 vd va m s)
def effVrcp (vd va : VSpec) (m : VMask) (s : State) : Eff := unEff s 2 vd va m false id (sfu 5)
def execVrcp (vd va : VSpec) (m : VMask) (s : State) := commit (.vrcp vd va m) 8 (effVrcp vd va m s)
def effVrsq (vd va : VSpec) (m : VMask) (s : State) : Eff := unEff s 2 vd va m false id (sfu 6)
def execVrsq (vd va : VSpec) (m : VMask) (s : State) := commit (.vrsq vd va m) 8 (effVrsq vd va m s)
def effVsinpi (vd va : VSpec) (m : VMask) (s : State) : Eff := unEff s 2 vd va m false id (sfu 7)
def execVsinpi (vd va : VSpec) (m : VMask) (s : State) := commit (.vsinpi vd va m) 8 (effVsinpi vd va m s)
def effVcospi (vd va : VSpec) (m : VMask) (s : State) : Eff := unEff s 2 vd va m false id (sfu 8)
def execVcospi (vd va : VSpec) (m : VMask) (s : State) := commit (.vcospi vd va m) 8 (effVcospi vd va m s)
def effVtanh (vd va : VSpec) (m : VMask) (s : State) : Eff := unEff s 2 vd va m false id (sfu 9)
def execVtanh (vd va : VSpec) (m : VMask) (s : State) := commit (.vtanh vd va m) 8 (effVtanh vd va m s)
def effVsigm (vd va : VSpec) (m : VMask) (s : State) : Eff := unEff s 2 vd va m false id (sfu 10)
def execVsigm (vd va : VSpec) (m : VMask) (s : State) := commit (.vsigm vd va m) 8 (effVsigm vd va m s)
def effVgelu (vd va : VSpec) (m : VMask) (s : State) : Eff := unEff s 2 vd va m false id (sfu 11)
def execVgelu (vd va : VSpec) (m : VMask) (s : State) := commit (.vgelu vd va m) 8 (effVgelu vd va m s)
def effVsilu (vd va : VSpec) (m : VMask) (s : State) : Eff := unEff s 2 vd va m false id (sfu 12)
def execVsilu (vd va : VSpec) (m : VMask) (s : State) := commit (.vsilu vd va m) 8 (effVsilu vd va m s)

/-! ## Compact forms (R55, R173) -/

/-- `l0`. -/
def l0Spec : VSpec := 40

/-- A compact form: the wide instruction on `v0` to `v15`, illegal under grouping (R133). -/
def compactEff (s : State) (m : Bool) (f : VMask → State → Eff) : Eff :=
  match s.vecIssue with
  | some c => .trap s c 0
  | none => if s.vt.grp ≠ 1 then .trap s 2 0 else f (if m then some 0 else none) s

def execCAdd (vd vb : BitVec 4) (m : Bool) (s : State) :=
  commit (.cAdd vd vb m) 2 (compactEff s m (effVadd (vd.setWidth 6) l0Spec (.vv (vb.setWidth 6))))
def execCSub (vd vb : BitVec 4) (m : Bool) (s : State) :=
  commit (.cSub vd vb m) 2 (compactEff s m (effVsub (vd.setWidth 6) l0Spec (.vv (vb.setWidth 6))))
def execCMul (vd vb : BitVec 4) (m : Bool) (s : State) :=
  commit (.cMul vd vb m) 2 (compactEff s m (effVmul (vd.setWidth 6) l0Spec (.vv (vb.setWidth 6))))
def execCFma (vd vb : BitVec 4) (m : Bool) (s : State) :=
  commit (.cFma vd vb m) 2 (compactEff s m (effVfma (vd.setWidth 6) l0Spec (.vv (vb.setWidth 6))))
def execCMin (vd vb : BitVec 4) (m : Bool) (s : State) :=
  commit (.cMin vd vb m) 2 (compactEff s m (effVmin (vd.setWidth 6) l0Spec (.vv (vb.setWidth 6))))
def execCMax (vd vb : BitVec 4) (m : Bool) (s : State) :=
  commit (.cMax vd vb m) 2 (compactEff s m (effVmax (vd.setWidth 6) l0Spec (.vv (vb.setWidth 6))))
def execCAnd (vd vb : BitVec 4) (m : Bool) (s : State) :=
  commit (.cAnd vd vb m) 2 (compactEff s m (effVand (vd.setWidth 6) l0Spec (.vv (vb.setWidth 6))))
def execCXor (vd vb : BitVec 4) (m : Bool) (s : State) :=
  commit (.cXor vd vb m) 2 (compactEff s m (effVxor (vd.setWidth 6) l0Spec (.vv (vb.setWidth 6))))
def execCExp2 (vd vb : BitVec 4) (m : Bool) (s : State) :=
  commit (.cExp2 vd vb m) 2 (compactEff s m (effVexp2 (vd.setWidth 6) (vb.setWidth 6)))
def execCMv (vd vb : BitVec 4) (m : Bool) (s : State) :=
  commit (.cMv vd vb m) 2 (compactEff s m (effVmv (vd.setWidth 6) (vb.setWidth 6)))

end Sys2Proof.Machine
end

