-- ==== Sys2Proof/Machine/VecMem.lean ====
section
/-!
DEFINITION. Vector memory: units 3, 4 and 10 (R213-R233).
DEDUCED (readings): logs 19, 33. DESIGN CHOICE: log 13.
-/
namespace Sys2Proof.Machine

/-! ## Addresses and slices (R214, R216) -/

/-- The slice of element e: lane group ⌊(e mod L)/64⌋. -/
def State.sliceOf (s : State) (e : Nat) : Nat := 1 + e % max 1 (s.lanes s.turn) / 64

/-- An element's address, or the failure of its index with what `xval` takes. -/
abbrev AddrFn := Nat → Except (Nat × Word) Nat

/-- The address of a base and offset form. -/
def State.vbase (s : State) (a : Reg) (imm : BitVec 16) : Nat := (s.g a + imm.signExtend 64).toNat

/-- Element bytes; a 4-bit element is a nibble of one byte. -/
def VT.bytes (t : VT) : Nat := max 1 (t.ew / 8)

/-- Unit stride. -/
def unitAddr (t : VT) (base : Nat) : AddrFn := fun e => .ok ((base + (if t.ew = 4 then e / 2 else e * t.bytes)) % 2 ^ 64)

/-- A signed stride. -/
def strideAddr (base : Nat) (st : Int) : AddrFn := fun e => .ok (wrapN 64 (base + e * st))

/-- The index group: its width, registers and read (R214). -/
def idxBits (iw : Bool) : Nat := if iw then 64 else 32
def idxGroup (t : VT) (iw : Bool) : Nat := max 1 (t.grp * idxBits iw / t.ew)
def idxRead (t : VT) (vb : VSpec) (iw : Bool) : VRead := ⟨vb, idxGroup t iw, if iw then 3 else 2⟩

/-- Local indexed addresses. -/
def State.idxAddr (s : State) (a : Reg) (vb : VSpec) (iw : Bool) (sc : BitVec 2) : AddrFn :=
  let g := s.groupBits vb (idxGroup s.vt iw)
  let base := (s.g a).toNat
  fun e => .ok ((base + nbits g (idxBits iw * e) (idxBits iw) * 2 ^ sc.toNat) % 2 ^ 64)

/-- Cluster-span addresses (R199). -/
def State.spanAddr (s : State) (vb : VSpec) : AddrFn :=
  let g := s.groupBits vb (idxGroup s.vt false)
  fun e =>
    let n := nbits g (32 * e) 32
    if n / 2 ^ 21 ≠ 0 then .error (5, w64 n) else .ok (0xF100000000000000 + n)

/-- Issued by an execute hart (R97, R217). -/
def State.memBad (s : State) : Bool := s.isExec s.turn

/-! ## Loads (R215) -/

/-- One element loaded by `read`, in the order of R92. -/
def loadElemBy (read : State → Nat → State × Except Nat (List Byte)) (t : VT) (addr : AddrFn) (s : State) (e : Nat) :
    State × ERes :=
  match addr e with
  | .error (c, v) => (s, .trap c v)
  | .ok va =>
    if va % t.bytes ≠ 0 then (s, .trap 3 (w64 va))
    else
      match read s va with
      | (s, .error c) => (s, .trap c (accessVal c va))
      | (s, .ok bs) =>
        let x := bytesNat bs
        (s, .val (t.clean (if t.ew = 4 then x >>> (4 * (e % 2)) else x)) 0)

/-- One element loaded in its slice. -/
def loadElem (t : VT) (addr : AddrFn) (s : State) (e : Nat) : State × ERes :=
  loadElemBy (fun s va => s.load s.turn (s.sliceOf e) va t.bytes) t addr s e

/-- Whether the loads of an instruction over the elements `es`, in a state it begins in, perform late in the slices whose
loads do in this step: every one of theirs may, so that none of the instruction's own loads joins them (R381, log 4). -/
def State.lateRunBy (s : State) (place : Nat → Bool) (es : List Nat) (n : Nat) (addr : AddrFn) : Bool :=
  s.late ≠ 0 && es.all fun e => !nbit s.late (s.sliceOf e) ||
    (match addr e with
      | .ok va => va % n = 0 && place va
      | .error _ => false)

/-- The same of plain loads. -/
def State.lateRun (s : State) (es : List Nat) (n : Nat) (addr : AddrFn) : Bool :=
  s.lateRunBy (fun va => (s.latePlace s.turn va n).isSome) es n addr

/-- One element loaded where the group at register `vd` takes it: in a slice that loads late, as the state `s0` resolves it,
it joins that slice, and its bits follow (R381), with its bit of a mask register where `hzld` names one (`md`); any other by
`now`. -/
def lateElemBy (now : State → Nat → State × ERes) (md : Option Nat) (s0 : State) (late : Bool) (vd : VSpec) (t : VT)
    (addr : AddrFn) (s : State) (e : Nat) : State × ERes :=
  let vb := max 1 (s.vbits s.turn)
  let at_ := t.ew * e
  let l : LateLoad :=
    { dst := .v (vd.toNat + at_ / vb) (at_ % vb) t.ew 0, n := t.bytes, sh := if t.ew = 4 then 4 * (e % 2) else 0,
      width := if t.kind = 6 || t.kind = 7 then 6 else t.ew, hz := md.map fun k => (k, e) }
  match (match addr e with
    | .ok va => if late then s.queueLoad s0 (s.sliceOf e) va l else none
    | .error _ => none) with
  | some s => (s, .keep)
  | none => now s e

def lateElem (s0 : State) (late : Bool) (vd : VSpec) (t : VT) (addr : AddrFn) (s : State) (e : Nat) : State × ERes :=
  lateElemBy (loadElem t addr) none s0 late vd t addr s e

/-- The elements a load's present run has to do: from `est` on, the active ones. -/
def State.loadSet (s : State) (m : VMask) : List Nat :=
  (List.range s.vlN).filter fun e => decide (s.est ≤ e) && nbit (s.maskBits m) e

/-- A load: `srcs` its index group, `ok4` whether 4-bit elements are allowed. -/
def vloadEff (s : State) (vd : VSpec) (srcs : List VRead) (ok4 : Bool) (m : VMask) (addr : State → AddrFn) : Eff :=
  let t := s.vt
  let bad := s.memBad || (t.ew = 4 && !ok4) || srcs.any (fun x => 8 < x.n) || s.overlapBad true vd srcs
  vectorEff s 3 srcs (some (vd, t.grp)) bad m fun s =>
    s.elementwise vd m (lateElem s ((vqOf vd).isNone && s.lateRun (s.loadSet m) t.bytes (addr s)) vd t (addr s))

def effVld (vd : VSpec) (a : Reg) (imm : BitVec 16) (m : VMask) (s : State) : Eff :=
  vloadEff s vd [] true m fun s => unitAddr s.vt (s.vbase a imm)
def effVlds (vd : VSpec) (a b : Reg) (imm : BitVec 16) (m : VMask) (s : State) : Eff :=
  vloadEff s vd [] false m fun s => strideAddr (s.vbase a imm) (s.g b).toInt
def effVldx (vd : VSpec) (a : Reg) (vb : VSpec) (iw : Bool) (sc : BitVec 2) (m : VMask) (s : State) : Eff :=
  vloadEff s vd [idxRead s.vt vb iw] false m fun s => s.idxAddr a vb iw sc
def effVldxC (vd vb : VSpec) (m : VMask) (s : State) : Eff :=
  vloadEff s vd [idxRead s.vt vb false] false m fun s => s.spanAddr vb
def execVld (vd : VSpec) (a : Reg) (imm : BitVec 16) (m : VMask) (s : State) := commit (.vld vd a imm m) 8 (effVld vd a imm m s)
def execVlds (vd : VSpec) (a b : Reg) (imm : BitVec 16) (m : VMask) (s : State) :=
  commit (.vlds vd a b imm m) 8 (effVlds vd a b imm m s)
def execVldx (vd : VSpec) (a : Reg) (vb : VSpec) (iw : Bool) (sc : BitVec 2) (m : VMask) (s : State) :=
  commit (.vldx vd a vb iw sc m) 8 (effVldx vd a vb iw sc m s)
def execVldxC (vd vb : VSpec) (m : VMask) (s : State) := commit (.vldxC vd vb m) 8 (effVldxC vd vb m s)

/-- `vldff` (R221): a failing element after an active one sets `vl`. Every address is resolved as the run-ahead finds it,
before any element performs (R234). -/
def effVldff (vd : VSpec) (a : Reg) (imm : BitVec 16) (m : VMask) (s : State) : Eff :=
  let t := s.vt
  vectorEff s 3 [] (some (vd, t.grp)) s.memBad m fun s =>
    let addr := unitAddr t (s.vbase a imm)
    let now := fun (u : State) e =>
      loadElemBy (fun u va => (u.drainSlice u.turn (u.sliceOf e)).loadVia s u.turn va t.bytes) t addr u e
    let late := (vqOf vd).isNone && s.lateRun (s.loadSet m) t.bytes addr
    let o := s.runFrame m t.ew t.mpol (s.destBits vd t.grp) (lateElemBy now none s late vd t addr)
    let put := fun (u : State) b => u.setGroup vd t.grp t.ewCode b
    match o.stop with
    | some (k, some (c, _)) =>
      if 3 ≤ c && c ≤ 6 && s.maskBits m % 2 ^ k ≠ 0 then
        let u := o.s.setCur { o.s.cur with vec := { o.s.cur.vec with vl := w64 k } }
        .done ((put u (u.vtail o.acc)).setEst 0)
      else o.eff s.est put s.vtail
    | _ => o.eff s.est put s.vtail
def execVldff (vd : VSpec) (a : Reg) (imm : BitVec 16) (m : VMask) (s : State) := commit (.vldff vd a imm m) 8 (effVldff vd a imm m s)

/-! ## Stores (R215, R219, R220) -/

/-- The access group of element e: 64 elements of its lane group that the instruction issues together (R196). -/
def State.accessGroup (s : State) (e : Nat) : Nat := s.opId + e / max 1 (s.lanes s.turn) + 1

/-- One element stored; a nibble under a bit mask (R213). -/
def storeElem (t : VT) (data : Nat → Nat) (addr : AddrFn) (s : State) (e : Nat) : State × ERes :=
  match addr e with
  | .error (c, v) => (s, .trap c v)
  | .ok va =>
    if va % t.bytes ≠ 0 then (s, .trap 3 (w64 va))
    else
      let x := t.clean (data e)
      let sh := if t.ew = 4 then 4 * (e % 2) else 0
      let mask := if t.ew = 4 then natBytes 1 (15 <<< sh) else []
      match s.storeNext (s.sliceOf e) (s.accessGroup e) va (natBytes t.bytes (x <<< sh)) mask with
      | (s, some c) => (s, .trap c (accessVal c va))
      | (s, none) => (s, .keep)

/-- The Haze tiles, counted through the device, that writes fill: each write is its window offset and its mask of bits. -/
def fullTiles (ws : List (Nat × Nat)) : Table Nat :=
  (ws.foldl (fun m (off, bits) => tset m (off / 4096) (tget 0 m (off / 4096) ||| (bits <<< (8 * (off % 4096))))) []).filter
    fun p => p.2 = 2 ^ 32768 - 1

/-- The Haze write a store makes. -/
def QStore.hazeWrite (q : QStore) : Option (Nat × Nat) :=
  match q.tgt with
  | .haze off => some (off, if q.mask = [] then 2 ^ (8 * q.bytes.length) - 1 else bytesNat q.mask)
  | _ => none

/-- The stores the running instruction has queued after the first n, those in Haze that `p` holds of marked as one whole-tile
write. -/
def State.markNew (s : State) (n : Nat) (p : Nat → QStore → Bool) : State :=
  let x := s.cur
  s.setCur { x with stores := x.stores.take n ++ (x.stores.drop n).map fun q =>
    match q.tgt with
    | .haze off => if p (off / 4096) q then { q with whole := some s.opId } else q
    | _ => q }

/-- The Haze writes of the elements below k of an instruction, of which each writes the bits `bits e` at its address. -/
def State.hazeWrites (s : State) (addr : AddrFn) (bits : Nat → Nat) (k : Nat) : List (Nat × Nat) :=
  (List.range k).filterMap fun e =>
    match addr e with
    | .ok va => (match s.resolve (s.ctxOf s.turn) .store va with | .ok (.haze off, _) => some (off, bits e) | _ => none)
    | .error _ => none

/-- The stores an instruction has queued after the first n, those to the given tiles marked. -/
def State.markTiles (s : State) (n : Nat) (full : Table Nat) : State :=
  if full.isEmpty then s else s.markNew n fun tile _ => thas full tile

/-- The stores an instruction has queued after the first n: those that fill a tile are one whole-tile write (R202). -/
def State.markWhole (s : State) (n : Nat) : State :=
  s.markTiles n (fullTiles ((s.cur.stores.drop n).filterMap QStore.hazeWrite))

/-- The same of a run that started at element `start` and has done the elements below k: those before it, which an earlier
run stored, count too. -/
def State.markFilled (s : State) (n start k : Nat) (addr : AddrFn) (bits : Nat → Nat) : State :=
  if start = 0 then s.markWhole n else s.markTiles n (fullTiles (s.hazeWrites addr bits k))

/-- The same of an instruction that writes an ascending range of bytes, the first `len` from `base` with what it now queued
after the first n, in a run that may have started behind an earlier one: the tiles that lie in them are written whole
(R202). -/
def State.markRange (s : State) (n base len : Nat) : State :=
  s.markNew n fun _ q => decide (base ≤ q.va / 4096 * 4096 ∧ q.va / 4096 * 4096 + 4096 ≤ base + len)

/-- Every element below `vl` is active. -/
def State.allActive (s : State) (m : VMask) : Bool := s.maskBits m % 2 ^ s.vlN = 2 ^ s.vlN - 1

/-- Whether the store that `est` stands in has trapped. -/
def State.setCut (s : State) (b : Bool) : State := s.setCur { s.cur with cut := b }

/-- A store: the data register `vs`, its other sources, `ok4` whether 4-bit elements are allowed. A trap part-way keeps its
writes from being a whole-tile write, those of its later runs included; a pre-emption does not (R220). -/
def vstoreEff (s : State) (vs : VSpec) (srcs : List VRead) (ok4 : Bool) (m : VMask) (addr : State → AddrFn) : Eff :=
  let t := s.vt
  vectorEff s 4 (t.read vs :: srcs) none (s.memBad || (t.ew = 4 && !ok4) || srcs.any (fun x => 8 < x.n)) m fun s =>
    let n := s.cur.stores.length
    let cut := decide (s.est ≠ 0) && s.cur.cut
    let o := s.runFrame m t.ew false 0 (storeElem t (s.rawAt vs) (addr s))
    let bits := fun e => if t.ew = 4 then 15 <<< (4 * (e % 2)) else 2 ^ (8 * t.bytes) - 1
    let whole := fun k => if !cut && s.allActive m then o.s.markFilled n s.est k (addr s) bits else o.s
    match o.stop with
    | none => .done ((whole s.vlN).setEst 0)
    | some (k, none) => .part (((whole k).setCut cut).setEst k)
    | some (k, some (c, v)) => .trap ((o.s.setCut true).setEst k) c v

def effVst (vs : VSpec) (a : Reg) (imm : BitVec 16) (m : VMask) (s : State) : Eff :=
  vstoreEff s vs [] true m fun s => unitAddr s.vt (s.vbase a imm)
def effVsts (vs : VSpec) (a b : Reg) (imm : BitVec 16) (m : VMask) (s : State) : Eff :=
  vstoreEff s vs [] false m fun s => strideAddr (s.vbase a imm) (s.g b).toInt
def effVstx (vs : VSpec) (a : Reg) (vb : VSpec) (iw : Bool) (sc : BitVec 2) (m : VMask) (s : State) : Eff :=
  vstoreEff s vs [idxRead s.vt vb iw] false m fun s => s.idxAddr a vb iw sc
def effVstxC (vs vb : VSpec) (m : VMask) (s : State) : Eff :=
  vstoreEff s vs [idxRead s.vt vb false] false m fun s => s.spanAddr vb
def execVst (vs : VSpec) (a : Reg) (imm : BitVec 16) (m : VMask) (s : State) := commit (.vst vs a imm m) 8 (effVst vs a imm m s)
def execVsts (vs : VSpec) (a b : Reg) (imm : BitVec 16) (m : VMask) (s : State) :=
  commit (.vsts vs a b imm m) 8 (effVsts vs a b imm m s)
def execVstx (vs : VSpec) (a : Reg) (vb : VSpec) (iw : Bool) (sc : BitVec 2) (m : VMask) (s : State) :=
  commit (.vstx vs a vb iw sc m) 8 (effVstx vs a vb iw sc m s)
def execVstxC (vs vb : VSpec) (m : VMask) (s : State) := commit (.vstxC vs vb m) 8 (effVstxC vs vb m s)

/-! ## Scatter-add (R222, R223) -/

/-- How a `vsadd` under a type adds. -/
def VT.addFmt (t : VT) (rm : Nat) : AddFmt := ⟨t.kind, t.ew, rm⟩

/-- A check of one element: its place and leaf, or its trap. -/
def State.saddPlace (s : State) (t : VT) (addr : AddrFn) (e : Nat) :
    Except (Nat × Word) (Nat × Target × Option (Nat × Nat × Bool)) :=
  match addr e with
  | .error x => .error x
  | .ok va =>
    if va % t.bytes ≠ 0 then .error (3, w64 va)
    else
      match s.atomicPlace s.turn va t.bytes false with
      | .error c => .error (c, accessVal c va)
      | .ok (tgt, leaf) => .ok (va, tgt, leaf)

/-- The combined sums of an access group: each address once, its elements in ascending order. -/
def combine (comb : Nat → Nat → Nat) : List (Nat × Nat) → Table Nat
  | l => l.foldl (fun m (va, x) => tset m va (match tfind m va with | some y => comb y x | none => x)) []

/-- An access group of a `vsadd`: the element group it belongs to, its lane group, its elements' addresses and values. -/
structure SaddGroup where
  elems : Nat
  lane : Nat
  adds : List (Nat × Nat)
  deriving DecidableEq, Repr

/-- The sums of an access group performed later: they join its lane group's slice (R216). -/
def State.saddQueue (s : State) (t : VT) (id : Nat) (g : SaddGroup) : State :=
  let f := t.addFmt s.rm
  (combine f.sum g.adds).foldl (fun (s : State) (va, x) =>
    match s.atomicPlace s.turn va t.bytes false with
    | .ok (tgt, leaf) =>
      let s := s.noteLeaf (s.ctxOf s.turn) va true leaf
      s.setCur { s.cur with stores := s.cur.stores ++
        [{ slice := 1 + g.lane, group := id, rel := false, tgt := tgt, va := va, bytes := natBytes t.bytes x, mask := [],
           whole := none, add := some f }] }
    | .error _ => s) s

/-- The sums of one access group added to memory. -/
def State.saddGroup (s : State) (t : VT) (l : List (Nat × Nat)) : State :=
  let f := t.addFmt s.rm
  (combine f.sum l).foldl (fun s (va, x) =>
    match s.atomicPlace s.turn va t.bytes false with
    | .ok (tgt, leaf) => (s.atomicStep s.turn va t.bytes tgt leaf fun old => some (f.sum old x)).1
    | .error _ => s) s

/-- Whether an access group's sums perform late: its slice's accesses do in this step, it comes after no release fence, and
its cluster writes no hash record (log 4). -/
def State.saddLate (s : State) (g : SaddGroup) : Bool :=
  nbit s.late (1 + g.lane) && !s.cur.relFence && !(s.clusterAt (clusterOf s.turn)).trace.on 11

/-- The access groups, taken in a free order where their sums do not commute (log 13): each is added to memory now, or joins
its slice. An element group is one sync event, as the last of its access groups performs (R144, R358). -/
def State.saddGroups (s : State) (t : VT) : Nat → List SaddGroup → State
  | 0, _ => s
  | _, [] => s
  | n + 1, gs =>
    let k := if t.isI || gs.length = 1 then 0 else Config.groupOrder (s.fresh + n) % gs.length
    let g := gs.getD k ⟨0, 0, []⟩
    let rest := gs.eraseIdx k
    let id := s.opId + g.elems + 1
    if s.saddLate g then (s.saddQueue t id g).saddGroups t n rest
    else
      let s := s.saddGroup t g.adds
      (if rest.any (fun r => r.elems = g.elems) || s.cur.stores.any (fun q => q.add.isSome && q.group = id) then s
        else s.sync s.turn 0).saddGroups t n rest

/-- A tile that the additions of a `vsadd` fill: with the last of those that stand in the queue, after the first n, or now
(R202). -/
def State.saddBirth (s : State) (n tile : Nat) : State :=
  let mine := fun (q : QStore) => q.add.isSome && (match q.tgt with | .haze off => decide (off / 4096 = tile) | _ => false)
  if (s.cur.stores.drop n).any mine then s.markNew n fun k q => k = tile && mine q
  else s.setBirth (tile / 1024) (tile % 1024) (some s.tick)

/-- The Haze tiles that a `vsadd` whose elements `es` are all active fills, and that its elements from `from_` on write
(R202). -/
def State.saddFilled (s : State) (t : VT) (addr : AddrFn) (es : List Nat) (from_ : Nat) : List Nat :=
  let ws := es.filterMap fun e =>
    match s.saddPlace t addr e with
    | .ok (_, .haze off, _) => some (e, off)
    | _ => none
  ((fullTiles (ws.map fun w => (w.2, 2 ^ t.ew - 1))).map (·.1)).filter fun tile => ws.any fun w => from_ ≤ w.1 && w.2 / 4096 = tile

/-- `vsadd`: an element is checked once the earlier stores of its slice have performed; its sum performs then, or later in
its slice (R216). -/
def effVsadd (vs : VSpec) (a : Reg) (vb : VSpec) (iw : Bool) (sc : BitVec 2) (m : VMask) (s : State) : Eff :=
  let t := s.vt
  let x := idxRead t vb iw
  let bad := s.memBad || t.skind ≠ 0 || !(t.kind ≤ 3) || 8 < x.n
  vectorEff s 4 [t.read vs, x] none bad m fun s =>
    let addr := s.idxAddr a vb iw sc
    let data := s.rawAt vs
    let vl := match s.cur.lim with | some k => min k s.cur.vec.vl.toNat | none => s.cur.vec.vl.toNat
    let mb := s.maskBits m
    let es := (List.range (vl - s.est)).filterMap fun i => if nbit mb (s.est + i) then some (s.est + i) else none
    let L := max 1 (s.lanes s.turn)
    let s := ((es.map fun e => e % L / 64).eraseDups).foldl (fun s j => s.drainSlice s.turn (1 + j)) s
    let fail := es.findSome? fun e => match s.saddPlace t addr e with | .error x => some (e, x) | .ok _ => none
    let k := match fail with | some (e, _) => e | none => vl
    let done := es.filter (· < k)
    let keys := (done.map fun e => (e / L, e % L / 64)).eraseDups
    let groups := keys.map fun key => SaddGroup.mk key.1 key.2 ((done.filter fun e => (e / L, e % L / 64) = key).filterMap fun e =>
      match addr e with | .ok va => some (va, data e) | .error _ => none)
    let filled := if mb % 2 ^ s.cur.vec.vl.toNat = 2 ^ s.cur.vec.vl.toNat - 1 then s.saddFilled t addr (List.range k) s.est else []
    let n := s.cur.stores.length
    let s := s.saddGroups t groups.length groups
    let s := filled.foldl (fun s tile => s.saddBirth n tile) s
    match fail with
    | some (e, c, v) => .trap (s.setEst e) c v
    | none => if vl < s.cur.vec.vl.toNat then .part (s.setEst (max vl s.est)) else .done (s.setEst 0)
def execVsadd (vs : VSpec) (a : Reg) (vb : VSpec) (iw : Bool) (sc : BitVec 2) (m : VMask) (s : State) :=
  commit (.vsadd vs a vb iw sc m) 8 (effVsadd vs a vb iw sc m s)

/-! ## The scale file and whole registers (R224-R227) -/

/-- The hart whose scale file an access hart's `vlsc` and `vssc` move. -/
def State.scaleHart (s : State) : Nat := if s.isSplit s.turn then 2 * coreOf s.turn + 1 else s.turn

/-- An entry of the scale file written. -/
def State.setScale (s : State) (h i v : Nat) : State :=
  let x := s.hartAt h
  if hi : i < 256 then
    s.setHart h { x with
      vec := { x.vec with scale := x.vec.scale.set i (BitVec.ofNat 16 v) }
      dirty := { x.dirty with dv := true } }
  else s

/-- `vlsc` and `vssc`: `n` entries by `op`. -/
def scaleEff (s : State) (unit : Nat) (f : BitVec 8) (c : Reg) (op : State → Nat → State × ERes) : Eff :=
  let n := (s.g c).toNat
  vectorOver (fun _ => n) s unit [] none (s.memBad || 256 < n || 256 < f.toNat + n) none fun s =>
    (frame (fun _ => true) op 1 false (n - s.est) s.est s 0).eff s.est (fun u _ => u) id

def entryAddrOf (s : State) (a b : Reg) (i : Nat) : Nat := wrapN 64 ((s.g a).toNat + i * (s.g b).toInt)

def vlscOp (b8 : Bool) (f : BitVec 8) (a b : Reg) (s : State) (i : Nat) : State × ERes :=
  let n := if b8 then 1 else 2
  let va := entryAddrOf s a b i
  if va % n ≠ 0 then (s, .trap 3 (w64 va))
  else
    -- an entry of the hart's own file may join its slice and follow
    match (if s.scaleHart = s.turn then
        s.queueLoad s (s.sliceOf i) va { dst := .scale (f.toNat + i), n := n, sh := 0, width := 8 * n } else none) with
    | some s => (s, .keep)
    | none =>
      match s.load s.turn (s.sliceOf i) va n with
      | (s, .error c) => (s, .trap c (accessVal c va))
      | (s, .ok bs) => (s.setScale s.scaleHart (f.toNat + i) (bytesNat bs), .keep)

def vsscOp (b8 : Bool) (f : BitVec 8) (a b : Reg) (s : State) (i : Nat) : State × ERes :=
  let n := if b8 then 1 else 2
  let va := entryAddrOf s a b i
  let x := ((s.hartAt s.scaleHart).vec.scale.toList.getD (f.toNat + i) 0).toNat
  if va % n ≠ 0 then (s, .trap 3 (w64 va))
  else
    match s.storeNext (s.sliceOf i) (s.accessGroup i) va (natBytes n x) [] with
    | (s, some c) => (s, .trap c (accessVal c va))
    | (s, none) => (s, .keep)

def execVlsc (b8 : Bool) (f : BitVec 8) (a b c : Reg) (s : State) :=
  commit (.vlsc b8 f a b c) 8 (scaleEff s 3 f c (vlscOp b8 f a b))
def execVssc (b8 : Bool) (f : BitVec 8) (a b c : Reg) (s : State) :=
  commit (.vssc b8 f a b c) 8 (scaleEff s 4 f c (vsscOp b8 f a b))

/-- Registers `vldreg` and `vstreg` may name: any that exists, in split mode at handler level only (R217, R227). -/
def State.regBad (s : State) (r : VSpec) : Bool :=
  (s.isSplit s.turn && !s.cur.tr.hl) || !(regsUnder s.declD).contains r.toNat

/-- Whole registers move as 8-byte words. -/
def wordAddr (base : Nat) : AddrFn := fun e => .ok ((base + 8 * e) % 2 ^ 64)

/-- The words of a register. -/
def State.regWords (s : State) : Nat := s.vbits s.turn / 64

/-- The type under which words move. -/
def wordType : VT :=
  { ew := 64, ewCode := 3, kind := 1, grp := 1, tail := false, mpol := false, blk := 0, skind := 0, sat := false, gran := false }

def vldregEff (s : State) (vd : VSpec) (a : Reg) (imm : BitVec 16) : Eff :=
  let base := s.vbase a imm
  vectorOver State.regWords s 3 [] none (s.regBad vd) none fun s =>
    if base % 64 ≠ 0 then .trap (s.setEst 0) 3 (w64 base)
    else
      -- a word of a `v` or `o` register may join its slice and follow
      let late := decide (vd.toNat < 40) && s.lateRun ((List.range s.regWords).filter (s.est ≤ ·)) 8 (wordAddr base)
      (frame (fun _ => true) (lateElem s late vd wordType (wordAddr base)) 64 false (s.regWords - s.est) s.est s
        ((s.cur.vec.reg vd.toNat).toNat)).eff s.est
        (fun u b => (u.setCur { u.cur with vec := u.cur.vec.setReg vd.toNat (BitVec.ofNat vregBits b) }).dirtyV) id
def execVldreg (vd : VSpec) (a : Reg) (imm : BitVec 16) (s : State) := commit (.vldreg vd a imm) 8 (vldregEff s vd a imm)

def vstregEff (s : State) (vs : VSpec) (a : Reg) (imm : BitVec 16) : Eff :=
  let base := s.vbase a imm
  vectorOver State.regWords s 4 [] none (s.regBad vs) none fun s =>
    if base % 64 ≠ 0 then .trap (s.setEst 0) 3 (w64 base)
    else
      let r := (s.cur.vec.reg vs.toNat).toNat
      let n := s.cur.stores.length
      let o := frame (fun _ => true) (storeElem wordType (fun w => nbits r (64 * w) 64) (wordAddr base)) 64 false
        (s.regWords - s.est) s.est s 0
      let done := match o.stop with | some (w, _) => 8 * w | none => s.vbits s.turn / 8
      ({ o with s := o.s.markRange n base done } : FOut).eff s.est (fun u _ => u) id
def execVstreg (vs : VSpec) (a : Reg) (imm : BitVec 16) (s : State) := commit (.vstreg vs a imm) 8 (vstregEff s vs a imm)

/-- `pref` changes no architectural state and raises nothing while it runs (R228). -/
def prefEff (s : State) : Eff := if s.memBad then .trap s 2 0 else .done s
def execPref (t : BitVec 2) (a b : Reg) (imm : BitVec 16) (s : State) := commit (.pref t a b imm) 8 (prefEff s)

/-! ## Haze (R229-R233) -/

def inHaze (va : Nat) : Bool := va / 2 ^ 22 = 0xF200000000000000 / 2 ^ 22

/-- One element of `hzld`: an expired tile gives zero. The mask bit stands above the element's bits. -/
def hzElem (t : VT) (addr : AddrFn) (s : State) (e : Nat) : State × ERes :=
  match addr e with
  | .error (c, v) => (s, .trap c v)
  | .ok va =>
    if va % t.bytes = 0 && !inHaze va then (s, .trap 5 (w64 va))
    else
      match loadElem t addr s e with
      | (s, .trap c v) => if c = 6 then (s, .val 0 0) else (s, .trap c v)
      | (s, .val x fl) => (s, .val (x + 2 ^ t.ew) fl)
      | r => r

/-- The low `ew` bits, and the top bits, of pairs of `ew` + 1 bits. -/
def unzipBits (ew n acc : Nat) : Nat × Nat :=
  (List.range n).foldl (fun (d, m) e =>
    let p := nbits acc ((ew + 1) * e) (ew + 1)
    (nset d (ew * e) ew (p % 2 ^ ew), nset m e 1 (p / 2 ^ ew))) (0, 0)

def zipBits (ew n d m : Nat) : Nat :=
  (List.range n).foldl (fun acc e => nset acc ((ew + 1) * e) (ew + 1) (nbits d (ew * e) ew + nbits m e 1 * 2 ^ ew)) 0

/-- `hzld` (R229): element and mask bit are written together, as the element performs. -/
def effHzld (vd : VSpec) (md : BitVec 3) (a : Reg) (imm : BitVec 16) (m : VMask) (s : State) : Eff :=
  let t := s.vt
  vectorEff s 10 [] (some (vd, t.grp)) (s.memBad || t.ew = 4 || m = some md) m fun s =>
    let vl := s.cur.vec.vl.toNat
    let d0 := s.destBits vd t.grp; let m0 := s.mask md
    let addr := unitAddr t (s.vbase a imm)
    let late := (vqOf vd).isNone &&
      s.lateRunBy (fun va => inHaze va && (s.latePlaceOf true s.turn va t.bytes).isSome) (s.loadSet m) t.bytes addr
    let o := s.runFrame m (t.ew + 1) t.mpol (zipBits t.ew vl d0 m0) (lateElemBy (hzElem t addr) (some md.toNat) s late vd t addr)
    let put := fun (tail : Bool) (u : State) acc =>
      let (d, k) := unzipBits t.ew vl acc
      let d := nset d0 0 (t.ew * vl) d
      let u := u.setGroup vd t.grp t.ewCode (if tail then u.vtail d else d)
      u.setMask md (if tail then u.maskTail m0 k else k + m0 / 2 ^ vl * 2 ^ vl)
    match o.stop with
    | none => .done ((put true o.s o.acc).setEst 0)
    | _ => o.eff s.est (put false) id
def execHzld (vd : VSpec) (md : BitVec 3) (a : Reg) (imm : BitVec 16) (m : VMask) (s : State) :=
  commit (.hzld vd md a imm m) 8 (effHzld vd md a imm m s)

/-- The tiles of a byte range, each with the lowest byte of the range in it (R230). -/
def hzTiles (lo n : Nat) : List (Nat × Nat) :=
  if n = 0 then [] else
  (List.range (min 1025 ((lo + n - 1) / 4096 - lo / 4096 + 1))).map fun i =>
    ((lo / 4096 + i) % 1024, max lo ((lo / 4096 + i) * 4096))

/-- A range's tiles, or the lowest address that fails. -/
def State.hzRange (s : State) (lo n : Nat) : Except Nat (List Nat) :=
  let ts := hzTiles lo n
  match ts.find? (fun (_, a) => !inHaze a || (match s.resolve (s.ctxOf s.turn) .load a with | .ok _ => false | .error _ => true)) with
  | some (_, a) => .error a
  | none => .ok (ts.map (·.1))

def hzrenewEff (s : State) (d a b : Reg) : Eff :=
  if s.memBad then .trap s 2 0 else
  let lo := (s.g a).toNat
  let n := (s.g b).toNat
  let s := s.drainSlice s.turn 0
  match s.hzRange lo n with
  | .error va => raiseEff s 5 (w64 va)
  | .ok ts =>
    let cl := clusterOf s.turn
    let (s, n) := ts.foldl (fun (s, n) tile =>
      if s.tileLive cl tile then (s.setBirth cl tile (some s.tick), n) else (s, n + 1)) (s, 0)
    .done (s.setG d (w64 n))

def hzageEff (s : State) (d a : Reg) (imm : BitVec 16) : Eff :=
  if s.memBad then .trap s 2 0 else
  let va := s.vbase a imm
  let s := s.drainSlice s.turn 0
  match s.hzRange va 1 with
  | .error va => raiseEff s 5 (w64 va)
  | .ok ts =>
    let cl := clusterOf s.turn
    let tile := ts.headD 0
    .done (s.setG d (match s.birth cl tile with
      | some b => if s.tileLive cl tile then w64 (b + hzlife - s.tick) else 0
      | none => 0))

def hzdropEff (s : State) (a b : Reg) : Eff :=
  if s.memBad then .trap s 2 0 else
  let lo := (s.g a).toNat
  let n := (s.g b).toNat
  let s := s.drainSlice s.turn 0
  match s.hzRange lo n with
  | .error va => raiseEff s 5 (w64 va)
  | .ok ts => .done (ts.foldl (fun s tile => s.setBirth (clusterOf s.turn) tile none) s)

def execHzrenew (d a b : Reg) (s : State) := commit (.hzrenew d a b) 8 (hzrenewEff s d a b)
def execHzage (d a : Reg) (imm : BitVec 16) (s : State) := commit (.hzage d a imm) 8 (hzageEff s d a imm)
def execHzdrop (a b : Reg) (s : State) := commit (.hzdrop a b) 8 (hzdropEff s a b)

end Sys2Proof.Machine
end

