-- ==== Sys2Proof/Machine/Coded.lean ====
section
/-!
DEFINITION. Ezyan codes (R122-R127) and unit 6 (R175-R190). A register of codes is a number whose bit n is stream bit n.
DEDUCED (readings): log 32.
-/
namespace Sys2Proof.Machine

/-! ## Codes -/

/-- Granule and payload bits, and the most granules of a code (R122). -/
def granBits (ez8 : Bool) : Nat := if ez8 then 8 else 4
def granMost (ez8 : Bool) : Nat := if ez8 then 10 else 22

/-- What decoding finds at a position (R123, R124). -/
inductive CodeRes where
  | incomplete
  | malformed
  | code (u pos : Nat)
  deriving DecidableEq, Repr

/-- The loop of R124 from granule j at `pos`; `fuel` granules are left. -/
def decodeFrom (ez8 : Bool) (bits limit : Nat) : Nat → Nat → Nat → Nat → CodeRes
  | 0, _, _, _ => .malformed
  | fuel + 1, j, pos, u =>
    let g := granBits ez8
    let p := g - 1
    if limit < pos + g then .incomplete
    else
      let gr := nbits bits pos g
      let payload := gr % 2 ^ p
      if 64 < p * j + p && payload >>> (64 - p * j) ≠ 0 then .malformed
      else
        let u := u + payload <<< (p * j)
        if !nbit gr p then .code u (pos + g)
        else decodeFrom ez8 bits limit fuel (j + 1) (pos + g) u

/-- `code_at` (R178). -/
def ezCodeAt (ez8 : Bool) (bits limit pos : Nat) : CodeRes := decodeFrom ez8 bits limit (granMost ez8) 0 pos 0

/-- Granules of the minimal code of u (R124). -/
def codeLen (ez8 : Bool) (u : Nat) : Nat :=
  max 1 (ceilDiv (if u = 0 then 0 else u.log2 + 1) (granBits ez8 - 1))

/-- n granules of u, all but the last with the more bit (R122). -/
def encodeN (ez8 : Bool) : Nat → Nat → Nat
  | 0, _ => 0
  | 1, u => u % 2 ^ (granBits ez8 - 1)
  | n + 1, u =>
    u % 2 ^ (granBits ez8 - 1) + 2 ^ (granBits ez8 - 1) + encodeN ez8 n (u >>> (granBits ez8 - 1)) <<< granBits ez8

/-- The minimal code: its bits and its length in bits. -/
def encodeCode (ez8 : Bool) (u : Nat) : Nat × Nat := (encodeN ez8 (codeLen ez8 u) u, codeLen ez8 u * granBits ez8)

/-- Zigzag of a signed 64-bit value, and back (R125). -/
def zigzag (v : Int) : Nat := let w := sext 64 (wrapN 64 v); if w < 0 then 2 * w.natAbs - 1 else 2 * w.natAbs
def unzig (u : Nat) : Int := if u % 2 = 1 then -((u / 2 + 1 : Nat) : Int) else (u / 2 : Nat)

/-- A 64-bit value read with a kind's signedness. -/
def VT.wide (t : VT) (v : Int) : Int := if t.kind = 10 then (wrapN 64 v : Nat) else sext 64 (wrapN 64 v)

/-- `value(u)` (R125); `prev` is the running value of `ezd`. -/
def VT.codeValue (t : VT) (prev : Int) (u : Nat) : Int :=
  match t.kind with
  | 10 => (u : Int)
  | 11 => unzig u
  | _ => t.wide (prev + unzig u)

/-- u of a value. -/
def VT.codeOf (t : VT) (prev v : Int) : Nat :=
  match t.kind with
  | 10 => wrapN 64 v
  | 11 => zigzag v
  | _ => zigzag (v - prev)

/-! ## What the members share -/

/-- Illegal under the type in force (R175). -/
def State.codedBad (s : State) : Bool := !s.vt.coded || s.vt.grp ≠ 1

/-- A register read or written as a bit string. -/
def codedRead (r : VSpec) : VRead := ⟨r, 1, 0⟩

/-- The grant registers written (R177). -/
def State.grant (s : State) (cnt a b d : Nat) : State :=
  (s.setCur { s.cur with gcnt := w64 cnt, gsa := w64 a, gsb := w64 b, gsd := w64 d }).dirtyC

def State.setZseed (s : State) (v : Int) : State := (s.setCur { s.cur with zseed := w64 (wrapN 64 v) }).dirtyC

/-- `vlb`. -/
def State.vlb (s : State) : Nat := s.cur.vec.vlb.toNat

/-- Malformed code n of source `src` at bit `pos` (R179). -/
def State.malformed (s : State) (n src pos : Nat) : Eff := .trap (s.setEst n) 7 (w64 (pos % 2 ^ 32 + src * 2 ^ 32))

/-- The bits from `at_` up follow `tail`: zero, or as the destination held them. -/
def State.codedTail (s : State) (old at_ new : Nat) : Nat :=
  new % 2 ^ at_ + (if s.vt.tail then 0 else old >>> at_ <<< at_)

/-- A whole instruction's destination written, with the grants; `est` is left 0 (R176). -/
def State.putCoded (s : State) (vd : VSpec) (code bits cnt a b d : Nat) : State :=
  ((s.setGroup vd 1 code bits).grant cnt a b d).setEst 0

/-! ## `zld`, `zst` (R182-R185) -/

/-- The bytes of n stream bits from bit address A. -/
def streamBytes (A n : Nat) : List Nat :=
  if n = 0 then [] else (List.range ((A % 8 + n + 7) / 8)).map fun i => (A / 8 + i) % 2 ^ 64

/-- The check of one byte (R184): its place and leaf, or the failing cause. -/
def State.streamByte (s : State) (need : Need) (va : Nat) : Except Nat (Target × Option (Nat × Nat × Bool)) :=
  match s.resolve (s.ctxOf s.turn) need va with
  | .error c => .error c
  | .ok (t, leaf) =>
    if t.isHost || s.beyond t 1 then .error 5 else if need = .load && s.expired t then .error 6 else .ok (t, leaf)

/-- Stream bytes, by address and place in the stream, in ascending address: those of a stream that wraps around come first
(R182, R184). -/
def ascending (l : List (Nat × Nat)) : List (Nat × Nat) :=
  (l.filter fun p => p.1 < (l.headD (0, 0)).1) ++ l.filter fun p => (l.headD (0, 0)).1 ≤ p.1

/-- The first byte that fails. -/
def State.streamFail (s : State) (need : Need) (vas : List Nat) : Option (Nat × Nat) :=
  (ascending vas.zipIdx).findSome? fun (va, _) => match s.streamByte need va with | .error c => some (va, c) | .ok _ => none

/-- What `zst` needs of byte i of n bits from bit address A: a byte it writes only in part it reads too (R208). -/
def zstNeed (A n i : Nat) : Need := if 8 * i < A % 8 || A % 8 + n < 8 * i + 8 then .both else .store

/-- The first byte of a `zst` that fails. -/
def State.zstFail (s : State) (A n : Nat) : Option (Nat × Nat) :=
  (ascending (streamBytes A n).zipIdx).findSome? fun (va, i) =>
    match s.streamByte (zstNeed A n i) va with | .error c => some (va, c) | .ok _ => none

/-- The slice of the hart's lane group 0. -/
def group0 : Nat := 1

/-- A `zld` whose bytes all perform late: lane group 0's loads do in this step, and every byte may (R185, log 4). -/
def State.zldLate (s : State) (vd : VSpec) (vas : List Nat) : Bool :=
  nbit s.late group0 && (vqOf vd).isNone && !vas.isEmpty && vas.all fun va =>
    (match s.streamByte .load va with | .ok _ => true | .error _ => false) && (s.latePlace s.turn va 1).isSome

/-- The bytes of such a `zld` handed to the slice: byte i brings the stream's bits that lie in it. -/
def State.zldQueue (s0 : State) (vd : VSpec) (A n : Nat) (vas : List Nat) : State :=
  vas.zipIdx.foldl (fun (s : State) (va, i) =>
    let lo := max (8 * i) (A % 8)
    let w := min (8 * i + 8) (A % 8 + n) - lo
    (s.queueLoad s0 group0 va { dst := .v vd.toNat (lo - A % 8) w 0, n := 1, sh := lo - 8 * i, width := w }).getD s) s0

def effZld (vd : VSpec) (a b c : Reg) (s : State) : Eff :=
  vectorEff s 6 [] (some (vd, 1)) (s.codedBad || s.memBad) none fun s =>
    let A := 8 * (s.g a).toNat + (s.g c).toNat
    let n := min (s.g b).toNat s.vlb
    let vas := streamBytes A n
    if s.zldLate vd vas then .done ((s.zldQueue vd A n vas).putCoded vd 0 0 0 n 0 n) else
    let s := if n = 0 then s else s.drainSlice s.turn group0
    match s.streamFail .load vas with
    | some (va, k) => .trap (s.setEst 0) k (accessVal k va)
    | none =>
      let (s, bs) := vas.foldl (fun (acc : State × List Byte) va =>
        match acc.1.load s.turn group0 va 1 with
        | (s, .ok b) => (s, acc.2 ++ b)
        | (s, .error _) => (s, acc.2)) (s, [])
      .done (s.putCoded vd 0 (nbits (bytesNat bs) (A % 8) n) 0 n 0 n)
def execZld (vd : VSpec) (a b c : Reg) (s : State) := commit (.zld vd a b c) 8 (effZld vd a b c s)

/-- `zst`. A boundary byte is merged as its store performs, with what it read by then (R184, log 32). -/
def effZst (vs : VSpec) (a b c : Reg) (s : State) : Eff :=
  vectorEff s 6 [codedRead vs] none (s.codedBad || s.memBad || s.vbits s.turn < (s.g b).toNat) none fun s =>
    let A := 8 * (s.g a).toNat + (s.g c).toNat
    let n := (s.g b).toNat
    let vas := streamBytes A n
    match s.zstFail A n with
    | some (va, k) => .trap (s.setEst 0) k (accessVal k va)
    | none =>
      let val := (s.groupBits vs 1 % 2 ^ n) <<< (A % 8)
      let mask := (2 ^ n - 1) <<< (A % 8)
      let first := s.cur.stores.length
      let s := vas.zipIdx.foldl (fun (s : State) (va, i) =>
        (s.storeNext group0 0 va (natBytes 1 (nbits val (8 * i) 8))
          (if nbits mask (8 * i) 8 = 255 then [] else natBytes 1 (nbits mask (8 * i) 8))).1) s
      .done (((s.markWhole first).grant 0 n 0 n).setEst 0)
def execZst (vs : VSpec) (a b c : Reg) (s : State) := commit (.zst vs a b c) 8 (effZst vs a b c s)

/-! ## Arithmetic on codes (R186) -/

/-- Where an arithmetic member stands: positions in both sources and the output, elements, the output. -/
structure ZPos where
  pa : Nat
  pb : Nat
  pd : Nat
  n : Nat
  out : Nat
  deriving DecidableEq, Repr

/-- Where it stopped; `bad` is the source and position of a malformed code. -/
structure ZEnd where
  z : ZPos
  bad : Option (Nat × Nat)
  deriving DecidableEq, Repr

/-- The second operand at a position: its value and end, or why there is none. -/
inductive ZSrc where
  | incomplete
  | malformed
  | val (y : Int) (pos : Nat)
  deriving DecidableEq, Repr

/-- The loop of R186; `src2` reads the second operand, `f` combines and fits. -/
def zLoop (t : VT) (va limit : Nat) (src2 : Nat → ZSrc) (f : Int → Int → Int) : Nat → ZPos → ZEnd
  | 0, z => ⟨z, none⟩
  | fuel + 1, z =>
    match ezCodeAt t.gran va limit z.pa with
    | .incomplete => ⟨z, none⟩
    | .malformed => ⟨z, some (0, z.pa)⟩
    | .code u pa =>
      match src2 z.pb with
      | .incomplete => ⟨z, none⟩
      | .malformed => ⟨z, some (1, z.pb)⟩
      | .val y pb =>
        let c := encodeCode t.gran (t.codeOf 0 (f (t.codeValue 0 u) y))
        if limit < z.pd + c.2 then ⟨z, none⟩
        else zLoop t va limit src2 f fuel ⟨pa, pb, z.pd + c.2, z.n + 1, z.out + c.1 <<< z.pd⟩

/-- A 64-bit result wrapped, or clamped under `sat`. -/
def VT.fit64 (t : VT) (v : Int) : Int := if t.sat then clampInt t.signed 64 v else t.wide v

/-- The second operand of a form. -/
def State.zSrc (s : State) (t : VT) (b : VSrc) : Nat → ZSrc :=
  match b with
  | .vv r =>
    let bits := s.groupBits r 1
    let limit := s.vlb
    fun pos => match ezCodeAt t.gran bits limit pos with
      | .incomplete => .incomplete
      | .malformed => .malformed
      | .code u e => .val (t.codeValue 0 u) e
  | .vs g => let y := t.wide (s.g g).toNat; fun _ => .val y 0
  | .vi _ => fun _ => .incomplete

def zReads (b : VSrc) : List VRead := match b with | .vv r => [codedRead r] | _ => []

/-- A member of R186. -/
def zArith (s : State) (vd va : VSpec) (b : VSrc) (bad : Bool) (f : Int → Int → Int) : Eff :=
  vectorEff s 6 (codedRead va :: zReads b) (some (vd, 1))
    (s.codedBad || s.vt.kind = 12 || s.scaleOver s.vt || bad) none fun s =>
    let t := s.vt
    let o := zLoop t (s.groupBits va 1) s.vlb (s.zSrc t b) (fun x y => t.fit64 (f x y)) s.cur.vec.vl.toNat ⟨0, 0, 0, 0, 0⟩
    match o.bad with
    | some (src, pos) => s.malformed o.z.n src pos
    | none => .done (s.putCoded vd 0 (s.codedTail (s.destBits vd 1) o.z.pd o.z.out) o.z.n o.z.pa o.z.pb o.z.pd)

def effZadd (vd va : VSpec) (b : VSrc) (s : State) : Eff := zArith s vd va b false (· + ·)
def effZsub (vd va : VSpec) (b : VSrc) (s : State) : Eff := zArith s vd va b false (· - ·)
def effZmul (vd va : VSpec) (b : VSrc) (s : State) : Eff := zArith s vd va b (s.vt.skind ≠ 0) (· * ·)
def effZmin (vd va : VSpec) (b : VSrc) (s : State) : Eff := zArith s vd va b false min
def effZmax (vd va : VSpec) (b : VSrc) (s : State) : Eff := zArith s vd va b false max
def execZadd (vd va : VSpec) (b : VSrc) (s : State) := commit (.zadd vd va b) 8 (effZadd vd va b s)
def execZsub (vd va : VSpec) (b : VSrc) (s : State) := commit (.zsub vd va b) 8 (effZsub vd va b s)
def execZmul (vd va : VSpec) (b : VSrc) (s : State) := commit (.zmul vd va b) 8 (effZmul vd va b s)
def execZmin (vd va : VSpec) (b : VSrc) (s : State) := commit (.zmin vd va b) 8 (effZmin vd va b s)
def execZmax (vd va : VSpec) (b : VSrc) (s : State) := commit (.zmax vd va b) 8 (effZmax vd va b s)

/-! ## Decoding (R187) and scanning (R189) -/

/-- The complete codes from `pos`, at most `fuel`, with the start, u and end of each; and a malformed one's start. -/
def codesFrom (ez8 : Bool) (bits limit : Nat) : Nat → Nat → List (Nat × Nat × Nat) × Option Nat
  | 0, _ => ([], none)
  | fuel + 1, pos =>
    match ezCodeAt ez8 bits limit pos with
    | .incomplete => ([], none)
    | .malformed => ([], some pos)
    | .code u e =>
      let (l, bad) := codesFrom ez8 bits limit fuel e
      ((pos, u, e) :: l, bad)

/-- The end of the last code. -/
def codesEnd (l : List (Nat × Nat × Nat)) : Nat := match l.getLast? with | some (_, _, e) => e | none => 0

/-- The values of codes in order, and the last one. -/
def VT.values (t : VT) (prev : Int) : List (Nat × Nat × Nat) → List Int
  | [] => []
  | (_, u, _) :: l => let v := t.codeValue prev u; v :: t.values v l

/-- Elements laid one after another. -/
def packElems (ew : Nat) : List Nat → Nat
  | [] => 0
  | x :: l => x % 2 ^ ew + packElems ew l <<< ew

/-- The float format a coded real decodes to. -/
def VT.realFmt (t : VT) : Fmt := if t.ew = 64 then .b64 else .b32

/-- A coded integer decoded to the float format (R127). -/
def State.decodeReal (s : State) (t : VT) (n : Nat) (q : Int) : Nat × Nat :=
  let x := if t.skind = 0 then Exact.ofInt q else ((Exact.ofInt q).mul (s.scaleOf t n)).1
  t.realFmt.round s.rm t.sat x

/-- `zdec`. DESIGN CHOICE (log 47): a malformed code leaves `fflags` without the flags of the elements decoded before it; R176
and R179 do not say. -/
def zdecEff (s : State) (vd va : VSpec) (real : Bool) : Eff :=
  vectorEff s 6 [codedRead va] (some (vd, 1)) (s.codedBad || s.scaleOver s.vt) none fun s =>
    let t := s.vt
    let seed := t.wide s.cur.zseed.toNat
    let (l, bad) := codesFrom t.gran (s.groupBits va 1) s.vlb s.cur.vec.vl.toNat 0
    match bad with
    | some pos => s.malformed l.length 0 pos
    | none =>
      let vs := t.values seed l
      let rs := vs.zipIdx.map fun (v, n) => if real then s.decodeReal t n v else (t.narrow v, 0)
      let fl := rs.foldl (fun f r => f ||| r.2) 0
      let s := s.orFlags fl
      if s.flagTraps fl then .trap (s.setEst 0) 13 (w64 fl)
      else
        let n := l.length
        let s1 := s.putCoded vd t.ewCode (s.codedTail (s.destBits vd 1) (n * t.ew) (packElems t.ew (rs.map (·.1))))
          n (codesEnd l) 0 (n * t.ew)
        .done (if t.kind = 12 && n ≠ 0 then s1.setZseed (vs.getLastD seed) else s1)

def effZdec (vd va : VSpec) (s : State) : Eff := zdecEff s vd va false
def effZdecF (vd va : VSpec) (s : State) : Eff := zdecEff s vd va true
def execZdec (vd va : VSpec) (s : State) := commit (.zdec vd va) 8 (effZdec vd va s)
def execZdecF (vd va : VSpec) (s : State) := commit (.zdecF vd va) 8 (effZdecF vd va s)

/-- `zscan`: the start of each code. -/
def effZscan (vd va : VSpec) (s : State) : Eff :=
  vectorEff s 6 [codedRead va] (some (vd, 1)) s.codedBad none fun s =>
    let t := s.vt
    let (l, bad) := codesFrom t.gran (s.groupBits va 1) s.vlb s.cur.vec.vl.toNat 0
    match bad with
    | some pos => s.malformed l.length 0 pos
    | none =>
      let n := l.length
      .done (s.putCoded vd t.ewCode (s.codedTail (s.destBits vd 1) (n * t.ew) (packElems t.ew (l.map (·.1))))
        n (codesEnd l) 0 (n * t.ew))
def execZscan (vd va : VSpec) (s : State) := commit (.zscan vd va) 8 (effZscan vd va s)

/-- `zcnt`: every complete code below `vlb`. -/
def effZcnt (d : Reg) (va : VSpec) (s : State) : Eff :=
  vectorEff s 6 [codedRead va] none s.codedBad none fun s =>
    let t := s.vt
    let (l, bad) := codesFrom t.gran (s.groupBits va 1) s.vlb (s.vlb / granBits t.gran) 0
    match bad with
    | some pos => s.malformed l.length 0 pos
    | none => .done (((s.setG d (w64 l.length)).grant l.length (codesEnd l) 0 0).setEst 0)
def execZcnt (d : Reg) (va : VSpec) (s : State) := commit (.zcnt d va) 8 (effZcnt d va s)

/-! ## Encoding (R127, R188) -/

/-- A float turned into a coded integer: nearest-even, clamped (R127). -/
def State.encodeReal (s : State) (t : VT) (n raw : Nat) : Int × Nat :=
  let hi : Int := 2 ^ 62 - 1
  let lo : Int := if t.kind = 10 then 0 else -hi
  let sc := if t.skind = 0 then Exact.ofInt 1 else s.scaleOf t n
  if sc.isNan then (0, 1)
  else
    match (t.realFmt.decode raw).div sc |>.1 with
    | .nan _ => (0, 1)
    | .inf neg => (if neg then lo else hi, 1)
    | .num neg m e st =>
      let (v, inex) := Exact.toInt 0 neg m e st
      let c := if v < lo then lo else if hi < v then hi else v
      if c ≠ v then (c, 20) else (v, if inex then 16 else 0)

/-- Where encoding stands. -/
structure ZEnc where
  p : Nat
  n : Nat
  prev : Int
  out : Nat
  fl : Nat
  deriving DecidableEq, Repr

/-- The loop of R188; an element that does not fit leaves no trace. -/
def encLoop (t : VT) (limit : Nat) (elem : Nat → Int × Nat) : Nat → ZEnc → ZEnc
  | 0, z => z
  | fuel + 1, z =>
    let (q, fl) := elem z.n
    let c := encodeCode t.gran (t.codeOf z.prev q)
    if limit < z.p + c.2 then z
    else encLoop t limit elem fuel ⟨z.p + c.2, z.n + 1, q, z.out + c.1 <<< z.p, z.fl ||| fl⟩

def zencEff (s : State) (vd va : VSpec) (real : Bool) : Eff :=
  vectorEff s 6 [⟨va, 1, s.vt.ewCode⟩] (some (vd, 1)) (s.codedBad || s.scaleOver s.vt) none fun s =>
    let t := s.vt
    let src := s.groupBits va 1
    let elem := fun n => let raw := nbits src (t.ew * n) t.ew; if real then s.encodeReal t n raw else (t.int raw, 0)
    let seed := t.wide s.cur.zseed.toNat
    let z := encLoop t s.vlb elem s.cur.vec.vl.toNat ⟨0, 0, seed, 0, 0⟩
    let s := s.orFlags z.fl
    if s.flagTraps z.fl then .trap (s.setEst 0) 13 (w64 z.fl)
    else
      let s1 := s.putCoded vd 0 (s.codedTail (s.destBits vd 1) z.p z.out) z.n (z.n * t.ew) 0 z.p
      .done (if t.kind = 12 && z.n ≠ 0 then s1.setZseed z.prev else s1)

def effZenc (vd va : VSpec) (s : State) : Eff := zencEff s vd va false
def effZencF (vd va : VSpec) (s : State) : Eff := zencEff s vd va true
def execZenc (vd va : VSpec) (s : State) := commit (.zenc vd va) 8 (effZenc vd va s)
def execZencF (vd va : VSpec) (s : State) := commit (.zencF vd va) 8 (effZencF vd va s)

/-! ## `zsplice` (R190) -/

def effZsplice (vd va vb : VSpec) (c : Reg) (s : State) : Eff :=
  vectorEff s 6 [codedRead va, codedRead vb] (some (vd, 1)) (s.codedBad || s.vlb < (s.g c).toNat) none fun s =>
    let k := (s.g c).toNat
    let new := s.groupBits va 1 % 2 ^ k + s.groupBits vb 1 <<< k
    .done (s.putCoded vd 0 (s.codedTail (s.destBits vd 1) s.vlb new) 0 k (s.vlb - k) s.vlb)
def execZsplice (vd va vb : VSpec) (c : Reg) (s : State) := commit (.zsplice vd va vb c) 8 (effZsplice vd va vb c s)

end Sys2Proof.Machine
end

