-- ==== Sys2Proof/Machine/Copy.lean ====
section
/-!
DEFINITION. The copy engine (R235-R252): command blocks, their checks, the element loop, completion, and `cpy`, `cwait`,
`cstat`, `ccan`. Elements move one by one in the order of R241; how many have moved when an instruction looks is free
(log 11).
DEDUCED (readings): log 34. DESIGN CHOICE: log 11.
-/
namespace Sys2Proof.Machine

/-! ## Formats (R239) -/

/-- The families of R239. -/
inductive Family where
  | raw
  | int (signed : Bool)
  | float (f : Fmt)
  deriving DecidableEq, Repr

/-- An element format: bits and family. -/
structure EFmt where
  bits : Nat
  fam : Family
  deriving DecidableEq, Repr

def eFmt (code : Nat) : Option EFmt :=
  match code with
  | 0x00 => some ⟨8, .raw⟩ | 0x01 => some ⟨16, .raw⟩ | 0x02 => some ⟨32, .raw⟩ | 0x03 => some ⟨64, .raw⟩
  | 0x10 => some ⟨8, .int true⟩ | 0x11 => some ⟨8, .int false⟩ | 0x12 => some ⟨16, .int true⟩
  | 0x13 => some ⟨16, .int false⟩ | 0x14 => some ⟨32, .int true⟩ | 0x15 => some ⟨32, .int false⟩
  | 0x16 => some ⟨4, .int true⟩
  | 0x20 => some ⟨16, .float .b16⟩ | 0x21 => some ⟨32, .float .b32⟩ | 0x22 => some ⟨64, .float .b64⟩
  | 0x23 => some ⟨16, .float .bf16⟩ | 0x24 => some ⟨8, .float .e4m3⟩ | 0x25 => some ⟨8, .float .e5m2⟩
  | 0x26 => some ⟨8, .float .e2m3⟩ | 0x27 => some ⟨8, .float .e3m2⟩ | 0x28 => some ⟨6, .float .e2m3⟩
  | 0x29 => some ⟨6, .float .e3m2⟩ | 0x2A => some ⟨4, .float .e2m1⟩
  | _ => none

def EFmt.isRaw (f : EFmt) : Bool := f.fam = .raw

/-! ## The block's fields (R238) -/

/-- Word `i` of a block. -/
def blkW (w : List Word) (i : Nat) : Nat := (w.getD i 0).toNat
def blkOp (w : List Word) : Nat := nbits (blkW w 0) 0 8
def blkSfmt (w : List Word) : Nat := nbits (blkW w 0) 8 8
def blkDfmt (w : List Word) : Nat := nbits (blkW w 0) 16 8
def blkShadow (w : List Word) : Bool := nbit (blkW w 0) 24
def blkPubc (w : List Word) : Bool := nbit (blkW w 0) 25
def blkSat (w : List Word) : Bool := nbit (blkW w 0) 26
def blkZf (w : List Word) : Bool := nbit (blkW w 0) 27
def blkRnd (w : List Word) : Nat := nbits (blkW w 0) 28 3
def blkScale (w : List Word) : Nat := nbits (blkW w 0) 32 32
def blkDim (w : List Word) (i : Nat) : Nat := nbits (blkW w 3) (16 * i) 16
def blkSst (w : List Word) (i : Nat) : Int := sext 32 (nbits (blkW w 4) (32 * i) 32)
def blkDst (w : List Word) (i : Nat) : Int := sext 32 (nbits (blkW w 5) (32 * i) 32)
def blkExt (w : List Word) (i : Nat) : Nat := nbits (blkW w 6) (32 * i) 32
def blkOrg (w : List Word) (i : Nat) : Int := sext 32 (nbits (blkW w 7) (32 * i) 32)

/-- Operand words (R237): the kind, the handle and its byte offset, the namespace and its byte offset. -/
def opKind (w : Nat) : Nat := nbits w 60 4
def opVirt (w : Nat) : Bool := opKind w = 0 || opKind w = 15
def opHandle (w : Nat) : Bool := opKind w = 8
def opStore (w : Nat) : Bool := opKind w = 9
def opHand (w : Nat) : Nat := nbits w 0 36
def opOff (w : Nat) : Nat := nbits w 36 24 * 4096
def opSpace (w : Nat) : Nat := nbits w 48 12
def opByte (w : Nat) : Nat := nbits w 0 48

/-- binary32 1.0. -/
def unitScale : Nat := 0x3F800000
def scaleOne (sc : Nat) : Bool := sc = 0 || sc = unitScale

/-- A scale that is −0, infinite or NaN (R242). -/
def scaleBad (sc : Nat) : Bool := sc = 0x80000000 || nbits sc 23 8 = 255

/-- The byte offsets of the fields that take part in a refusal (R237-R242, R249), in no order. DESIGN CHOICE (log 47): the
rules that pair a raw format with its own code bind a conversion, and no fill, whose `sfmt` is 0. -/
def blkRefused (w : List Word) : List Nat :=
  let op := blkOp w
  let on := fun (c : Bool) (off : Nat) => if c then [off] else []
  let sub := match eFmt (blkSfmt w) with | some f => f.bits % 8 ≠ 0 | none => false
  on (3 < op) 0 ++ on (eFmt (blkSfmt w) = none) 1 ++ on (eFmt (blkDfmt w) = none) 2 ++
  on (4 < blkRnd w || nbit (blkW w 0) 31) 3 ++
  on (op = 2 && blkSfmt w ≠ 0) 0 ++
  on (op ≠ 2 && (match eFmt (blkSfmt w), eFmt (blkDfmt w) with
    | some a, some b => (a.isRaw || b.isRaw) && (blkSfmt w ≠ blkDfmt w || !scaleOne (blkScale w))
    | _, _ => false)) 1 ++
  on (scaleBad (blkScale w)) 4 ++
  on (blkPubc w && (!blkShadow w || !opHandle (blkW w 2))) 3 ++
  on (op ≠ 2 && !(opVirt (blkW w 1) || opHandle (blkW w 1) || opStore (blkW w 1))) 8 ++
  on (!(opVirt (blkW w 2) || opHandle (blkW w 2))) 16 ++
  on (blkDim w 3 ≠ 0) 30 ++
  on (op = 3 && blkDim w 2 ≠ 1) 0 ++
  on (op ≠ 2 && sub && ((op ≠ 3 && blkOrg w 0 ≠ 0) || (blkZf w && blkExt w 0 < blkDim w 0))) 0 ++
  (if op = 2 || !opStore (blkW w 1) then [] else
    on (op ≠ 0) 0 ++ on (match eFmt (blkSfmt w) with | some f => !f.isRaw | none => false) 1 ++
    on (blkZf w) 3 ++ on (blkDim w 1 ≠ 1 || blkDim w 2 ≠ 1) 8 ++ on (blkW w 7 ≠ 0) 8)

def srcBits (w : List Word) : Nat := match eFmt (blkSfmt w) with | some f => f.bits | none => 8
def dstBits (w : List Word) : Nat := match eFmt (blkDfmt w) with | some f => f.bits | none => 8

/-- Elements of the box. -/
def blkCount (w : List Word) : Nat := blkDim w 0 * blkDim w 1 * blkDim w 2

/-- B (R246). -/
def blkBytes (w : List Word) : Nat := ceilDiv (blkCount w * max (srcBits w) (dstBits w)) 8

/-! ## Addresses (R241) -/

/-- (i0, i1, i2) of the k-th element in loop order. -/
def blkIdx (w : List Word) (k : Nat) : Nat × Nat × Nat :=
  (k % blkDim w 0, k / blkDim w 0 % blkDim w 1, k / blkDim w 0 / blkDim w 1)

/-- The bit offset of the source element at (s0, s1, i2). -/
def srcBit (w : List Word) (s0 s1 : Int) (i2 : Nat) : Int :=
  s0 * srcBits w + 8 * (s1 * blkSst w 0 + (i2 : Int) * blkSst w 1)

/-- The bit offset of the destination element. -/
def dstBit (w : List Word) (i0 i1 i2 : Nat) : Int :=
  if blkOp w = 1 then (i1 * dstBits w : Nat) + 8 * ((i0 : Int) * blkDst w 0 + (i2 : Int) * blkDst w 1)
  else (i0 * dstBits w : Nat) + 8 * ((i1 : Int) * blkDst w 0 + (i2 : Int) * blkDst w 1)

/-- The least and greatest byte the corners of a box reach. -/
def reach (corner : Nat → Nat → Nat → Int) (w : List Word) (bits : Nat) : Int × Int :=
  let far := fun i => blkDim w i - 1
  let cs := [0, far 0].flatMap fun a => [0, far 1].flatMap fun b => [0, far 2].map fun c => corner a b c
  (cs.foldl min (corner 0 0 0) / 8, (cs.foldl max (corner 0 0 0) + bits - 1) / 8)

/-- The handle check of an operand (R244): the failing cause. -/
def State.handleCheck (s : State) (w : List Word) (word : Nat) (box : Option (Int × Int)) : Option Nat :=
  if !opHandle word then none else
  let e := s.handle (handleIndex (opHand word))
  if !e.hvalid || e.gen ≠ handleGen (opHand word) then some 12
  else
    match box with
    | some (_, hi) => if blkCount w ≠ 0 && decide ((e.size : Int) ≤ opOff word + hi) then some 5 else none
    | none => none

/-! ## Conversion (R242) -/

/-- An element's exact value. -/
def EFmt.value (f : EFmt) (raw : Nat) : Exact :=
  match f.fam with
  | .raw => .ofInt raw
  | .int signed => .ofInt (if signed then sext f.bits raw else (raw : Int))
  | .float g => g.decode raw

/-- `convert`: the written bits, the flags, and whether the element counts in `nsat`. -/
def blkConvert (w : List Word) (raw : Nat) : Nat × Nat × Bool :=
  match eFmt (blkSfmt w), eFmt (blkDfmt w) with
  | some sf, some df =>
    if sf.isRaw || (blkSfmt w = blkDfmt w && scaleOne (blkScale w)) then (raw, 0, false) else
    let (x, f0) := if scaleOne (blkScale w) then (sf.value raw, 0) else (sf.value raw).mul (Fmt.b32.decode (blkScale w))
    match df.fam with
    | .raw => (raw, 0, false)
    | .int signed =>
      (match sf.fam, x with
        | .int _, .num neg m e st =>
          let (v, inex) := Exact.toInt (blkRnd w) neg m e st
          let c := if blkSat w then clampInt signed df.bits v else v
          (wrapN df.bits c, if inex then 16 else 0, c ≠ v)
        | _, _ =>
          let (b, f1) := roundInt signed df.bits (blkRnd w) x
          (b, f0 ||| f1, f1 % 2 = 1))
    | .float g =>
      let (b, f1) := g.round (blkRnd w) (blkSat w) x
      let hit := nbit f1 2 || (x.isInf && !(g.decode b).isInf) || (x.isNan && !(g.decode b).isNan)
      (b, f0 ||| f1, hit)
  | _, _ => (raw, 0, false)

/-! ## Element accesses -/

/-- The error code of a failing cause on the source or the destination side (R248); a timeout of an expander counts as
an access fault. -/
def copyErr (cause : Nat) (dst : Bool) : Nat :=
  match cause with
  | 3 => 8
  | 4 => if dst then 3 else 1
  | 6 => 5
  | 7 => 7
  | _ => if dst then 4 else 2

/-- A failing element: the cause and the address it is reported at. -/
abbrev CopyFail := Nat × Word

/-- The context of a command's task. -/
def State.copyCtx (s : State) (c : CopyCmd) : Ctx :=
  match s.task? c.rcb with
  | some t => t.ctx c.rcb
  | none => { cluster := c.core / 4, core := c.core, asn := 0, root := 0, rcb := c.rcb }

/-- The place of n bytes at a byte offset of an operand, with the leaf to mark (R237, R240, R243). -/
def State.copyPlace (s : State) (c : CopyCmd) (dst : Bool) (off : Int) (n : Nat) :
    Except CopyFail (Target × Nat × Option (Nat × Nat × Bool)) :=
  let word := blkW c.block (if dst then 2 else 1)
  let need : Need := if dst then .store else .load
  if opHandle word then
    let a : Int := opOff word + off
    match (if dst then c.dst else c.src) with
    | some (cls, pa) =>
      let late := blkOp c.block = 3 && !dst && decide ((c.size : Int) < a + n)
      if n % 2 = 0 && a % n ≠ 0 then .error (3, BitVec.ofInt 64 a)
      else if a < 0 || late || !s.populated cls (pa + a.toNat) || (cls = 1 && s.linkDown (pa + a.toNat)) then
        .error (5, BitVec.ofInt 64 a)
      else .ok (.phys cls (pa + a.toNat), a.toNat, none)
    | none => .error (5, BitVec.ofInt 64 a)
  else
    let a := wrapN 64 ((word : Int) + off)
    if n % 2 = 0 && a % n ≠ 0 then .error (3, w64 a)
    else
      match s.resolve (s.copyCtx c) need a with
      | .error k => .error (k, w64 a)
      | .ok (t, leaf) =>
        if s.beyond t n then .error (5, w64 a)
        else if !dst && s.expired t then .error (6, w64 a) else .ok (t, a, leaf)

/-- Bytes of a namespace (R237, R376). A storage failure has no address to report (R251). -/
def State.storeRead (s : State) (word : Nat) (off n : Nat) : Except CopyFail (List Byte) :=
  if opByte word % 512 ≠ 0 then .error (3, 0)
  else
    match tfind s.spaces (opSpace word) with
    | some sp => .ok ((List.range n).map fun i => tget 0 sp.data (opByte word + off + i))
    | none => .error (7, 0)

/-- n bytes of the source at a byte offset. -/
def State.copyRead (s : State) (c : CopyCmd) (off : Int) (n : Nat) : State × Except CopyFail (List Byte) :=
  if opStore (blkW c.block 1) then (s, s.storeRead (blkW c.block 1) off.toNat n)
  else
    match s.copyPlace c false off n with
    | .error f => (s, .error f)
    | .ok (t, va, leaf) => let s := s.noteLeaf (s.copyCtx c) va false leaf; (s, .ok (s.readT t n))

/-- The pieces of an element that are one access each: a packed 6-bit element may lie in two bytes. -/
def bitPieces (bit : Int) (bits : Nat) : List (Int × Nat) :=
  if bits % 8 = 0 then [(bit / 8, bits / 8)]
  else (List.range (((bit + bits - 1) / 8 - bit / 8).toNat + 1)).map fun (i : Nat) => (bit / 8 + (i : Int), 1)

/-- A source element's bits. -/
def State.copyGet (s : State) (c : CopyCmd) (bit : Int) (bits : Nat) : State × Except CopyFail Nat :=
  let (s, r) := (bitPieces bit bits).foldl (fun (acc : State × Except CopyFail (List Byte)) (o, n) =>
    match acc with
    | (s, .error f) => (s, .error f)
    | (s, .ok bs) =>
      match s.copyRead c o n with
      | (s, .error f) => (s, .error f)
      | (s, .ok b) => (s, .ok (bs ++ b))) (s, .ok [])
  match r with
  | .error f => (s, .error f)
  | .ok bs => (s, .ok (nbits (bytesNat bs) (bit % 8).toNat bits))

/-- A destination element's bits written, sub-byte elements under a bit mask (R106, R241): into Haze at once, elsewhere as
the pieces still to perform. -/
def State.copyPut (s : State) (c : CopyCmd) (bit : Int) (bits v : Nat) : State × Except CopyFail (List (Target × List Byte × List Byte)) :=
  let sh := (bit % 8).toNat
  let ps := bitPieces bit bits
  let total := ps.length * (if bits % 8 = 0 then bits / 8 else 1)
  let val := natBytes total (v <<< sh)
  let mask := if bits % 8 = 0 then [] else natBytes total ((2 ^ bits - 1) <<< sh)
  -- every piece is checked before any is written
  match ps.findSome? (fun (o, n) => match s.copyPlace c true o n with | .error f => some f | .ok _ => none) with
  | some f => (s, .error f)
  | none =>
    let (s, ws) := ps.zipIdx.foldl (fun (s, ws) ((o, n), i) =>
      match s.copyPlace c true o n with
      | .ok (t, va, leaf) =>
        let s := s.noteLeaf (s.copyCtx c) va true leaf
        let w := (t, (val.drop (n * i)).take n, (mask.drop (n * i)).take n)
        if t.isHaze then (s.writeT w.1 w.2.1 w.2.2, ws) else (s, ws ++ [w])
      | .error _ => (s, ws)) (s, [])
    (s, .ok ws)

/-- The source element's value for the k-th element, zero-filled and filled ones included: the bits to write. -/
def State.copyFetch (s : State) (c : CopyCmd) (k : Nat) : State × Except CopyFail (Nat × Nat × Bool) :=
  let w := c.block
  let (i0, i1, i2) := blkIdx w k
  if blkOp w = 2 then (s, .ok (nbits (blkW w 1) 0 (dstBits w), 0, false))
  else
    let row : State × Except CopyFail Int :=
      if blkOp w = 3 then
        let a := wrapN 64 ((blkW w 7 : Int) + 4 * i1)
        if a % 4 ≠ 0 then (s, .error (3, w64 a))
        else
          match s.resolve (s.copyCtx c) .load a with
          | .error k => (s, .error (k, w64 a))
          | .ok (t, leaf) =>
            if s.beyond t 4 then (s, .error (5, w64 a))
            else if s.expired t then (s, .error (6, w64 a))
            else let s := s.noteLeaf (s.copyCtx c) a false leaf; (s, .ok (bytesNat (s.readT t 4) : Nat))
      else (s, .ok (blkOrg w 1 + i1))
    match row with
    | (s, .error f) => (s, .error f)
    | (s, .ok s1) =>
      let s0 : Int := if blkOp w = 3 then i0 else blkOrg w 0 + i0
      if blkZf w && !(decide (0 ≤ s0) && decide (s0 < blkExt w 0) && decide (0 ≤ s1) && decide (s1 < blkExt w 1)) then
        (s, .ok (0, 0, false))
      else
        match s.copyGet c (srcBit w s0 s1 i2) (srcBits w) with
        | (s, .error f) => (s, .error f)
        | (s, .ok raw) => (s, .ok (blkConvert w raw))

/-! ## Running and completing -/

/-- A promise that has passed while its command runs, for the first time (R247). -/
def CopySlot.misses (sl : CopySlot) (tick : Nat) : Bool :=
  sl.running && sl.cmd.isSome && decide (sl.promise ≤ tick) && !nbit sl.status.toNat 22

/-- The promises of a hart's commands that have passed: `missed` is set, and the trap comes due once for the command's
task, unless a write of `vshare` exempts the command (R247, R248). -/
def Hart.miss (x : Hart) (tick : Nat) : Hart :=
  if x.slots.toList.any (·.misses tick) then
    { x with
      slots := x.slots.map fun sl => if sl.misses tick then sl.put 22 1 1 else sl
      dues := x.dues ++ x.slots.toList.zipIdx.filterMap fun (sl, i) =>
        match sl.cmd with
        | some c => if sl.misses tick && !sl.exempt then some (i, c.rcb) else none
        | none => none }
  else x

/-- A command stopped with an error code and a fault address: what it has issued performs, and its publish is suppressed
(R243). -/
def State.copyFail (s : State) (h : Nat) (n : Fin 4) (err : Nat) (addr : Word) : State :=
  let s := s.copyStop h n
  s.setSlot h n { ((s.slotAt h n).put 0 2 2).put 8 8 err with faddr := addr, cmd := none }

/-- The bits of Haze tiles that element k of a command writes, as (tile, mask); a packed element may end in a second tile.
Two halves of a byte make a whole. -/
def copyBits (c : CopyCmd) (k : Nat) : List (Nat × Nat) :=
  let word := blkW c.block 2
  let (i0, i1, i2) := blkIdx c.block k
  let bit := dstBit c.block i0 i1 i2
  let a := wrapN 64 ((word : Int) + bit / 8)
  if !opVirt word || a / 2 ^ 22 ≠ 0xF200000000000000 / 2 ^ 22 then [] else
  let tile := a % 2 ^ 22 / 4096
  let m := (2 ^ dstBits c.block - 1) <<< (8 * (a % 4096) + (bit % 8).toNat)
  [(tile, m % 2 ^ 32768), (tile + 1, m >>> 32768)].filter fun p => p.2 ≠ 0 && decide (p.1 < 1024)

/-- What a command writes of a tile with its elements from k on, n of them. -/
def copyCover (c : CopyCmd) (tile k n : Nat) : Nat :=
  (List.range n).foldl (fun m i => (copyBits c (k + i)).foldl (fun m p => if p.1 = tile then m ||| p.2 else m) m) 0

/-- The tiles that element k of the command writes and that it has filled by then (R202). -/
def copyWhole (c : CopyCmd) (k : Nat) : List Nat :=
  ((copyBits c k).map (·.1)).filter fun tile => copyCover c tile 0 (k + 1) = 2 ^ 32768 - 1

/-- A filled tile takes its birth with the command's last byte in it (R202): now, where no later element writes it; else
the command notes when it wrote the tile last, for the case that it stops before them. -/
def State.copyFill (s : State) (h : Nat) (n : Fin 4) (c : CopyCmd) (tile : Nat) : State :=
  if copyCover c tile (c.pos + 1) (blkCount c.block - (c.pos + 1)) = 0 then s.setBirth (c.core / 4) tile (some s.tick)
  else
    match (s.slotAt h n).cmd with
    | some d => s.setSlot h n { s.slotAt h n with cmd := some { d with fills := tset d.fills tile s.tick } }
    | none => s

/-- A task placed on the cluster whose segment images are still to copy: its segments hold what they will hold only then,
and whoever can reach them waits (R320). -/
def State.copyWaits (s : State) (cl asn : Nat) : Option (Nat × Nat) :=
  s.tasks.findSome? fun (r, t) =>
    if t.phase = .placed && t.core / 4 = cl && t.eff.ptroot % 65536 = asn then
      ((List.range 8).find? fun g => nbit t.toCopy g).map fun g => (r, g)
    else none

/-- The engine may move the command's next element. -/
def State.copyMoves (s : State) (c : CopyCmd) : Bool := (s.copyWaits (c.core / 4) (s.copyCtx c).asn).isNone

/-- The next element of a running command moves, or the command stops at it (R241, R243). A write to a Haze tile performs
at once; any other joins the writes issued and not yet performed, whose order is not architectural (R241, R383). -/
def State.copyStep (s : State) (h : Nat) (n : Fin 4) : State :=
  match (s.slotAt h n).cmd with
  | none => s
  | some c =>
    if blkCount c.block ≤ c.pos || !s.copyMoves c then s else
    match s.copyFetch c c.pos with
    | (s, .error (k, a)) => s.copyFail h n (copyErr k false) a
    | (s, .ok (v, fl, hit)) =>
      let (i0, i1, i2) := blkIdx c.block c.pos
      match s.copyPut c (dstBit c.block i0 i1 i2) (dstBits c.block) v with
      | (s, .error (k, a)) => s.copyFail h n (copyErr k true) a
      | (s, .ok ws) =>
        let s := ((copyWhole c c.pos).foldl (fun s tile => s.copyFill h n c tile) s)
        let sl := s.slotAt h n
        let st := sl.status.toNat
        let sl := (sl.put 16 5 (nbits st 16 5 ||| fl)).put 32 16 (min 65535 (nbits st 32 16 + boolNat hit))
        s.setSlot h n { sl with
          moved := ceilDiv ((c.pos + 1) * dstBits c.block) 8
          cmd := sl.cmd.map fun d => { d with pos := c.pos + 1, pend := if ws.isEmpty then d.pend else d.pend ++ [ws] } }

/-- k more elements of a command. -/
def State.copySteps (s : State) (h : Nat) (n : Fin 4) : Nat → State
  | 0 => s
  | k + 1 => (s.copyStep h n).copySteps h n k

/-- Whether a handle operand of a command went stale while it ran (R244). -/
def State.copyStale (s : State) (word : Nat) : Bool :=
  opHandle word &&
    (let e := s.handle (handleIndex (opHand word)); !e.hvalid || e.gen ≠ handleGen (opHand word))

/-- A publish held back in replay (R361). -/
def State.pubHeld (s : State) (h : Nat) (c : CopyCmd) : Bool := blkPubc c.block && s.replayHolds h

/-- A command that has moved every element completes, its writes performed: stale, then the publish (R244, R245). -/
def State.copyFinish (s : State) (h : Nat) (n : Fin 4) : State :=
  match (s.slotAt h n).cmd with
  | none => s
  | some c =>
    if s.pubHeld h c then s else
    let s := s.copyFlush h n
    let sl := { (s.slotAt h n).put 0 2 2 with cmd := none }
    let stale := (blkOp c.block ≠ 2 && s.copyStale (blkW c.block 1)) || s.copyStale (blkW c.block 2)
    if stale then s.setSlot h n (sl.put 8 8 6)
    else if !blkPubc c.block then s.setSlot h n sl
    else if (s.handle c.index).phase = c.phase then
      ((s.flipPhase c.index).sync h 6).setSlot h n (sl.put 21 1 1)
    else s.setSlot h n (sl.put 8 8 9)

/-- A command moves everything it has left and completes. -/
def State.copyComplete (s : State) (h : Nat) (n : Fin 4) : State :=
  match (s.slotAt h n).cmd with
  | none => s
  | some c => if s.copyMoves c then (s.copySteps h n (blkCount c.block - c.pos)).copyFinish h n else s

/-- What the engine has moved by the time an instruction looks: a free number of elements of each running command of the
hart's cluster, at most all, and of the writes issued a free number in a free order (R235, R241, log 11). -/
def State.copyAdvance (s : State) (cl : Nat) : State :=
  (List.range 32).foldl (fun s i =>
    let h := 8 * cl + i / 4
    let n : Fin 4 := ⟨i % 4, Nat.mod_lt _ (by decide)⟩
    match (s.slotAt h n).cmd with
    | some c =>
      (s.copySteps h n (min (blkCount c.block - c.pos) (Config.copyProgress (s.fresh + i)))).copyFlushN h n
        (min c.pos (Config.copyProgress (s.fresh + 64 + i)))
    | none => s) s

/-! ## `cpy` (R240, R246, R249) -/

/-- r (R246). -/
def State.copyRate (s : State) (h : Nat) : Nat :=
  let v := (s.clusterAt (clusterOf h)).vshare.toNat
  let w := fun i => nbits v (4 * i) 4
  max 4 (256 * w (coreOf h % 4) / max 16 (w 0 + w 1 + w 2 + w 3))

/-- Q: bytes not yet moved by commands accepted from the core. -/
def State.copyQueued (s : State) (core : Nat) : Nat :=
  [2 * core, 2 * core + 1].foldl (fun q h => (s.hartAt h).slots.toList.foldl (fun q sl =>
    match sl.cmd with
    | some c => q + (c.bytes - (c.pos - c.pend.length) * max (srcBits c.block) (dstBits c.block) / 8)
    | none => q) q) 0

/-- The term of an operand in T (R246). -/
def State.copyLatency (s : State) (ctx : Ctx) (word : Nat) (cap : Option (Nat × Nat)) : Nat :=
  let ofClass := fun c => match c with | 1 => 300 | 2 => 900 | _ => 0
  if opHandle word then (match cap with | some (c, _) => ofClass c | none => 0)
  else if opStore word then (match tfind s.spaces (opSpace word) with | some sp => sp.latency | none => 0)
  else
    ofClass (s.classAt ctx word)

/-- The captured backing of a handle operand (R240). -/
def State.capture (s : State) (word : Nat) (shadow : Bool) : Option (Nat × Nat) :=
  if opHandle word then
    let e := s.handle (handleIndex (opHand word))
    some (if shadow then e.shadow else e.current)
  else none

/-- A command accepted into slot n, its promise, and its completion if its box is empty. -/
def State.copyAccept (s : State) (h : Nat) (n : Fin 4) (w : List Word) : State × Word :=
  let src := if blkOp w = 2 then none else s.capture (blkW w 1) false
  let dst := s.capture (blkW w 2) (blkShadow w)
  let hd := opHand (blkW w 2)
  let rcb := (s.hartAt h).rcb
  let bytes := blkBytes w
  let r := s.copyRate h
  let r' := if blkOp w ≠ 2 && opStore (blkW w 1) then
      (match tfind s.spaces (opSpace (blkW w 1)) with | some sp => max 1 (min r sp.rate) | none => r) else r
  let t := (if blkOp w = 2 then 0 else s.copyLatency (s.ctxOf h) (blkW w 1) src) +
    s.copyLatency (s.ctxOf h) (blkW w 2) dst
  let p := s.tick + 380 + ceilDiv (s.copyQueued (coreOf h)) r + ceilDiv bytes r' + t
  let cmd : CopyCmd :=
    { block := w, size := (s.handle (handleIndex (opHand (blkW w 1)))).size, src := src, dst := dst, index := handleIndex hd, gen := handleGen hd,
      phase := opHandle (blkW w 2) && (s.handle (handleIndex hd)).phase, rcb := rcb, core := coreOf h, bytes := bytes,
      seq := s.fresh, pos := 0, pend := [], fills := [] }
  let s := s.setSlot h n { CopySlot.init with status := 1, promise := p, cmd := some cmd }
  (if blkCount w = 0 then s.copyFinish h n else s, w64 p)

def slotOfImm (n : BitVec 5) : Fin 4 := ⟨n.toNat % 4, Nat.mod_lt _ (by decide)⟩

def leastOf : List Nat → Nat
  | [] => 0
  | [x] => x
  | x :: xs => min x (leastOf xs)

def cpyEff (s : State) (d a : Reg) (n : BitVec 5) : Eff :=
  let h := s.turn
  if s.isExec h then .trap s 2 0
  else if (s.g a).toNat % 64 ≠ 0 then raiseEff s 3 (s.g a)
  else
    match s.load h 0 (s.g a).toNat 64 with
    | (s, .error c) => raiseEff s c (accessVal c (s.g a).toNat)
    | (s, .ok bs) =>
      let w := (List.range 8).map fun i => w64 (bytesNat ((bs.drop (8 * i)).take 8))
      let bad := blkRefused w
      if bad ≠ [] then raiseEff s 2 (w64 (leastOf bad))
      else
        let srcBox := reach (fun a b c => srcBit w (blkOrg w 0 + a) (blkOrg w 1 + b) c) w (srcBits w)
        let dstBox := reach (fun a b c => dstBit w a b c) w (dstBits w)
        let e1 := if blkOp w = 2 then none else s.handleCheck w (blkW w 1) (if blkOp w = 3 then none else some srcBox)
        match e1, s.handleCheck w (blkW w 2) (some dstBox) with
        | some c, _ => raiseEff s c (w64 (opHand (blkW w 1)))
        | none, some c => raiseEff s c (w64 (opHand (blkW w 2)))
        | none, none =>
          if (s.slotAt h (slotOfImm n)).running || 16 ≤ s.engineLoad (clusterOf h) then .wait s none 0
          else
            let s := (s.copyAdvance (clusterOf h)).drain h
            let (s, p) := s.copyAccept h (slotOfImm n) w
            .done (s.setG d p)

def execCpy (d a : Reg) (n : BitVec 5) (s : State) := commit (.cpy d a n) 4 (cpyEff s d a n)

/-! ## `cwait`, `cstat`, `ccan` (R250, R251) -/

/-- The hart whose slots `cwait` and `cstat` name (R235). -/
def State.slotHart (s : State) : Nat := if s.isSplit s.turn then 2 * coreOf s.turn else s.turn

/-- An acquire when the state shows the command stopped (R250). -/
def State.copyAcquire (s : State) (status : Word) : State := if 2 ≤ status.toNat % 4 then s.drain s.turn else s

/-- The slots whose command runs, as a bit mask. -/
def State.runningSlots (s : State) (h : Nat) : Nat :=
  ((s.hartAt h).slots.toList.zipIdx.map fun (sl, i) => boolNat sl.running * 2 ^ i).sum

/-- The command that ran in slot i when `cwait` began, of which `mark` holds the moment, has stopped: the slot runs none, or
one accepted since. -/
def State.ranDown (s : State) (h mark i : Nat) : Bool :=
  let sl := s.slotAt h ⟨i % 4, Nat.mod_lt _ (by decide)⟩
  !sl.running || (match sl.cmd with | some c => decide (mark / 16 < c.seq) | none => false)

/-- `cwait`: `mark` holds the slots that ran when it began, and the moment, in the numbers of `CopyCmd.seq`. -/
def cwaitEff (s : State) (i : Instr) (d a : Reg) (n : BitVec 5) : Eff :=
  let h := s.slotHart
  let limit := (s.g a).toNat
  let late := limit ≠ 2 ^ 64 - 1 && limit ≤ s.tick
  let ran := match s.waitRec i with | some w => w.mark | none => s.runningSlots h + 16 * s.fresh
  if n.toNat < 4 then
    let sl := s.slotAt h (slotOfImm n)
    if !sl.running then .done ((s.copyAcquire sl.status).setG d sl.status)
    else if late then .done (s.setG d 0)
    else .wait s none ran
  else if n = 4 then
    if ran % 16 = 0 then .done (s.setG d 0)
    else
      match (List.range 4).find? (fun i => nbit ran i && s.ranDown h ran i) with
      | some i =>
        let st := (s.slotAt h ⟨i % 4, Nat.mod_lt _ (by decide)⟩).status
        .done ((s.copyAcquire st).setG d st)
      | none => if late then .done (s.setG d 0) else .wait s none ran
  else if late then .done (s.setG d 0)
  else .wait s none ran

def execCwait (d a : Reg) (n : BitVec 5) (s : State) := commit (.cwait d a n) 4 (cwaitEff s (.cwait d a n) d a n)

/-- Bytes a slot's command has written so far (R251): of the elements issued, those that have performed. -/
def CopySlot.written (sl : CopySlot) : Nat :=
  match sl.cmd with
  | some c => ceilDiv ((c.pos - c.pend.length) * dstBits c.block) 8
  | none => sl.moved

def cstatEff (s : State) (d : Reg) (w n : BitVec 5) : Eff :=
  let h := s.slotHart
  let s := s.copyAdvance (clusterOf h)
  let sl := s.slotAt h (slotOfImm n)
  if w = 0 then .done ((s.copyAcquire sl.status).setG d sl.status)
  else if w = 1 then .done (s.setG d sl.faddr)
  else .done (s.setG d (w64 sl.written))

def execCstat (d : Reg) (w n : BitVec 5) (s : State) := commit (.cstat d w n) 4 (cstatEff s d w n)

def ccanEff (s : State) (d : Reg) (n : BitVec 5) : Eff :=
  let h := s.turn
  if s.isExec h then .trap s 2 0
  else
    let s := s.copyAdvance (clusterOf h)
    let s := s.copyCancel h (slotOfImm n)
    .done (s.setG d (s.slotAt h (slotOfImm n)).status)

def execCcan (d : Reg) (n : BitVec 5) (s : State) := commit (.ccan d n) 4 (ccanEff s d n)

end Sys2Proof.Machine
end

