-- ==== Sys2Proof/Machine/System.lean ====
section
/-!
DEFINITION. State registers (R101) and the trap instructions (R339-R343), `spawn` and `yield` (R103, R104).
DEDUCED (readings): log 27.
-/
namespace Sys2Proof.Machine

/-- The word of an instruction, zero-extended, as an illegal instruction records it (R46). -/
def instrWord (i : Instr) : Word := match encode i with | some e => e.word | none => 0

/-! ## State registers (R101) -/

/-- `mxg` (R254). -/
def State.mxg (s : State) (h : Nat) : Nat :=
  let rows := (s.clusterAt (clusterOf h)).rows.toList.zipIdx
  let rcb := (s.hartAt h).rcb
  (rows.map fun (r, t) =>
    if r.holder = some rcb then 1 + 2 ^ (4 + t) + (if r.cmds.isEmpty then 0 else 2 ^ (8 + t)) else 0).sum

/-- A state register as a hart reads it; none where no register has the number. -/
def State.readReg (s : State) (h n : Nat) : Option Word :=
  let x := s.hartAt h
  let c := s.clusterAt (clusterOf h)
  match n with
  | 0x000 => some (w64 s.tick)
  | 0x001 => some (w64 (slotOf h))
  | 0x002 => some (w64 (coreOf h % 4))
  | 0x003 => some (w64 (clusterOf h))
  | 0x004 => some profilesWord
  | 0x010 => some x.vec.vtype
  | 0x011 => some x.vec.vl
  | 0x012 => some x.vec.vlb
  | 0x013 => some (w64 (s.vlmaxOf h))
  | 0x014 => some (w64 (s.vbits h))
  | 0x015 => some (w64 (s.lanes h))
  | 0x016 => some (w64 (s.vdecl h))
  | 0x017 => some (w64 (x.vec.window x.vec.sel.toNat))
  | 0x018 => some x.tr.est
  | 0x019 => some x.tr.ecm
  | 0x01A => some (x.tr.fmode.setWidth 64)
  | 0x01B => some (x.tr.fflags.setWidth 64)
  | 0x020 => some x.gcnt
  | 0x021 => some x.gsa
  | 0x022 => some x.gsb
  | 0x023 => some x.gsd
  | 0x024 => some x.zseed
  | 0x030 => some (w64 (s.mxg h))
  | 0x031 => some x.mxcfg
  | 0x060 => some (w64 hzlife)
  | 0x070 => some (w64 x.dirty.word)
  | 0x071 => some x.tr.xcause
  | 0x072 => some x.tr.xpc
  | 0x073 => some x.tr.xval
  | 0x074 => some x.tr.xvec
  | 0x075 => some (w64 x.tr.xstat)
  | 0x076 => some x.tr.xsave
  | 0x080 => some x.vec.strip
  | 0x081 => some x.vec.stripaddr
  | 0x082 => some x.tr.retcnt
  | 0x090 => some (c.vshare.setWidth 64)
  | 0x091 => some (w64 (c.own.toNat + 65536 * c.asg.toNat))
  | 0x092 => some (c.vskew.setWidth 64)
  | 0x0A0 => some (w64 (s.budget h))
  | n =>
    if h1 : 0x040 ≤ n ∧ n < 0x048 then some (x.bob[n - 0x040]'(by omega))
    else if h2 : 0x050 ≤ n ∧ n < 0x060 then some (x.sig[n - 0x050]'(by omega))
    else none

/-- `vtags` written (R135). -/
def VecState.writeTags (v : VecState) (w d : Nat) : Option VecState :=
  let sel := nbits w 0 2
  if nbit w 63 || sel = 3 then none
  else if !nbit w 2 then some { v with sel := BitVec.ofNat 2 sel }
  else if (List.range 20).any (fun n => nbits w (3 * n + 3) 3 > 4 || (windowReg sel n = none && nbits w (3 * n + 3) 3 ≠ 0)) then none
  else some { (v.setWindow sel w d) with sel := BitVec.ofNat 2 sel }

/-- The reserved bits and alignments of the signature registers (R295). -/
def sigLegal (n w : Nat) : Bool :=
  match n with
  | 0x050 => w % 64 = 0
  | 0x055 => nbits w 37 26 = 0
  | 0x056 => true
  | 0x057 => nbits w 24 40 = 0
  | n => if 0x058 ≤ n then w % 16 = 0 else w < 2 ^ 32

/-- A write of a state register by the hart `turn`; none where it raises illegal operand (R101). DESIGN CHOICE (log 47): the
instruction that writes `retcnt` counts itself on top of the value it writes (R351; R101 has a write in force from the next
instruction on). -/
def State.writeReg (s : State) (n : Nat) (v : Word) : Option State :=
  let x := s.cur
  let w := v.toNat
  let hl := x.tr.hl
  let V := fun (f : VecState → VecState) =>
    (s.setCur { x with vec := f x.vec }).dirtyV
  let T := fun (ok : Bool) (f : TrapRegs → TrapRegs) => if ok then some (s.setCur { x with tr := f x.tr }) else none
  match n with
  | 0x010 => if vtypeLegal w then some (V fun u => { u with vtype := v }) else none
  | 0x011 => if w ≤ s.vlmaxOf s.turn then some (V fun u => { u with vl := v }) else none
  | 0x012 => if w ≤ s.vbits s.turn * s.vt.grp then some (V fun u => { u with vlb := v }) else none
  | 0x016 =>
    if nbits w 0 2 = 3 || nbits w 2 6 ≠ 0 || nbits w 10 54 ≠ 0 || (s.isSplit s.turn && slotOf s.turn = 0) then none
    else some (V fun u => { u with pend := BitVec.ofNat 2 w })
  | 0x017 => if hl then (x.vec.writeTags w (declOf (s.declIn s.turn))).map fun u => V fun _ => u else none
  | 0x018 => T hl fun t => { t with est := v }
  | 0x019 => T hl fun t => { t with ecm := v }
  | 0x01A => T (nbits w 0 3 ≤ 4 && nbits w 9 55 = 0) fun t => { t with fmode := BitVec.ofNat 9 w }
  | 0x01B => T (nbits w 5 59 = 0) fun t => { t with fflags := BitVec.ofNat 5 w }
  | 0x020 => some (s.setCur { x with gcnt := v }).dirtyC
  | 0x021 => some (s.setCur { x with gsa := v }).dirtyC
  | 0x022 => some (s.setCur { x with gsb := v }).dirtyC
  | 0x023 => some (s.setCur { x with gsd := v }).dirtyC
  | 0x024 => some (s.setCur { x with zseed := v }).dirtyC
  | 0x031 =>
    if nbits w 8 8 = 0 && nbits w 21 43 = 0 then some (s.setCur { x with mxcfg := v }).dirtyM else none
  | 0x070 =>
    if hl && nbits w 2 6 = 0 && nbits w 13 51 = 0 then some (s.setCur { x with dirty := Dirty.ofWord w }) else none
  | 0x071 => T hl fun t => { t with xcause := v }
  | 0x072 => T hl fun t => { t with xpc := v }
  | 0x073 => T hl fun t => { t with xval := v }
  | 0x074 => T true fun t => { t with xvec := v }
  | 0x075 => T (hl && nbits w 4 60 = 0) fun t => { t with ss := nbit w 1, tne := nbit w 2 }
  | 0x076 => T hl fun t => { t with xsave := v }
  | 0x080 => if hl then some (V fun u => { u with strip := v }) else none
  | 0x081 => if hl then some (V fun u => { u with stripaddr := v }) else none
  | 0x082 => T hl fun t => { t with retcnt := v }
  | n =>
    if h1 : 0x040 ≤ n ∧ n < 0x048 then
      (if (n = 0x042 || n = 0x046) && nbits w 52 12 ≠ 0 then none
      else some (s.setCur { x with bob := x.bob.set (n - 0x040) v (by omega) }).dirtyB)
    else if h2 : 0x050 ≤ n ∧ n < 0x060 then
      (if sigLegal n w then some (s.setCur { x with sig := x.sig.set (n - 0x050) v (by omega) }).dirtyS else none)
    else none

/-- First use at a state access (R329): V registers, `mxg` and `mxcfg`. -/
def State.regIssue (s : State) (n : Nat) : Option Nat :=
  if s.cur.tr.hl then none
  else if ((0x010 ≤ n && n ≤ 0x017) || n = 0x080 || n = 0x081) && !s.cur.dirty.von then some 17
  else if (n = 0x030 || n = 0x031) && !s.cur.dirty.mon then some 18
  else none

def sgetEff (s : State) (d : Reg) (n : Nat) : Eff :=
  match s.regIssue n with
  | some c => .trap s c 0
  | none =>
    match s.readReg s.turn n with
    | some v => .done (s.setG d v)
    | none => .trap s 2 0

def ssetEff (s : State) (n : Nat) (v : Word) : Eff :=
  match s.regIssue n with
  | some c => .trap s c 0
  | none =>
    match s.writeReg n v with
    | some s => .done s
    | none => .trap s 2 0

def sswapEff (s : State) (d : Reg) (n : Nat) (v : Word) : Eff :=
  match s.regIssue n with
  | some c => .trap s c 0
  | none =>
    match s.readReg s.turn n, s.writeReg n v with
    | some old, some s => .done (s.setG d old)
    | _, _ => .trap s 2 0

def execSget (d : Reg) (n : BitVec 12) (s : State) := commit (.sget d n) 4 (sgetEff s d n.toNat)
def execSset (n : BitVec 12) (a : Reg) (s : State) := commit (.sset n a) 4 (ssetEff s n.toNat (s.g a))
def execSswap (d : Reg) (n : BitVec 12) (a : Reg) (s : State) := commit (.sswap d n a) 4 (sswapEff s d n.toNat (s.g a))

/-! ## Trap instructions (R339-R343) -/

/-- Environment call (R340). -/
def execTrap (n : BitVec 10) (s : State) := commit (.trap n) 4 (.trapNext s 24 (n.setWidth 64))

/-- Breakpoint (R342). -/
def execBrkpt (n : BitVec 12) (s : State) := commit (.brkpt n) 4 (.trapNext s 19 (n.setWidth 64))

/-- `idle` ends the hart at either level (R343). -/
def idleEff (s : State) : Eff :=
  let s := s.finish s.turn (s.cur.pc + 4)
  let s := match s.task? s.cur.rcb with
    | some t =>
      -- the last of its harts to stop, the other switched out: the task is charged up to here (R78)
      let last := t.phase ≠ Phase.running && t.harts.all fun h => h = s.turn || (s.hartAt h).rcb ≠ s.cur.rcb || !(s.hartAt h).run.active
      let s := if last then s.charge s.cur.rcb else s
      match s.task? s.cur.rcb with
      | some t => s.setTask s.cur.rcb { t with ended := t.ended ||| BitVec.ofNat 2 (2 ^ slotOf s.turn) }
      | none => s
    | none => s
  .out ((s.setCur { s.cur with run := .ended }).traceStop s.turn)

def execIdle (s : State) := commit .idle 4 (idleEff s)

/-- `trap yld` and `trap fwd` up to the partial image, its resume PC the next word (R332, R340). -/
def State.partialOut (s : State) : Option State :=
  let s := (s.drain s.turn).finish s.turn (s.cur.pc + 4)
  (s.writeImage s.turn s.cur.pc false).map fun s =>
    (s.clearPre s.turn).charge s.cur.rcb

def trapYldEff (s : State) : Eff :=
  if !s.cur.tr.hl then .trap s 1 (instrWord .trapYld)
  else
    match s.partialOut with
    | none => .trap s 2 0
    | some s =>
      let s := match s.taskOf s.turn with
        | some t => s.addChain 0xB0 1 t.eff.chain
        | none => s
      .out ((s.noteImage s.turn .bound s.cur.tr.xsave.toNat 1 s.cur.pc).halt s.turn)

def execTrapYld (s : State) := commit .trapYld 4 (trapYldEff s)

/-- `trap fwd` forwards the trap in `xcause` (R340, R346). -/
def trapFwdEff (s : State) : Eff :=
  if !s.cur.tr.hl then .trap s 1 (instrWord .trapFwd)
  else
    match s.partialOut with
    | none => .trap s 2 0
    | some s =>
      let x := s.cur
      let s := (s.noteImage s.turn .forwarded x.tr.xsave.toNat 1 x.pc).halt s.turn
      let s := match s.task? x.rcb with
        | none => s
        | some t => s.deliver t x.rcb (FaultRec.bytes
            { cause := x.tr.xcause.toNat, dbl := false, dir := false, lost := false, pc := x.tr.xpc, val := x.tr.xval,
              est := x.tr.est, ecm := x.tr.ecm, task := x.rcb, hart := s.turn, frame := x.tr.xsave.toNat, tick := s.tick })
      .out (s.stopPartner s.turn 16)

def execTrapFwd (s : State) := commit .trapFwd 4 (trapFwdEff s)

/-- The RCB a `g` register names by virtual address: 256-aligned and readable in class 0 (R103, R340). -/
def State.rcbOf (s : State) (va : Nat) : Option Nat :=
  if va % 256 ≠ 0 then none else
  match s.resolve (s.ctxOf s.turn) .load va with
  | .ok (.phys 0 pa, _) => some pa
  | _ => none

/-- The leaf that names an RCB noted (R208). -/
def State.rcbNote (s : State) (va : Nat) : State :=
  match s.resolve (s.ctxOf s.turn) .load va with
  | .ok (_, leaf) => s.noteLeaf (s.ctxOf s.turn) va false leaf
  | .error _ => s

/-- No hart of a task issues. -/
def State.allStopped (s : State) (rcb : Nat) (t : Task) : Bool :=
  t.harts.all fun h => (s.hartAt h).rcb ≠ rcb || !(s.hartAt h).run.active

/-- The task an RCB names, if it is stopped in the caller's domain (R327, R340). -/
def State.stoppedFor (s : State) (rcb : Nat) : Option Task :=
  match s.task? rcb with
  | some t =>
    if t.phase.forwardedOut && s.allStopped rcb t && !t.eff.fzen && t.eff.fhandler = s.cur.rcb then some t else none
  | none => none

/-- `trap rerun`: the task at the front of its queue with a fresh start, as the preload of its core starts if there is one
(R340, R77). -/
def trapRerunEff (s : State) (d a : Reg) : Eff :=
  match s.rcbOf (s.g a).toNat with
  | none => .done (s.setG d 2)
  | some rcb =>
    let s := s.rcbNote (s.g a).toNat
    match s.stoppedFor rcb with
    | none => .done (s.setG d 1)
    | some t =>
      let s := s.releaseTask rcb t
      let s := s.setTask rcb { Task.queued t.eff t.die s.tick with phase := .rerun, core := t.core }
      let waits := s.tasks.any fun (_, u) => u.core = t.core && u.phase = .preloaded
      .done ((if waits then s else s.joinRerun t.core).setG d 0)

def execTrapRerun (d a : Reg) (s : State) := commit (.trapRerun d a) 4 (trapRerunEff s d a)

/-- `trap dispose`: the live bit clears, with no `done` and no `cdone` (R340, R31). -/
def trapDisposeEff (s : State) (d a : Reg) : Eff :=
  match s.rcbOf (s.g a).toNat with
  | none => .done (s.setG d 2)
  | some rcb =>
    let s := s.rcbNote (s.g a).toNat
    match s.stoppedFor rcb with
    | none => .done (s.setG d 1)
    | some t =>
      let s := (s.releaseTask rcb t).rcbStatus rcb 0 false
      .done ({ s with tasks := terase s.tasks rcb }.setG d 0)

def execTrapDispose (d a : Reg) (s : State) := commit (.trapDispose d a) 4 (trapDisposeEff s d a)

/-- `tret` without operand (R341, R45). -/
def tretEff (s : State) : Eff :=
  if !s.cur.tr.hl then .trap s 1 (instrWord .tret)
  else if s.cur.tr.xpc.getLsbD 0 then raiseEff s 3 s.cur.tr.xpc
  else .out ((s.finish s.turn s.cur.tr.xpc).leaveTrap s.turn)

def execTret (s : State) := commit .tret 4 (tretEff s)

/-- What is kept of a context that stopped at an instruction's start, at address 0. -/
def Saved.init : Saved := { pc := 0, xpc := 0, est := 0, ecm := 0, cut := false }

/-- Resuming an orphan delivers a record with cause 27 to its domain instead (R336, R322), by direct forward (R325). -/
def State.deliverOrphan (s : State) (rcb : Nat) (t : Task) : State :=
  let (slot, frame, kind) := t.image.headD (0, 0, 0)
  let v := tget Saved.init t.saved slot
  s.deliver t rcb (FaultRec.bytes
    { cause := 27, dbl := false, dir := true, lost := kind = 0, pc := w64 v.pc, val := w64 v.xpc, est := v.est, ecm := v.ecm,
      task := rcb, hart := 2 * t.core + slot, frame := if kind = 0 then 0 else frame, tick := s.tick })

/-- The first odd resume PC among a task's images as they stand (R45), with its slot. -/
def State.oddResume (s : State) (rcb : Nat) (t : Task) : State × Option (Nat × Nat) :=
  t.image.foldl (fun (acc : State × Option (Nat × Nat)) (slot, frame, kind) =>
    if acc.2.isSome || kind = 0 then acc else
    match acc.1.readImage (t.ctx rcb) frame 8 with
    | some (s, b) => (s, if fx b 0 8 % 2 = 1 then some (slot, fx b 0 8) else none)
    | none => acc) (s, none)

/-- `tret gd, ga`: the stopped task becomes resumable on its core (R341, R336, R347); an odd resume PC is misaligned here
(R45). -/
def tretTaskEff (s : State) (d a : Reg) : Eff :=
  match s.rcbOf (s.g a).toNat with
  | none => .done (s.setG d 1)
  | some rcb =>
    let s := s.rcbNote (s.g a).toNat
    match s.stoppedFor rcb with
    | none => .done (s.setG d 1)
    | some t =>
      if t.phase = .orphaned then .done ((s.deliverOrphan rcb t).setG d 2)
      else if t.image.any (fun p => p.2.2 = 0) then .done (s.setG d 3)
      else
        match (s.drain s.turn).oddResume rcb t with
        | (s, some (_, pc)) => raiseEff s 3 (w64 pc)
        | (s, none) => .done ((s.setTask rcb { t with phase := .bound }).setG d 0)

def execTretTask (d a : Reg) (s : State) := commit (.tretTask d a) 4 (tretTaskEff s d a)

/-! ## Work requests (R103, R104) -/

def dieOf (h : Nat) : Nat := h / 512

/-- `spawn`: a release at device scope, then the enqueue on the hart's die (R64, R103). -/
def spawnEff (s : State) (d a : Reg) : Eff :=
  if s.isExec s.turn then .trap s 2 0 else
  let va := (s.g a).toNat
  let s := s.drain s.turn
  match s.rcbOf va with
  | none => .done (s.setG d 4)
  | some rcb =>
    let (s, reason) := (s.rcbNote va).enqueue (dieOf s.turn) rcb
    .done ((s.sync s.turn 8).setG d (w64 reason))

def execSpawn (d a : Reg) (s : State) := commit (.spawn d a) 4 (spawnEff s d a)

/-- A head of the die of priority at least the task's that waits for a core and could take this one once freed; an
unswitchable task is passed over (R104, R66, R331). -/
def State.yieldHead (s : State) (rcb : Nat) (t : Task) : Bool :=
  let dd := s.dieAt t.die
  s.switchable t && dd.queues.toList.zipIdx.any fun (q, p) =>
    match q.head? with
    | some e =>
      (match s.task? e.rcb with
        | some u => decide (t.eff.prio ≤ p) && u.phase = .queued && s.eligible t.core e.rcb u.eff true && e.rcb ≠ rcb
        | none => false)
    | none => false

/-- `yield` (R104): the task's harts are asked to stop and the task counts one priority lower while bound. -/
def yieldEff (s : State) (d : Reg) : Eff :=
  match s.taskOf s.turn with
  | none => .done (s.setG d 0)
  | some t =>
    let rcb := s.cur.rcb
    if s.yieldHead rcb t then
      let s := (s.setG d 1).setTask rcb { t with lower := true }
      .done (t.harts.foldl (fun s h => s.requestPre h) (s.dropPreloads t.core))
    else .done (s.setG d 0)

def execYield (d : Reg) (s : State) := commit (.yield d) 4 (yieldEff s d)

end Sys2Proof.Machine
end

