-- ==== Sys2Proof/Machine/Matrix.lean ====
section
/-!
DEFINITION. The matrix unit (R253-R276): tile rows, exact accumulation, commands and the eleven instructions of unit 7.
DEDUCED (readings): log 35.
-/
namespace Sys2Proof.Machine

/-! ## Formats (R256) -/

/-- How a code's elements carry block scales. -/
inductive MxScale where
  | none
  | mx          -- E8M0 per 32 along K
  | f4s8        -- E3M5 per 8 along K
  deriving DecidableEq, Repr

/-- A format: A width in a register, B width in memory, the float format of an element (none for integers and MXINT8). -/
structure MxFmt where
  aw : Nat
  bw : Nat
  fmt : Option Fmt
  scale : MxScale
  int : Bool
  deriving DecidableEq, Repr

def mxFmt (code : Nat) : MxFmt :=
  match code with
  | 0 => ⟨4, 4, some .e2m1, .none, false⟩ | 1 => ⟨4, 4, some .e2m1, .f4s8, false⟩
  | 2 => ⟨4, 4, some .e2m1, .mx, false⟩
  | 3 => ⟨8, 6, some .e2m3, .none, false⟩ | 4 => ⟨8, 6, some .e3m2, .none, false⟩
  | 5 => ⟨8, 6, some .e2m3, .mx, false⟩ | 6 => ⟨8, 6, some .e3m2, .mx, false⟩
  | 7 => ⟨8, 8, some .e4m3, .none, false⟩ | 8 => ⟨8, 8, some .e5m2, .none, false⟩
  | 9 => ⟨8, 8, some .e4m3, .mx, false⟩ | 10 => ⟨8, 8, some .e5m2, .mx, false⟩
  | 11 => ⟨8, 8, none, .mx, false⟩
  | 12 => ⟨8, 8, none, .none, true⟩ | 13 => ⟨4, 4, none, .none, true⟩
  | 14 => ⟨16, 16, some .bf16, .none, false⟩
  | _ => ⟨16, 16, some .b16, .none, false⟩

/-- K elements a scale covers; 0 for a format without scales. -/
def MxFmt.per (f : MxFmt) : Nat := match f.scale with | .none => 0 | .mx => 32 | .f4s8 => 8

/-- The format's width code in a register. -/
def MxFmt.ewCode (f : MxFmt) : Nat := if f.aw = 4 then 4 else if f.aw = 8 then 0 else 1

/-- An element's value without its scale; MXINT8 is i/64. -/
def MxFmt.elem (f : MxFmt) (code raw : Nat) : Exact :=
  match f.fmt with
  | some g => g.decode raw
  | none => if code = 11 then .ofIntE (sext 8 raw) (-6) else .ofInt (sext f.aw raw)

/-- An element's value with its E8M0 scale, and the E3M5 scale of its sub-block (1 where there is none). -/
def MxFmt.value (f : MxFmt) (code raw entry : Nat) : Exact :=
  match f.scale with
  | .mx => ((f.elem code raw).mul (scaleValue 1 entry)).1
  | _ => f.elem code raw
def MxFmt.sub (f : MxFmt) (entry : Nat) : Exact := match f.scale with | .f4s8 => scaleValue 2 entry | _ => .ofInt 1

/-- The scale entry of element k. -/
def MxFmt.entry (f : MxFmt) (scales : List Nat) (k : Nat) : Nat := if f.per = 0 then 0 else scales.getD (k / f.per) 0

/-- A NaN scale keeps a signalling element signalling (R258). -/
def MxFmt.signals (f : MxFmt) (code raw : Nat) : Nat := if (f.elem code raw).isSig then 1 else 0

/-! ## Exact accumulation (R257-R259) -/

/-- The exponent of a term's leading bit. -/
def topBit : Exact → Option Int
  | .num _ m e _ => if m = 0 then none else some ((m.log2 : Int) + e)
  | _ => none

/-- A finite term in units of 2^lsb, truncated towards zero, and whether a bit was lost. -/
def windowTerm (lsb : Int) : Exact → Int × Bool
  | .num neg m e _ =>
    if lsb ≤ e then (sgn neg (m <<< (e - lsb).toNat), false)
    else
      let k := (lsb - e).toNat
      (sgn neg (m >>> k), m % 2 ^ k ≠ 0)
  | _ => (0, false)

/-- `block_sum` with the specials of R258: none is an exact zero. -/
def blockSum (ts : List Exact) : Option Exact × Nat :=
  let pinf := ts.any fun t => t = .inf false
  let ninf := ts.any fun t => t = .inf true
  if ts.any Exact.isNan || (pinf && ninf) then (some (.nan false), if pinf && ninf then 1 else 0)
  else if pinf then (some (.inf false), 0)
  else if ninf then (some (.inf true), 0)
  else
    match ts.filterMap topBit with
    | [] => (none, 0)
    | t :: tops =>
      let lsb := tops.foldl max t - 35
      let ws := ts.map (windowTerm lsb)
      let v := (ws.map (·.1)).sum
      (if v = 0 then none else some (.ofIntE v lsb), if ws.any (·.2) then 16 else 0)

/-- One A row and one B column: elements and scales. -/
structure MxVec where
  code : Nat
  elems : List Nat
  scales : List Nat
  deriving DecidableEq, Repr

/-- The product of the k-th elements and its flags. -/
def mxTerm (a b : MxVec) (k : Nat) : Exact × Nat :=
  let fa := mxFmt a.code; let fb := mxFmt b.code
  let x := a.elems.getD k 0; let y := b.elems.getD k 0
  let p := (fa.value a.code x (fa.entry a.scales k)).mul (fb.value b.code y (fb.entry b.scales k))
  (p.1, p.2 ||| fa.signals a.code x ||| fb.signals b.code y)

/-- The terms of K-block j and their flags. -/
def mxTerms (a b : MxVec) (j : Nat) : List (Exact × Nat) :=
  let fa := mxFmt a.code; let fb := mxFmt b.code
  if fa.scale = .f4s8 || fb.scale = .f4s8 then
    (List.range 4).map fun q =>
      let k0 := 32 * j + 8 * q
      let ps := (List.range 8).map fun i => mxTerm a b (k0 + i)
      -- opposite infinities set `mnv` wherever they stand, beside a NaN too (R258)
      let opposite := ps.any (fun p => p.1 = .inf false) && ps.any fun p => p.1 = .inf true
      let s := ps.foldl (fun (acc : Exact × Nat) p =>
        let r := acc.1.add 0 p.1
        (r.1, acc.2 ||| p.2 ||| r.2)) (Exact.zero false, boolNat opposite)
      let x := s.1.mul (fa.sub (fa.entry a.scales k0))
      let y := x.1.mul (fb.sub (fb.entry b.scales k0))
      (y.1, s.2 ||| x.2 ||| y.2)
  else (List.range 32).map fun i => mxTerm a b (32 * j + i)

/-- A NaN accumulator is quiet. -/
def accValue (c : Nat) : Exact := match Fmt.b32.decode c with | .nan _ => .nan false | x => x

/-- One float product added to an accumulator: its new bits and the flags. -/
def mxFloat (a b : MxVec) (c : Nat) : Nat × Nat :=
  (List.range 8).foldl (fun (acc : Nat × Nat) j =>
    let ts := mxTerms a b j
    let fl := ts.foldl (fun f t => f ||| t.2) acc.2
    let (sum, f1) := blockSum (ts.map (·.1))
    match sum with
    | none => (acc.1, fl ||| f1)
    | some x =>
      let r := (accValue acc.1).add 0 x
      let w := Fmt.b32.round 0 false r.1
      (w.1, fl ||| f1 ||| r.2 ||| w.2)) (c, 0)

/-- One integer product added, modulo 2^32 (R259). -/
def mxInt (a b : MxVec) (c : Nat) : Nat :=
  let fa := mxFmt a.code; let fb := mxFmt b.code
  wrapN 32 ((c : Int) + ((List.range 256).map fun k =>
    sext fa.aw (a.elems.getD k 0) * sext fb.bw (b.elems.getD k 0)).sum)

/-- Column n of a row's panel, as codes of format `bfmt`. -/
def TileRow.column (r : TileRow) (bfmt n : Nat) : MxVec :=
  let c := tget ([], []) r.panel n
  ⟨bfmt, c.1, c.2⟩

def TileRow.accRow (r : TileRow) (i : Nat) : List Nat := tget (List.replicate 512 0) r.acc i

/-- An A row added into accumulator row i: the row and the flags. -/
def TileRow.addRow (r : TileRow) (i : Nat) (a : MxVec) (bfmt : Nat) : TileRow × Nat :=
  if (mxFmt a.code).int then
    ({ r with acc := tset r.acc i ((r.accRow i).zipIdx.map fun (c, n) => mxInt a (r.column bfmt n) c) }, 0)
  else
    let cs := (r.accRow i).zipIdx.map fun (c, n) => mxFloat a (r.column bfmt n) c
    ({ r with acc := tset r.acc i (cs.map (·.1)) }, cs.foldl (fun f c => f ||| c.2) 0)

/-- A command carried out on its row: the row and the flags (R261, R267-R270). -/
def TileRow.land (r : TileRow) : MxOp → TileRow × Nat
  | .zero => ({ r with acc := [] }, 0)
  | .load start cols bands fmt =>
    ({ r with
        panel := cols.zipIdx.foldl (fun p (c, i) => tset p (start + i) c) r.panel
        bands := bands.foldl (fun b (m, v) => tset b m v) r.bands
        landed := fmt }, 0)
  | .mul z acc0 rows afmt bfmt =>
    let r1 := if z then { r with acc := rows.foldl (fun a (i, _) => tset a (acc0 + i) (List.replicate 512 0)) r.acc } else r
    let (r2, fl) := rows.foldl (fun (p : TileRow × Nat) (i, es, ss) =>
      let (q, f) := p.1.addRow (acc0 + i) ⟨afmt, es, ss⟩ bfmt
      (q, p.2 ||| f)) (r1, 0)
    ({ r2 with isInt := (mxFmt afmt).int }, fl)

/-! ## Commands (R261) -/

/-- `mflags` of a hart; those of a hart that is switched out wait in its task. -/
def State.addMflags (s : State) (rcb h fl : Nat) : State :=
  if fl = 0 then s else
  let x := s.hartAt h
  let here := x.rcb = rcb && (match x.run with | .stopped => false | .empty => false | _ => true)
  if here then
    s.setHart h { x with mxcfg := x.mxcfg ||| w64 (fl <<< 16), dirty := { x.dirty with dm := true } }
  else
    match s.task? rcb with
    | some t => s.setTask rcb { t with mflags := tset t.mflags (slotOf h) (tget 0 t.mflags (slotOf h) ||| fl) }
    | none => s

/-- Tile row t of a cluster. -/
def State.rowAt (s : State) (cl : Nat) (t : Fin 4) : TileRow := (s.clusterAt cl).rows[t]
def State.setRow (s : State) (cl : Nat) (t : Fin 4) (r : TileRow) : State :=
  let c := s.clusterAt cl
  s.setCluster cl { c with rows := c.rows.set t r }

/-- The oldest command of a row completes. -/
def State.landOne (s : State) (cl : Nat) (t : Fin 4) : State :=
  let r := s.rowAt cl t
  match r.cmds with
  | [] => s
  | c :: cs =>
    let (r, fl) := r.land c.op
    (s.setRow cl t { r with cmds := cs }).addMflags (r.holder.getD 0) c.hart fl

/-- A command enters a row. -/
def State.enterCmd (s : State) (t : Fin 4) (op : MxOp) : State :=
  let r := s.rowAt (clusterOf s.turn) t
  s.setRow (clusterOf s.turn) t { r with
    cmds := r.cmds ++ [{ hart := s.turn, op := op, before := (s.coreAt (coreOf s.turn)).queueLens, seen := false }] }

/-- The running hart's rows as a mask. -/
def State.heldRows (s : State) : Nat := nbits (s.mxg s.turn) 4 4

/-- Rows of a mask. -/
def rowsOf (m : Nat) : List (Fin 4) := (List.finRange 4).filter fun t => nbit m t.val

/-- A row named cannot take a command (R261). -/
def State.rowsFull (s : State) (m : Nat) : Bool := (rowsOf m).any fun t => 2 ≤ (s.rowAt (clusterOf s.turn) t).cmds.length

/-- A command on a row named that is earlier than what the hart does next has not completed: its own, or one of its partner
that a queue crossing put before it (R261). -/
def State.rowsPend (s : State) (m : Nat) : Bool :=
  (rowsOf m).any fun t => (s.rowAt (clusterOf s.turn) t).cmds.any fun c => c.hart = s.turn || (c.hart = partnerOf s.turn && c.seen)

/-- Reduced service (R256, R370). -/
def State.reduced (s : State) : Bool := s.status.bstate.toNat < 5

/-! ## The issue of a unit-7 instruction (R260) -/

/-- The checks of R47 of an instruction that touches no vector state: `rows` are the rows it names. -/
def mxEff (s : State) (bad : Bool) (rows : Nat) (body : State → Eff) : Eff :=
  match s.mxIssue with
  | some c => .trap s c 0
  | none =>
    if bad then .trap s 2 0
    else if rows &&& (15 - s.heldRows) ≠ 0 then .trap s 22 (w64 (rows &&& (15 - s.heldRows)))
    else body s

/-- `mxcfg`'s formats. -/
def State.afmt (s : State) : Nat := nbits s.cur.mxcfg.toNat 0 4
def State.bfmt (s : State) : Nat := nbits s.cur.mxcfg.toNat 4 4

def rowOf (t : BitVec 2) : Fin 4 := t.toFin

/-! ## Attaching (R264-R266) -/

/-- The tile rows the task may still take under `bres`, its own counted: none for no limit (R13). -/
def State.rowRoom (s : State) : Option Int :=
  match s.taskOf s.turn with
  | none => none
  | some t =>
    ((t.eff.resLimits 16).filterMap fun (r, l) =>
      if l = 0 then none else some ((l : Int) - (s.heldUnder r (2 ^ 64) none).2.1)).foldl
        (fun (m : Option Int) x => match m with | none => some x | some y => some (min x y)) none

def mxattachEff (s : State) (d a : Reg) : Eff :=
  let v := (s.g a).toNat
  let n := nbits v 0 3
  mxEff s (nbits v 3 1 ≠ 0 || nbits v 8 56 ≠ 0 || 4 < n) 0 fun s =>
    let allow := if nbits v 4 4 = 0 then 15 else nbits v 4 4
    let cl := clusterOf s.turn
    let free := (rowsOf allow).filter fun t => (s.rowAt cl t).holder = none
    let k := match s.rowRoom with
      | none => min n free.length
      | some r => min (min n free.length) (max r 0).toNat
    let s := (free.take k).foldl (fun s t => s.setRow cl t { TileRow.init with holder := some s.cur.rcb }) s
    .done (if k = 0 then s.setG d 0 else (s.setG d (w64 k)).dirtyM)
def execMxattach (d a : Reg) (s : State) := commit (.mxattach d a) 8 (mxattachEff s d a)

def mxdetachEff (s : State) (rows : BitVec 4) : Eff :=
  mxEff s false rows.toNat fun s =>
    .done (if rows = 0 then s
      else ((rowsOf rows.toNat).foldl (fun s t => s.setRow (clusterOf s.turn) t TileRow.init) s).dirtyM)
def execMxdetach (rows : BitVec 4) (s : State) := commit (.mxdetach rows) 8 (mxdetachEff s rows)

def mxfmtEff (s : State) (a b : BitVec 4) : Eff :=
  mxEff s false 0 fun s =>
    .done ((s.setCur { s.cur with mxcfg := w64 (nset s.cur.mxcfg.toNat 0 8 (a.toNat + 16 * b.toNat)) }).dirtyM)
def execMxfmt (a b : BitVec 4) (s : State) := commit (.mxfmt a b) 8 (mxfmtEff s a b)

/-! ## Loading a panel (R267) -/

/-- n bytes read one by one in the scalar slice, or the first address that fails. -/
def State.loadEach (s : State) (va : Nat) : Nat → State × Except (Nat × Word) (List Byte)
  | 0 => (s, .ok [])
  | n + 1 =>
    match s.load s.turn 0 (va % 2 ^ 64) 1 with
    | (s, .error c) => (s, .error (c, accessVal c (va % 2 ^ 64)))
    | (s, .ok b) =>
      match s.loadEach (va + 1) n with
      | (s, .error f) => (s, .error f)
      | (s, .ok bs) => (s, .ok (b ++ bs))

/-- n bytes read in the scalar slice, or the first address that fails. Inside 4 KiB one translation serves every byte;
where it fails, or an expander's link is down, the bytes are taken one by one. -/
def State.loadBytes (s : State) (va n : Nat) : State × Except (Nat × Word) (List Byte) :=
  if va % 4096 + n ≤ 4096 ∧ n ≠ 0 ∧ s.dev.links = 0xF then
    match s.load s.turn 0 (va % 2 ^ 64) n with
    | (t, .ok bs) => (t, .ok bs)
    | _ => s.loadEach va n
  else s.loadEach va n

/-- Where a panel lies in memory. -/
structure PanelSrc where
  base : Word
  pitch : Word
  sbase : Word
  fmt : Nat
  deriving DecidableEq, Repr

/-- Column n: its elements, scales and band. -/
def State.readColumn (s : State) (p : PanelSrc) (n : Nat) : State × Except (Nat × Word) ((List Nat × List Nat) × Option Nat) :=
  let f := mxFmt p.fmt
  let va := wrapN 64 ((p.base.toNat : Int) + n * p.pitch.toInt)
  if f.bw = 16 && va % 2 ≠ 0 then (s, .error (3, w64 va))
  else
    match s.loadBytes va (32 * f.bw) with
    | (s, .error e) => (s, .error e)
    | (s, .ok bs) =>
      let raw := bytesNat bs
      let elems := (List.range 256).map fun k => nbits raw (f.bw * k) f.bw
      let sn := match f.scale with | .none => 0 | .mx => 8 | .f4s8 => 32
      match s.loadBytes (p.sbase.toNat + sn * n) sn with
      | (s, .error e) => (s, .error e)
      | (s, .ok ss) =>
        let scales := ss.map (·.toNat)
        if f.scale = .f4s8 && n % 64 = 0 then
          match s.loadBytes (p.sbase.toNat + 16384 + 2 * (n / 64)) 2 with
          | (s, .error e) => (s, .error e)
          | (s, .ok bb) => (s, .ok ((elems, scales), some (bytesNat bb)))
        else (s, .ok ((elems, scales), none))

/-- Columns n, n + 1, …: what was read, and the failure if one ended it. -/
def State.readColumns (s : State) (p : PanelSrc) (n : Nat) :
    Nat → State × List ((List Nat × List Nat) × Option Nat) × Option (Nat × Word)
  | 0 => (s, [], none)
  | k + 1 =>
    match s.readColumn p n with
    | (s, .error f) => (s, [], some f)
    | (s, .ok c) =>
      let (s, cs, f) := s.readColumns p (n + 1) k
      (s, c :: cs, f)

/-- The command that writes columns from `start`. -/
def loadOp (start : Nat) (cs : List ((List Nat × List Nat) × Option Nat)) (fmt : Nat) : MxOp :=
  .load start (cs.map (·.1))
    (cs.zipIdx.filterMap fun (c, i) => c.2.map fun b => ((start + i) / 64, b)) fmt

/-- Columns from n on read and entered as a command; a failure leaves those before it loaded. -/
def State.loadPanel (s : State) (t : Fin 4) (p : PanelSrc) (n : Nat) : State × Option (Nat × Nat × Word) :=
  match s.readColumns p n (512 - n) with
  | (s, cs, none) => (s.enterCmd t (loadOp n cs p.fmt), none)
  | (s, cs, some (c, v)) =>
    (if cs.isEmpty then s else (s.enterCmd t (loadOp n cs p.fmt)).dirtyM, some (n + cs.length, c, v))

def mxloadEff (s : State) (t : BitVec 2) (a b c : Reg) : Eff :=
  mxEff s (s.isExec s.turn || (s.reduced && s.bfmt ≠ 14)) (2 ^ t.toNat) fun s =>
    if s.rowsFull (2 ^ t.toNat) then .wait s none 0
    else
      let p : PanelSrc := ⟨s.g a, s.g b, s.g c, s.bfmt⟩
      match s.loadPanel (rowOf t) p s.est with
      | (s, some (n, c, v)) => .trap (s.setEst n) c v
      | (s, none) =>
        let r := s.rowAt (clusterOf s.turn) (rowOf t)
        .done (((s.setRow (clusterOf s.turn) (rowOf t) { r with
          base := p.base, pitch := p.pitch, sbase := p.sbase, fmt := BitVec.ofNat 4 p.fmt, loaded := true }).dirtyM).setEst 0)
def execMxload (t : BitVec 2) (a b c : Reg) (s : State) := commit (.mxload t a b c) 8 (mxloadEff s t a b c)

/-! ## Products (R268, R269) -/

/-- Registers an m-row A operand takes. -/
def State.aRegs (s : State) (f : MxFmt) (m : Nat) : Nat := ceilDiv (m * 256 * f.aw) (max 1 (s.vbits s.turn))

/-- A register that exists and may hold A: `v` or `o`. -/
def State.aRegOk (s : State) (r : Nat) : Bool := r < 40 && (regsUnder s.declD).contains r

/-- The hart, register and scale checks: a product runs on the execute hart of a split task (R260). -/
def State.aBad (s : State) (f : MxFmt) (m : Nat) (va : VSpec) (s0 : Nat) : Bool :=
  (s.isSplit s.turn && slotOf s.turn = 0) || 8 < s.aRegs f m || (List.range (s.aRegs f m)).any (fun i => !s.aRegOk (va.toNat + i)) ||
    (f.per ≠ 0 && 256 < s0 + m * (256 / f.per))

/-- The family of a format differs from that of a row's recorded panel. -/
def TileRow.mixes (r : TileRow) (f : MxFmt) : Bool := r.loaded && (mxFmt r.fmt.toNat).int != f.int

/-- The format a product reads the panel in: zeros of A's family where nothing was loaded. -/
def TileRow.bfmtFor (r : TileRow) (f : MxFmt) : Nat := if r.loaded then r.fmt.toNat else if f.int then 12 else 0

/-- A row's command is refused in reduced service, or mixes families. -/
def State.rowRefuses (s : State) (f : MxFmt) (t : Fin 4) : Bool :=
  let r := s.rowAt (clusterOf s.turn) t
  r.holder = some s.cur.rcb && (r.mixes f || (s.reduced && r.loaded && r.fmt ≠ 14))

/-- A row r of the operand: elements and scale entries. -/
def State.aRow (s : State) (f : MxFmt) (bits s0 r : Nat) : List Nat × List Nat :=
  ((List.range 256).map fun k => nbits bits (f.aw * (256 * r + k)) f.aw,
    if f.per = 0 then [] else
      (List.range (256 / f.per)).map fun q => (s.cur.vec.scale.toList.getD (s0 + r * (256 / f.per) + q) 0).toNat % 256)

/-- The i-th register of the operand holds part of A row r. -/
def aHolds (f : MxFmt) (vb i r : Nat) : Bool := decide (r * (256 * f.aw) < (i + 1) * vb) && decide (i * vb < (r + 1) * (256 * f.aw))

/-- The bits of the operand's registers, those that hold a row of `rs` reshuffled to the A width; no other row is read
(R269). -/
def State.aRead (s : State) (f : MxFmt) (m : Nat) (va : VSpec) (rs : List Nat) : State × Nat :=
  let n := s.aRegs f m
  let s := ((List.range n).filter fun i => rs.any (aHolds f (s.vbits s.turn) i)).foldl
    (fun (s : State) i => s.reshuffle (va + BitVec.ofNat 6 i) 1 f.ewCode) s
  let vb := s.vbits s.turn
  (s, ((List.range n).map fun i => (s.cur.vec.reg (va.toNat + i)).toNat % 2 ^ vb * 2 ^ (vb * i)).sum)

/-- The products entered: each row t with the A rows `rs` it takes. With no row to take any, nothing changes (R276). -/
def productEff (s : State) (z : Bool) (acc0 : BitVec 6) (s0 : BitVec 8) (va : VSpec) (m : Nat)
    (plan : List (Fin 4 × List Nat)) : Eff :=
  let f := mxFmt s.afmt
  if plan.isEmpty then .done s
  else if s.rowsFull ((plan.map fun p => 2 ^ p.1.val).sum) then .wait s none 0
  else
    let (s, bits) := s.aRead f m va (plan.flatMap (·.2))
    .done ((plan.foldl (fun (s : State) (t, rs) =>
      s.enterCmd t (.mul z acc0.toNat (rs.map fun r => (r, s.aRow f bits s0.toNat r)) s.afmt
        ((s.rowAt (clusterOf s.turn) t).bfmtFor f))) s).dirtyM)

/-- The issue checks of a product. -/
def mxVec (s : State) (bad : Bool) (rows : Nat) (body : State → Eff) : Eff :=
  match s.vecIssue with
  | some c => .trap s c 0
  | none => mxEff s bad rows body

def mxmulEff (s : State) (z : Bool) (t : BitVec 2) (acc0 : BitVec 6) (s0 : BitVec 8) (va : VSpec) (b : Reg) : Eff :=
  let m := (s.g b).toNat
  let f := mxFmt s.afmt
  mxVec s (m < 1 || 64 < m || 64 < acc0.toNat + m || s.aBad f m va s0.toNat || (s.reduced && s.afmt ≠ 14) ||
      s.rowRefuses f (rowOf t)) (2 ^ t.toNat) fun s =>
    productEff s z acc0 s0 va m [(rowOf t, List.range m)]
def execMxmul (z : Bool) (t : BitVec 2) (acc0 : BitVec 6) (s0 : BitVec 8) (va : VSpec) (b : Reg) (s : State) :=
  commit (.mxmul z t acc0 s0 va b) 8 (mxmulEff s z t acc0 s0 va b)

/-- Group sizes, and the held rows with the A rows each takes. -/
def groupSize (w t : Nat) : Nat := nbits w (8 * t) 8
def State.groupPlan (s : State) (w : Nat) : List (Fin 4 × List Nat) :=
  ((rowsOf s.heldRows).map fun t =>
    let first := ((List.range t.val).map (groupSize w)).sum
    (t, (List.range (groupSize w t.val)).map (first + ·))).filter fun p => !p.2.isEmpty

def mxgrpEff (s : State) (z : Bool) (acc0 : BitVec 6) (s0 : BitVec 8) (va : VSpec) (b : Reg) : Eff :=
  let w := (s.g b).toNat
  let m := ((List.range 4).map (groupSize w)).sum
  let f := mxFmt s.afmt
  let plan := s.groupPlan w
  mxVec s (nbits w 32 32 ≠ 0 || 64 < acc0.toNat + m || s.aBad f m va s0.toNat || (s.reduced && s.afmt ≠ 14) ||
      plan.any (fun p => s.rowRefuses f p.1)) 0 fun s =>
    if s.heldRows = 0 then .trap s 22 15 else productEff s z acc0 s0 va m plan
def execMxgrp (z : Bool) (acc0 : BitVec 6) (s0 : BitVec 8) (va : VSpec) (b : Reg) (s : State) :=
  commit (.mxgrp z acc0 s0 va b) 8 (mxgrpEff s z acc0 s0 va b)

/-! ## Zeroing and waiting (R270) -/

def mxzeroEff (s : State) (rows : BitVec 4) : Eff :=
  mxEff s false rows.toNat fun s =>
    if s.rowsFull rows.toNat then .wait s none 0
    else .done (if rows = 0 then s else ((rowsOf rows.toNat).foldl (fun (s : State) t => s.enterCmd t .zero) s).dirtyM)
def execMxzero (rows : BitVec 4) (s : State) := commit (.mxzero rows) 8 (mxzeroEff s rows)

def mxwaitEff (s : State) (rows : BitVec 4) : Eff :=
  mxEff s false rows.toNat fun s =>
    if s.rowsPend (if rows = 0 then s.heldRows else rows.toNat) then .wait s none 0 else .done s
def execMxwait (rows : BitVec 4) (s : State) := commit (.mxwait rows) 8 (mxwaitEff s rows)

/-! ## Draining (R271, R272) -/

/-- The formats a drain takes. -/
def drainFmtOk (c : Nat) : Bool := c = 2 || (0x10 ≤ c && c ≤ 0x15) || (0x20 ≤ c && c ≤ 0x27)
def drainFmt (c : Nat) : EFmt := (eFmt c).getD ⟨32, .raw⟩

/-- The band scale of a column. -/
def TileRow.band (r : TileRow) (col : Nat) : Option Exact :=
  if r.landed = 1 then some (Fmt.bf16.decode (tget 0 r.bands (col / 64))) else none

/-- The stored bits of an accumulator and the flags. -/
def TileRow.drainValue (r : TileRow) (i col fmt rm : Nat) (sat : Bool) : Nat × Nat :=
  let c := (r.accRow i).getD col 0
  let ef := drainFmt fmt
  if r.isInt then
    match ef.fam with
    | .raw => (c, 0)
    | .int signed => (wrapN ef.bits (if sat then clampInt signed ef.bits (sext 32 c) else sext 32 c), 0)
    | .float f => f.round rm sat (.ofInt (sext 32 c))
  else
    let x := match r.band col with
      | none => (Fmt.b32.decode c, 0)
      | some b => (Fmt.b32.decode c).mul b
    match ef.fam with
    | .raw => (c, 0)
    | .int signed => let y := roundInt signed ef.bits rm x.1; (y.1, y.2 ||| x.2)
    | .float f => let y := f.round rm sat x.1; (y.1, y.2 ||| x.2)

/-- Columns and first column. -/
def drainNc (w : Nat) : Nat := nbits w 0 10
def drainC0 (w : Nat) : Nat := nbits w 16 9

/-- One element drained. -/
def drainElem (t : Fin 4) (r0 fmt : Nat) (w : Nat) (addr : AddrFn) (s : State) (e : Nat) : State × ERes :=
  let ds := (drainFmt fmt).bits / 8
  match addr e with
  | .error (c, v) => (s, .trap c v)
  | .ok va =>
    if va % ds ≠ 0 then (s, .trap 3 (w64 va))
    else
      let y := (s.rowAt (clusterOf s.turn) t).drainValue (r0 + e / drainNc w) (drainC0 w + e % drainNc w) fmt s.rm s.vt.sat
      match s.storeNext (s.sliceOf e) (s.accessGroup e) va (natBytes ds y.1) [] with
      | (s, some c) => (s, .trap c (accessVal c va))
      | (s, none) => (s.addMflags s.cur.rcb s.turn y.2, .keep)

def drainEff (s : State) (t : BitVec 2) (r0 : BitVec 6) (fmt : BitVec 8) (c : Reg) (srcs : List VRead) (m : VMask)
    (addr : State → AddrFn) : Eff :=
  let w := (s.g c).toNat
  let bad := s.memBad || nbits w 10 6 ≠ 0 || nbits w 25 39 ≠ 0 || drainNc w < 1 || 512 < drainNc w ||
    512 < drainC0 w + drainNc w || (64 - r0.toNat) * drainNc w < s.cur.vec.vl.toNat || !drainFmtOk fmt.toNat ||
    srcs.any (fun x => 8 < x.n || !s.vspecOk x.r x.n false)
  mxVec s bad (2 ^ t.toNat) fun s =>
    if s.rowsPend (2 ^ t.toNat) then .wait s none 0
    else
      vectorEff s 7 srcs none false m fun s =>
        let n := s.cur.stores.length
        let o := s.runFrame m 8 false 0 (drainElem (rowOf t) r0.toNat fmt.toNat w (addr s))
        let k := match o.stop with | some (k, _) => k | none => s.vlN
        let s1 := if s.allActive m then o.s.markFilled n s.est k (addr s) (fun _ => 2 ^ (drainFmt fmt.toNat).bits - 1) else o.s
        ({ o with s := s1 } : FOut).eff s.est (fun u _ => u) id

/-- Strided addresses. -/
def State.drainAddr (s : State) (fmt : Nat) (a b c : Reg) : AddrFn :=
  let nc := drainNc (s.g c).toNat
  fun e => .ok (wrapN 64 ((s.g a).toNat + (e / nc : Nat) * (s.g b).toInt + (e % nc * ((drainFmt fmt).bits / 8) : Nat)))

def execMxdrain (t : BitVec 2) (r0 : BitVec 6) (fmt : BitVec 8) (a b c : Reg) (m : VMask) (s : State) :=
  commit (.mxdrain t r0 fmt a b c m) 8 (drainEff s t r0 fmt c [] m fun s => s.drainAddr fmt.toNat a b c)
def execMxdrainX (t : BitVec 2) (r0 : BitVec 6) (fmt : BitVec 8) (a : Reg) (vb : VSpec) (c : Reg) (m : VMask) (s : State) :=
  commit (.mxdrainX t r0 fmt a vb c m) 8
    (drainEff s t r0 fmt c [idxRead s.vt vb false] m fun s => s.idxAddr a vb false 0)

/-! ## Saving and restoring (R273, R274) -/

/-- The words of a save image before the accumulators. -/
def State.saveHead (s : State) : List Nat :=
  let held := s.heldRows
  let rs := (s.clusterAt (clusterOf s.turn)).rows.toList
  let kind := (rs.zipIdx.map fun (r, t) => if nbit held t && r.isInt then 2 ^ t else 0).sum
  [s.cur.mxcfg.toNat, held, kind, 0, 0, 0, 0, 0] ++ rs.zipIdx.flatMap fun (r, t) =>
    if nbit held t then [r.base.toNat, r.pitch.toNat, r.sbase.toNat, r.fmt.toNat + 256 * boolNat r.loaded, 0, 0]
    else [0, 0, 0, 0, 0, 0]

/-- Word w of the image. -/
def State.saveWord (s : State) (w : Nat) : Nat :=
  if w < 32 then s.saveHead.getD w 0
  else
    let k := w - 32
    match (rowsOf s.heldRows)[k / 16384]? with
    | none => 0
    | some t =>
      let r := s.rowAt (clusterOf s.turn) t
      let j := k % 16384
      let row := r.accRow (j / 256)
      row.getD (2 * (j % 256)) 0 + 2 ^ 32 * row.getD (2 * (j % 256) + 1) 0

/-- Words w, w + 1, … stored; the first that fails. -/
def State.saveWords (s : State) (base : Nat) (f : Nat → Nat) (w : Nat) : Nat → State × Option (Nat × Nat × Word)
  | 0 => (s, none)
  | n + 1 =>
    let va := (base + 8 * w) % 2 ^ 64
    match s.storeNext 0 0 va (natBytes 8 (f w)) [] with
    | (s, some c) => (s, some (w, c, accessVal c va))
    | (s, none) => s.saveWords base f (w + 1) n

/-- Words of an image with n rows. -/
def imageWords (n : Nat) : Nat := 32 + 16384 * n

def mxsaveEff (s : State) (a : Reg) : Eff :=
  mxEff s (s.isExec s.turn) 0 fun s =>
    if (s.g a).toNat % 256 ≠ 0 then .trap (s.setEst 0) 3 (s.g a)
    else if (rowsOf s.heldRows).any fun t => !(s.rowAt (clusterOf s.turn) t).cmds.isEmpty then .wait s none 0
    else
      let n := s.cur.stores.length
      let words := imageWords (rowsOf s.heldRows).length
      match s.saveWords (s.g a).toNat s.saveWord s.est (words - s.est) with
      | (t, some (w, c, v)) => .trap ((t.markRange n (s.g a).toNat (8 * w)).setEst w) c v
      | (t, none) => .done ((t.markRange n (s.g a).toNat (8 * words)).setEst 0)
def execMxsave (a : Reg) (s : State) := commit (.mxsave a) 8 (mxsaveEff s a)

/-- Reserved bits of word w of an image. -/
def headBad (w v : Nat) : Bool :=
  if w = 0 then nbits v 8 8 ≠ 0 || nbits v 21 43 ≠ 0
  else if w = 1 || w = 2 then nbits v 4 60 ≠ 0
  else if w < 8 then v ≠ 0
  else
    match (w - 8) % 6 with
    | 3 => nbits v 4 4 ≠ 0 || nbits v 9 55 ≠ 0
    | 4 => v ≠ 0
    | 5 => v ≠ 0
    | _ => false

/-- n words read from word w; the first that fails, a reserved bit in the head included. -/
def State.restWords (s : State) (base : Nat) (w : Nat) : Nat → State × Except (Nat × Nat × Word) (List Nat)
  | 0 => (s, .ok [])
  | n + 1 =>
    let va := (base + 8 * w) % 2 ^ 64
    match s.load s.turn 0 va 8 with
    | (s, .error c) => (s, .error (w, c, accessVal c va))
    | (s, .ok bs) =>
      let v := bytesNat bs
      if w < 32 && headBad w v then (s, .error (w, 2, w64 (8 * w)))
      else
        match s.restWords base (w + 1) n with
        | (s, .error f) => (s, .error f)
        | (s, .ok l) => (s, .ok (v :: l))

/-- Words read by a stopped `mxrest` kept for its resumption (R335). -/
def State.keepRest (s : State) (ws : List Nat) : State := s.setCur { s.cur with rest := ws }

/-- Word w of an image that the instruction does not read, as it starts behind it (R345): what an earlier run of it has read,
else a free value without reserved bits (log 35). -/
def State.unread (s : State) (w : Nat) : Nat :=
  let v := (Config.unreadWord (s.fresh + w)).toNat
  s.cur.rest.getD w (if w < 32 && headBad w v then 0 else v)

/-- The words below n of an image: none below `est` is read, the rest is, now and in memory (R274, R345). -/
def State.restUpTo (s : State) (base n : Nat) : State × Except (Nat × Nat × Word) (List Nat) :=
  let old := (List.range (min s.est n)).map s.unread
  match s.restWords base old.length (n - old.length) with
  | (s, .ok l) => (s, .ok (old ++ l))
  | (s, .error (w, c, v)) =>
    -- the words before the failing one have been read
    match s.restWords base old.length (w - old.length) with
    | (s, .ok l) => (s.keepRest (old ++ l), .error (w, c, v))
    | (s, .error f) => (s.keepRest old, .error f)

/-- An image's rows put back: kind, record and accumulators (R274). -/
def State.putRow (s : State) (head body : List Nat) (t : Fin 4) (j : Nat) : State :=
  let r := s.rowAt (clusterOf s.turn) t
  let w := fun i => head.getD (8 + 6 * t.val + i) 0
  let ws := (body.drop (16384 * j)).take 16384
  let acc := (List.range 64).map fun i =>
    (i, ((ws.drop (256 * i)).take 256).flatMap fun v => [v % 2 ^ 32, v / 2 ^ 32])
  s.setRow (clusterOf s.turn) t { r with
    isInt := nbit (head.getD 2 0) t.val, base := w64 (w 0), pitch := w64 (w 1), sbase := w64 (w 2),
    fmt := BitVec.ofNat 4 (w 3), loaded := nbit (w 3) 8, acc := acc }

/-- The panels reloaded from the records: `k` counts the loaded rows, `at_` is the element to start from. -/
def State.reload (s : State) (W k at_ : Nat) : List (Fin 4) → State × Option (Nat × Nat × Word)
  | [] => (s, none)
  | t :: ts =>
    let r := s.rowAt (clusterOf s.turn) t
    let first := W + 512 * k
    if first + 512 ≤ at_ then s.reload W (k + 1) at_ ts
    else
      match s.loadPanel t ⟨r.base, r.pitch, r.sbase, r.fmt.toNat⟩ (at_ - first) with
      | (s, some (n, c, v)) => (s, some (first + n, c, v))
      | (s, none) => s.dirtyM.reload W (k + 1) at_ ts

/-- `mxrest` (R274). It starts from word `est` whenever it issues (R345); the words below it are those that it has read,
where a stopped run of it kept them (R335, log 35). -/
def mxrestEff (s : State) (a : Reg) : Eff :=
  mxEff s (s.isExec s.turn) 0 fun s =>
    if (s.g a).toNat % 256 ≠ 0 then .trap (s.setEst 0) 3 (s.g a)
    else
      let base := (s.g a).toNat
      let est := s.est
      match s.restUpTo base 32 with
      | (s, .error (w, c, v)) => .trap (s.setEst w) c v
      | (s, .ok head) =>
        let imask := head.getD 1 0
        let miss := imask &&& (15 - s.heldRows)
        let rows := rowsOf imask
        let W := imageWords rows.length
        if miss ≠ 0 then .trap ((s.keepRest head).setEst 32) 22 (w64 miss)
        else
          match (if W ≤ est then (s, .ok head) else s.restUpTo base W) with
          | (s, .error (w, c, v)) => .trap (s.setEst w) c v
          | (s, .ok image) =>
            let body := image.drop 32
            if rows.any fun t => !(s.rowAt (clusterOf s.turn) t).cmds.isEmpty then .wait s none 0
            else
              let s := if W ≤ est then s else
                (rows.zipIdx.foldl (fun (s : State) (t, j) => s.putRow head body t j)
                  (s.setCur { s.cur with mxcfg := w64 (head.getD 0 0) })).dirtyM
              let loaded := rows.filter fun t => (s.rowAt (clusterOf s.turn) t).loaded
              match s.reload W 0 (max est W) loaded with
              | (s, some (n, c, v)) => .trap ((s.keepRest head).setEst n) c v
              | (s, none) => .done ((s.keepRest []).setEst 0)
def execMxrest (a : Reg) (s : State) := commit (.mxrest a) 8 (mxrestEff s a)

end Sys2Proof.Machine
end

