-- ==== Sys2Proof/Machine/Bobbin.lean ====
section
/-!
DEFINITION. Bobbin, the coordinate engine (R277-R289).
DEDUCED (readings): log 36.
-/
namespace Sys2Proof.Machine

/-! ## Cursors (R278) -/

/-- A cursor by its fields. -/
structure Cursor where
  cur : Nat
  idx : Nat
  end_ : Nat
  fmt : Nat
  strict : Bool
  v : Bool
  last : Nat
  deriving DecidableEq, Repr

/-- Word i of a stream's four registers: A from 0, B from 4. -/
def bobWord (x : Hart) (b : Bool) (i : Nat) : Nat := (x.bob.toList.getD ((if b then 4 else 0) + i) 0).toNat

/-- The cursor of stream A, or of B. -/
def State.cursor (s : State) (b : Bool) : Cursor :=
  let w := bobWord s.cur b
  { cur := w 0, idx := w 1, end_ := nbits (w 2) 0 48, fmt := nbits (w 2) 48 2, strict := nbit (w 2) 50, v := nbit (w 2) 51,
    last := w 3 }

/-- The registers of a cursor. -/
def Cursor.words (c : Cursor) : List Nat :=
  [c.cur, c.idx, c.end_ % 2 ^ 48 + 2 ^ 48 * (c.fmt % 4) + 2 ^ 50 * boolNat c.strict + 2 ^ 51 * boolNat c.v, c.last]

def State.setCursor (s : State) (b : Bool) (c : Cursor) : State :=
  let off := if b then 4 else 0
  (s.setCur { s.cur with bob := Vector.ofFn fun (i : Fin 8) =>
    if off ≤ i.val && decide (i.val < off + 4) then w64 (c.words.getD (i.val - off) 0) else s.cur.bob[i] }).dirtyB

/-! ## Streams (R279, R280) -/

/-- What a peek finds. -/
inductive Peek where
  | exhausted
  | value (v w : Nat)
  | fail (cause : Nat) (val : Word)
  deriving DecidableEq, Repr

/-- A delta code read granule by granule from bit `pos`: u and the end (R124, R280). -/
def State.readCode (s : State) (ez8 : Bool) (start : Nat) : Nat → Nat → Nat → Nat → State × Except (Nat × Word) (Nat × Nat)
  | 0, _, _, _ => (s, .error (7, w64 start))
  | fuel + 1, j, pos, u =>
    let g := granBits ez8
    let p := g - 1
    match s.loadBytes (pos / 8) ((pos % 8 + g + 7) / 8) with
    | (s, .error f) => (s, .error f)
    | (s, .ok bs) =>
      let gr := nbits (bytesNat bs) (pos % 8) g
      let payload := gr % 2 ^ p
      if 64 < p * j + p && payload >>> (64 - p * j) ≠ 0 then (s, .error (7, w64 start))
      else
        let u := u + payload <<< (p * j)
        if !nbit gr p then (s, .ok (u, pos + g)) else s.readCode ez8 start fuel (j + 1) (pos + g) u

/-- The element at a cursor: its coordinate and width. -/
def State.streamElem (s : State) (c : Cursor) : State × Except (Nat × Word) (Nat × Nat) :=
  if c.fmt < 2 then
    let n := if c.fmt = 0 then 4 else 8
    let va := c.cur / 8
    if c.cur % (8 * n) ≠ 0 then (s, .error (3, w64 va))
    else
      match s.load s.turn 0 va n with
      | (s, .error k) => (s, .error (k, accessVal k va))
      | (s, .ok bs) => (s, .ok (bytesNat bs, 8 * n))
  else
    let ez8 := c.fmt = 3
    match s.readCode ez8 c.cur (granMost ez8) 0 c.cur 0 with
    | (s, .error f) => (s, .error f)
    | (s, .ok (u, e)) => (s, .ok (wrapN 64 ((c.last : Int) + unzig u), e - c.cur))

/-- `peek`. -/
def State.peek (s : State) (b : Bool) : State × Peek :=
  let c := s.cursor b
  if c.end_ ≤ c.idx then (s, .exhausted)
  else
    match s.streamElem c with
    | (s, .error (k, v)) => (s, .fail k v)
    | (s, .ok (v, w)) =>
      if c.v && (v < c.last || (c.strict && v = c.last)) then (s, .fail 8 (w64 c.cur)) else (s, .value v w)

/-- `advance` after a peek that gave v and w. -/
def State.advance (s : State) (b : Bool) (v w : Nat) : State :=
  let c := s.cursor b
  s.setCursor b { c with last := v, v := true, idx := (c.idx + 1) % 2 ^ 64, cur := (c.cur + w) % 2 ^ 64 }

/-! ## `bbset`, `bbget` (R283, R284) -/

def bbsetEff (s : State) (strm : Bool) (fmt : BitVec 2) (strict : Bool) (a b c : Reg) : Eff :=
  if s.memBad || nbits (s.g b).toNat 48 16 ≠ 0 then .trap s 2 0
  else
    .done (s.setCursor strm ⟨(s.g a).toNat, 0, (s.g b).toNat, fmt.toNat, strict, false, (s.g c).toNat⟩)
def execBbset (strm : Bool) (fmt : BitVec 2) (strict : Bool) (a b c : Reg) (s : State) :=
  commit (.bbset strm fmt strict a b c) 8 (bbsetEff s strm fmt strict a b c)

def bbgetEff (s : State) (d : Reg) (strm : Bool) : Eff :=
  if s.memBad then .trap s 2 0
  else
    match s.peek strm with
    | (s, .exhausted) => .done (s.setG d (w64 (2 ^ 64 - 1)))
    | (s, .value v _) => .done (s.setG d (w64 v))
    | (s, .fail c v) => .trap (s.setEst 0) c v
def execBbget (d : Reg) (strm : Bool) (s : State) := commit (.bbget d strm) 8 (bbgetEff s d strm)

/-! ## Emitting (R281) -/

/-- Where an emitting instruction stands: result number, advances, the destinations' bits, the masks' bits. -/
structure Emit where
  n : Nat
  adv : Nat
  d0 : Nat
  d1 : Nat
  d2 : Nat
  ka : Nat
  kb : Nat
  deriving DecidableEq, Repr

/-- How an emission ends. -/
inductive EmitEnd where
  | done
  | part
  | trap (cause : Nat) (val : Word)
  deriving DecidableEq, Repr

/-- Whether the instruction goes on: n < vl and fewer than 65,536 advances. -/
def Emit.go (z : Emit) (vl : Nat) : Bool := z.n < vl && z.adv < 65536

/-- Whether a pre-emption request stops it here, between two stream reads: `lim` counts the advances of this run. -/
def Emit.stops (z : Emit) (lim : Option Nat) : Bool := match lim with | some k => decide (k ≤ z.adv) | none => false

/-- A result written. -/
def Emit.put (z : Emit) (ew x y w : Nat) (a b : Bool) (adv : Nat) : Emit :=
  { n := z.n + 1, adv := z.adv + adv, d0 := nset z.d0 (ew * z.n) ew x, d1 := nset z.d1 (ew * z.n) ew y,
    d2 := nset z.d2 (ew * z.n) ew w, ka := nset z.ka z.n 1 (boolNat a), kb := nset z.kb z.n 1 (boolNat b) }

/-- `bbisect` (R285). -/
def isectLoop (ew vl : Nat) (lim : Option Nat) : Nat → State → Emit → State × Emit × EmitEnd
  | 0, s, z => (s, z, .done)
  | fuel + 1, s, z =>
    if !z.go vl then (s, z, .done)
    else if z.stops lim then (s, z, .part)
    else
      match s.peek false with
      | (s, .exhausted) => (s, z, .done)
      | (s, .fail c v) => (s, z, .trap c v)
      | (s, .value a wa) =>
        match s.peek true with
        | (s, .exhausted) => (s, z, .done)
        | (s, .fail c v) => (s, z, .trap c v)
        | (s, .value b wb) =>
          if a < b then isectLoop ew vl lim fuel (s.advance false a wa) { z with adv := z.adv + 1 }
          else if b < a then isectLoop ew vl lim fuel (s.advance true b wb) { z with adv := z.adv + 1 }
          else
            isectLoop ew vl lim fuel ((s.advance false a wa).advance true b wb)
              (z.put ew a (s.cursor false).idx (s.cursor true).idx true true 2)

/-- `bbmerge` (R286). -/
def mergeLoop (ew vl : Nat) (lim : Option Nat) : Nat → State → Emit → State × Emit × EmitEnd
  | 0, s, z => (s, z, .done)
  | fuel + 1, s, z =>
    if !z.go vl then (s, z, .done)
    else if z.stops lim then (s, z, .part)
    else
      match s.peek false with
      | (s, .fail c v) => (s, z, .trap c v)
      | (s, pa) =>
        match s.peek true with
        | (s, .fail c v) => (s, z, .trap c v)
        | (s, pb) =>
          let ia := (s.cursor false).idx; let ib := (s.cursor true).idx
          match pa, pb with
          | .value a wa, .value b wb =>
            if a < b then mergeLoop ew vl lim fuel (s.advance false a wa) (z.put ew a ia ib true false 1)
            else if b < a then mergeLoop ew vl lim fuel (s.advance true b wb) (z.put ew b ia ib false true 1)
            else mergeLoop ew vl lim fuel ((s.advance false a wa).advance true b wb) (z.put ew a ia ib true true 2)
          | .value a wa, _ => mergeLoop ew vl lim fuel (s.advance false a wa) (z.put ew a ia ib true false 1)
          | _, .value b wb => mergeLoop ew vl lim fuel (s.advance true b wb) (z.put ew b ia ib false true 1)
          | _, _ => (s, z, .done)

/-- `bbwalk` (R287); the advance limit holds in its inner loop too (R281). -/
def walkLoop (ew vl : Nat) (lim : Option Nat) : Nat → State → Emit → State × Emit × EmitEnd
  | 0, s, z => (s, z, .done)
  | fuel + 1, s, z =>
    let a := s.cursor false; let b := s.cursor true
    if !(z.go vl && b.idx < b.end_) then (s, z, .done)
    else if z.stops lim then (s, z, .part)
    else if !a.v || a.last ≤ b.idx then
      match s.peek false with
      | (s, .exhausted) => (s, z, .done)
      | (s, .fail c v) => (s, z, .trap c v)
      | (s, .value x w) => walkLoop ew vl lim fuel (s.advance false x w) { z with adv := z.adv + 1 }
    else
      walkLoop ew vl lim fuel (s.setCursor true { b with idx := (b.idx + 1) % 2 ^ 64 })
        (z.put ew (wrapN 64 ((a.idx : Int) - 1)) b.idx 0 false false 1)

/-- Two groups of n registers meet, a queue with itself included (R281). -/
def groupsMeet (a b : VSpec) (n : Nat) : Bool := decide (a.toNat < b.toNat + n) && decide (b.toNat < a.toNat + n)

/-- Pairs of a list that meet. -/
def anyMeet (n : Nat) : List VSpec → Bool
  | [] => false
  | a :: l => l.any (groupsMeet a · n) || anyMeet n l

/-- A queue destination other than `vd` completed: its image is appended (R99), as a release (R307). -/
def State.appendQueue (s : State) (d : VSpec) : State :=
  match vqOf d with
  | some q =>
    let s := s.queueRelease
    let k := s.coreAt (coreOf s.turn)
    (match k.part[q] with
      | some i => (s.setCore (coreOf s.turn) { k with vq := k.vq.set q (k.vq[q] ++ [i]), part := k.part.set q none }).sync s.turn 4
      | none => s)
  | none => s

/-- Destinations and masks written: all of them when a result was emitted or the instruction completed. -/
def State.putEmit (s : State) (ds : List VSpec) (ks : Option (BitVec 3 × BitVec 3)) (bits : List Nat) (ka kb : Nat) : State :=
  let t := s.vt
  let s := (ds.zip bits).foldl (fun (s : State) (d, b) => s.setGroup d t.grp t.ewCode b) s
  match ks with
  | some (i, j) => (s.setMask i ka).setMask j kb
  | none => s

/-- The frame of the emitting instructions (R281). `ds` are the destinations, `vd` first. -/
def emitEff (s : State) (ds : List VSpec) (ks : Option (BitVec 3 × BitVec 3))
    (loop : Nat → Nat → Option Nat → Nat → State → Emit → State × Emit × EmitEnd) : Eff :=
  match s.vecIssue with
  | some c => .trap s c 0
  | none =>
    let t := s.vt
    let bad := s.memBad || !(t.kind ≤ 1 && (t.ew = 32 || t.ew = 64) && t.skind = 0) || ds.any (fun d => !s.vspecOk d t.grp true) ||
      anyMeet t.grp ds || (match ks with | some (i, j) => i = j | none => false)
    if bad then .trap s 2 0
    else
      match ds.findSome? fun d => s.queueWait [] (some d) with
      | some q => .wait s (some q) 0
      | none =>
        let s := s.readied []
        let old := ds.map fun d => s.destBits d t.grp
        let (oa, ob) := match ks with | some (i, j) => (s.mask i, s.mask j) | none => (0, 0)
        let z0 : Emit := ⟨s.est, 0, old.getD 0 0, old.getD 1 0, old.getD 2 0, oa, ob⟩
        let (s, z, e) := loop t.ew s.cur.vec.vl.toNat s.cur.lim 65537 s z0
        let bits := [z.d0, z.d1, z.d2]
        let some_ := if s.est < z.n then s.putEmit ds ks bits z.ka z.kb else s
        match e with
        | .trap c v => .trap ((if s.cur.runFrom = 0 && 0 < z.n then some_.pipeRecord 2 8 0 else some_).setEst z.n) c v
        | .part => .part ((if s.cur.runFrom = 0 && 0 < z.n then some_.pipeRecord 2 8 0 else some_).setEst z.n)
        | .done =>
          let tl := fun b => if t.tail then b % 2 ^ (t.ew * z.n) else b
          let mt := fun b => if t.tail then b % 2 ^ z.n else b
          let s := s.putEmit ds ks (bits.map tl) (mt z.ka) (mt z.kb)
          let s := ((s.setCur { s.cur with gcnt := w64 z.n }).dirtyC).setEst 0
          let s := (ds.drop 1).foldl (fun (s : State) d => s.appendQueue d) (s.pipe 8 (ceilDiv z.n 64 - s.cur.runFrom / 64))
          .done (match ds with | d :: _ => s.finishDest d | [] => s)

def execBbisect (vd va vb : VSpec) (s : State) := commit (.bbisect vd va vb) 8 (emitEff s [vd, va, vb] none isectLoop)
def execBbmerge (vd va vb : VSpec) (i j : BitVec 3) (s : State) :=
  commit (.bbmerge vd va vb i j) 8 (emitEff s [vd, va, vb] (some (i, j)) mergeLoop)
def execBbwalk (vd va : VSpec) (s : State) := commit (.bbwalk vd va) 8 (emitEff s [vd, va] none walkLoop)

end Sys2Proof.Machine
end

