-- ==== Sys2Proof/Machine/Signature.lean ====
section
/-!
DEFINITION. Signature buckets, unit 9 (R290-R302, R321).
DEDUCED (readings): log 37.
-/
namespace Sys2Proof.Machine

/-! ## Projection slots (R290, R291, R297) -/

def State.projAt (s : State) (h : BitVec 3) : Proj := (s.coreAt (coreOf s.turn)).proj[h.toNat]

/-- The 2-byte addresses of a projection, row by row. -/
def projAddrs (base : Nat) (pitch : Int) (b d : Nat) : List (List Nat) :=
  (List.range b).map fun (i : Nat) => (List.range d).map fun (j : Nat) => wrapN 64 ((base : Int) + (i : Int) * pitch + 2 * (j : Int))

/-- The failing check of one of them, in a context. -/
def State.projFail (s : State) (c : Ctx) (va : Nat) : Option Nat :=
  if va % 2 ≠ 0 then some 3
  else
    match s.resolve c .load va with
    | .error k => some k
    | .ok (t, _) => if s.beyond t 2 then some 5 else if s.expired t then some 6 else none

/-- The failure at the lowest address. -/
def lowestFail (f : Nat → Option Nat) (vas : List Nat) : Option (Nat × Nat) :=
  vas.foldl (fun acc va =>
    match f va with
    | none => acc
    | some c =>
      match acc with
      | some (a, _) => if va < a then some (va, c) else acc
      | none => some (va, c)) none

/-- A projection read in a context; the failure at the lowest address if there is one. -/
def State.readProj (s : State) (c : Ctx) (base : Nat) (pitch : Int) (b d : Nat) :
    State × Except (Nat × Nat) (List (List (BitVec 16))) :=
  let rows := projAddrs base pitch b d
  match lowestFail (s.projFail c) (rows.flatMap id) with
  | some f => (s, .error f)
  | none =>
    let s := (rows.flatMap id).foldl (fun (s : State) va =>
      match s.resolve c .load va with | .ok (_, leaf) => s.noteLeaf c va false leaf | .error _ => s) s
    (s, .ok (rows.map fun r => r.map fun va =>
      match s.resolve c .load va with
      | .ok (t, _) => BitVec.ofNat 16 (bytesNat (s.readT t 2))
      | .error _ => 0))

/-- An exact dot product (R291). -/
def dotX (p : List Exact) (x : List Exact) : Exact :=
  (p.zip x).foldl (fun acc (a, b) => (acc.add 0 (a.mul b).1).1) (Exact.zero false)

/-- Its bit: at least zero. -/
def dotBit : Exact → Bool
  | .nan _ => false
  | .inf n => !n
  | .num n m _ st => !n || (m = 0 && !st)

/-- The signature of a vector under a slot. -/
def Proj.signature (p : Proj) (x : List Exact) : Nat :=
  ((p.rows.zipIdx).map fun (r, i) => boolNat (dotBit (dotX (r.map fun w => Fmt.bf16.decode w.toNat) x)) * 2 ^ i).sum

/-- The vector of d elements at va, in a format of width ew. -/
def State.sigVec (s : State) (va : VSpec) (f : Fmt) (ew d : Nat) : List Exact :=
  let g := s.groupBits va 1
  (List.range d).map fun j => f.decode (nbits g (ew * j) ew)

def sgprojEff (s : State) (h : BitVec 3) (b : BitVec 5) (d1 : BitVec 8) (a gb : Reg) : Eff :=
  if s.memBad then .trap s 2 0
  else
    let d := d1.toNat + 1
    let s := s.drainSlice s.turn 0
    match s.readProj (s.ctxOf s.turn) (s.g a).toNat (s.g gb).toInt b.toNat d with
    | (s, .error (va, c)) => .trap (s.setEst 0) c (accessVal c va)
    | (s, .ok rows) =>
      let k := s.coreAt (coreOf s.turn)
      let p : Proj := { loaded := true, b := b.toNat, d := d, base := s.g a, pitch := s.g gb, rows := rows }
      .done ((s.setCore (coreOf s.turn) { k with proj := k.proj.set h.toNat p }).setEst 0)
def execSgproj (h : BitVec 3) (b : BitVec 5) (d1 : BitVec 8) (a gb : Reg) (s : State) :=
  commit (.sgproj h b d1 a gb) 8 (sgprojEff s h b d1 a gb)

/-! ## Signature state (R295) -/

/-- Word i of the signature state, 0x050 + i. -/
def State.sigW (s : State) (i : Nat) : Nat := (s.cur.sig.toList.getD i 0).toNat
def State.sgpbase (s : State) : Nat := s.sigW 0
def State.sgplim (s : State) : Nat := s.sigW 1
def State.sgpnext (s : State) : Nat := s.sigW 2
def State.sgdir (s : State) (h : Nat) : Nat := s.sigW (8 + h)

def State.setSig (s : State) (i v : Nat) : State :=
  (s.setCur { s.cur with sig := Vector.ofFn fun (k : Fin 16) => if k.val = i then w64 v else s.cur.sig[k] }).dirtyS

/-- Illegal for `sgkey` and `sgsig` (R292, R298). -/
def State.sigBad (s : State) (h : BitVec 3) : Bool :=
  let t := s.vt
  s.memBad || !(t.kind = 3 || (t.kind = 2 && (t.ew = 16 || t.ew = 32))) || t.grp ≠ 1 || t.skind ≠ 0 || !(s.projAt h).loaded

/-- The format of the vector. -/
def VT.sigFmt (t : VT) : Fmt := t.fmt.getD .b32

/-- `sgsig` (R298). -/
def sgsigEff (s : State) (d : Reg) (h : BitVec 3) (va : VSpec) : Eff :=
  vectorOver (fun s => (s.projAt h).d) s 9 [⟨va, 1, s.vt.ewCode⟩] none (s.sigBad h) none fun s =>
    let p := s.projAt h
    .done (s.setG d (w64 (p.signature (s.sigVec va s.vt.sigFmt s.vt.ew p.d))))
def execSgsig (d : Reg) (h : BitVec 3) (va : VSpec) (s : State) := commit (.sgsig d h va) 8 (sgsigEff s d h va)

/-! ## `sgkey` (R299) -/

/-- The failing check of an n-byte write, or of the link step, an atomic access that host class refuses (R205). -/
def State.storeFail (s : State) (va n : Nat) : Option Nat :=
  if va % n ≠ 0 then some 3 else s.probe s.turn .store va n
def State.entryFail (s : State) (va : Nat) : Option Nat :=
  match s.atomicPlace s.turn va 16 false with | .error c => some c | .ok _ => none

/-- n bytes read at an address that has been checked. -/
def State.peekBytes (s : State) (va n : Nat) : List Byte :=
  match s.resolve (s.ctxOf s.turn) .load va with | .ok (t, _) => s.readT t n | .error _ => List.replicate n 0

/-- Bytes written at once at an address that has been checked. -/
def State.pokeBytes (s : State) (va : Nat) (bs : List Byte) : State :=
  match s.resolve (s.ctxOf s.turn) .store va with
  | .ok (t, leaf) => (s.noteLeaf (s.ctxOf s.turn) va true leaf).writeT t bs []
  | .error _ => s

/-- Where segment o lies (R294). -/
def State.segAt (s : State) (o : Nat) : Nat := (s.sgpbase + 64 * o) % 2 ^ 64

/-- The link step: token `tok` appended to the bucket whose entry lies at E; a failure leaves everything. -/
def State.linkStep (s : State) (E tok : Nat) : Except (Nat × Word) State :=
  let e := bytesNat (s.peekBytes E 16)
  let first := nbits e 0 32; let last := nbits e 32 32; let count := nbits e 64 32
  let entry := fun (f l : Nat) => natBytes 16 (f + 2 ^ 32 * l + 2 ^ 64 * (count + 1))
  if count = 2 ^ 32 - 1 then .error (9, w64 s.sgpnext)
  else if count % 15 = 0 then
    let o := s.sgpnext
    let link := (s.segAt last + 60) % 2 ^ 64
    match (if count = 0 then none else s.storeFail link 4) with
    | some c => .error (c, accessVal c link)
    | none =>
      let s := s.pokeBytes (s.segAt o) (natBytes 64 tok)
      let s := if count = 0 then s else s.pokeBytes link (natBytes 4 o)
      .ok ((s.pokeBytes E (entry (if count = 0 then o else first) o)).setSig 2 ((o + 1) % 2 ^ 32))
  else
    let at_ := (s.segAt last + 4 * (count % 15)) % 2 ^ 64
    match s.storeFail at_ 4 with
    | some c => .error (c, accessVal c at_)
    | none => .ok ((s.pokeBytes at_ (natBytes 4 tok)).pokeBytes E (entry first last))

/-- `sgkey`: whole; a trap after the key store leaves the key stored. Its checks follow the hart's earlier scalar stores. -/
def sgkeyEff (s : State) (d : Reg) (h : BitVec 3) (va : VSpec) (b c : Reg) : Eff :=
  vectorOver (fun s => (s.projAt h).d) s 9 [⟨va, 1, s.vt.ewCode⟩] none (s.sigBad h || 2 ^ 32 ≤ (s.g b).toNat) none fun s =>
    let s := s.drainSlice s.turn 0
    if !(1 ≤ s.sgpnext && s.sgpnext < s.sgplim) then .trap (s.setEst 0) 9 (w64 s.sgpnext)
    else
      let p := s.projAt h
      let n := s.vt.ew / 8
      let sig := p.signature (s.sigVec va s.vt.sigFmt s.vt.ew p.d)
      let E := (s.sgdir h.toNat + 16 * sig) % 2 ^ 64
      let seg := s.segAt s.sgpnext
      let token := (s.g b).toNat
      let keys := (List.range p.d).map fun j => ((s.g c).toNat + j * n) % 2 ^ 64
      let fail := fun a =>
        match (if keys.contains a then s.storeFail a n else none) with
        | some k => some k
        | none => if a = E then s.entryFail E else if a = seg then s.storeFail seg 64 else none
      match lowestFail fail (keys ++ [E, seg]) with
      | some (a, k) => .trap (s.setEst 0) k (accessVal k a)
      | none =>
        let g := s.groupBits va 1
        let s := keys.zipIdx.foldl (fun (s : State) (a, j) =>
          (s.storeNext 0 0 a (natBytes n (nbits g (s.vt.ew * j) s.vt.ew)) []).1) s
        let s := s.drain s.turn
        match s.linkStep E token with
        | .error (k, v) => .trap (s.setEst 0) k v
        | .ok s => .done (((s.sync s.turn 7).setG d (w64 sig)).setEst 0)
def execSgkey (d : Reg) (h : BitVec 3) (va : VSpec) (b c : Reg) (s : State) :=
  commit (.sgkey d h va b c) 8 (sgkeyEff s d h va b c)

/-! ## `sggather` (R300, R321) -/

/-- The gather cursor (R295). -/
structure Gather where
  pos : Nat
  probe : Nat
  go : Bool
  ext : Nat
  seg : Nat
  qsig : Nat
  qh : Nat
  qp : Nat
  deriving DecidableEq, Repr

def State.gather (s : State) : Gather :=
  { pos := nbits (s.sigW 5) 0 32, probe := nbits (s.sigW 5) 32 5, go := nbit (s.sigW 5) 63, ext := nbits (s.sigW 6) 0 32,
    seg := nbits (s.sigW 6) 32 32, qsig := nbits (s.sigW 7) 0 16, qh := nbits (s.sigW 7) 16 3, qp := nbits (s.sigW 7) 19 5 }

def State.setGather (s : State) (z : Gather) : State :=
  ((s.setSig 5 (z.pos % 2 ^ 32 + 2 ^ 32 * (z.probe % 32) + 2 ^ 63 * boolNat z.go)).setSig 6
    (z.ext % 2 ^ 32 + 2 ^ 32 * (z.seg % 2 ^ 32))).setSig 7 (z.qsig % 2 ^ 16 + 2 ^ 16 * (z.qh % 8) + 2 ^ 19 * (z.qp % 32))

/-- `next_probe`. -/
def Gather.next (z : Gather) : Gather :=
  { z with probe := z.probe + 1, seg := 0, go := z.go && decide (z.probe + 1 ≤ z.qp) }

/-- The entry of probe j: `first` and `count`, read with acquire. -/
def State.probeEntry (s : State) (z : Gather) (j : Nat) : State × Except (Nat × Word) (Nat × Nat) :=
  let bucket := if j = 0 then z.qsig else z.qsig ^^^ 2 ^ (j - 1)
  let va := (s.sgdir z.qh + 16 * bucket) % 2 ^ 64
  match s.load s.turn 0 va 16 with
  | (s, .error c) => (s, .error (c, accessVal c va))
  | (s, .ok bs) => ((s.drain s.turn).sync s.turn 2, .ok (nbits (bytesNat bs) 0 32, nbits (bytesNat bs) 64 32))

/-- The counts of probes j, j + 1, …, k of them, summed. -/
def State.probeTotal (s : State) (z : Gather) (j : Nat) : Nat → State × Except (Nat × Word) Nat
  | 0 => (s, .ok 0)
  | k + 1 =>
    match s.probeEntry z j with
    | (s, .error f) => (s, .error f)
    | (s, .ok (_, c)) =>
      match s.probeTotal z (j + 1) k with
      | (s, .error f) => (s, .error f)
      | (s, .ok t) => (s, .ok (c + t))

/-- A 4-byte word of a segment. -/
def State.segWord (s : State) (o i : Nat) : State × Except (Nat × Word) Nat :=
  let va := (s.segAt o + 4 * i) % 2 ^ 64
  match s.load s.turn 0 va 4 with
  | (s, .error c) => (s, .error (c, accessVal c va))
  | (s, .ok bs) => (s, .ok (bytesNat bs))

/-- The loop of R300: the ids still to come, in order. -/
def gatherLoop (limit : Nat) : Nat → State → Gather → Nat → State × Except (Nat × Word) (Gather × List Nat)
  | 0, s, z, _ => (s, .ok (z, []))
  | fuel + 1, s, z, n =>
    if limit ≤ n || !z.go then (s, .ok (z, []))
    else
      let enter : State × Except (Nat × Word) Gather :=
        if z.seg = 0 then
          match s.probeEntry z z.probe with
          | (s, .error f) => (s, .error f)
          | (s, .ok (first, count)) => (s, .ok { z with ext := count, seg := first, pos := 0 })
        else (s, .ok z)
      match enter with
      | (s, .error f) => (s, .error f)
      | (s, .ok z1) =>
        if z.seg = 0 && (z1.ext = 0 || z1.seg = 0) then gatherLoop limit fuel s z1.next n
        else
          match s.segWord z1.seg (z1.pos % 15) with
          | (s, .error f) => (s, .error f)
          | (s, .ok id) =>
            let z2 := { z1 with pos := z1.pos + 1 }
            let step : State × Except (Nat × Word) Gather :=
              if z2.ext ≤ z2.pos then (s, .ok z2.next)
              else if z2.pos % 15 = 0 then
                match s.segWord z2.seg 15 with
                | (s, .error f) => (s, .error f)
                | (s, .ok o) => (s, .ok (if o = 0 then z2.next else { z2 with seg := o }))
              else (s, .ok z2)
            match step with
            | (s, .error f) => (s, .error f)
            | (s, .ok z3) =>
              match gatherLoop limit fuel s z3 (n + 1) with
              | (s, .error f) => (s, .error f)
              | (s, .ok (z4, ids)) => (s, .ok (z4, id :: ids))

/-- The first call's cursor, or its failure. -/
def State.gatherStart (s : State) (h : BitVec 3) (va : VSpec) (p : Nat) : State × Except (Nat × Word) Gather :=
  let pr := s.projAt h
  let z : Gather := ⟨0, 0, true, nbits (s.sigW 6) 0 32, 0, pr.signature (s.sigVec va .b32 32 pr.d), h.toNat, p⟩
  match s.probeTotal z 0 (p + 1) with
  | (s, .error f) => (s, .error f)
  | (s, .ok tot) =>
    if (s.sigW 3 ≠ 0 && s.sigW 3 < tot) || tot < s.sigW 4 then (s, .error (10, w64 tot)) else (s, .ok z)

def sggatherEff (s : State) (vd : VSpec) (h : BitVec 3) (va : VSpec) (b : Reg) : Eff :=
  let t := s.vt
  let go := s.gather.go
  let p := (s.g b).toNat
  let bad := s.memBad || !(t.kind ≤ 1 && t.ew = 32 && t.skind = 0) ||
    t.grp ≠ 1 || (!go && (!(s.projAt h).loaded || (s.projAt h).b < p)) || !s.vspecOk va 1 false
  vectorEff s 9 (if go then [] else [⟨va, 1, t.ewCode⟩]) (some (vd, t.grp)) bad none fun s =>
    match (if go then (s, .ok s.gather) else s.gatherStart h va p) with
    | (s, .error (c, v)) => .trap (s.setEst 0) c v
    | (s, .ok z) =>
      match gatherLoop (min s.cur.vec.vl.toNat 4096) 8192 s z 0 with
      | (s, .error (c, v)) => .trap (s.setEst 0) c v
      | (s, .ok (z, ids)) =>
        let old := s.destBits vd t.grp
        let acc := ids.zipIdx.foldl (fun acc (x, e) => nset acc (32 * e) 32 x) old
        let acc := if t.tail then acc % 2 ^ (32 * ids.length) else acc
        let s := (s.setGroup vd t.grp t.ewCode acc).setGather z
        .done (((s.setCur { s.cur with gcnt := w64 ids.length }).dirtyC).setEst 0)
def execSggather (vd : VSpec) (h : BitVec 3) (va : VSpec) (b : Reg) (s : State) :=
  commit (.sggather vd h va b) 8 (sggatherEff s vd h va b)

/-! ## `sgclr` (R301) -/

/-- Entries w, w + 1, … cleared; the first that fails. -/
def State.clearEntries (s : State) (dir w : Nat) : Nat → State × Option (Nat × Nat × Word)
  | 0 => (s, none)
  | n + 1 =>
    let va := (dir + 16 * w) % 2 ^ 64
    match s.storeNext 0 0 va (natBytes 16 0) [] with
    | (s, some c) => (s, some (w, c, accessVal c va))
    | (s, none) => s.clearEntries dir (w + 1) n

def sgclrEff (s : State) (h : BitVec 3) : Eff :=
  let p := s.projAt h
  if s.memBad || !p.loaded then .trap s 2 0
  else
    let n := s.cur.stores.length
    match s.clearEntries (s.sgdir h.toNat) s.est (2 ^ p.b - s.est) with
    | (u, some (w, c, v)) => .trap ((u.markRange n (s.sgdir h.toNat) (16 * w)).setEst w) c v
    | (u, none) => .done ((u.markRange n (s.sgdir h.toNat) (16 * 2 ^ p.b)).setEst 0)
def execSgclr0 (s : State) := commit .sgclr0 8 (sgclrEff s 0)
def execSgclr1 (s : State) := commit .sgclr1 8 (sgclrEff s 1)
def execSgclr2 (s : State) := commit .sgclr2 8 (sgclrEff s 2)
def execSgclr3 (s : State) := commit .sgclr3 8 (sgclrEff s 3)
def execSgclr4 (s : State) := commit .sgclr4 8 (sgclrEff s 4)
def execSgclr5 (s : State) := commit .sgclr5 8 (sgclrEff s 5)
def execSgclr6 (s : State) := commit .sgclr6 8 (sgclrEff s 6)
def execSgclr7 (s : State) := commit .sgclr7 8 (sgclrEff s 7)

end Sys2Proof.Machine
end

