-- ==== Sys2Proof/Machine/VecPerm.lean ====
section
/-!
DEFINITION. Unit 5: permutation, reduction and mask operations (R120, R163-R172).
DEDUCED (readings): log 30.
-/
namespace Sys2Proof.Machine

/-! ## Movements (R163-R166): whole, raw bits -/

/-- Elements 0 to n-1 of a destination rewritten by `f`, which keeps an element by answering none. -/
def fillGo (ew : Nat) (f : Nat → Option Nat) : Nat → Nat → Nat → Nat
  | 0, _, acc => acc
  | k + 1, e, acc =>
    fillGo ew f k (e + 1) (match f e with | some x => nset acc (ew * e) ew x | none => acc)

/-- A whole movement: each active element by `f`, the others by `mpol`, then the tail. -/
def moveEff (s : State) (vd : VSpec) (srcs : List VRead) (bad : Bool) (m : VMask) (f : State → Nat → Option Nat) : Eff :=
  let t := s.vt
  vectorEff s 5 srcs (some (vd, t.grp)) (bad || s.moveBad) m fun s =>
    let mb := s.maskBits m
    let g := f s
    let h := fun e => if nbit mb e then g e else if t.mpol then some 0 else none
    .done ((s.setGroup vd t.grp t.ewCode (s.vtail (fillGo t.ew h s.cur.vec.vl.toNat 0 (s.destBits vd t.grp)))).setEst 0)

/-- cap of R143. -/
def State.cap (s : State) : Nat := s.vt.grp * s.vbits s.turn / s.vt.ew

/-- A slide's offset (R164). -/
def State.slideOff (s : State) (b : VSrc) : Nat :=
  match b with | .vs r => (s.g r).toNat | .vi i => i.toNat | .vv _ => 0

def effVslup (vd va : VSpec) (b : VSrc) (m : VMask) (s : State) : Eff :=
  moveEff s vd [s.vt.read va] false m fun s =>
    let ra := s.rawAt va; let off := s.slideOff b
    fun e => if off ≤ e then some (s.vt.clean (ra (e - off))) else none
def effVsldn (vd va : VSpec) (b : VSrc) (m : VMask) (s : State) : Eff :=
  moveEff s vd [s.vt.read va] false m fun s =>
    let ra := s.rawAt va; let off := s.slideOff b; let cap := s.cap
    fun e => some (if e + off < cap then s.vt.clean (ra (e + off)) else 0)
def effVperm (vd va vb : VSpec) (m : VMask) (s : State) : Eff :=
  moveEff s vd [s.vt.read va, s.vt.read vb] false m fun s =>
    let ra := s.rawAt va; let ib := s.rawAt vb; let cap := s.cap
    fun e => some (if ib e < cap then s.vt.clean (ra (ib e)) else 0)
def execVslup (vd va : VSpec) (b : VSrc) (m : VMask) (s : State) := commit (.vslup vd va b m) 8 (effVslup vd va b m s)
def execVsldn (vd va : VSpec) (b : VSrc) (m : VMask) (s : State) := commit (.vsldn vd va b m) 8 (effVsldn vd va b m s)
def execVperm (vd va vb : VSpec) (m : VMask) (s : State) := commit (.vperm vd va vb m) 8 (effVperm vd va vb m s)

/-- The positions below n whose bit of k is set. -/
def setBits (k n : Nat) : List Nat := (List.range n).filter fun e => nbit k e

/-- `vcomp` (R166). -/
def effVcomp (vd va : VSpec) (mk : BitVec 3) (s : State) : Eff :=
  let t := s.vt
  vectorEff s 5 [t.read va] (some (vd, t.grp)) s.moveBad none fun s =>
    let ra := s.rawAt va
    let es := setBits (s.mask mk) s.cur.vec.vl.toNat
    let acc := es.zipIdx.foldl (fun acc (e, n) => nset acc (t.ew * n) t.ew (t.clean (ra e))) (s.destBits vd t.grp)
    let acc := if t.tail then acc % 2 ^ (t.ew * es.length) else acc
    .done ((s.setGroup vd t.grp t.ewCode acc).setEst 0)
def execVcomp (vd va : VSpec) (mk : BitVec 3) (s : State) := commit (.vcomp vd va mk) 8 (effVcomp vd va mk s)

/-- `vexpand` (R166): a set bit takes the next packed element. -/
def effVexpand (vd va : VSpec) (mk : BitVec 3) (s : State) : Eff :=
  moveEff s vd [s.vt.read va] false (some mk) fun s =>
    let ra := s.rawAt va; let k := s.mask mk
    fun e => some (s.vt.clean (ra (popN e (k % 2 ^ e))))
def execVexpand (vd va : VSpec) (mk : BitVec 3) (s : State) := commit (.vexpand vd va mk) 8 (effVexpand vd va mk s)

/-- `viota` (R166): the active set bits of `ms` below each element. -/
def effViota (vd : VSpec) (ms : BitVec 3) (m : VMask) (s : State) : Eff :=
  moveEff s vd [] s.vt.isF m fun s =>
    let k := s.mask ms &&& s.maskBits m
    fun e => some (s.vt.narrow (popN e (k % 2 ^ e)))
def execViota (vd : VSpec) (ms : BitVec 3) (m : VMask) (s : State) := commit (.viota vd ms m) 8 (effViota vd ms m s)

/-! ## Reductions (R120, R167) -/

/-- A value that may be absent, with the flags raised so far. -/
abbrev RNode := Option Nat × Nat

/-- `pair` of R120. -/
def rpair (comb : Nat → Nat → Nat × Nat) (a b : RNode) : RNode :=
  match a.1, b.1 with
  | none, y => (y, a.2 ||| b.2)
  | x, none => (x, a.2 ||| b.2)
  | some x, some y => let r := comb x y; (some r.1, a.2 ||| b.2 ||| r.2)

/-- One level of the tree. -/
def rlevel (comb : Nat → Nat → Nat × Nat) : List RNode → List RNode
  | a :: b :: l => rpair comb a b :: rlevel comb l
  | l => l

/-- A block of 32 elements. -/
def rblock (comb : Nat → Nat → Nat × Nat) (l : List RNode) : RNode :=
  (rlevel comb (rlevel comb (rlevel comb (rlevel comb (rlevel comb l))))).headD (none, 0)

/-- The reduction: blocks in ascending order. -/
def reduce (comb : Nat → Nat → Nat × Nat) (elem : Nat → Option Nat) (vl init : Nat) : Nat × Nat :=
  (List.range (ceilDiv vl 32)).foldl (fun (acc : Nat × Nat) b =>
    let n := rblock comb ((List.range 32).map fun i =>
      let e := 32 * b + i
      (if e < vl then elem e else none, 0))
    match n.1 with
    | some x => let r := comb acc.1 x; (r.1, acc.2 ||| n.2 ||| r.2)
    | none => (acc.1, acc.2 ||| n.2)) (init, 0)

/-- A reduction: `fi` and `fx` combine plain integers and exact values. -/
def reduceEff (s : State) (vd va vb : VSpec) (m : VMask) (f : Bool) (fi : VT → Nat → Nat → Int)
    (fx : Nat → Exact → Exact → Exact × Nat) : Eff :=
  let t := s.vt
  let srcs := [t.read va, t.read vb]
  vectorEff s 5 srcs (some (vd, t.grp)) (t.skind ≠ 0 || (t.isF && !f) || s.overlapBad s.flagRule vd srcs) m fun s =>
    let ra := s.rawAt va
    let mb := s.maskBits m
    let comb := fun x y =>
      match t.fmt with
      | some g => let r := fx s.rm (g.decode x) (g.decode y); let w := g.round s.rm t.sat r.1; (w.1, r.2 ||| w.2)
      | none => (t.narrow (fi t x y), 0)
    let r := reduce comb (fun e => if nbit mb e then some (ra e) else none) s.cur.vec.vl.toNat (s.rawAt vb 0)
    let s := s.orFlags r.2
    if s.flagTraps r.2 then .trap (s.setEst 0) 13 (w64 r.2)
    else
      let old := s.destBits vd t.grp
      let acc := nset (if t.tail then 0 else old) 0 t.ew (t.clean r.1)
      .done ((s.setGroup vd t.grp t.ewCode acc).setEst 0)

def effVsum (vd va vb : VSpec) (m : VMask) (s : State) : Eff := reduceEff s vd va vb m true (fun t x y => t.int x + t.int y) (fun rm x y => x.add rm y)
def execVsum (vd va vb : VSpec) (m : VMask) (s : State) := commit (.vsum vd va vb m) 8 (effVsum vd va vb m s)
def effVmaxv (vd va vb : VSpec) (m : VMask) (s : State) : Eff := reduceEff s vd va vb m true (fun t x y => max (t.int x) (t.int y)) (fun _ x y => Exact.minMax true x y)
def execVmaxv (vd va vb : VSpec) (m : VMask) (s : State) := commit (.vmaxv vd va vb m) 8 (effVmaxv vd va vb m s)
def effVminv (vd va vb : VSpec) (m : VMask) (s : State) : Eff := reduceEff s vd va vb m true (fun t x y => min (t.int x) (t.int y)) (fun _ x y => Exact.minMax false x y)
def execVminv (vd va vb : VSpec) (m : VMask) (s : State) := commit (.vminv vd va vb m) 8 (effVminv vd va vb m s)
def effVandv (vd va vb : VSpec) (m : VMask) (s : State) : Eff := reduceEff s vd va vb m false (fun t x y => t.int (x &&& y)) (fun _ x _ => (x, 0))
def execVandv (vd va vb : VSpec) (m : VMask) (s : State) := commit (.vandv vd va vb m) 8 (effVandv vd va vb m s)
def effVorv (vd va vb : VSpec) (m : VMask) (s : State) : Eff := reduceEff s vd va vb m false (fun t x y => t.int (x ||| y)) (fun _ x _ => (x, 0))
def execVorv (vd va vb : VSpec) (m : VMask) (s : State) := commit (.vorv vd va vb m) 8 (effVorv vd va vb m s)
def effVxorv (vd va vb : VSpec) (m : VMask) (s : State) : Eff := reduceEff s vd va vb m false (fun t x y => t.int (x ^^^ y)) (fun _ x _ => (x, 0))
def execVxorv (vd va vb : VSpec) (m : VMask) (s : State) := commit (.vxorv vd va vb m) 8 (effVxorv vd va vb m s)

/-! ## Masks (R168-R171) -/

/-- A bitwise mask operation, element-wise (R168). -/
def kbitEff (s : State) (md ma mb : BitVec 3) (f : Bool → Bool → Bool) : Eff :=
  vectorEff s 5 [] none s.moveBad none fun s =>
    let a := s.mask ma; let b := s.mask mb
    s.maskwise md none (pureOp fun e => .val (boolNat (f (nbit a e) (nbit b e))) 0)

def effKand (md ma mb : BitVec 3) (s : State) : Eff := kbitEff s md ma mb fun x y => x && y
def execKand (md ma mb : BitVec 3) (s : State) := commit (.kand md ma mb) 8 (effKand md ma mb s)
def effKor (md ma mb : BitVec 3) (s : State) : Eff := kbitEff s md ma mb fun x y => x || y
def execKor (md ma mb : BitVec 3) (s : State) := commit (.kor md ma mb) 8 (effKor md ma mb s)
def effKxor (md ma mb : BitVec 3) (s : State) : Eff := kbitEff s md ma mb fun x y => x != y
def execKxor (md ma mb : BitVec 3) (s : State) := commit (.kxor md ma mb) 8 (effKxor md ma mb s)
def effKnot (md ma : BitVec 3) (s : State) : Eff := kbitEff s md ma ma fun x _ => !x
def execKnot (md ma : BitVec 3) (s : State) := commit (.knot md ma) 8 (effKnot md ma s)

/-- The active set bits of a mask below `vl`. -/
def State.activeBits (s : State) (ma : BitVec 3) (m : VMask) : Nat := s.mask ma &&& s.maskBits m % 2 ^ s.cur.vec.vl.toNat

/-- `kpop` and `kfirst` (R169). -/
def effKpop (d : Reg) (ma : BitVec 3) (m : VMask) (s : State) : Eff :=
  vectorEff s 5 [] none s.moveBad m fun s =>
    .done (s.setG d (w64 (popN s.cur.vec.vl.toNat (s.activeBits ma m))))
def effKfirst (d : Reg) (ma : BitVec 3) (m : VMask) (s : State) : Eff :=
  vectorEff s 5 [] none s.moveBad m fun s =>
    let vl := s.cur.vec.vl.toNat
    let f := ctzN vl (s.activeBits ma m)
    .done (s.setG d (if f < vl then w64 f else BitVec.allOnes 64))
def execKpop (d : Reg) (ma : BitVec 3) (m : VMask) (s : State) := commit (.kpop d ma m) 8 (effKpop d ma m s)
def execKfirst (d : Reg) (ma : BitVec 3) (m : VMask) (s : State) := commit (.kfirst d ma m) 8 (effKfirst d ma m s)

/-- A leading run of n bits (R170): inactive bits follow `mpol`. -/
def leadEff (s : State) (md ma : BitVec 3) (m : VMask) (more : Nat) : Eff :=
  vectorEff s 5 [] none s.moveBad m fun s =>
    let vl := s.cur.vec.vl.toNat
    let act := s.maskBits m % 2 ^ vl
    let f := min vl (ctzN vl (s.activeBits ma m) + more)
    let old := s.mask md
    let bits := (act &&& (2 ^ f - 1)) + (if s.vt.mpol then 0 else old % 2 ^ vl &&& (2 ^ vl - 1 - act))
    .done ((s.setMask md (s.maskTail old bits)).setEst 0)
def effKsbf (md ma : BitVec 3) (m : VMask) (s : State) : Eff := leadEff s md ma m 0
def effKsif (md ma : BitVec 3) (m : VMask) (s : State) : Eff := leadEff s md ma m 1
def execKsbf (md ma : BitVec 3) (m : VMask) (s : State) := commit (.ksbf md ma m) 8 (effKsbf md ma m s)
def execKsif (md ma : BitVec 3) (m : VMask) (s : State) := commit (.ksif md ma m) 8 (effKsif md ma m s)

/-- `kset` and `kget`, which ignore `vl` (R171). DEDUCED (log 39): each occupies its pipe for one element group. -/
def effKset (mk : BitVec 3) (a : Reg) (n : BitVec 10) (s : State) : Eff :=
  vectorOver (fun _ => 1) s 5 [] none false none fun s =>
    .done (s.setMask mk (nset (s.mask mk) (64 * n.toNat) 64 (s.g a).toNat))
def effKget (d : Reg) (ma : BitVec 3) (n : BitVec 10) (s : State) : Eff :=
  vectorOver (fun _ => 1) s 5 [] none false none fun s =>
    .done (s.setG d (w64 (nbits (s.mask ma) (64 * n.toNat) 64)))
def execKset (mk : BitVec 3) (a : Reg) (n : BitVec 10) (s : State) := commit (.kset mk a n) 8 (effKset mk a n s)
def execKget (d : Reg) (ma : BitVec 3) (n : BitVec 10) (s : State) := commit (.kget d ma n) 8 (effKget d ma n s)

end Sys2Proof.Machine
end

