-- ==== Sys2Proof/Machine/Depend.lean ====
section
/-!
DEFINITION. What an instruction reads and writes: as a convoy's checks ask (R57), and as the loads of its hart that perform
late ask (R381, R383; log 4).
-/
namespace Sys2Proof.Machine

/-! ## What a convoy member reads and writes (R57) -/

/-- What the checks of R57 ask of a member: whether it is whole, the registers and masks it reads and writes. Registers
count from 0 to 63 as specifiers do, masks from 64. -/
structure MemberInfo where
  whole : Bool
  reads : List Nat
  writes : List Nat
  deriving DecidableEq, Repr

def grpRegs (r : VSpec) (n : Nat) : List Nat := (List.range n).map (r.toNat + ·)
def srcRegs (t : VT) (b : VSrc) : List Nat := match b with | .vv r => grpRegs r t.grp | _ => []
def maskReg (m : VMask) : List Nat := match m with | some k => [64 + k.toNat] | none => []

/-- A vector destination, with the result file it shifts (R141). DESIGN CHOICE (log 47): the chain test of R57 names
`l0`; `l1`, which the same shift writes, counts too. -/
def destRegs (t : VT) (d : VSpec) : List Nat := grpRegs d t.grp ++ (if t.grp = 1 then [40, 41] else [])

/-- An element-wise member. -/
def plainInfo (t : VT) (d : VSpec) (rs : List Nat) (m : VMask) : MemberInfo := ⟨false, rs ++ maskReg m, destRegs t d⟩

/-- A whole member: the checks ask for nothing more. -/
def wholeInfo : MemberInfo := ⟨true, [], []⟩

/-- A store. -/
def storeInfo (rs : List Nat) (m : VMask) : MemberInfo := ⟨false, rs ++ maskReg m, []⟩

/-- A mask operation. -/
def kInfo (d a b : BitVec 3) : MemberInfo := ⟨false, [64 + a.toNat, 64 + b.toNat], [64 + d.toNat]⟩

/-- The information of an instruction that may stand in a convoy. -/
def memberInfo (t : VT) : Instr → Option MemberInfo
  | .vadd d a b m | .vsub d a b m | .vrsb d a b m | .vmin d a b m | .vmax d a b m | .vand d a b m | .vor d a b m
  | .vxor d a b m | .vandn d a b m | .vshl d a b m | .vshr d a b m | .vsar d a b m | .vscl d a b m
  | .vmul d a b m | .vmulh d a b m | .vdiv d a b m | .vmod d a b m =>
    some (plainInfo t d (grpRegs a t.grp ++ srcRegs t b) m)
  | .vfma d a b m | .vfms d a b m | .vfnma d a b m =>
    some (plainInfo t d (grpRegs a t.grp ++ srcRegs t b ++ grpRegs d t.grp) m)
  | .vabs d a m | .vneg d a m | .vmv d a m | .vsqrt d a m | .vexp2 d a m | .vlog2 d a m | .vrcp d a m | .vrsq d a m
  | .vsinpi d a m | .vcospi d a m | .vtanh d a m | .vsigm d a m | .vgelu d a m | .vsilu d a m =>
    some (plainInfo t d (grpRegs a t.grp) m)
  | .vclamp d a b c m =>
    some (plainInfo t d (grpRegs a t.grp ++ srcRegs t b ++ (match b with | .vv _ => grpRegs c t.grp | _ => [])) m)
  | .vcvt d a st m => some (plainInfo t d (grpRegs a (srcGroup t (srcType t st))) m)
  | .vcmp d a b _ m => some ⟨false, grpRegs a t.grp ++ srcRegs t b ++ maskReg m, [64 + d.toNat]⟩
  | .vsel d a b k => some (plainInfo t d (grpRegs a t.grp ++ grpRegs b t.grp) (some k))
  | .vdup d _ m | .vid d m => some (plainInfo t d [] m)
  | .vld d _ _ m | .vlds d _ _ _ m => some (plainInfo t d [] m)
  | .vldx d _ b iw _ m => some (plainInfo t d (grpRegs b (idxGroup t iw)) m)
  | .vldxC d b m => some (plainInfo t d (grpRegs b (idxGroup t false)) m)
  | .vst r _ _ m | .vsts r _ _ _ m => some (storeInfo (grpRegs r t.grp) m)
  | .vstx r _ b iw _ m | .vsadd r _ b iw _ m => some (storeInfo (grpRegs r t.grp ++ grpRegs b (idxGroup t iw)) m)
  | .vstxC r b m => some (storeInfo (grpRegs r t.grp ++ grpRegs b (idxGroup t false)) m)
  | .kand d a b | .kor d a b | .kxor d a b => some (kInfo d a b)
  | .knot d a => some (kInfo d a a)
  | .vslup .. | .vsldn .. | .vperm .. | .vcomp .. | .vexpand .. | .viota .. | .vsum .. | .vmaxv .. | .vminv .. | .vandv ..
  | .vorv .. | .vxorv .. | .kpop .. | .kfirst .. | .ksbf .. | .ksif .. | .kset .. | .kget ..
  | .zld .. | .zst .. | .zadd .. | .zsub .. | .zmul .. | .zmin .. | .zmax .. | .zdec .. | .zdecF .. | .zenc .. | .zencF ..
  | .zscan .. | .zcnt .. | .zsplice .. => some wholeInfo
  | _ => none

/-! ## What late loads ask (R381, R383; log 4) -/

/-- The register of a second source. -/
def srcG (b : VSrc) : List Reg := match b with | .vs r => [r] | _ => []

/-- The `g` registers an instruction reads and those it writes; none of one that comes after every earlier access of its
hart, by a row of R381, or moves all of the hart's registers. -/
def gUses : Instr → Option (List Reg × List Reg)
  | .add d a b | .sub d a b | .and d a b | .or d a b | .xor d a b | .andn d a b | .orn d a b | .shl d a b | .shr d a b
  | .sar d a b | .rotl d a b | .clt d a b | .cltu d a b | .ceq d a b | .mul d a b | .mulh d a b | .mulhu d a b
  | .div d a b | .divu d a b | .mod d a b | .modu d a b | .min d a b | .max d a b | .minu d a b | .maxu d a b => some ([a, b], [d])
  | .clz d a | .ctz d a | .pop d a | .sext8 d a | .sext16 d a | .sext32 d a | .zext32 d a => some ([a], [d])
  | .andi d a _ | .ori d a _ | .xori d a _ | .clti d a _ => some ([a], [d])
  | .shli d a _ | .shri d a _ | .sari d a _ => some ([a], [d])
  | .addi d a _ | .jr d a _ => some ([a], [d])
  | .lih d _ | .pcrel d _ | .jal d _ => some ([], [d])
  | .ldb d a _ | .ldbu d a _ | .ldh d a _ | .ldhu d a _ | .ldw d a _ | .ldwu d a _ | .ldd d a _ => some ([a], [d])
  | .stb r a _ | .sth r a _ | .stw r a _ | .std r a _ => some ([r, a], [])
  | .beq a b _ | .bne a b _ | .blt a b _ | .bge a b _ | .bltu a b _ | .bgeu a b _ => some ([a, b], [])
  | .fadd _ d a b | .fsub _ d a b | .fmul _ d a b | .fdiv _ d a b | .fmin _ d a b | .fmax _ d a b | .fceq _ d a b
  | .fclt _ d a b | .fcle _ d a b => some ([a, b], [d])
  | .fma _ d a b => some ([d, a, b], [d])
  | .fsqrt _ d a | .fcvtSize _ d a | .fclass _ d a => some ([a], [d])
  | .fcvtToFixed _ d a _ | .fcvtFromSigned _ d a _ | .fcvtFromUnsigned _ d a _ => some ([a], [d])
  | .amoSwap _ o d a b | .amoAdd _ o d a b | .amoAnd _ o d a b | .amoOr _ o d a b | .amoXor _ o d a b | .amoMin _ o d a b
  | .amoMax _ o d a b | .amoMinu _ o d a b | .amoMaxu _ o d a b | .amoCas _ o d a b =>
    if o = 0 then some ([d, a, b], [d]) else none
  | .amoAddq o d a b => if o = 0 then some ([a, b, b + 1], [d, d + 1]) else none
  | .sget d n => if n = 0x070 then none else some ([], [d])
  | .sset n a => if n = 0x070 then none else some ([a], [])
  | .sswap d n a => if n = 0x070 then none else some ([a], [d])
  | .trap _ | .brkpt _ | .tret | .idle | .hint | .cvh .. | .vdecl1 | .vdecl2 | .vdecl4 => some ([], [])
  | .trapRerun d a | .trapDispose d a => some ([a], [d])
  | .ccan d _ => some ([], [d])
  | .vadd _ _ b _ | .vsub _ _ b _ | .vrsb _ _ b _ | .vmin _ _ b _ | .vmax _ _ b _ | .vand _ _ b _ | .vor _ _ b _
  | .vxor _ _ b _ | .vandn _ _ b _ | .vshl _ _ b _ | .vshr _ _ b _ | .vsar _ _ b _ | .vscl _ _ b _ | .vmul _ _ b _
  | .vmulh _ _ b _ | .vfma _ _ b _ | .vfms _ _ b _ | .vfnma _ _ b _ | .vdiv _ _ b _ | .vmod _ _ b _ | .vslup _ _ b _
  | .vsldn _ _ b _ => some (srcG b, [])
  | .vcmp _ _ b _ _ | .vdup _ b _ | .zadd _ _ b | .zsub _ _ b | .zmul _ _ b | .zmin _ _ b | .zmax _ _ b => some (srcG b, [])
  | .vclamp _ _ b c _ => some (srcG b ++ (match b with | .vv _ => [] | _ => [c.setWidth 5]), [])
  | .vcvtSb _ _ _ g _ => some ([g], [])
  | .vld _ a _ _ | .vldff _ a _ _ | .vldreg _ a _ | .vst _ a _ _ | .vstreg _ a _ | .hzld _ _ a _ _ => some ([a], [])
  | .vlds _ a b _ _ | .vsts _ a b _ _ | .pref _ a b _ => some ([a, b], [])
  | .vldx _ a _ _ _ _ | .vstx _ a _ _ _ _ | .vsadd _ a _ _ _ _ => some ([a], [])
  | .vlsc _ _ a b c | .vssc _ _ a b c | .zld _ a b c | .zst _ a b c => some ([a, b, c], [])
  | .kpop d _ _ | .kfirst d _ _ | .kget d _ _ | .zcnt d _ | .bbget d _ | .sgsig d _ _ => some ([], [d])
  | .kset _ a _ | .mxsave a | .mxrest a => some ([a], [])
  | .zsplice _ _ _ c => some ([c], [])
  | .mxattach d a | .vset d a | .vsetb d a | .vcfg d a | .hzage d a _ => some ([a], [d])
  | .mxload _ a b c | .bbset _ _ _ a b c => some ([a, b, c], [])
  | .mxmul _ _ _ _ _ b | .mxgrp _ _ _ _ b => some ([b], [])
  | .mxdrain _ _ _ a b c _ => some ([a, b, c], [])
  | .mxdrainX _ _ _ a _ c _ => some ([a, c], [])
  | .sgproj _ _ _ a b | .hzdrop a b => some ([a, b], [])
  | .hzrenew d a b => some ([a, b], [d])
  | .cAdd .. | .cSub .. | .cMul .. | .cFma .. | .cMin .. | .cMax .. | .cAnd .. | .cXor .. | .cExp2 .. | .cMv ..
  | .vabs .. | .vneg .. | .vcvt .. | .vsel .. | .vmv .. | .vid .. | .vsqrt .. | .vexp2 .. | .vlog2 .. | .vrcp .. | .vrsq ..
  | .vsinpi .. | .vcospi .. | .vtanh .. | .vsigm .. | .vgelu .. | .vsilu .. | .vldxC .. | .vstxC .. | .vperm .. | .vcomp ..
  | .vexpand .. | .viota .. | .vsum .. | .vmaxv .. | .vminv .. | .vandv .. | .vorv .. | .vxorv .. | .kand .. | .kor ..
  | .kxor .. | .knot .. | .ksbf .. | .ksif .. | .zdec .. | .zdecF .. | .zenc .. | .zencF .. | .zscan .. | .mxdetach _
  | .mxfmt .. | .mxzero _ | .mxwait _ | .bbisect .. | .bbmerge .. | .bbwalk ..
  | .sgclr0 | .sgclr1 | .sgclr2 | .sgclr3 | .sgclr4 | .sgclr5 | .sgclr6 | .sgclr7 => some ([], [])
  | _ => none

/-- One register as a destination, with the result file it shifts. -/
def oneDest (t : VT) (d : VSpec) : List Nat := d.toNat :: (if t.grp = 1 then [40, 41] else [])

/-- A compact form: it reads `l0` and its source, and with the mask `m0` (R55). -/
def compactUses (t : VT) (d b : BitVec 4) (m : Bool) (old : Bool) : List Nat × List Nat :=
  ([40, b.toNat] ++ (if m then [64] else []) ++ (if old then [d.toNat] else []), oneDest t (d.setWidth 6))

/-- The vector registers and, from 64, the masks that an instruction reads, and those it writes. -/
def State.vUses (s : State) (i : Instr) : List Nat × List Nat :=
  let t := s.vt
  match (memberInfo t i).filter (!·.whole) with
  | some m => (m.reads, m.writes)
  | none =>
    match i with
    | .cAdd d b m | .cSub d b m | .cMul d b m | .cMin d b m | .cMax d b m | .cAnd d b m | .cXor d b m
    | .cExp2 d b m | .cMv d b m => compactUses t d b m false
    | .cFma d b m => compactUses t d b m true
    | .vcvtSb d a st _ m => (grpRegs a (srcGroup t (srcType t st)) ++ maskReg m, destRegs t d)
    | .vldff d _ _ m => (maskReg m, destRegs t d)
    | .vldreg d _ _ => ([], [d.toNat])
    | .vstreg r _ _ => ([r.toNat], [])
    | .vslup d a b m | .vsldn d a b m => (grpRegs a t.grp ++ srcRegs t b ++ maskReg m, destRegs t d)
    | .vperm d a b m | .vsum d a b m | .vmaxv d a b m | .vminv d a b m | .vandv d a b m | .vorv d a b m | .vxorv d a b m =>
      (grpRegs a t.grp ++ grpRegs b t.grp ++ maskReg m, destRegs t d)
    | .vcomp d a k | .vexpand d a k => (grpRegs a t.grp ++ [64 + k.toNat], destRegs t d)
    | .viota d k m => ([64 + k.toNat] ++ maskReg m, destRegs t d)
    | .kpop _ a m | .kfirst _ a m => ([64 + a.toNat] ++ maskReg m, [])
    | .ksbf d a m | .ksif d a m => ([64 + a.toNat] ++ maskReg m, [64 + d.toNat])
    | .kset k _ _ => ([], [64 + k.toNat])
    | .kget _ k _ => ([64 + k.toNat], [])
    | .zld d _ _ _ => ([], oneDest t d)
    | .zst r _ _ _ => ([r.toNat], [])
    | .zadd d a b | .zsub d a b | .zmul d a b | .zmin d a b | .zmax d a b =>
      (a.toNat :: (match b with | .vv r => [r.toNat] | _ => []), oneDest t d)
    | .zdec d a | .zdecF d a | .zenc d a | .zencF d a | .zscan d a => ([a.toNat], oneDest t d)
    | .zcnt _ a | .sgsig _ _ a => ([a.toNat], [])
    | .zsplice d a b _ => ([a.toNat, b.toNat], oneDest t d)
    | .mxmul _ _ _ _ a b => (grpRegs a (s.aRegs (mxFmt s.afmt) (s.g b).toNat), [])
    | .mxgrp _ _ _ a b => (grpRegs a (s.aRegs (mxFmt s.afmt) ((List.range 4).map (groupSize (s.g b).toNat)).sum), [])
    | .mxdrain _ _ _ _ _ _ m => (maskReg m, [])
    | .mxdrainX _ _ _ _ b _ m => (grpRegs b (idxGroup t false) ++ maskReg m, [])
    | .bbisect d a b => ([], destRegs t d ++ destRegs t a ++ destRegs t b)
    | .bbmerge d a b j k => ([], destRegs t d ++ destRegs t a ++ destRegs t b ++ [64 + j.toNat, 64 + k.toNat])
    | .bbwalk d a => ([], destRegs t d ++ destRegs t a)
    | .hzld d k _ _ m => (maskReg m, destRegs t d ++ [64 + k.toNat])
    | _ => ([], [])

/-- The instruction may read or write entries of the scale file (R116, R156, R224). -/
def usesScale (t : VT) : Instr → Bool
  | .vlsc .. | .vssc .. | .vcvtSb .. => true
  | .mxmul .. | .mxgrp .. => true
  | i => t.skind ≠ 0 && !(gUses i = none)

/-- A pending declaration comes into force with the instruction, and the vector registers read zero (R131). -/
def State.declares (s : State) : Instr → Bool
  | .vset .. | .vsetb .. | .vcfg .. => s.cur.vec.pend ≠ s.cur.vec.cur
  | _ => false

/-- The `g` and the vector and mask registers whose late loads have still to perform, `l0` or `l1` where the result file
took one. -/
def Hart.lateG (x : Hart) : List Nat :=
  x.stores.filterMap fun q => match q.ld with | some { dst := .g r _, .. } => if r = 0 then none else some r | _ => none
def Hart.lateV (x : Hart) : List Nat :=
  x.stores.flatMap fun q => match q.ld with
    | some { dst := .v r _ _ k, hz := z, .. } =>
      (if k = 0 then [r] else [r, 39 + k]) ++ (match z with | some (m, _) => [64 + m] | none => [])
    | _ => []

/-- A late load is to bring an entry of the scale file. -/
def Hart.lateScale (x : Hart) : Bool := x.stores.any fun q => match q.ld with | some { dst := .scale _, .. } => true | _ => false

/-- The next instruction depends on no late load of its hart: nothing orders it after them, and it names none of their
registers, but that its destination may enter the result file behind them. -/
def State.lateFree (s : State) (i : Instr) : Bool :=
  let x := s.cur
  match gUses i with
  | none => false
  | some (r, w) =>
    let (vr, vw) := s.vUses i
    (r ++ w).all (fun k => !x.lateG.contains k.toNat) &&
      (vr ++ vw.filter fun k => k ≠ 40 && k ≠ 41).all (fun k => !x.lateV.contains k) &&
      !(x.lateScale && usesScale s.vt i) && !s.declares i

/-- The state with the late loads performed that an instruction could depend on. -/
def State.joinFor (s : State) (i : Instr) : State := if s.cur.hasLate && !s.lateFree i then s.joinLate s.turn else s

end Sys2Proof.Machine
end

