-- ==== Sys2Proof/Machine/Convoy.lean ====
section
/-!
DEFINITION. Convoys (R56-R60): the header checks, the members' effects and the carrying of chained members to the
element at which one stops.
DEDUCED (readings): logs 19, 21.
-/
namespace Sys2Proof.Machine

/-! ## Members -/

/-- The effect of a member, by the effect its own instruction has; others trap as illegal instructions. -/
def memberEff (i : Instr) (s : State) : Eff :=
  match i with
  | .vadd d a b m => effVadd d a b m s | .vsub d a b m => effVsub d a b m s | .vrsb d a b m => effVrsb d a b m s
  | .vmin d a b m => effVmin d a b m s | .vmax d a b m => effVmax d a b m s | .vand d a b m => effVand d a b m s
  | .vor d a b m => effVor d a b m s | .vxor d a b m => effVxor d a b m s | .vandn d a b m => effVandn d a b m s
  | .vshl d a b m => effVshl d a b m s | .vshr d a b m => effVshr d a b m s | .vsar d a b m => effVsar d a b m s
  | .vabs d a m => effVabs d a m s | .vneg d a m => effVneg d a m s
  | .vclamp d a b c m => effVclamp d a b c m s
  | .vcvt d a st m => effVcvt d a st m s | .vscl d a b m => effVscl d a b m s
  | .vcmp d a b c m => effVcmp d a b c m s
  | .vsel d a b k => effVsel d a b k s | .vmv d a m => effVmv d a m s | .vdup d b m => effVdup d b m s
  | .vid d m => effVid d m s
  | .vmul d a b m => effVmul d a b m s | .vmulh d a b m => effVmulh d a b m s | .vfma d a b m => effVfma d a b m s
  | .vfms d a b m => effVfms d a b m s | .vfnma d a b m => effVfnma d a b m s
  | .vdiv d a b m => effVdiv d a b m s | .vmod d a b m => effVmod d a b m s | .vsqrt d a m => effVsqrt d a m s
  | .vexp2 d a m => effVexp2 d a m s | .vlog2 d a m => effVlog2 d a m s | .vrcp d a m => effVrcp d a m s
  | .vrsq d a m => effVrsq d a m s | .vsinpi d a m => effVsinpi d a m s | .vcospi d a m => effVcospi d a m s
  | .vtanh d a m => effVtanh d a m s | .vsigm d a m => effVsigm d a m s | .vgelu d a m => effVgelu d a m s
  | .vsilu d a m => effVsilu d a m s
  | .vld d a i m => effVld d a i m s | .vlds d a b i m => effVlds d a b i m s
  | .vldx d a b iw sc m => effVldx d a b iw sc m s | .vldxC d b m => effVldxC d b m s
  | .vst r a i m => effVst r a i m s | .vsts r a b i m => effVsts r a b i m s
  | .vstx r a b iw sc m => effVstx r a b iw sc m s | .vstxC r b m => effVstxC r b m s
  | .vsadd r a b iw sc m => effVsadd r a b iw sc m s
  | .vslup d a b m => effVslup d a b m s | .vsldn d a b m => effVsldn d a b m s | .vperm d a b m => effVperm d a b m s
  | .vcomp d a k => effVcomp d a k s | .vexpand d a k => effVexpand d a k s | .viota d k m => effViota d k m s
  | .vsum d a b m => effVsum d a b m s | .vmaxv d a b m => effVmaxv d a b m s | .vminv d a b m => effVminv d a b m s
  | .vandv d a b m => effVandv d a b m s | .vorv d a b m => effVorv d a b m s | .vxorv d a b m => effVxorv d a b m s
  | .kand d a b => effKand d a b s | .kor d a b => effKor d a b s | .kxor d a b => effKxor d a b s
  | .knot d a => effKnot d a s | .kpop d a m => effKpop d a m s | .kfirst d a m => effKfirst d a m s
  | .ksbf d a m => effKsbf d a m s | .ksif d a m => effKsif d a m s | .kset k a n => effKset k a n s
  | .kget d a n => effKget d a n s
  | .zld d a b c => effZld d a b c s | .zst r a b c => effZst r a b c s
  | .zadd d a b => effZadd d a b s | .zsub d a b => effZsub d a b s | .zmul d a b => effZmul d a b s
  | .zmin d a b => effZmin d a b s | .zmax d a b => effZmax d a b s
  | .zdec d a => effZdec d a s | .zdecF d a => effZdecF d a s | .zenc d a => effZenc d a s | .zencF d a => effZencF d a s
  | .zscan d a => effZscan d a s | .zcnt d a => effZcnt d a s | .zsplice d a b c => effZsplice d a b c s
  | _ => .trap s 1 0

/-! ## The header (R56, R57) -/

/-- A member of a checked convoy. -/
structure Member where
  num : Nat
  instr : Instr
  chained : Bool
  whole : Bool
  /-- the destination whose value shifts into `l0` (R141) -/
  shifts : Option VSpec
  deriving DecidableEq, Repr

/-- One member's checks: its number, word, the header's unit code, its chain bit, whether it is last, and the registers
its predecessor writes. -/
def checkMember (t : VT) (num : Nat) (w : Nat) (code : Option Nat) (chained last : Bool) (prev : List Nat) :
    Option (Member × List Nat) :=
  let f := WWord.ofBits (BitVec.ofNat 64 w)
  let unit := f.unit.toNat
  if nbits w 14 2 ≠ 2 || 6 < unit || (match code with | some c => unit ≠ c | none => false) then none
  else
    match decode (.p64 (BitVec.ofNat 64 w)) with
    | none => none
    | some i =>
      match memberInfo t i with
      | none => none
      | some x =>
        if (x.whole && (!last || chained)) || (chained && !(x.reads.any prev.contains)) then none
        else some (⟨num, i, chained, x.whole, if x.writes.contains 40 then (x.writes.head?).map (BitVec.ofNat 6) else none⟩, x.writes)

/-- The members from a number on, or the number of the first that fails. DESIGN CHOICE (log 47): where several checks
fail, `xval` names the header (`cvhEff` tests it first), else the lowest-numbered member. -/
def checkMembers (t : VT) (n chain : Nat) (codes : List Nat) (prev : List Nat) : Nat → List Nat → Except Nat (List Member)
  | _, [] => .ok []
  | num, w :: ws =>
    let code := if num = 1 then none else some (codes.getD (num - 2) 0)
    match checkMember t num w code (num ≠ 1 && nbit chain (num - 2)) (num = n) prev with
    | none => .error num
    | some (m, wr) =>
      match checkMembers t n chain codes wr (num + 1) ws with
      | .error k => .error k
      | .ok ms => .ok (m :: ms)

/-- The header's own checks: unit codes and chain bits beyond the member count are zero. -/
def headerOk (n chain : Nat) (codes : List Nat) : Bool :=
  chain / 2 ^ (n - 1) = 0 && (codes.drop (n - 1)).all (· = 0)

/-! ## Running members (R58, R59) -/

/-- Member m run from element k, to stop at `lim`; late loads that it could depend on have performed. -/
def State.runMember (s : State) (m : Member) (k : Nat) (lim : Option Nat) : Eff :=
  let s := ((s.joinFor m.instr).setEcm m.num).setEst k
  memberEff m.instr (s.setCur { s.cur with lim := lim })

/-- What carrying the members after a stop to its element finds. -/
inductive Carry where
  | ok (s : State)
  | fail (k c : Nat) (v : Word)
  | wait (q : Option Nat)

/-- A member's destination as a chained member reads it in `l0`: its elements as far as they are complete (R58). -/
def State.showL (s : State) (m : Member) : State :=
  match m.shifts with | some d => s.shiftL d.toNat (s.destImage d) | none => s

/-- The result file as another state holds it: no shift of a member that has not completed stays (R141). -/
def State.keepL (s s0 : State) : State :=
  let v := s.cur.vec
  let w := s0.cur.vec
  let v := ((v.setReg 40 (w.reg 40)).setTag 40 (w.tag 40)).setReg 41 (w.reg 41)
  s.setCur { s.cur with vec := v.setTag 41 (w.tag 41) }

/-- The chained members after a stop of `p` at element k carried to k; `k0` is where they start. DESIGN CHOICE (log 47): a
trap that one of them meets at issue ranks as a failure at its element k0. -/
def carry (s : State) (k k0 : Nat) (p : Member) : List Member → Carry
  | [] => .ok s
  | m :: ms =>
    if !m.chained || m.whole || s.cur.vec.vl.toNat ≤ k then .ok s
    else
      match (s.showL p).runMember m k0 (some k) with
      | .part s => carry s k k0 m ms
      | .done s => carry s k k0 m ms
      | .trap s1 c v => if s1.est < k then .fail s1.est c v else carry s k k0 m ms
      | .wait _ q _ => .wait q
      | _ => .ok s

/-- A stop of member m at element k delivered: `s0` is the state before it ran, `s` after it ran to k, `why` the trap or
none for a pre-emption. Loads of the members that are late perform before it is delivered. A floating-point exception of a
later member leaves its element's flags too (R174). -/
def stopAt (s0 s : State) (m : Member) (k0 : Nat) (rest : List Member) : Nat → Nat → Option (Nat × Word) → Eff
  | 0, _, _ => .part s0
  | fuel + 1, k, why =>
    match carry (if s.cur.hasLate then s.joinLate s.turn else s) k k0 m rest with
    | .ok s =>
      let s := ((s.keepL s0).setEcm m.num).setEst k
      (match why with
        | some (c, v) => .trap (if c = 13 then s.orFlags v.toNat else s) c v
        | none => .part s)
    | .wait q => .wait ((s0.setEcm m.num).setEst k0) q 0
    | .fail k c v =>
      match s0.runMember m k0 (some k) with
      | .part s => stopAt s0 s m k0 rest fuel k (some (c, v))
      | .trap s _ _ => stopAt s0 s m k0 rest fuel k (some (c, v))
      | _ => .part s0

/-- Members in order; `run` tells that every chain bit since the resumed member was set, `k0` is its element, `lim` a
pre-emption's member and element. -/
def runMembers (s : State) (k0 : Nat) (run : Bool) (lim : Option (Nat × Nat)) (pc : Word) : List Member → Eff
  | [] => .jump ((s.setEcm 0).setEst 0) pc
  | m :: ms =>
    let k := if run then k0 else 0
    let l := match lim with | some (n, e) => if n = m.num then some e else none | none => none
    match s.runMember m k l with
    | .done u =>
      let chained := match ms with | n :: _ => n.chained | [] => true
      runMembers (if chained then u else u.flushPipes (some [])) k0 (run && chained) lim pc ms
    | .trap u c v => stopAt s u m k ms 8 u.est (some (c, v))
    | .part u => stopAt s u m k ms 8 u.est none
    | .wait u q x => .wait (u.setEst k) q x
    | e => e

/-- A failed header check leaves the hart before member 1 at element 0: `ecm` 0 and `est` 0 (R57, R59). -/
def State.freshStart (s : State) : State := (s.setEcm 0).setEst 0

/-- A trap of the header check: member `num` failed, 0 for the header itself. -/
def headerTrap (s : State) (word num : Nat) : Eff := .trap s.freshStart 1 (w64 (word % 2 ^ 32 + num * 2 ^ 32))

/-- `cvh`: the members follow the header in memory. -/
def cvhEff (s : State) (cnt : BitVec 3) (chain : BitVec 5) (codes : List Nat) (word : Nat) : Eff :=
  let n := cnt.toNat + 2
  let pc := s.cur.pc.toNat
  let fetch := fun (acc : State × Except (Nat × Nat) (List Nat)) (i : Nat) =>
    match acc with
    | (s, .error f) => (s, .error f)
    | (s, .ok ws) =>
      match s.fetchParcels (pc + 4 + 8 * i) 4 with
      | (s, .error f) => (s, .error f)
      | (s, .ok w) => (s, .ok (ws ++ [w]))
  match (List.range n).foldl fetch (s, .ok []) with
  | (s, .error (c, a)) => .trap s c (accessVal c a)
  | (s, .ok ws) =>
    if !headerOk n chain.toNat codes then headerTrap s word 0
    else
      match checkMembers s.vt n chain.toNat codes [] 1 ws with
      | .error num => headerTrap s word num
      | .ok ms =>
        let ecm := s.cur.tr.ecm.toNat
        if n < ecm then .trap s 1 (w64 word)
        else
          let i0 := if ecm = 0 then 1 else ecm
          let lim := s.cur.lim.map fun l => (if l / 2 ^ 32 = 0 then i0 else l / 2 ^ 32, l % 2 ^ 32)
          match runMembers (s.setCur { s.cur with pipes := some [] }) s.est true lim (w64 (pc + 4 + 8 * n)) (ms.drop (i0 - 1)) with
          | .jump s pc => .jump ((s.setCur { s.cur with lim := none }).flushPipes none) pc
          | .trap s c v => .trap (s.flushPipes none) c v
          | .part s => .part (s.flushPipes none)
          | .wait s q x => .wait (s.flushPipes none) q x
          | e => e

/-- The header word of a convoy. -/
def headerWord (cnt : BitVec 3) (chain : BitVec 5) (u2 u3 u4 u5 u6 : BitVec 3) : Nat :=
  match encode (.cvh cnt chain u2 u3 u4 u5 u6) with | some e => e.word.toNat | none => 0

def execCvh (cnt : BitVec 3) (chain : BitVec 5) (u2 u3 u4 u5 u6 : BitVec 3) (s : State) :=
  commit (.cvh cnt chain u2 u3 u4 u5 u6) 4
    (cvhEff s cnt chain [u2.toNat, u3.toNat, u4.toNat, u5.toNat, u6.toNat] (headerWord cnt chain u2 u3 u4 u5 u6))

end Sys2Proof.Machine
end

