-- ==== Sys2Proof/Machine/EvLaunch.lean ====
section
/-!
DEFINITION. Events of launch, placement, preloading and code objects (R24-R31, R61-R82, R200). An event reads what its agent
supplies from `arg`; one whose condition does not hold does nothing (log 1).
DEDUCED (readings): logs 22, 23, 24, 25. DESIGN CHOICE: log 7.
-/
namespace Sys2Proof.Machine

/-- What an event answers. -/
abbrev Answer := Host.Outcome State Fault Refusal

/-! ## Launch windows (R61-R63) -/

/-- `arg`: `unit` the die, `w0` the value written to `lwpush`. DESIGN CHOICE (log 47): a push before reduced service is
accepted and enqueued like any other; only the safe reporting state ignores it. -/
def State.launchWrite (s : State) : State :=
  if s.status.bstate = 15 then s else
  let die := s.arg.unit % 2
  let v := s.arg.w0
  let s := s.logInput 2 0 (0x10000 + 0x1000 * die) (natBytes 8 v.toNat)
  let (s, reason) := if v.toNat % 256 ≠ 0 then (s, 4) else s.enqueue die v.toNat
  let d := s.dieAt die
  if reason = 0 then s.setDie die { d with lwcount := d.lwcount + 1 }
  else s.setDie die { d with lwreject := d.lwreject + 1, lwlast := w64 (nset v.toNat 0 8 reason) }

def execLwpush (s : State) : Answer := .next s.launchWrite

/-! ## Instantiations (R25, R26) -/

/-- A saved context of a task would continue in a set of addresses, or holds one of them in `xpc`, as saved (R28,
log 25). One without an image cannot continue, and an orphan's refers to an object that is gone. -/
def Task.savedIn (t : Task) (inside : Nat → Bool) : Bool :=
  t.phase ≠ .orphaned &&
    t.saved.any fun (slot, v) => (tget (0, 0) t.image slot).2 ≠ 0 && (inside v.pc || inside v.xpc)

/-- An address lies in one instantiation. -/
def CodeObj.instCovers (o : CodeObj) (n : Inst) (a : Nat) : Bool :=
  (List.range (sectCount o.fxo)).any fun i =>
    sectKind o.fxo i = 1 && decide ((n.addrs.getD i (0, 0)).1 ≤ a) && decide (a < (n.addrs.getD i (0, 0)).1 + sectSize o.fxo i)

/-- An instantiation no live task is placed in, no hart executes in and no saved context lies in (R26). -/
def State.instFree (s : State) (idx i : Nat) (n : Inst) : Bool :=
  let o := s.codeAt idx
  !(s.tasks.any fun (_, t) => handleIndex t.eff.code = idx && handleGen t.eff.code = o.gen && t.inst = i &&
      t.phase.onCore) &&
  !(s.harts.any fun (_, x) => x.run.active && o.instCovers n x.pc.toNat) &&
  !(s.tasks.any fun (_, t) => t.savedIn (o.instCovers n))

def State.setCode (s : State) (idx : Nat) (o : CodeObj) : State := { s with codes := tset s.codes idx o }

/-- Code pages of an instantiation unmapped. -/
def State.unmapInst (s : State) (o : CodeObj) (n : Inst) : State :=
  (List.range (sectCount o.fxo)).foldl (fun (s : State) i =>
    if sectKind o.fxo i = 1 then s.unmapPages (n.addrs.getD i (0, 0)).1 (sectSize o.fxo i) else s) s

/-- The place a new instantiation takes: a new one, or that of the least recently placed free one (R26). -/
def State.instSlot (s : State) (idx : Nat) : Option Nat :=
  let o := s.codeAt idx
  if o.insts.length < 8 then some o.insts.length
  else
    (o.insts.zipIdx.foldl (fun (acc : Option (Nat × Nat)) (n, i) =>
      if !s.instFree idx i n then acc else
      match acc with
      | some (_, u) => if n.used < u then some (i, n.used) else acc
      | none => some (i, n.used)) none).map (·.1)

/-- The instantiation a placement runs in, created at `addrs` (or the shared addresses) where there is none; none while
the placement must wait (R25, R26). -/
def State.needInst (s : State) (idx vbits : Nat) (addrs : List (Nat × Nat)) : Option (State × Nat) :=
  let o := s.codeAt idx
  match o.insts.findIdx? fun n => n.vbits = vbits || !hasFrameReloc o.fxo with
  | some i => some (s, i)
  | none =>
    match s.instSlot idx with
    | none => none
    | some i =>
      let addrs := o.shared.getD addrs
      let s := match o.insts[i]? with | some n => s.unmapInst o n | none => s
      match (if o.shared.isSome || s.offKept o.fxo addrs true then s.instantiate o vbits addrs else none) with
      | none => none
      | some s =>
        let n : Inst := { vbits := vbits, addrs := addrs, used := 0 }
        some (s.setCode idx { o with insts := if i < o.insts.length then o.insts.set i n else o.insts ++ [n] }, i)

/-! ## Placement (R16, R66-R71, R77) -/

/-- A launch rejected after its enqueue: recorded, its entry, preload and live bit gone (R16). The segments of one already
placed hold no image of the core's preload any more (R76). -/
def State.reject (s : State) (rcb : Nat) (t : Task) (ch : List Nat) (reason : Nat) : State :=
  let s := s.recordReject ch reason
  let s := ((s.rcbStatus rcb 0 false).rcbStatus rcb 1 false).dropQueue t.die rcb
  let s := { s with tasks := terase s.tasks rcb }
  if t.phase = .preloaded then s.joinRerun t.core
  else if t.phase = .placed then s.recopy t.core t.segs else s

/-- Segments of a preload mask still to copy when a preload settles under values read anew (R15, R76). -/
def Task.stillToCopy (t : Task) (e : EffVals) : Nat :=
  if e.segimg ≠ t.eff.segimg then e.preSegs else (t.toCopy &&& e.preSegs) ||| (e.preSegs &&& (255 - t.eff.preSegs))

/-- A task put on core k under the effective values `e` (R69, R71). What its segments held before is not seen in them
again (R195), nor does an access that the cluster issued earlier perform in them later (R320). What the runtime supplies in
`a` has put all loaded code and data into the page tables of the task's region (R25); until it has, the task waits. -/
def State.settle (s : State) (rcb : Nat) (t : Task) (e : EffVals) (k : Nat) (a : EventArg) : Option State :=
  let idx := handleIndex e.code
  match s.needInst idx e.vbits a.addrs, s.giveGroups k e.lgreq rcb, s.hazeRun (k / 4) rcb (s.tilesOf e) with
  | some (s, i), some c, some hz =>
    let s := s.quiet (k / 4)
    let o := s.codeAt idx
    let s := s.setCode idx { o with insts := o.insts.zipIdx.map fun (n, j) => if j = i then { n with used := s.tick } else n }
    let s := ((s.setCluster (k / 4) { s.clusterAt (k / 4) with own := c.own, asg := c.asg }).dropQueue t.die rcb).rcbStatus rcb 0 true
    let s := s.rcbStatus rcb 1 false
    let pre := decide (t.phase = .preloaded)
    let t : Task :=
      { t with eff := e, phase := .placed, core := k, segs := e.segs,
               hzBase := (if pre && t.hzTiles = s.tilesOf e then t.hzBase else hz), hzTiles := s.tilesOf e,
               toCopy := (if pre then t.stillToCopy e else e.preSegs), inst := i, placedAt := s.tick, blocks := false }
    let s := (s.clearSegs k (e.segs &&& (255 - (e.preSegs &&& (255 - t.toCopy))))).setTask rcb t
    let s := s.writeTables a.tables
    if !s.codeMapped then none else some (if t.toCopy = 0 then s.startTask rcb t else s)
  | _, _, _ => none

/-- A waiting handler task claims the core, and its preload waits for it (R77). -/
def State.claimed (s : State) (k : Nat) : Bool :=
  s.tasks.any fun (r, u) => u.phase = .queued && s.claims k r u.eff.prio

/-- What an attempt to place a task finds: it is placed or rejected; a core is eligible but the placement waits, for an
instantiation or for its turn in a replay; or no core is eligible. -/
inductive Placing where
  | placed (s : State)
  | waits
  | noCore

/-- A task placed if a core takes it, or rejected by the second validation. It waits where its instantiation must (R26),
and in a replay for its first instruction's turn as any sync event (R361). -/
def State.tryPlace (s : State) (die rcb : Nat) (a : EventArg) : Placing :=
  match s.task? rcb with
  | none => .noCore
  | some t =>
    if !(t.phase = .queued || t.phase = .preloaded) then .noCore else
    let pre := if t.phase = .preloaded then some t.core else none
    if t.phase = .preloaded && s.claimed t.core then .noCore else
    match s.pickCore die rcb t.eff pre with
    | none => .noCore
    | some _ =>
      let (ch, ended) := s.chainOf rcb 8
      let reason := s.launchReason ch ended
      if reason ≠ 0 then .placed (s.reject rcb t ch reason)
      else
        match s.pickCore die rcb (s.effVals ch) pre with
        | none => .noCore
        | some k =>
          if s.replayHolds (2 * k) then .waits else
          match s.settle rcb t (s.effVals ch) k a with
          | some s => .placed s
          | none => .waits

/-- The head of a die's queue p. -/
def State.headOf (s : State) (die p : Nat) : Option Nat :=
  ((s.dieAt die).queues[p % 16]'(Nat.mod_lt _ (by decide))).head?.map (·.rcb)

/-- The entry at the head of a die's queue p. -/
def State.headState (s : State) (die p : Nat) : QEntry :=
  ((s.dieAt die).queues[p % 16]'(Nat.mod_lt _ (by decide))).head?.getD (QEntry.fresh 0)

def State.setHead (s : State) (die p : Nat) (x : QEntry) : State :=
  let d := s.dieAt die
  let q := x :: (d.queues[p % 16]'(Nat.mod_lt _ (by decide))).drop 1
  s.setDie die { d with queues := d.queues.set (p % 16) q (Nat.mod_lt _ (by decide)) }

/-- A task of higher priority blocks tasks of priority p on the die: it became blocking as a head and has been neither
placed nor rejected since (R67). -/
def State.blocked (s : State) (die p : Nat) : Bool :=
  ((List.range 16).any fun q =>
    decide (p < q) && ((s.dieAt die).queues[q % 16]'(Nat.mod_lt _ (by decide))).any (·.blocking)) ||
  s.tasks.any fun (_, t) => t.phase = .preloaded && t.blocks && t.die = die && decide (p < t.eff.prio)

/-- A request is already on its way to a task. -/
def State.asked (s : State) (t : Task) : Bool := t.harts.any fun h => (s.hartAt h).run.active && (s.hartAt h).tr.ppend

/-- Running tasks of the die below priority p whose core would take the head once freed (R68): a split task runs as long as
one of its harts does. -/
def State.victims (s : State) (die p rcb : Nat) (e : EffVals) : List (Nat × Task) :=
  s.tasks.filter fun (r, t) =>
    (t.phase = .running || (t.phase = .bound && s.issues r t)) && t.die = die && decide (t.eff.prio < p) && s.switchable t &&
      s.eligible t.core rcb e true

/-- The victim of lowest priority, among those the most recently placed. -/
def pickVictim : List (Nat × Task) → Option (Nat × Task)
  | [] => none
  | v :: vs =>
    match pickVictim vs with
    | none => some v
    | some u =>
      if v.2.eff.prio < u.2.eff.prio || (v.2.eff.prio = u.2.eff.prio && u.2.placedAt < v.2.placedAt) then some v else some u

/-- The running task to ask for a head: one already asked whose core still has a preload to drop, else, where none has
been asked, the victim. -/
def State.askFor (s : State) (die p rcb : Nat) : Option Task :=
  match s.task? rcb with
  | none => none
  | some t =>
    let vs := s.victims die p rcb t.eff
    match vs.find? fun v => s.asked v.2 with
    | some v => if s.tasks.any fun (_, u) => u.core = v.2.core && u.phase = .preloaded then some v.2 else none
    | none => (pickVictim vs).map (·.2)

/-- Placement pre-emption for a head: the victim's harts are asked to stop, and its core's preload is dropped (R68,
R77). -/
def State.preemptFor (s : State) (die p rcb : Nat) : State :=
  match s.askFor die p rcb with
  | none => s
  | some v => v.harts.foldl (fun s h => s.requestPre h) (s.dropPreloads v.core)

/-- The heads tried from the given priorities on, in order, as long as no blocking entry stands above (R66-R68). A head for
which a core is eligible and whose placement waits is the one the dispatcher is at, and is not passed over. -/
def State.scanHeads (s : State) (die : Nat) (a : EventArg) : List Nat → State
  | [] => s
  | p :: ps =>
    if s.blocked die p then s else
    match s.headOf die p with
    | none => s.scanHeads die a ps
    | some rcb =>
      match s.tryPlace die rcb a with
      | .placed s => s
      | .waits => s.setHead die p (s.headState die p).behind
      | .noCore =>
        let x := s.headState die p
        let s := s.setHead die p { x with passed := some (x.passed.getD s.tick) }
        (s.preemptFor die p rcb).scanHeads die a ps

/-- Whether the heads from the given priorities on give the dispatcher something to do. -/
def State.scanDue (s : State) (die : Nat) : List Nat → Bool
  | [] => false
  | p :: ps =>
    if s.blocked die p then false else
    match s.headOf die p with
    | none => s.scanDue die ps
    | some rcb =>
      match s.tryPlace die rcb {} with
      | .placed _ => true
      | .waits => (s.headState die p).passed.isSome
      | .noCore => (s.headState die p).passed.isNone || (s.askFor die p rcb).isSome || s.scanDue die ps

/-- A preloaded task of a die that its core takes. -/
def State.preloadPlaced (s : State) (die : Nat) (a : EventArg) : Option State :=
  (s.tasks.filter fun (_, t) => t.phase = .preloaded && t.die = die && !s.blocked die t.eff.prio).findSome? fun (r, _) =>
    match s.tryPlace die r a with
    | .placed s => some s
    | _ => none

/-- One placement on a die: a preloaded task whose core takes it, else the first head a core takes. -/
def State.placeNext (s : State) (die : Nat) (a : EventArg) : State :=
  match s.preloadPlaced die a with
  | some s => s
  | none => s.scanHeads die a ((List.range 16).map (15 - ·))

/-- The dispatcher is at work (R369, R371). -/
def State.dispatching (s : State) : Bool := s.status.bstate = 4 || s.status.bstate = 5

/-- `arg`: `unit` the die, `addrs` where the runtime puts a new instantiation, by section (virtual, physical), `tables` what
it writes in page tables (address, entry). -/
def execPlacement (s : State) : Answer :=
  .next (if s.dispatching then s.placeNext s.arg.unit s.arg else s)

/-! ## Preloading (R76, R77) -/

/-- A core may hold a task as its preload: it runs a task of priority not below that has not been asked to leave it, holds
no preload, and has room (R76, R68). -/
def State.canPreload (s : State) (die k rcb : Nat) (e : EffVals) : Bool :=
  decide (k / 256 = die) && s.status.dclus.getLsbD (k / 4) &&
  s.tasks.any (fun (_, t) => t.core = k && t.phase = .running && decide (e.prio ≤ t.eff.prio) && !s.asked t) &&
  s.tasks.all (fun (r, t) => r = rcb || t.core ≠ k || !(t.phase = .preloaded || t.phase = .placed)) &&
  !s.boundBars k rcb e.prio false && (s.giveGroups k e.lgreq rcb).isSome &&
  s.tasks.all (fun (r, t) => r = rcb || t.core ≠ k || t.phase = .running || !t.phase.onCore || t.segs &&& e.segs = 0) &&
  (s.hazeRun (k / 4) rcb (s.tilesOf e)).isSome && s.bresOk rcb e (some k)

/-- The head of queue p bound to core k as its preload. -/
def State.preloadHead (s : State) (die p k : Nat) : State :=
  match s.headOf die p with
  | none => s
  | some rcb =>
    match s.task? rcb with
    | none => s
    | some t =>
      if s.blocked die p || !s.canPreload die k rcb t.eff then s else
      let (ch, ended) := s.chainOf rcb 8
      let reason := s.launchReason ch ended
      if reason ≠ 0 then s.reject rcb t ch reason
      else
        let e := s.effVals ch
        match (if s.canPreload die k rcb e then s.hazeRun (k / 4) rcb (s.tilesOf e) else none) with
        | none => s
        | some hz =>
          let blocks := (s.headState die p).blocking
          let s := ((s.quiet (k / 4)).dropQueue die rcb).rcbStatus rcb 1 true
          s.setTask rcb { t with eff := e, phase := .preloaded, core := k, segs := e.segs, hzBase := hz,
                                 hzTiles := s.tilesOf e, toCopy := e.preSegs, preAt := s.tick, blocks := blocks }

/-- `arg`: `unit` the die, `n` the priority, `index` the core. -/
def execPreload (s : State) : Answer :=
  .next (if s.dispatching then s.preloadHead s.arg.unit (s.arg.n % 16) s.arg.index else s)

/-- The bytes of a 64 KiB image at `va`, a 4 KiB piece at a time; none where a piece fails, or lies in a window. -/
def State.imagePieces (s : State) (c : Ctx) (va : Nat) : Nat → State × Option (List Byte)
  | 0 => (s, some [])
  | n + 1 =>
    match (if va < 2 ^ 55 then s.resolve c .load va else .error 5) with
    | .error _ => (s, none)
    | .ok (t, leaf) =>
      if s.beyond t 4096 then (s, none)
      else
        let s := s.noteLeaf c va false leaf
        let bs := s.readT t 4096
        match s.imagePieces c (va + 4096) n with
        | (s, some r) => (s, some (bs ++ r))
        | (s, none) => (s, none)

/-- A preloaded segment the running task declares is copied only after that task leaves the core (R76). -/
def State.segBusy (s : State) (rcb : Nat) (t : Task) (g : Nat) : Bool :=
  s.tasks.any fun (r, u) => r ≠ rcb && u.core = t.core && u.phase.onCore && nbit u.segs g

/-- Promises of the cluster's running commands put off by one segment's copy (R81, R246). -/
def State.delayCopies (s : State) (cl : Nat) : State :=
  (List.range 8).foldl (fun s i =>
    let h := 8 * cl + i
    let x := s.hartAt h
    if x.slots.toList.any (·.running) then
      s.setHart h { x with slots := x.slots.map fun sl => if sl.running then { sl with promise := sl.promise + 256 } else sl }
    else s) s

/-- One segment image copied into the task's core, or the launch rejected with reason 15 (R16, R69, R76); an image that is
not aligned to 64 KiB (R11) fails R92's check. -/
def State.copySegment (s : State) (rcb g : Nat) : State :=
  match s.task? rcb with
  | none => s
  | some t =>
    if !(t.phase = .preloaded || t.phase = .placed) || !nbit t.toCopy g || s.segBusy rcb t g then s else
    if t.eff.segimg % 65536 ≠ 0 then s.reject rcb t t.eff.chain 15 else
    match s.imagePieces { t.ctx rcb with rcb := rcb } (t.eff.segimg + 65536 * g) 16 with
    | (s, none) => s.reject rcb t t.eff.chain 15
    | (s, some bs) =>
      let s := { s with mem := memWriteN s.mem (spadKey (t.core * 2 ^ 19 + g * 65536)) bs }
      let s := s.delayCopies (t.core / 4)
      let t := { t with toCopy := nset t.toCopy g 1 0 }
      let s := s.setTask rcb t
      if t.phase = .placed && t.toCopy = 0 then s.startTask rcb t else s

/-- `arg`: `addr` the task's RCB, `index` the segment. -/
def execSegmentImageCopy (s : State) : Answer := .next (s.copySegment s.arg.addr (s.arg.index % 8))

/-- `arg`: `addr` the task's RCB. -/
def execPreloadTimeout (s : State) : Answer :=
  .next (match s.task? s.arg.addr with
    | some t => if t.phase = .preloaded && 1200000 < s.tick - t.preAt then s.dropPreload s.arg.addr t else s
    | none => s)

/-- The head of a die's queue p has been passed over for long enough to block, and no core is eligible for it (R67). -/
def State.headStuck (s : State) (die p : Nat) : Bool :=
  (match (s.headState die p).passed with | some t => decide (t + 65536 ≤ s.tick) | none => false) &&
  match s.headOf die p with
  | some rcb => (match s.tryPlace die rcb {} with | .noCore => true | _ => false)
  | none => false

/-- `arg`: `unit` the die, `n` the priority. -/
def execHeadBlocking (s : State) : Answer :=
  .next (if s.headStuck s.arg.unit s.arg.n then
      s.setHead s.arg.unit s.arg.n { s.headState s.arg.unit s.arg.n with blocking := true } else s)

/-! ## Resumption (R68, R290, R332, R333, R336) -/

/-- The projection slots of a resuming task: reloaded from their records where another task has had the core (R290). -/
def State.reloadProjs (s : State) (rcb : Nat) (t : Task) : State :=
  if (s.coreAt t.core).owner = rcb then s else
  let s := s.setCore t.core { (s.coreAt t.core).leave with owner := rcb }
  t.proj.zipIdx.foldl (fun (s : State) (p, i) =>
    if !p.loaded then s else
    match s.readProj (t.ctx rcb) p.base.toNat p.pitch.toInt p.b p.d with
    | (s, .ok rows) =>
      let k := s.coreAt t.core
      s.setCore t.core { k with proj := k.proj.set (i % 8) { p with rows := rows } (Nat.mod_lt _ (by decide)) }
    | (s, .error _) => s) s

/-- One hart put back from its image, what an earlier hart of its slot stored performed before (R191); matrix flags that
came in meanwhile join `mxcfg` (R255). -/
def State.resumeHart (s : State) (rcb : Nat) (t : Task) (slot frame kind : Nat) : Option State :=
  let h := 2 * t.core + slot % 2
  let s := s.drain h
  let s := s.setHart h { s.hartAt h with
    rcb := rcb, run := .running, ptaken := false, resuming := true, stepArm := false, lim := none,
    pending := tget Pending.init t.held slot, rest := tget [] t.rest slot, cut := (tget Saved.init t.saved slot).cut }
  match s.restore h frame (kind = 2) with
  | none => none
  | some s =>
    let x := s.hartAt h
    let x := { x with stepArm := x.tr.ss && !x.tr.hl && !x.pending.step }
    let fl := tget 0 t.mflags slot
    some (s.setHart h (if fl = 0 then x else
      { x with mxcfg := x.mxcfg ||| w64 (fl <<< 16), dirty := { x.dirty with dm := true } }))

/-- A hart slot whose hart had ended before the task left the core, what it stored performed before the slot counts as the
task's again (R191); an ended execute hart's declaration still sizes the
task's registers (R132). -/
def State.keepEnded (s : State) (rcb : Nat) (t : Task) : State :=
  t.harts.foldl (fun (s : State) h =>
    if t.ended.getLsbD (slotOf h) then
      let s := s.drain h
      let x := s.hartAt h
      s.setHart h { x with rcb := rcb, run := .ended, vec := { x.vec with cur := if slotOf h = 1 then t.decl else x.vec.cur } }
    else s) s

/-- Every stopped hart of a task put back. -/
def State.resumeAll (s : State) (rcb : Nat) (t : Task) : List (Nat × Nat × Nat) → Option State
  | [] => some s
  | (slot, frame, kind) :: l =>
    match s.resumeHart rcb t slot frame kind with
    | some s => s.resumeAll rcb t l
    | none => none

/-- A head of priority above `prio` that the core's die would place on core k now (R68). -/
def State.headWants (s : State) (k : Nat) (prio : Int) : Bool :=
  s.dispatching && (List.range 16).any fun p =>
    decide (prio < (p : Int)) && !s.blocked (k / 256) p &&
      (match s.headOf (k / 256) p with
        | some r =>
          (match s.task? r with
            | some u => decide (s.pickCore (k / 256) r u.eff none = some k)
            | none => false)
        | none => false)

/-- A forced unload of a task's code object, or of one its saved context lies in, has begun: it executes there no more
(R30). -/
def State.unloadingFor (s : State) (t : Task) : Bool :=
  s.codes.any fun (i, o) => o.unloading &&
    ((handleIndex t.eff.code = i && handleGen t.eff.code = (o.gen + 65535) % 65536) || t.savedIn o.covers)

/-- A bound task may resume: its core is free, no head of higher priority is about to take it, no preload or bound task of
higher priority waits there, its lane groups can be found and exceed no limit (R13), its code is not being unloaded, and
no segment that its images could lie in waits for its own image (R320). DESIGN CHOICE (log 47): a blocking head does not bar
it; R67 bars placements and preloads, and R332 calls a resumption neither. -/
def State.canResume (s : State) (rcb : Nat) (t : Task) : Bool :=
  s.status.dclus.getLsbD (t.core / 4) && !s.coreBusy t.core && !s.headWants t.core t.prioBound &&
  s.tasks.all (fun (r, u) => r = rcb || u.core ≠ t.core || !(u.phase = .preloaded || u.phase = .bound) ||
    decide (u.prioBound ≤ t.prioBound)) &&
  (s.giveGroups t.core t.eff.lgreq rcb).isSome && s.bresOk rcb t.eff none && !s.unloadingFor t &&
  (s.copyWaits (t.core / 4) (t.ctx rcb).asn).isNone

/-- A resumption to an odd PC does not take place: the task stays stopped, and its domain gets a record of misaligned, with
`est` and `ecm` as the image of that slot has them (R45, log 22). -/
def State.oddForward (s : State) (rcb : Nat) (t : Task) (slot pc : Nat) : State :=
  let frame := (tget (0, 0) t.image slot).1
  let v := tget Saved.init t.saved slot
  let (est, ecm) := match s.readImage (t.ctx rcb) frame 0x140 with
    | some (_, b) => (w64 (fx b 0x130 8), w64 (fx b 0x138 8))
    | none => (v.est, v.ecm)
  (s.setTask rcb { t with phase := .forwarded }).deliver t rcb (FaultRec.bytes
    { cause := 3, dbl := false, dir := false, lost := false, pc := w64 pc, val := w64 pc, est := est, ecm := ecm, task := rcb,
      hart := 2 * t.core + slot, frame := frame, tick := s.tick })

/-- A bound task resumes on its core; an orphan's resumption delivers its record with cause 27 instead. DESIGN CHOICE
(log 47): a resumption is no placement for R68's "most recently placed", and `placedAt` stays. -/
def State.resumeTask (s : State) (rcb : Nat) (t : Task) : State :=
  if t.phase = .orphaned then
    if t.notified then s else (s.setTask rcb { t with notified := true }).deliverOrphan rcb t
  else if t.phase = .bound && s.canResume rcb t then
    match s.oddResume rcb t with
    | (s, some (slot, pc)) => s.oddForward rcb t slot pc
    | (s, none) =>
      match s.giveGroups t.core t.eff.lgreq rcb with
      | none => s
      | some c =>
        let s0 := s.setCluster (t.core / 4) c
        let s1 := s0.setTask rcb
          { t with phase := .running, since := s.cycle, image := [], saved := [], held := [], rest := [], mflags := [], lower := false }
        match ((s1.reloadProjs rcb t).keepEnded rcb t).resumeAll rcb t t.image.reverse with
        | some s => s
        | none => s
  else s

/-- `arg`: `addr` the task's RCB. -/
def execBoundTaskResume (s : State) : Answer :=
  .next (match s.task? s.arg.addr with | some t => s.resumeTask s.arg.addr t | none => s)

/-! ## Completion and overrun (R14, R79, R191, R236, R254) -/

/-- A running copy command or a pending matrix command of a task. -/
def State.engineHolds (s : State) (rcb : Nat) (t : Task) : Bool :=
  (t.harts.any fun h => (s.hartAt h).slots.toList.any fun sl =>
    match sl.cmd with | some c => c.rcb = rcb | none => false) ||
  (s.clusterAt (t.core / 4)).rows.toList.any fun r => r.holder = some rcb && !r.cmds.isEmpty

/-- Every hart a task started has ended. -/
def State.allEnded (s : State) (rcb : Nat) (t : Task) : Bool :=
  t.harts.all fun h => t.ended.getLsbD (slotOf h) || ((s.hartAt h).rcb = rcb && (s.hartAt h).run = .ended)

/-- A task completes: its stores performed, its counters added, its live bit cleared, then `done` (R14). One that was
running when its code object's forced unload began does not (R31). -/
def State.completeTask (s : State) (rcb : Nat) (t : Task) : State :=
  if t.dying || !(t.phase = .running || t.phase = .bound) || !s.allEnded rcb t || s.engineHolds rcb t then s else
  let s := t.harts.foldl (fun s h => s.drain h) s
  let s := (s.charge rcb).addChain 0x90 1 t.eff.chain
  let s := s.rcbStatus rcb 0 false
  let s := if t.eff.done = 0 then s else s.setHbm t.eff.done 8 ((s.hbm t.eff.done 8 + 1) % 2 ^ 64)
  let s := (s.detachAll rcb (t.core / 4)).clearHarts rcb t
  { s with tasks := terase s.tasks rcb }

/-- `arg`: `addr` the task's RCB. -/
def execTaskCompletion (s : State) : Answer :=
  .next (match s.task? s.arg.addr with | some t => s.completeTask s.arg.addr t | none => s)

/-- The first hart of a task that still issues. -/
def State.activeHart (s : State) (rcb : Nat) (t : Task) : Option Nat :=
  t.harts.find? fun h => (s.hartAt h).rcb = rcb && (s.hartAt h).run.active

/-- `arg`: `addr` the task's RCB. The overrun is counted and forwarded at the hart's boundary (R79, R333). DESIGN CHOICE (log
47): a task none of whose harts issues any more, held back from completion by an engine, takes none. -/
def execBudgetOverrun (s : State) : Answer :=
  .next (match s.task? s.arg.addr with
    | none => s
    | some t =>
      match s.activeHart s.arg.addr t with
      | none => s
      | some h =>
        match s.overBudget h with
        | none => s
        | some lvl => (s.addChain 0xA8 1 t.eff.chain).directForward h 15 (w64 lvl) false (s.hartAt h).pc)

/-! ## Code objects (R24, R28-R31) -/

/-- A code object loaded under a free handle index. `arg`: `index` the handle index, `bytes` the FXO file, `addrs` the
places of its sections (virtual, physical), first of the data sections, then of a shared instantiation; `tables` what the
runtime writes in page tables (address, entry). -/
def State.loadObject (s : State) : State :=
  let idx := s.arg.index
  let f := s.arg.bytes
  let o := s.codeAt idx
  if o.loaded || !decide (idx < 2 ^ 20) || !fxoOk f then s else
  let data := s.arg.addrs.take (sectCount f)
  let shared := s.arg.addrs.drop (sectCount f)
  match s.placeData f data shared with
  | none => s
  | some s1 =>
    if !s.offKept f data false || (!hasFrameReloc f && !s1.sharedOk f data shared) then s else
    let u := (s1.writeTables s.arg.tables).setCode idx
      { gen := o.gen, loaded := true, fxo := f, data := data, shared := if hasFrameReloc f then none else some shared,
        insts := [], holds := 0, unloading := false }
    if u.codeMapped then u else s

def execCodeObjectLoad (s : State) : Answer := .next s.loadObject

/-- The reference count of R28; instantiations are created within a step. -/
def State.refCount (s : State) (idx : Nat) : Nat :=
  let o := s.codeAt idx
  (s.tasks.filter fun (r, t) => handleIndex t.eff.code = idx && handleGen t.eff.code = o.gen &&
    (t.phase = .queued || t.phase = .preloaded || t.phase = .placed || t.phase = .running || t.phase = .rerun ||
      !s.allStopped r t)).length +
  (s.tasks.filter fun (_, t) => t.savedIn o.covers).length + o.holds

/-- A code object's pages unmapped and its index freed. -/
def State.unmapObject (s : State) (idx gen : Nat) : State :=
  let o := s.codeAt idx
  let s := o.insts.foldl (fun s n => s.unmapInst o n) s
  let s := (List.range (sectCount o.fxo)).foldl (fun (s : State) i =>
    if sectKind o.fxo i = 1 then s else s.unmapPages (o.data.getD i (0, 0)).1 (sectSize o.fxo i)) s
  s.setCode idx { CodeObj.init with gen := gen }

/-- `arg`: `index` the handle index (R29). -/
def execUnforcedUnload (s : State) : Answer :=
  let idx := s.arg.index
  let o := s.codeAt idx
  .next (if !o.loaded || o.unloading || s.refCount idx ≠ 0 then s else s.unmapObject idx ((o.gen + 1) % 65536))

/-- A live task names a handle. -/
def State.namesCode (s : State) (idx gen rcb : Nat) : Bool :=
  match s.task? rcb with
  | some t => handleIndex t.eff.code = idx && handleGen t.eff.code = gen
  | none => false

/-- A hart executes in an instantiation, or in a task naming the handle (R30, step 3). -/
def State.hartIn (s : State) (idx oldGen h : Nat) : Bool :=
  let x := s.hartAt h
  x.run.active && ((s.codeAt idx).covers x.pc.toNat || s.namesCode idx oldGen x.rcb)

/-- A hart that step 4 waits for: one that runs a task naming the handle, or one asked to leave an instantiation, until its
context is saved; its handler's context still names the instantiation in `xpc`. One that jumps there later meets the page
fault of step 5. -/
def State.unloadWaits (s : State) (idx oldGen h : Nat) : Bool :=
  let x := s.hartAt h
  let o := s.codeAt idx
  x.run.active && (s.namesCode idx oldGen x.rcb ||
    ((o.covers x.pc.toNat || (x.tr.hl && o.covers x.tr.xpc.toNat)) && (x.tr.ppend || x.ptaken)))

/-- Steps 1 to 3 of a forced unload: the generation, the queued launches and preloads, the requests; the tasks running
under the handle will not complete (R31). -/
def State.unloadBegin (s : State) (idx : Nat) : State :=
  let o := s.codeAt idx
  let s1 := s.setCode idx { o with gen := (o.gen + 1) % 65536, unloading := true }
  let s2 := s.tasks.foldl (fun (s : State) (r, t) =>
    if handleIndex t.eff.code = idx && handleGen t.eff.code = o.gen &&
        (t.phase = .queued || t.phase = .preloaded || t.phase = .placed || t.phase = .rerun) then s.reject r t t.eff.chain 8
    else if handleIndex t.eff.code = idx && handleGen t.eff.code = o.gen &&
        (t.phase = .running || !s.allStopped r t) then s.setTask r { t with dying := true }
    else s) s1
  s2.harts.foldl (fun (s : State) (h, _) => if s.hartIn idx o.gen h then s.requestPre h else s) s2

/-- Steps 4 and 5, once every hart asked to stop has: commands cancelled, contexts orphaned, pages unmapped. -/
def State.unloadEnd (s : State) (idx : Nat) : State :=
  let o := s.codeAt idx
  let old := (o.gen + 65535) % 65536
  if s.harts.any (fun (h, _) => s.unloadWaits idx old h) then s else
  let named := fun (t : Task) => handleIndex t.eff.code = idx && handleGen t.eff.code = old
  let lost := fun (t : Task) => t.phase ≠ .orphaned && ((named t && t.dying) || t.savedIn o.covers)
  let s := s.tasks.foldl (fun (s : State) (r, t) =>
    let s := if named t || lost t then s.cancelCopies r t else s
    if !lost t then s else
    let s := s.charge r
    s.setTask r { (s.task? r).getD t with phase := .orphaned, notified := decide (t.phase = .forwarded) }) s
  s.unmapObject idx o.gen

/-- `arg`: `index` the handle index (R30). The first run takes steps 1 to 3, and it or a later one, when every hart has
stopped, steps 4 and 5. -/
def execForcedUnload (s : State) : Answer :=
  let idx := s.arg.index
  let o := s.codeAt idx
  .next (if !o.loaded then s else (if o.unloading then s else s.unloadBegin idx).unloadEnd idx)

/-- `arg`: `index` the handle index, `flag` taken (true) or released (R28). -/
def execHostHold (s : State) : Answer :=
  let o := s.codeAt s.arg.index
  .next (if !o.loaded then s
    else s.setCode s.arg.index { o with holds := if s.arg.flag then o.holds + 1 else o.holds - 1 })

end Sys2Proof.Machine
end

