-- ==== Sys2Proof/Machine/Scalar.lean ====
section
/-!
DEFINITION. The scalar base: integer operations, constants, branches, jumps, loads and stores (R84-R92), hints (R50).
-/
namespace Sys2Proof.Machine

/-- A register ALU instruction: g[d] = res (R84). -/
def aluEff (s : State) (d : Reg) (res : Word) : Eff := .done (s.setG d res)

def boolWord (b : Bool) : Word := if b then 1 else 0

/-- F(x, y) of the shifts: the count is y[5:0] (R84). -/
def shlW (x y : Word) : Word := x <<< (y.toNat % 64)
def shrW (x y : Word) : Word := x >>> (y.toNat % 64)
def sarW (x y : Word) : Word := x.sshiftRight (y.toNat % 64)
def rotlW (x y : Word) : Word := x.rotateLeft (y.toNat % 64)

/-- The high half of a product (R84). -/
def mulhW (x y : Word) : Word := BitVec.ofInt 64 (x.toInt * y.toInt / 2 ^ 64)
def mulhuW (x y : Word) : Word := BitVec.ofNat 64 (x.toNat * y.toNat / 2 ^ 64)

/-- Division, truncating, with the results of R85 for divisor 0 and the overflow case. -/
def divW (x y : Word) : Word := if y = 0 then BitVec.allOnes 64 else BitVec.ofInt 64 (x.toInt.tdiv y.toInt)
def divuW (x y : Word) : Word := if y = 0 then BitVec.allOnes 64 else BitVec.ofNat 64 (x.toNat / y.toNat)
def modW (x y : Word) : Word := if y = 0 then x else BitVec.ofInt 64 (x.toInt.tmod y.toInt)
def moduW (x y : Word) : Word := if y = 0 then x else BitVec.ofNat 64 (x.toNat % y.toNat)

/-- A division: the trap of R84 where `fmode`.`eid` is 1 and the divisor is 0. -/
def divEff (s : State) (d : Reg) (y res : Word) : Eff :=
  if y = 0 && s.cur.tr.fmode.getLsbD 8 then raiseEff s 14 0 else aluEff s d res

/-- Leading and trailing zeros, and one bits (R84). -/
def clzW (x : Word) : Word := if x = 0 then 64 else w64 (63 - x.toNat.log2)
def ctzW (x : Word) : Word := w64 (ctzN 64 x.toNat)
def popW (x : Word) : Word := w64 (popN 64 x.toNat)

def execAdd (d a b : Reg) (s : State) := commit (.add d a b) 4 (aluEff s d (s.g a + s.g b))
def execSub (d a b : Reg) (s : State) := commit (.sub d a b) 4 (aluEff s d (s.g a - s.g b))
def execAnd (d a b : Reg) (s : State) := commit (.and d a b) 4 (aluEff s d (s.g a &&& s.g b))
def execOr (d a b : Reg) (s : State) := commit (.or d a b) 4 (aluEff s d (s.g a ||| s.g b))
def execXor (d a b : Reg) (s : State) := commit (.xor d a b) 4 (aluEff s d (s.g a ^^^ s.g b))
def execAndn (d a b : Reg) (s : State) := commit (.andn d a b) 4 (aluEff s d (s.g a &&& ~~~ s.g b))
def execOrn (d a b : Reg) (s : State) := commit (.orn d a b) 4 (aluEff s d (s.g a ||| ~~~ s.g b))
def execShl (d a b : Reg) (s : State) := commit (.shl d a b) 4 (aluEff s d (shlW (s.g a) (s.g b)))
def execShr (d a b : Reg) (s : State) := commit (.shr d a b) 4 (aluEff s d (shrW (s.g a) (s.g b)))
def execSar (d a b : Reg) (s : State) := commit (.sar d a b) 4 (aluEff s d (sarW (s.g a) (s.g b)))
def execRotl (d a b : Reg) (s : State) := commit (.rotl d a b) 4 (aluEff s d (rotlW (s.g a) (s.g b)))
def execClt (d a b : Reg) (s : State) := commit (.clt d a b) 4 (aluEff s d (boolWord ((s.g a).slt (s.g b))))
def execCltu (d a b : Reg) (s : State) := commit (.cltu d a b) 4 (aluEff s d (boolWord ((s.g a).ult (s.g b))))
def execCeq (d a b : Reg) (s : State) := commit (.ceq d a b) 4 (aluEff s d (boolWord (s.g a = s.g b)))
def execMul (d a b : Reg) (s : State) := commit (.mul d a b) 4 (aluEff s d (s.g a * s.g b))
def execMulh (d a b : Reg) (s : State) := commit (.mulh d a b) 4 (aluEff s d (mulhW (s.g a) (s.g b)))
def execMulhu (d a b : Reg) (s : State) := commit (.mulhu d a b) 4 (aluEff s d (mulhuW (s.g a) (s.g b)))
def execDiv (d a b : Reg) (s : State) := commit (.div d a b) 4 (divEff s d (s.g b) (divW (s.g a) (s.g b)))
def execDivu (d a b : Reg) (s : State) := commit (.divu d a b) 4 (divEff s d (s.g b) (divuW (s.g a) (s.g b)))
def execMod (d a b : Reg) (s : State) := commit (.mod d a b) 4 (divEff s d (s.g b) (modW (s.g a) (s.g b)))
def execModu (d a b : Reg) (s : State) := commit (.modu d a b) 4 (divEff s d (s.g b) (moduW (s.g a) (s.g b)))
def execMin (d a b : Reg) (s : State) := commit (.min d a b) 4 (aluEff s d (if (s.g a).slt (s.g b) then s.g a else s.g b))
def execMax (d a b : Reg) (s : State) := commit (.max d a b) 4 (aluEff s d (if (s.g a).slt (s.g b) then s.g b else s.g a))
def execMinu (d a b : Reg) (s : State) := commit (.minu d a b) 4 (aluEff s d (if (s.g a).ult (s.g b) then s.g a else s.g b))
def execMaxu (d a b : Reg) (s : State) := commit (.maxu d a b) 4 (aluEff s d (if (s.g a).ult (s.g b) then s.g b else s.g a))
def execClz (d a : Reg) (s : State) := commit (.clz d a) 4 (aluEff s d (clzW (s.g a)))
def execCtz (d a : Reg) (s : State) := commit (.ctz d a) 4 (aluEff s d (ctzW (s.g a)))
def execPop (d a : Reg) (s : State) := commit (.pop d a) 4 (aluEff s d (popW (s.g a)))
def execSext8 (d a : Reg) (s : State) := commit (.sext8 d a) 4 (aluEff s d (((s.g a).setWidth 8).signExtend 64))
def execSext16 (d a : Reg) (s : State) := commit (.sext16 d a) 4 (aluEff s d (((s.g a).setWidth 16).signExtend 64))
def execSext32 (d a : Reg) (s : State) := commit (.sext32 d a) 4 (aluEff s d (((s.g a).setWidth 32).signExtend 64))
def execZext32 (d a : Reg) (s : State) := commit (.zext32 d a) 4 (aluEff s d (((s.g a).setWidth 32).setWidth 64))

/-! ## Immediates and constants (R86, R87) -/

def execAndi (d a : Reg) (imm : BitVec 12) (s : State) := commit (.andi d a imm) 4 (aluEff s d (s.g a &&& imm.signExtend 64))
def execOri (d a : Reg) (imm : BitVec 12) (s : State) := commit (.ori d a imm) 4 (aluEff s d (s.g a ||| imm.signExtend 64))
def execXori (d a : Reg) (imm : BitVec 12) (s : State) := commit (.xori d a imm) 4 (aluEff s d (s.g a ^^^ imm.signExtend 64))
def execClti (d a : Reg) (imm : BitVec 12) (s : State) :=
  commit (.clti d a imm) 4 (aluEff s d (boolWord ((s.g a).slt (imm.signExtend 64))))
def execShli (d a : Reg) (sh : BitVec 6) (s : State) := commit (.shli d a sh) 4 (aluEff s d (shlW (s.g a) (sh.setWidth 64)))
def execShri (d a : Reg) (sh : BitVec 6) (s : State) := commit (.shri d a sh) 4 (aluEff s d (shrW (s.g a) (sh.setWidth 64)))
def execSari (d a : Reg) (sh : BitVec 6) (s : State) := commit (.sari d a sh) 4 (aluEff s d (sarW (s.g a) (sh.setWidth 64)))
def execAddi (d a : Reg) (imm : BitVec 16) (s : State) := commit (.addi d a imm) 4 (aluEff s d (s.g a + imm.signExtend 64))
def execLih (d : Reg) (imm : BitVec 21) (s : State) := commit (.lih d imm) 4 (aluEff s d (imm.signExtend 64 <<< 16))
def execPcrel (d : Reg) (imm : BitVec 21) (s : State) :=
  commit (.pcrel d imm) 4 (aluEff s d (s.cur.pc + imm.signExtend 64 <<< 12))

/-! ## Branches and jumps (R88, R89) -/

/-- A conditional branch. -/
def branchEff (s : State) (c : Bool) (imm : BitVec 13) : Eff :=
  if c then .jump s (s.cur.pc + imm.signExtend 64 <<< 1) else .done s

/-- A jump with link; an odd target is misaligned and the link is not written. -/
def jumpEff (s : State) (d : Reg) (t : Word) : Eff :=
  if t.getLsbD 0 then raiseEff s 3 t else .jump (s.setG d (s.cur.pc + 4)) t

def execBeq (a b : Reg) (imm : BitVec 13) (s : State) := commit (.beq a b imm) 4 (branchEff s (s.g a = s.g b) imm)
def execBne (a b : Reg) (imm : BitVec 13) (s : State) := commit (.bne a b imm) 4 (branchEff s (s.g a ≠ s.g b) imm)
def execBlt (a b : Reg) (imm : BitVec 13) (s : State) := commit (.blt a b imm) 4 (branchEff s ((s.g a).slt (s.g b)) imm)
def execBge (a b : Reg) (imm : BitVec 13) (s : State) := commit (.bge a b imm) 4 (branchEff s (!(s.g a).slt (s.g b)) imm)
def execBltu (a b : Reg) (imm : BitVec 13) (s : State) := commit (.bltu a b imm) 4 (branchEff s ((s.g a).ult (s.g b)) imm)
def execBgeu (a b : Reg) (imm : BitVec 13) (s : State) := commit (.bgeu a b imm) 4 (branchEff s (!(s.g a).ult (s.g b)) imm)
def execJal (d : Reg) (imm : BitVec 21) (s : State) :=
  commit (.jal d imm) 4 (jumpEff s d (s.cur.pc + imm.signExtend 64 <<< 1))
def execJr (d a : Reg) (imm : BitVec 16) (s : State) := commit (.jr d a imm) 4 (jumpEff s d (s.g a + imm.signExtend 64))

/-! ## Loads and stores (R90-R92) -/

/-- The address of a scalar access. -/
def scalarAddr (s : State) (a : Reg) (imm : BitVec 13) : Word := s.g a + imm.signExtend 64

/-- The value of a scalar load of n bytes, sign-extended or not (R92). -/
def loadExt (n : Nat) (signed : Bool) (v : Nat) : Word := if signed then (BitVec.ofNat (8 * n) v).signExtend 64 else w64 v

/-- A scalar load of n bytes: it reads now, or joins the scalar slice and its value follows (R381). -/
def loadEff (s : State) (d a : Reg) (imm : BitVec 13) (n : Nat) (signed : Bool) : Eff :=
  let addr := scalarAddr s a imm
  if s.isExec s.turn then .trap s 2 0
  else if addr.toNat % n ≠ 0 then raiseEff s 3 addr
  else
    match s.queueLoad s 0 addr.toNat { dst := .g d.toNat signed, n := n, sh := 0, width := 8 * n } with
    | some s => .done s
    | none =>
      match s.load s.turn 0 addr.toNat n with
      | (s, .ok bs) => .done (s.setG d (loadExt n signed (bytesNat bs)))
      | (s, .error c) => raiseEff s c (accessVal c addr.toNat)

/-- A scalar store of the low n bytes of g[r]. -/
def storeEff (s : State) (r a : Reg) (imm : BitVec 13) (n : Nat) : Eff :=
  let addr := scalarAddr s a imm
  if s.isExec s.turn then .trap s 2 0
  else if addr.toNat % n ≠ 0 then raiseEff s 3 addr
  else
    -- a write after a release fence is a release write (R309)
    match s.storeNext 0 0 addr.toNat (natBytes n (s.g r).toNat) [] with
    | (s, none) => .done s
    | (s, some c) => raiseEff s c (accessVal c addr.toNat)

def execLdb (d a : Reg) (imm : BitVec 13) (s : State) := commit (.ldb d a imm) 4 (loadEff s d a imm 1 true)
def execLdbu (d a : Reg) (imm : BitVec 13) (s : State) := commit (.ldbu d a imm) 4 (loadEff s d a imm 1 false)
def execLdh (d a : Reg) (imm : BitVec 13) (s : State) := commit (.ldh d a imm) 4 (loadEff s d a imm 2 true)
def execLdhu (d a : Reg) (imm : BitVec 13) (s : State) := commit (.ldhu d a imm) 4 (loadEff s d a imm 2 false)
def execLdw (d a : Reg) (imm : BitVec 13) (s : State) := commit (.ldw d a imm) 4 (loadEff s d a imm 4 true)
def execLdwu (d a : Reg) (imm : BitVec 13) (s : State) := commit (.ldwu d a imm) 4 (loadEff s d a imm 4 false)
def execLdd (d a : Reg) (imm : BitVec 13) (s : State) := commit (.ldd d a imm) 4 (loadEff s d a imm 8 false)
def execStb (r a : Reg) (imm : BitVec 13) (s : State) := commit (.stb r a imm) 4 (storeEff s r a imm 1)
def execSth (r a : Reg) (imm : BitVec 13) (s : State) := commit (.sth r a imm) 4 (storeEff s r a imm 2)
def execStw (r a : Reg) (imm : BitVec 13) (s : State) := commit (.stw r a imm) 4 (storeEff s r a imm 4)
def execStd (r a : Reg) (imm : BitVec 13) (s : State) := commit (.std r a imm) 4 (storeEff s r a imm 8)

/-- A hint does nothing on this part (R50). -/
def execHint (s : State) := commit .hint 4 (.done s)

end Sys2Proof.Machine
end

