-- ==== Sys2Proof/Machine/Queue.lean ====
section
/-!
DEFINITION. The queues of split mode (R97, R98). A waiting instruction has done nothing and runs again when the queue can
take it or has something to give; a send is a release and a receipt an acquire (R307), and both are sync events (R358).
DEDUCED (readings): log 21.
-/
namespace Sys2Proof.Machine

/-- Whether the hart may write (or read) a scalar queue: a split task, in the queue's direction (R97). -/
def State.sqOk (s : State) (q : BitVec 2) (writes : Bool) : Bool :=
  s.isSplit s.turn && ((q.toNat < 2) == ((slotOf s.turn = 0) == writes))

/-- The scalar queue q of the running hart's core. -/
def State.sqOf (s : State) (q : BitVec 2) : List Word := (s.coreAt (coreOf s.turn)).sq[q.toNat]

def State.setSq (s : State) (q : BitVec 2) (l : List Word) : State :=
  let k := s.coreAt (coreOf s.turn)
  s.setCore (coreOf s.turn) { k with sq := k.sq.set q.toNat l }

def State.setBq (s : State) (l : List Bool) : State :=
  s.setCore (coreOf s.turn) { s.coreAt (coreOf s.turn) with bq := l }

def qsendEff (s : State) (q : BitVec 2) (a : Reg) : Eff :=
  if !s.sqOk q true then .trap s 2 0
  else if 16 ≤ (s.sqOf q).length then .wait s (some (16 + q.toNat)) 0
  else .done ((s.queueRelease.setSq q (s.sqOf q ++ [s.g a])).sync s.turn 4)

def qrecvEff (s : State) (d : Reg) (q : BitVec 2) : Eff :=
  if !s.sqOk q false then .trap s 2 0
  else
    match s.sqOf q with
    | [] => .wait s (some q.toNat) 0
    | x :: l => .done ((((s.queueAcquire q.toNat).setSq q l).sync s.turn 5).setG d x)

def qflagEff (s : State) (a : Reg) : Eff :=
  if !(s.isSplit s.turn && slotOf s.turn = 0) then .trap s 2 0
  else
    let l := (s.coreAt (coreOf s.turn)).bq
    if 64 ≤ l.length then .wait s (some 24) 0 else .done ((s.queueRelease.setBq (l ++ [decide (s.g a ≠ 0)])).sync s.turn 4)

/-- `bqz` (`want` false) and `bqnz` (`want` true). -/
def bqEff (s : State) (want : Bool) (imm : BitVec 13) : Eff :=
  if !s.isExec s.turn then .trap s 2 0
  else
    match (s.coreAt (coreOf s.turn)).bq with
    | [] => .wait s (some 8) 0
    | b :: l => branchEff (((s.queueAcquire 4).setBq l).sync s.turn 5) (b == want) imm

def execQsend (q : BitVec 2) (a : Reg) (s : State) := commit (.qsend q a) 4 (qsendEff s q a)
def execQrecv (d : Reg) (q : BitVec 2) (s : State) := commit (.qrecv d q) 4 (qrecvEff s d q)
def execQflag (a : Reg) (s : State) := commit (.qflag a) 4 (qflagEff s a)
def execBqz (imm : BitVec 13) (s : State) := commit (.bqz imm) 4 (bqEff s false imm)
def execBqnz (imm : BitVec 13) (s : State) := commit (.bqnz imm) 4 (bqEff s true imm)

end Sys2Proof.Machine
end

