-- ==== Sys2Proof/Machine/EvWait.lean ====
section
/-!
DEFINITION. Events that end waits, of the copy and matrix engines and of Haze (R98, R100, R201, R204, R243-R250, R262, R270,
R315, R324, R376).
DEDUCED (readings): logs 20, 21, 34, 42.
-/
namespace Sys2Proof.Machine

/-! ## Which asynchronous cause comes first (R324) -/

/-- A hart that waits at a barrier: only pre-emption ends that wait (R313). -/
def Hart.atBarrier (x : Hart) : Bool :=
  match x.run with
  | .waiting w => (match w.instr with | .bar _ _ _ => true | _ => false)
  | _ => false

/-- A hart whose `shsync` the engine has taken: it completes before anything but a pre-emption (R318). -/
def Hart.copying (x : Hart) : Bool :=
  match x.run with
  | .waiting w => (match w.instr with | .shsync _ _ _ _ => decide (w.mark ≠ 0) | _ => false)
  | _ => false

/-- The slot of the first missed promise of the hart's own task not yet taken (R247). -/
def Hart.dueSlot (x : Hart) : Option Nat := (x.dues.find? fun d => d.2 = x.rcb).map (·.1)

/-- The task of a hart is charged and has used up a budget (R78, R79). -/
def State.overrun (s : State) (h : Nat) : Bool :=
  (s.overBudget h).isSome && (match s.taskOf h with | some t => s.charging (s.hartAt h).rcb t | none => false)

/-- The cause a hart takes at its present boundary, in the order of R324: 15, 16, 11, 20, 26, 19. Those after 16 are held
at handler level and end neither a wait at a barrier nor a copy of `shsync`. -/
def State.asyncFirst (s : State) (h : Nat) : Option Nat :=
  let x := s.hartAt h
  if !x.run.active then none
  else if s.overrun h then some 15
  else if x.tr.ppend && !x.ptaken then some 16
  else if x.tr.hl || x.atBarrier || x.copying then none
  else if x.dueSlot.isSome then some 11
  else if x.pending.step then some 20
  else if x.pending.throttle.isSome then some 26
  else if x.pending.debug then some 19
  else none

/-! ## Waking a hart -/

/-- A state acted on as hart `h`; the turn stays with the hart that had it. -/
def State.asHart (s : State) (h : Nat) (f : State → Answer) : Answer :=
  match f { s with turn := h } with
  | .next t => .next { t with turn := s.turn }
  | r => r

/-- An instruction that waits, run again from its start (R98, R335). -/
def rerun (i : Instr) (s : State) : Answer :=
  match i with
  | .qsend q a => execQsend q a s
  | .qrecv d q => execQrecv d q s
  | .qflag a => execQflag a s
  | .bqz imm => execBqz imm s
  | .bqnz imm => execBqnz imm s
  | .bar id dev a => execBar id dev a s
  | .wmon sz sc t d a => execWmon sz sc t d a s
  | .cpy d a n => execCpy d a n s
  | .cwait d a n => execCwait d a n s
  | .shsync d a b c => execShsync d a b c s
  | .mxload t a b c => execMxload t a b c s
  | .mxmul z t acc0 s0 va b => execMxmul z t acc0 s0 va b s
  | .mxgrp z acc0 s0 va b => execMxgrp z acc0 s0 va b s
  | .mxzero rows => execMxzero rows s
  | .mxwait rows => execMxwait rows s
  | .mxdrain t r0 fmt a b c m => execMxdrain t r0 fmt a b c m s
  | .mxdrainX t r0 fmt a vb c m => execMxdrainX t r0 fmt a vb c m s
  | .mxsave a => execMxsave a s
  | .mxrest a => execMxrest a s
  | .bbisect vd va vb => execBbisect vd va vb s
  | .bbmerge vd va vb i j => execBbmerge vd va vb i j s
  | .bbwalk vd va => execBbwalk vd va s
  | .sgsig d h va => execSgsig d h va s
  | .sgkey d h va b c => execSgkey d h va b c s
  | .sggather vd h va b => execSggather vd h va b s
  | .vldff vd a imm m => execVldff vd a imm m s
  | .vldreg vd a imm => execVldreg vd a imm s
  | .vstreg vs a imm => execVstreg vs a imm s
  | .hzld vd md a imm m => execHzld vd md a imm m s
  | .vcvtSb vd va st g m => execVcvtSb vd va st g m s
  | .cvh cnt chain u2 u3 u4 u5 u6 => execCvh cnt chain u2 u3 u4 u5 u6 s
  | i => commit i 8 (memberEff i s)

/-- What a hart's accesses wait for: a segment image of a task placed in its address space and cluster (R320). -/
def State.segWait (s : State) (h : Nat) : Option (Nat × Nat) := s.copyWaits (clusterOf h) (s.ctxOf h).asn

/-- A waiting hart whose wait is of the given kind tries its instruction again, unless a cause of R324 ends the wait first
(R247). While the frequency switches no pipe serves it (R363). -/
def State.wake (s : State) (h : Nat) (kind : WaitRec → Bool) : Answer :=
  match (s.hartAt h).run with
  | .waiting w =>
    if kind w && !s.power.stalled && (s.segWait h).isNone && (s.asyncFirst h).isNone then s.asHart h (rerun w.instr) else .next s
  | _ => .next s

def isWmon : Instr → Bool | .wmon .. => true | _ => false
def isCwait : Instr → Bool | .cwait .. => true | _ => false
def isCpy : Instr → Bool | .cpy .. => true | _ => false
def isMxwait : Instr → Bool | .mxwait .. => true | _ => false

/-- `arg`: `hart`. A queue instruction runs again (R98, R99). -/
def execQueueWake (s : State) : Answer := s.wake s.arg.hart fun w => w.queue.isSome

/-- `arg`: `hart`. `wmon` looks again (R315). -/
def execWmonWake (s : State) : Answer := s.wake s.arg.hart fun w => isWmon w.instr

/-- `arg`: `hart`. `wmon` at its tick limit (R315). -/
def execWmonTimeout (s : State) : Answer := s.wake s.arg.hart fun w => isWmon w.instr

/-- `arg`: `hart`. `cwait` looks again (R250). -/
def execCwaitWake (s : State) : Answer := s.wake s.arg.hart fun w => isCwait w.instr

/-- `arg`: `hart`. `cwait` at its tick limit (R250). -/
def execCwaitTimeout (s : State) : Answer := s.wake s.arg.hart fun w => isCwait w.instr

/-- `arg`: `hart`. A waiting `cpy` tries again (R249). -/
def execCpyAccept (s : State) : Answer := s.wake s.arg.hart fun w => isCpy w.instr

/-- `arg`: `hart`. `mxwait` looks again (R270). -/
def execMxwaitDone (s : State) : Answer := s.wake s.arg.hart fun w => isMxwait w.instr

/-! ## Queue stall (R100) -/

/-- The queue a hart waits on and since when. -/
def State.queueOf (s : State) (h : Nat) : Option (Nat × Nat) :=
  match (s.hartAt h).run with
  | .waiting w => w.queue.map fun q => (q, w.since)
  | _ => none

/-- The queue that still holds a waiting hart back: its instruction, run again, would wait on it (R98, R100). -/
def State.waitsOn (s : State) (h : Nat) : Option Nat :=
  match (s.hartAt h).run with
  | .waiting w =>
    if w.queue.isSome then
      (match s.asHart h (rerun w.instr) with
        | .next t => (t.queueOf h).map (·.1)
        | _ => none)
    else none
  | _ => none

def State.stillWaits (s : State) (h : Nat) : Bool := (s.waitsOn h).isSome

/-- The stall trap of a hart that waits on queue q, outside any element (R142). -/
def State.stall (s : State) (h q : Nat) : State :=
  let x := s.hartAt h
  (s.setHart h { x with tr := { x.tr with est := 0 } }).takeTrap h 21 (w64 q) x.pc true

/-- The partner has ended. -/
def State.partnerEnded (s : State) (h : Nat) : Bool :=
  match s.taskOf h with
  | some t => t.ended.getLsbD (slotOf (partnerOf h))
  | none => false

/-- The trap of hart h goes to its own handler. -/
def Hart.handles (x : Hart) : Bool := !x.tr.hl && x.tr.xvec ≠ 0

/-- Both harts of a split task take the trap (R100). One that enters its handler takes it first: a forward of the other stops
it there with its context; where both are forwarded, each has its own record. -/
def State.stallBoth (s : State) (h q q2 : Nat) : State :=
  let p := partnerOf h
  let x := s.hartAt h
  if x.handles then (s.stall h q).stall p q2
  else if (s.hartAt p).handles then (s.stall p q2).stall h q
  else ((s.setHart h { x with tr := { x.tr with est := 0 } }).forwardHart h 21 (w64 q) x.tr.hl x.pc).stall p q2

/-- `arg`: `hart`. The partner has ended, or both harts have waited 2^20 ticks, and still wait. -/
def State.stallAt (s : State) (h : Nat) : State :=
  match s.queueOf h, s.waitsOn h with
  | some (_, since), some q =>
    if s.partnerEnded h then s.stall h q
    else if !s.isSplit h then s
    else
      match s.queueOf (partnerOf h), s.waitsOn (partnerOf h) with
      | some (_, since2), some q2 =>
        if since + 2 ^ 20 ≤ s.tick && since2 + 2 ^ 20 ≤ s.tick then s.stallBoth h q q2 else s
      | _, _ => s
  | _, _ => s

def execQueueStall (s : State) : Answer := .next (s.stallAt s.arg.hart)

/-! ## The copy engine (R243-R247, R376) -/

def slotIdx (n : Nat) : Fin 4 := ⟨n % 4, Nat.mod_lt _ (by decide)⟩

/-- `arg`: `hart`, `index` the slot. Every element left moves and the command completes (R245). -/
def execCopyCompletion (s : State) : Answer := .next (s.copyComplete s.arg.hart (slotIdx s.arg.index))

/-- The engine runs a command up to an element that fails, if one does (R243). -/
def State.copyFault (s : State) (h : Nat) (n : Fin 4) : State :=
  match (s.slotAt h n).cmd with
  | none => s
  | some c =>
    let t := s.copySteps h n (blkCount c.block - c.pos)
    if (t.slotAt h n).cmd.isNone then t else s

/-- `arg`: `hart`, `index` the slot. -/
def execCopyFaultStop (s : State) : Answer := .next (s.copyFault s.arg.hart (slotIdx s.arg.index))

/-- A storage-sourced command stopped at its next element with `err` 7 (R376), and no address to report (R251). -/
def State.driveError (s : State) (h : Nat) (n : Fin 4) : State :=
  let s := s.copyAdvance (clusterOf h)
  match (s.slotAt h n).cmd with
  | none => s
  | some c =>
    if blkOp c.block = 2 || !opStore (blkW c.block 1) then s else s.copyFail h n 7 0

/-- `arg`: `hart`, `index` the slot. -/
def execStorageError (s : State) : Answer := .next (s.driveError s.arg.hart (slotIdx s.arg.index))

/-- `arg`: `hart`, `index` the slot. A promise that has passed is marked, and its trap taken where it comes first (R247). -/
def execMissedPromise (s : State) : Answer :=
  let h := s.arg.hart
  let n := slotIdx s.arg.index
  let s := s.setHart h ((s.hartAt h).miss s.tick)
  let x := s.hartAt h
  .next (if s.asyncFirst h = some 11 && x.dues.contains (n.val, x.rcb) then
      (s.setHart h { x with dues := x.dues.erase (n.val, x.rcb) }).takeTrap h 11 (w64 n.val) x.pc false
    else s)

/-! ## The matrix engine (R262) -/

/-- The oldest command of a row waits for the single step of its hart, which stops before an accumulator changes (R275), or
for the arithmetic clock (R363). -/
def State.landHeld (s : State) (r : TileRow) : Bool :=
  s.power.stalled ||
  match r.cmds with
  | [] => false
  | c :: _ => let x := s.hartAt c.hart; x.pending.step && x.run.active && !x.tr.hl

/-- `arg`: `unit` the cluster, `index` the tile row. -/
def execMatrixCommandDone (s : State) : Answer :=
  .next (if s.landHeld (s.rowAt s.arg.unit (slotIdx s.arg.index)) then s else s.landOne s.arg.unit (slotIdx s.arg.index))

/-! ## Haze (R201, R204) -/

/-- `arg`: `unit` the cluster, `index` the tile. -/
def execHazeTileExpiry (s : State) : Answer :=
  .next (match s.birth s.arg.unit s.arg.index with
    | some b => if b + hzlife ≤ s.tick then s.setBirth s.arg.unit s.arg.index none else s
    | none => s)

/-- Every tile of the clusters from `lo`, `n` of them, expired. -/
def State.expireClusters (s : State) (lo n : Nat) : State :=
  { s with clusters := s.clusters.map fun (c, x) => if lo ≤ c && c < lo + n then (c, { x with births := [] }) else (c, x) }

/-- `arg`: `unit` the die. -/
def execHazeJunctionLimit (s : State) : Answer :=
  let s := s.expireClusters (64 * (s.arg.unit % 2)) 64
  .next { s with status := { s.status with hzlim := s.status.hzlim ||| BitVec.ofNat 2 (2 ^ (s.arg.unit % 2)) } }

end Sys2Proof.Machine
end

