-- ==== Sys2Proof/Machine/EvTrap.lean ====
section
/-!
DEFINITION. Events that take asynchronous causes, deliver fault records, confirm and re-execute results, and publish the
trace (R45, R46, R324, R326, R332, R337, R341, R342, R348-R350, R354, R380).
DEDUCED (readings): logs 18, 19, 20, 26.
-/
namespace Sys2Proof.Machine

/-! ## Pre-emption requests (R332-R334) -/

/-- A pending request taken: cause 16 where the hart's handler can take it, else a direct switch. A request whose handler
already runs waits for it. -/
def State.takePre (s : State) (h : Nat) : State :=
  let x := s.hartAt h
  if s.asyncFirst h ≠ some 16 then s
  else if x.tr.hl || x.tr.xvec = 0 then s.directSwitch h x.pc
  else
    let s := s.takeTrap h 16 0 x.pc false
    s.setHart h { s.hartAt h with ptaken := true }

/-- A Bobbin instruction that emits. -/
def emits : Instr → Bool | .bbisect .. => true | .bbmerge .. => true | .bbwalk .. => true | _ => false

/-- The next instruction of a hart is such a one. -/
def State.nextEmits (s : State) (h : Nat) : Bool :=
  match ({ s with turn := h } : State).fetchWord with
  | (_, .ok w) => (match decode w with | some i => emits i | none => false)
  | _ => false

/-- The element of its next instruction at which a hart is to stop: an element-group boundary (R334), but for a Bobbin
instruction the number of advances after which it stops (R281). A convoy's member counts from bit 32. -/
def State.stopElement (s : State) (h n : Nat) : Nat :=
  let l := max 1 (s.lanes h)
  if s.nextEmits h then n else n / 2 ^ 32 * 2 ^ 32 + n % 2 ^ 32 / l * l

/-- `arg`: `hart`; `flag` a request arrives from a fault domain, for both harts of a split task (R332); `n`, if not 0, the element of the hart's next
instruction at whose group the request is to land. -/
def State.preRequest (s : State) : State :=
  let h := s.arg.hart
  let s := if s.arg.flag then (s.requestPre h).requestPartner h else s
  if s.arg.n = 0 then s.takePre h
  else if s.asyncFirst h = some 16 && !(s.hartAt h).tr.hl then
    s.setHart h { s.hartAt h with lim := some (s.stopElement h s.arg.n) }
  else s

def execPreEmptionRequest (s : State) : Answer := .next s.preRequest

/-! ## Fault records (R326) -/

/-- The first waiting record whose domain's handler task is no longer live, and the records without it. -/
def State.dueRecord (s : State) : List WaitRecord → Option (WaitRecord × List WaitRecord)
  | [] => none
  | r :: rs =>
    if (s.task? r.dom).isNone then some (r, rs)
    else
      match s.dueRecord rs with
      | some (q, qs) => some (q, r :: qs)
      | none => none

def State.deliverNext (s : State) : State :=
  match s.dueRecord s.records with
  | none => s
  | some (r, rs) =>
    let die := match s.task? r.rcb with | some t => t.die | none => 0
    { s with records := rs }.toHandler die r.dom ((s.task? r.rcb).map Task.core) r.record

def execFaultRecordDelivery (s : State) : Answer := .next s.deliverNext

/-! ## Causes of a hart's own level (R324) -/

/-- `arg`: `hart` (R341). -/
def execSingleStep (s : State) : Answer :=
  let h := s.arg.hart
  let x := s.hartAt h
  .next (if s.asyncFirst h = some 20 then
      (s.setHart h { x with pending := { x.pending with step := false } }).takeTrap h 20 0 x.pc false
    else s)

/-- The end of a floor-share run that began at tick `began` (R337). -/
def State.noticeRun (s : State) (h began : Nat) : State :=
  let x := s.hartAt h
  let recent := match x.lastNotice with | some t => decide (s.tick < t + 65536) | none => false
  if x.run.active && x.tr.tne && began + 1024 ≤ s.tick && !recent && x.pending.throttle.isNone then
    s.setHart h { x with pending := { x.pending with throttle := some (w64 began) } }
  else s

/-- The notice taken, where nothing of R324 comes before it; with `tne` 0 it is discarded (R337). -/
def State.takeNotice (s : State) (h : Nat) : State :=
  let x := s.hartAt h
  match x.pending.throttle with
  | none => s
  | some v =>
    if s.asyncFirst h ≠ some 26 then s
    else if !x.tr.tne then s.setHart h { x with pending := { x.pending with throttle := none } }
    else
      (s.setHart h { x with lastNotice := some s.tick, pending := { x.pending with throttle := none } }).takeTrap h 26 v x.pc false

/-- `arg`: `hart`; `flag` a run that began at tick `n` has ended. -/
def execThrottleNotice (s : State) : Answer :=
  let h := s.arg.hart
  .next ((if s.arg.flag then s.noticeRun h s.arg.n else s).takeNotice h)

/-- `arg`: `hart`. A stop asked for through the management window (R342). -/
def execDebugStop (s : State) : Answer :=
  let h := s.arg.hart
  let x := s.hartAt h
  .next (if s.asyncFirst h = some 19 then
      (s.setHart h { x with pending := { x.pending with debug := false } }).takeTrap h 19 0x1000 x.pc false
    else s)

/-! ## Fetch and decode (R45, R46) -/

/-- A hart is about to fetch: it waits for nothing, and no cause of R324 comes first, but for a request that is to land
inside its next instruction. -/
def State.fetching (s : State) (h : Nat) : Bool :=
  let x := s.hartAt h
  decide (x.run = .running) && !s.power.stalled && (s.segWait h).isNone && (x.lim.isSome || (s.asyncFirst h).isNone)

/-- A trap at a hart's PC. -/
def State.trapHere (s : State) (cause : Nat) (val : Word) : Answer := .next (s.takeTrap s.turn cause val s.cur.pc true)

/-- The hart that moves traps if its next word is illegal, with the word, zero-extended (R46). -/
def State.illegalHere (s : State) : Answer :=
  match s.fetchNext with
  | (s, .ok (w, none)) => (if nbits w.word.toNat 12 4 = 12 then s.freshStart else s).trapHere 1 w.word
  | _ => .next s

/-- The hart that moves traps if its next word cannot be fetched, with the address of the first parcel that fails (R45). -/
def State.fetchFaultHere (s : State) : Answer :=
  match s.fetchNext with
  | (s, .error (c, a)) => s.trapHere c (accessVal c a)
  | _ => .next s

/-- `arg`: `hart`. Nothing happens where the hart's next word is legal, or where it is not about to fetch. -/
def execIllegalInstruction (s : State) : Answer :=
  if s.fetching s.arg.hart then s.asHart s.arg.hart State.illegalHere else .next s

/-- `arg`: `hart`. Nothing happens where the next word can be fetched, or where the hart is not about to fetch. -/
def execInstructionFetchFault (s : State) : Answer :=
  if s.fetching s.arg.hart then s.asHart s.arg.hart State.fetchFaultHere else .next s

/-! ## Confirmation (R348-R350) -/

/-- `arg`: `hart`, `index` the slice: its oldest access is confirmed and performs; with `flag`, a store that writes a byte in
part only reads what it keeps (R184, R213), and performs at a later event. -/
def execResultConfirmation (s : State) : Answer :=
  let h := s.arg.hart
  .next (if s.arg.flag then s.setHart h { s.hartAt h with stores := s.keepFirst s.arg.index (s.hartAt h).stores }
    else s.performOne h s.arg.index)

/-- The syndrome of R350: `group` is the lane group of the last failing check. -/
def suspectSyndrome (group : Nat) (droop : Bool) : Word := w64 (1 + 256 * (group % 8) + 65536 * boolNat droop)

/-- A hart of which some result is unconfirmed: it computes, or it waits or has ended and its last result is less than 64
cycles old (R348, R349). A hart at a barrier has arrived there with every earlier result confirmed. -/
def State.unconfirmed (s : State) (h : Nat) : Bool :=
  let x := s.hartAt h
  match x.run with
  | .running => true
  | .waiting _ => !x.atBarrier && decide (s.cycle < x.lastAt + 64)
  | .ended => decide (s.cycle < x.lastAt + 64)
  | _ => false

/-- The instruction a mark names: the one the hart is at, of an ended hart its `idle` (log 18). -/
def Hart.markPc (x : Hart) : Word := if x.run = .ended then x.pc - 4 else x.pc

/-- A hart that had ended stands before its `idle` again, which has not completed (R350, R351). -/
def State.unend (s : State) (h : Nat) : State :=
  let x := s.hartAt h
  if x.run ≠ .ended then s else
  let s := s.setHart h { x with run := .running, pc := x.markPc, tr := { x.tr with retcnt := x.tr.retcnt - 1 } }
  let s := s.count h fun k => { k with kret := k.kret - 1 }
  match s.task? x.rcb with
  | some t => s.setTask x.rcb { t with ended := t.ended &&& ~~~(BitVec.ofNat 2 (2 ^ slotOf h)) }
  | none => s

/-- A hart's current instruction marked suspect: it re-executes, which nothing architectural shows, or at the third mark
in a row raises machine check. -/
def State.markSuspect (s : State) (h group : Nat) (droop : Bool) : State :=
  let x := s.hartAt h
  if !s.unconfirmed h then s else
  let lane := if droop then x.suspectLane else group
  let here := (x.markPc.toNat, x.tr.est.toNat)
  let n := if x.suspectAt = here then x.suspects + 1 else 1
  let s := s.count h fun k =>
    { k with kresid := k.kresid + boolNat (!droop), kdroop := k.kdroop + boolNat droop, kredo := k.kredo + boolNat (decide (n < 3)) }
  let s := s.setHart h { s.hartAt h with suspects := if n < 3 then n else 0, suspectAt := here, suspectLane := lane }
  if n < 3 then s else (s.unend h).takeTrap h 25 (suspectSyndrome lane droop) x.markPc false

/-- `arg`: `hart`, `index` the lane group of the failing check; `flag` a droop, which marks every hart of the cluster. -/
def execSuspectReexecute (s : State) : Answer :=
  .next (if s.arg.flag then
      (List.range 8).foldl (fun s i => s.markSuspect (8 * clusterOf s.arg.hart + i) s.arg.index true) s
    else s.markSuspect s.arg.hart s.arg.index false)

/-! ## Trace and log heads (R354, R380) -/

/-- `arg`: `unit` the cluster. -/
def execTraceHeadPublish (s : State) : Answer := .next (s.publishTrace s.arg.unit)

def execXlheadPublish (s : State) : Answer := .next s.publishLog

end Sys2Proof.Machine
end

