-- ==== Sys2Proof/Machine/EvPower.lean ====
section
/-!
DEFINITION. Power, limits and bring-up (R363-R372).
DEDUCED (readings): log 40.
-/
namespace Sys2Proof.Machine

/-! ## The sequencer (R363-R365, R367) -/

/-- The move that leads from the point reached toward the target (R364). -/
def Power.plan (p : Power) : PowerMove :=
  if p.target then
    if p.vcode < 20 then .stepUp else if p.full then .still else .switchUp
  else if p.full then .switchDown
  else if 12 < p.vcode then .stepDown
  else .still

/-- The next move begins at a tick. -/
def Power.begin (p : Power) (tick : Nat) : Power := { p with move := p.plan, since := tick }

/-- A step or switch completed: the latched request, if there is one, becomes the target (R365). -/
def Power.replan (p : Power) (tick : Nat) : Power :=
  ({ p with target := p.latched.getD p.target, latched := none } : Power).begin tick

/-- A request as the sequencer takes it (R365). -/
def Power.request (p : Power) (full : Bool) (tick : Nat) : Power :=
  if p.move ≠ .still then { p with latched := some full }
  else if full = p.target then p
  else ({ p with target := full } : Power).begin tick

/-- The ticks a move takes (R363). -/
def PowerMove.ticks : PowerMove → Nat
  | .still => 0
  | .stepUp => 2400
  | .stepDown => 2400
  | .switchUp => 240
  | .switchDown => 240

/-- The step or switch in progress has taken its ticks. -/
def Power.due (p : Power) (tick : Nat) : Bool := p.move ≠ .still && decide (p.since + p.move.ticks ≤ tick)

/-- Every cluster has passed. -/
def State.allPassed (s : State) : Bool := s.status.dclus = BitVec.allOnes 128

/-- What keeps a request for full from acting: a force or an update (R367, R368), or a stage before every cluster has
passed, in which the device runs at the safe point (R3, R369, R370). -/
def State.forced (s : State) : Bool :=
  s.status.fwd || s.status.fth || s.status.fwst = 2 || !(s.status.bstate = 5 || (s.status.bstate = 4 && s.allPassed))

/-- A request for a point: one for full that may not act is held until it may (R367). -/
def State.requestPoint (s : State) (full : Bool) : State :=
  if s.forced && full then { s with power := { s.power with held := some true } }
  else { s with power := ({ s.power with held := none }).request full s.tick }

/-- A held request acts once nothing keeps it from acting. -/
def State.releaseHeld (s : State) : State :=
  if !s.forced && s.power.held = some true then
    { s with power := ({ s.power with held := none }).request true s.tick }
  else s

/-- A forced request for safe; a request for full already held for the last force's end stays held (R367). -/
def State.forceSafe (s : State) : State := { s with power := s.power.request false s.tick }

/-- `arg`: `flag` full (true) or safe. -/
def execPowerPointRequest (s : State) : Answer := .next (s.requestPoint s.arg.flag)

/-- A rail step completes, 2,400 ticks after it began. -/
def execRailStepDone (s : State) : Answer :=
  let p := s.power
  .next (if !p.due s.tick then s else
    match p.move with
    | .stepUp => { s with power := ({ p with vcode := p.vcode + 1 }).replan s.tick }
    | .stepDown => { s with power := ({ p with vcode := p.vcode - 1 }).replan s.tick }
    | _ => s)

/-- Full service begins: reduced service with every cluster passed and the full point in force (R369, R370). -/
def State.fullService (s : State) : State :=
  if s.status.bstate = 4 && s.allPassed && s.power.full then { s with status := { s.status with bstate := 5 } } else s

/-- A frequency switch completes, 240 ticks after it began. -/
def execFrequencySwitchDone (s : State) : Answer :=
  let p := s.power
  .next (if !p.due s.tick then s else
    match p.move with
    | .switchUp => ({ s with power := ({ p with full := true }).replan s.tick } : State).fullService
    | .switchDown => { s with power := ({ p with full := false }).replan s.tick }
    | _ => s)

/-! ## Limits (R366-R368) -/

def execCurrentClamp (s : State) : Answer := .next { s with status := { s.status with clamp := true } }
def execCurrentClampClear (s : State) : Answer := .next { s with status := { s.status with clamp := false } }

def execThermalForce (s : State) : Answer :=
  .next ({ s with status := { s.status with fth := true, ttrip := true } } : State).forceSafe

def execThermalForceClear (s : State) : Answer :=
  .next ({ s with status := { s.status with fth := false } } : State).releaseHeld

/-- Package power removed (R366). -/
def execThermalCut (s : State) : Answer := .next { s with power := { s.power with powered := false, cut := true } }

/-- Every hart stopped where it stands, without an image (R366, R371); its counters and the trace are published (R353,
R354). -/
def State.stopAll (s : State) : State :=
  s.harts.foldl (fun s (h, x) => if x.run.active then s.halt h else s) s

/-- The safe reporting state (R372): `bstate` 15, `dfail`, no live Haze tiles. -/
def State.failDevice (s : State) (stage unit cluster : Nat) : State :=
  let s := s.stopAll.expireClusters 0 128
  { s with status := { s.status with
      bstate := 15, dfail := BitVec.ofNat 32 (unit % 65536 + 65536 * (cluster % 256) + 2 ^ 24 * stage) } }

/-- `arg`: `n` the unit, `unit` the cluster. A device that has failed already keeps its report. -/
def execRailLimit (s : State) : Answer :=
  .next (if s.status.bstate = 15 then s else s.failDevice 6 s.arg.n s.arg.unit)

/-- The firmware has given no heartbeat for 12,000,000 ticks. -/
def execHeartbeatWatchdog (s : State) : Answer :=
  .next (if s.tick < s.power.beat + 12000000 then s
    else ({ s with status := { s.status with fwd := true, fwst := 1 } } : State).forceSafe)

def execFirmwareHeartbeat (s : State) : Answer :=
  .next ({ s with status := { s.status with fwd := false, fwst := 0 }, power := { s.power with beat := s.tick } } : State).releaseHeld

def execFirmwareUpdate (s : State) : Answer :=
  .next ({ s with status := { s.status with fwst := 2 } } : State).forceSafe

/-! ## Reset and bring-up (R369-R372) -/

/-- Power-on reset: everything at its reset value, a thermal cut remembered in `dfail` (R366). What is still to come from
outside, and the counter of free values, are not the device's. -/
def execPowerOnReset (s : State) : Answer :=
  .next { State.reset with
    inputs := s.inputs, fresh := s.fresh,
    status := { Status.init with dfail := if s.power.cut then BitVec.ofNat 32 (7 * 2 ^ 24) else 0 } }

def State.setStage (s : State) (n : Nat) : State := { s with status := { s.status with bstate := BitVec.ofNat 4 n } }

/-- The ROM enters the fetch stage, and on the next event has fetched the image and enters verification. -/
def execBootFetch (s : State) : Answer :=
  .next (if s.status.bstate.toNat < 2 then s.setStage (s.status.bstate.toNat + 1) else s)

/-- The payload's digest is the header's, the key's digest the fused one, and the signature over the header verifies. The
key is the 48-byte x and y of its point (log 40). -/
def bootSigned (im key : List Byte) (fusedKey : Nat) : Bool :=
  sha384 ((im.drop 256).take (fx im 8 8)) = bytesNatBE ((im.drop 0x10).take 48) && key.length = 96 && sha384 key = fusedKey &&
  ecdsaOk (bytesNatBE (key.take 48), bytesNatBE (key.drop 48)) (sha384 (im.take 64))
    (bytesNatBE ((im.drop 0x40).take 48)) (bytesNatBE ((im.drop 0x70).take 48))

/-- The checks of an image (R369); `fused` is the fused rollback counter. -/
def bootImageOk (im key : List Byte) (fusedKey fused : Nat) : Bool :=
  decide (256 ≤ im.length) && fx im 0 4 = 0x4B424C46 && fx im 4 2 = 1 && decide (fused ≤ fx im 6 2) &&
  decide (fx im 8 8 ≤ 64 * 2 ^ 20) && decide (256 + fx im 8 8 ≤ im.length) && ((im.drop 0xA0).take 0x60).all (· = 0) &&
  bootSigned im key fusedKey

/-- `arg`: `bytes` the image, `extra` the public key, `pa` the fused digest of it, `n` the fused rollback counter. A
verified image enters the quick test; any other fails at stage 2. -/
def execBootVerify (s : State) : Answer :=
  .next (if s.status.bstate ≠ 2 then s
    else if bootImageOk s.arg.bytes s.arg.extra s.arg.pa s.arg.n then s.setStage 3
    else s.failDevice 2 0 0)

/-- Quick tests and training done: reduced service. -/
def execQuickTest (s : State) : Answer := .next (if s.status.bstate = 3 then s.setStage 4 else s)

/-- `arg`: `unit` the cluster. The last one asks for full (R369). -/
def execClusterExtendedPass (s : State) : Answer :=
  .next (if s.status.bstate ≠ 4 then s
    else
      let s := { s with status := { s.status with dclus := s.status.dclus ||| BitVec.ofNat 128 (2 ^ (s.arg.unit % 128)) } }
      if s.allPassed then (s.requestPoint true).fullService else s)

/-- `arg`: `n` the unit, `unit` the cluster (R371). -/
def execExtendedTestFail (s : State) : Answer :=
  .next (if s.status.bstate = 4 then s.failDevice 4 s.arg.n s.arg.unit else s)

/-- The 256-byte failure report: its first word is `dfail`, the rest is free (R372, log 48). -/
def State.failReport (s : State) : List Byte :=
  natBytes 4 s.status.dfail.toNat ++ (List.range 252).map Config.failReport

/-- `arg`: `n` the unit, `unit` the cluster. The stage is the one the boot has reached (R369, R372). -/
def execBootStageFail (s : State) : Answer :=
  let b := s.status.bstate.toNat
  .next (if b ≤ 5 then s.failDevice (max 1 b) s.arg.n s.arg.unit else s)

end Sys2Proof.Machine
end

