-- ==== Sys2Proof/Machine/EvHost.lean ====
section
/-!
DEFINITION. The host, the expanders, the Skein fabric and the management windows (R72, R73, R146, R205, R209, R244, R352,
R359, R362, R373-R384).
DEDUCED (readings): logs 39, 41.
-/
namespace Sys2Proof.Machine

/-! ## Host accesses (R373, R374) -/

/-- An access of n bytes lies in the memory BAR2 maps. -/
def bar2Ok (addr n : Nat) : Bool := decide (addr + n ≤ hbmBytes)

/-- `arg`: `addr`, `bytes`. Logged and performed at device scope; beyond the memory, Unsupported Request. -/
def execHostBar2Write (s : State) : Answer :=
  let a := s.arg.addr
  let bs := s.arg.bytes
  .next (if bar2Ok a bs.length then
      let s := s.logInput 1 0 a bs
      { s with mem := memWriteN s.mem (physKey 0 a) bs }
    else { s with reply := none })

/-- The status block's first word (R373). -/
def State.statusWord (s : State) : Nat :=
  let t := s.status
  let p := s.power
  t.bstate.toNat + 16 * boolNat p.full + 32 * boolNat (decide (p.move ≠ .still)) + 256 * (p.vcode % 256) +
    2 ^ 16 * t.fwst.toNat + 2 ^ 18 * boolNat t.fwd + 2 ^ 19 * boolNat t.fth + 2 ^ 20 * boolNat t.clamp +
    2 ^ 22 * t.hzlim.toNat + 2 ^ 24 * boolNat t.ttrip

/-- The Skein ports and the clusters of the device (R1): what names another one is ignored. -/
def portCount : Nat := 128
def clusterCount : Nat := 128

/-- A port (R362, R378). -/
def State.portAt (s : State) (p : Nat) : Port := tget Port.init s.ports p
def State.setPort (s : State) (p : Nat) (x : Port) : State := { s with ports := tset s.ports p x }

/-- The 8-byte register at an aligned BAR0 offset (R61, R362, R373, R378); what is not listed reads zero. -/
def State.bar0 (s : State) (off : Nat) : Nat :=
  if off = 0 then s.statusWord
  else if off = 0x10 then nbits s.status.dclus.toNat 0 64
  else if off = 0x18 then nbits s.status.dclus.toNat 64 64
  else if off = 0x30 then s.status.dfail.toNat
  else if 0x10000 ≤ off && off < 0x12000 then
    let d := s.dieAt ((off - 0x10000) / 0x1000)
    let o := off % 0x1000
    if o = 8 then d.lwcount.toNat
    else if o = 0x10 then d.lwreject.toNat
    else if o = 0x18 then d.lwlast.toNat
    else if 0x20 ≤ o && o < 0x60 then
      let depth := fun (p : Nat) => (d.queues.toList.getD p []).length
      depth ((o - 0x20) / 4) + 2 ^ 32 * depth ((o - 0x20) / 4 + 1)
    else 0
  else if 0x20000 ≤ off && off < 0x20800 then
    let x := s.portAt ((off - 0x20000) / 16)
    if portCount ≤ (off - 0x20000) / 16 then 0
    else if off % 16 = 0 then x.pdig.toNat else x.pmsg.toNat
  else if 0x20800 ≤ off && off < 0x20800 + 8 * portCount then
    let x := s.portAt ((off - 0x20800) / 8)
    boolNat x.lup + 2 * x.llanes.toNat + 65536 * x.pstale.toNat
  else 0

/-- n bytes of BAR0 from an offset. -/
def State.bar0Bytes (s : State) (off n : Nat) : List Byte :=
  (List.range n).map fun i => BitVec.ofNat 8 (nbits (s.bar0 ((off + i) / 8 * 8)) (8 * ((off + i) % 8)) 8)

/-- The failure report's place in PCIe configuration space: a Designated Vendor-Specific Extended Capability with DVSEC ID
0x0A1E (R372). PRESUMED (log 49): the capability's form is PCI Express's (ID 0x0023, version 1, the last of its list; the
vendor ID, which the spec does not print, and the length; the DVSEC ID), with the report behind its 12 bytes of header. -/
def State.dvsec (s : State) : List Byte :=
  natBytes 4 0x10023 ++ [Config.failReport 256, Config.failReport 257] ++ natBytes 2 (16 * (12 + 256)) ++
    natBytes 4 0x0A1E ++ s.failReport

/-- `arg`: `addr`, `n` bytes; `flag` a read of BAR0 instead; `flag2` of the failure report, which stands in two places in the
safe reporting state (R372): with `index` 0 in configuration space, behind its capability's header, else as the ROM monitor
answers it on the management port. Every write posted before the read has performed (R374). -/
def execHostBar2Read (s : State) : Answer :=
  let a := s.arg.addr
  .next { s with reply :=
    if s.arg.flag2 then
      (if s.status.bstate = 15 then some (((if s.arg.index = 0 then s.dvsec else s.failReport).drop a).take s.arg.n) else none)
    else if s.arg.flag then some (s.bar0Bytes a s.arg.n)
    else if bar2Ok a s.arg.n then some (memReadN s.mem (physKey 0 a) s.arg.n) else none }

/-- What an AtomicOp writes over the old value: 0 FetchAdd, 1 Swap, 2 CAS (R374). -/
def hostOp (op bits old x cmp : Nat) : Option Nat :=
  match op with
  | 0 => some ((old + x) % 2 ^ bits)
  | 1 => some x
  | _ => if old = cmp then some x else none

/-- `arg`: `addr`, `index` the operation, `n` the bytes, `w0` the operand, `w1` the value compared with. Other sizes and
addresses that are not aligned complete with Unsupported Request. The bytes it writes come from outside and are logged
(R357, R359). -/
def execHostAtomicop (s : State) : Answer :=
  let a := s.arg.addr
  let n := s.arg.n
  .next (if (n = 4 || n = 8) && s.arg.index ≤ 2 && a % n = 0 && bar2Ok a n then
      let old := s.hbm a n
      let m := 2 ^ (8 * n)
      let s := { s with reply := some (natBytes n old) }
      match hostOp s.arg.index (8 * n) old (s.arg.w0.toNat % m) (s.arg.w1.toNat % m) with
      | some v => (s.logInput 1 0 a (natBytes n v)).setHbm a n v
      | none => s
    else { s with reply := none })

/-- `arg`: `w0` the word written to the status block's first word (R373). -/
def execStatusRw1cWrite (s : State) : Answer :=
  let w := s.arg.w0.toNat
  .next { s with status := { s.status with
    hzlim := s.status.hzlim &&& ~~~(BitVec.ofNat 2 (nbits w 22 2)), ttrip := s.status.ttrip && !nbit w 24 } }

/-- `arg`: `hart`; `flag` poisoned data (source 2, memory) or a completion timeout (source 3, link) (R205, R322). A hart that
waits at a barrier has no access outstanding, and only pre-emption ends that wait (R313). -/
def execHostCompletionTimeout (s : State) : Answer :=
  let h := s.arg.hart
  .next (if (s.hartAt h).run.active && !(s.hartAt h).atBarrier then
      s.takeTrap h 25 (if s.arg.flag then 2 else 3) (s.hartAt h).pc false
    else s)

/-! ## Expanders and fabric (R375, R377, R378) -/

/-- `arg`: `index` the port of the expander. -/
def execCxlLinkDown (s : State) : Answer :=
  .next { s with dev := { s.dev with links := s.dev.links &&& ~~~(BitVec.ofNat 4 (2 ^ (s.arg.index % 4))) } }

/-- The end of a message absorbed, which counts it (R362). -/
def Port.absorb (x : Port) (bs : List Byte) : Port := { x with pdig := crcBytes x.pdig bs, pmsg := x.pmsg + 1 }

/-- The first flit of a message of n bytes: the handle is checked as that of a copy destination, and its backing and phase
are captured (R377, R244, R240); a message that fails the check is counted. The digest absorbs the flit (R362). -/
def State.messageFlit (s : State) (n : Nat) (flit : List Byte) : State :=
  let a := s.arg
  let e := s.handle (handleIndex a.addr)
  let ok := e.hvalid && e.gen = handleGen a.addr && (n = 0 || decide (a.n + n ≤ e.size))
  let x := s.portAt a.unit
  s.setPort a.unit { x with
    pdig := crcBytes x.pdig flit
    pstale := if ok then x.pstale else x.pstale + 1
    msg := some { index := handleIndex a.addr, gen := handleGen a.addr, backing := if a.flag then e.shadow else e.current,
                  phase := e.phase, off := a.n, len := n, pubc := a.flag2, ok := ok } }

/-- The end of a message: the digest absorbs its checksum; one that was not dropped is logged and written into the captured
backing, and with `pubc` the phase flips unless the handle went stale or its phase has changed (R377, R244, R245). -/
def State.messageEnd (s : State) (m : SkeinMsg) (checksum : List Byte) : State :=
  let a := s.arg
  let s := s.setPort a.unit { (s.portAt a.unit).absorb checksum with msg := none }
  if !m.ok then s else
  let s := s.logInput 3 a.unit (m.backing.2 + m.off) a.bytes
  let s := s.putBacking m.backing m.off a.bytes
  let e := s.handle m.index
  if m.pubc && e.hvalid && e.gen = m.gen && e.phase = m.phase then s.flipPhase m.index else s

/-- `arg`: `unit` the port, `addr` the handle, `n` the byte offset, `bytes` the data, `flag` shadow, `flag2` `pubc`. With
`index` 0 the message arrives whole, `extra` its first flit and its payload checksum; with 1 its first flit arrives, `extra`,
of a message of `pa` bytes; with 2 it completes, `extra` its checksum (R377). Messages of a port perform in order: no flit is
taken while one is under way. -/
def State.message (s : State) : State :=
  let a := s.arg
  match a.index, (s.portAt a.unit).msg with
  | 0, none =>
    let s := s.messageFlit a.bytes.length (a.extra.take 32)
    (match (s.portAt a.unit).msg with
      | some m => s.messageEnd m (a.extra.drop 32)
      | none => s)
  | 1, none => s.messageFlit a.pa (a.extra.take 32)
  | 2, some m => if a.bytes.length = m.len then s.messageEnd m a.extra else s
  | _, _ => s

def execSkeinMessage (s : State) : Answer := .next (if s.arg.unit < portCount then s.message else s)

/-- `arg`: `unit` the port, `n` the lanes in use. -/
def execSkeinLinkTrain (s : State) : Answer :=
  .next (if s.arg.unit < portCount then
      s.setPort s.arg.unit { pdig := 0, pmsg := 0, lup := true, llanes := BitVec.ofNat 2 (min 2 s.arg.n), pstale := 0, msg := none }
    else s)

/-- `arg`: `unit` the port. -/
def execSkeinLinkDown (s : State) : Answer :=
  .next (if s.arg.unit < portCount then s.setPort s.arg.unit { s.portAt s.arg.unit with lup := false, msg := none } else s)

/-! ## Cluster management windows (R72, R73, R146, R352, R379) -/

/-- An event of the management window of the cluster `arg.unit` names: a window that does not exist ignores it (R379). -/
def State.window (s : State) (f : State → State) : State := if s.arg.unit < clusterCount then f s else s

/-- The lane groups of a core of a cluster would change under a new partition. -/
def groupsChange (a b : Cluster) (k : Nat) : Bool := a.groups k ≠ b.groups k

/-- `arg`: `unit` the cluster, `w0` the partition: refused whole if it changes the groups of a core in use. -/
def State.lanepartWrite (s : State) : State :=
  let cl := s.arg.unit
  let c := s.clusterAt cl
  let d := { c with own := BitVec.ofNat 16 s.arg.w0.toNat, asg := BitVec.ofNat 8 (nbits s.arg.w0.toNat 16 8) }
  if (List.range 4).any (fun k => groupsChange c d k && s.coreTaken (4 * cl + k) none) then s else s.setCluster cl d

def execLanepartWrite (s : State) : Answer := .next (s.window State.lanepartWrite)

/-- The commands a cluster has accepted never raise a missed promise from now on (R247). -/
def State.exemptCopies (s : State) (cl : Nat) : State :=
  (List.range 8).foldl (fun s i =>
    let h := 8 * cl + i
    let x := s.hartAt h
    if x.slots.toList.any (·.running) || !x.dues.isEmpty then
      s.setHart h { x with dues := [], slots := x.slots.map fun sl => if sl.running then { sl with exempt := true } else sl }
    else s) s

/-- `arg`: `unit` the cluster, `w0` the weights. -/
def execVshareWrite (s : State) : Answer :=
  let cl := s.arg.unit
  .next (s.window fun s =>
    (s.setCluster cl { s.clusterAt cl with vshare := BitVec.ofNat 16 s.arg.w0.toNat, credit := [] }).exemptCopies cl)

/-- `arg`: `unit` the cluster, `w0` the skew. -/
def execVskewWrite (s : State) : Answer :=
  .next (s.window fun s => s.setCluster s.arg.unit { s.clusterAt s.arg.unit with vskew := BitVec.ofNat 4 s.arg.w0.toNat })

/-- A trace control word that breaks R352: reserved bits, or a capacity that is no legal one when classes are enabled. -/
def traceBad (index w : Nat) : Bool :=
  if index = 0 then nbits w 0 12 ≠ 0 || nbits w 52 12 ≠ 0
  else nbits w 5 3 ≠ 0 || nbits w 13 3 ≠ 0 || nbits w 22 2 ≠ 0 || nbits w 25 39 ≠ 0 ||
    (nbits w 8 5 ≠ 0 && !(8 ≤ nbits w 0 5 && nbits w 0 5 ≤ 24))

/-- The header and every counter block zeroed (R352). -/
def State.traceStart (s : State) (cl : Nat) : State :=
  let c := s.clusterAt cl
  let s := s.setCluster cl { c with
    trace := { c.trace with head := 0, drop := 0, lost := false, prev := none, sent := 0, sentAt := s.tick }, counters := Vector.replicate 8 Counters.init }
  { s with mem := memClear s.mem c.trace.base 4096 }

/-- `arg`: `unit` the cluster, `index` 0 for offset 0x00 and 1 for 0x08, `w0` the word; with `rpl` set, `addrs` the sync
events of the recorded logs that have still to perform, hart and stamp, stamps rising (R361). -/
def State.traceWrite (s : State) : State :=
  let cl := s.arg.unit
  let c := s.clusterAt cl
  let w := s.arg.w0.toNat
  if nbits c.trace.w1.toNat 8 5 ≠ 0 || traceBad s.arg.index w then s
  else if s.arg.index = 0 then s.setCluster cl { c with trace := { c.trace with w0 := s.arg.w0 } }
  else
    let w := if 10 ≤ nbits w 16 6 && nbits w 16 6 ≤ 40 then w else nset w 11 1 0
    let s := s.setCluster cl { c with trace := { c.trace with w1 := w64 w } }
    let s := if nbit w 24 then { s with replay := s.arg.addrs } else s
    if nbits w 8 5 ≠ 0 then s.traceStart cl else s

def execTraceControlWrite (s : State) : Answer := .next (s.window State.traceWrite)

/-- `arg`: `unit` the cluster. The range is taken from the registers as they stand (R379). -/
def execShootdownStart (s : State) : Answer :=
  .next (s.window fun s =>
    let c := s.clusterAt s.arg.unit
    let d : Shootdown := { asn := c.sdasn.toNat, va := c.sdva.toNat, pages := c.sdlen.toNat }
    s.setCluster s.arg.unit { c with sdq := c.sdq ++ [d] })

/-- A cached translation falls in a shootdown's range. -/
def Shootdown.hits (d : Shootdown) (cl : Nat) (e : TlbEntry) : Bool :=
  e.cluster = cl && e.asn = d.asn &&
    (d.pages = 0 ||
      (let lo := if e.block then e.vpage * 2 ^ 13 else e.vpage
       let n := if e.block then 2 ^ 13 else 1
       decide (d.va / 65536 < lo + n) && decide (lo < d.va / 65536 + d.pages)))

/-- The oldest shootdown of a cluster completes: every access its harts and its engine have issued has performed and no old
entry stays (R209). -/
def State.shootdown (s : State) (cl : Nat) : State :=
  match (s.clusterAt cl).sdq with
  | [] => s
  | d :: q =>
    let s := s.quiet cl
    { s.setCluster cl { s.clusterAt cl with sdq := q } with tlb := s.tlb.filter fun e => !d.hits cl e }

/-- `arg`: `unit` the cluster. -/
def execShootdownComplete (s : State) : Answer := .next (s.shootdown s.arg.unit)

/-- `arg`: `unit` the cluster. The slot `dbslot` names is asked to stop. -/
def execDbstopWrite (s : State) : Answer :=
  let h := 8 * s.arg.unit + (s.clusterAt s.arg.unit).dbslot.toNat
  let x := s.hartAt h
  .next (if x.run.active then s.setHart h { x with pending := { x.pending with debug := true } } else s)

/-- `acsel` after a read (R379). -/
def nextSel (w : Nat) : Nat :=
  let n := nbits w 8 9
  if n < 511 then nset w 8 9 (n + 1) else nset (nset w 8 9 0) 2 6 (nbits w 2 6 + 1)

/-- `arg`: `unit` the cluster. The read waits while the row has a command (R275). -/
def State.acdataRead (s : State) : State :=
  let cl := s.arg.unit
  let c := s.clusterAt cl
  let w := c.acsel.toNat
  let r := c.rows[nbits w 0 2]'(by unfold nbits; exact Nat.mod_lt _ (by decide))
  if !r.cmds.isEmpty then s
  else
    let v := ((tget [] r.acc (nbits w 2 6)).getD (nbits w 8 9) 0)
    s.setCluster cl { c with acdata := BitVec.ofNat 32 v, acsel := BitVec.ofNat 17 (nextSel w) }

/-- The 8-byte register at an aligned offset of a cluster's management window (R379): what is RW reads back, `sdgo` reads 1
until the shootdown completes, what is not listed reads zero. `acdata` reads as the last read of it left it. -/
def State.windowReg (s : State) (cl off : Nat) : Nat :=
  let c := s.clusterAt cl
  match off with
  | 0x000 => c.own.toNat + 65536 * c.asg.toNat
  | 0x008 => c.vshare.toNat
  | 0x010 => c.vskew.toNat
  | 0x100 => c.trace.w0.toNat
  | 0x108 => c.trace.w1.toNat
  | 0x200 => c.sdasn.toNat
  | 0x208 => c.sdva.toNat
  | 0x210 => c.sdlen.toNat
  | 0x218 => boolNat (!c.sdq.isEmpty)
  | 0x300 => c.dbslot.toNat
  | 0x308 => c.dbstrip.toNat
  | 0x310 => boolNat c.dbarm
  | 0x400 => c.acsel.toNat
  | 0x408 => c.acdata.toNat
  | _ => 0

/-- The registers of the external log and the device table (R380, R384), by offset from the first. -/
def State.deviceReg (s : State) (off : Nat) : Nat :=
  match off with
  | 0x000 => s.xlog.base.toNat
  | 0x008 => s.xlog.size.toNat + 256 * boolNat s.xlog.en
  | 0x010 => s.xlog.shown.toNat
  | 0x018 => s.xlog.tail.toNat
  | 0x020 => s.xlog.drop.toNat
  | 0x100 => s.dev.htbase.toNat + boolNat s.dev.htlk
  | 0x108 => s.dev.hostlim.toNat
  | _ => 0

/-- A read of 8 bytes at an aligned address of the management space; that of `acdata` waits for its row and moves on. -/
def State.mgmtRead (s : State) (a : Nat) : State :=
  let off := a - 0x7F0000000000
  if a < 0x7F0000000000 || a % 8 ≠ 0 then s
  else if off < 65536 * clusterCount then
    let cl := off / 65536
    let c := s.clusterAt cl
    if off % 65536 ≠ 0x408 then { s with reply := some (natBytes 8 (s.windowReg cl (off % 65536))) }
    else if !(c.rows[nbits c.acsel.toNat 0 2]'(by unfold nbits; exact Nat.mod_lt _ (by decide))).cmds.isEmpty then s
    else
      let s := { s with arg := { s.arg with unit := cl } }.acdataRead
      { s with reply := some (natBytes 8 (s.windowReg cl 0x408)) }
  else { s with reply := some (natBytes 8 (s.deviceReg (off - 0x800000))) }

/-- `arg`: `unit` the cluster whose `acdata` is read; with `flag`, a Zenith core's read of the management space at `addr`. -/
def execAcdataRead (s : State) : Answer :=
  .next (if s.arg.flag then s.mgmtRead s.arg.addr else s.window State.acdataRead)

/-- A management or device register written whole (R379, R380, R384). `cl` is the cluster of a window's register. -/
def State.mgmtWrite (s : State) (cl : Nat) (r : MgmtReg) (v : Word) : State :=
  let c := s.clusterAt cl
  let w := v.toNat
  match r with
  | .sdasn => s.setCluster cl { c with sdasn := BitVec.ofNat 16 w }
  | .sdva => s.setCluster cl { c with sdva := w64 (nbits w 16 39 * 65536) }
  | .sdlen => s.setCluster cl { c with sdlen := BitVec.ofNat 48 w }
  | .dbslot => s.setCluster cl { c with dbslot := BitVec.ofNat 3 w }
  | .dbstrip => s.setCluster cl { c with dbstrip := v }
  | .dbarm => s.setCluster cl { c with dbarm := nbit w 0 }
  | .acsel => s.setCluster cl { c with acsel := BitVec.ofNat 17 w }
  | .xltail => { s with xlog := { s.xlog with tail := v } }
  | .htbase =>
    -- bit 0 of the word is `htlk`
    if s.dev.htlk || nbits w 1 15 ≠ 0 || nbits w 52 12 ≠ 0 then s
    else { s with dev := { s.dev with htbase := w64 (w / 65536 * 65536), htlk := nbit w 0 } }
  | .hostlim => if nbits w 0 12 ≠ 0 then s else { s with dev := { s.dev with hostlim := v } }
  | .cxlBytes => { s with dev := { s.dev with cxlBytes := min w (2 ^ 42) } }
  | .nvme =>
    let data := s.arg.addrs.foldl (fun d p => tset d p.1 (BitVec.ofNat 8 p.2)) []
    let space : Namespace := { latency := s.arg.n, rate := w, data := data }
    { s with spaces := tset s.spaces (s.arg.index % 4096) space }

/-- The registers a cluster's management window holds. -/
def inWindow : MgmtReg → Bool
  | .xltail => false | .htbase => false | .hostlim => false | .cxlBytes => false | .nvme => false
  | _ => true

/-- `arg`: `reg`, `unit` the cluster of a window's register, `w0` the value. The device runtime's programming of the
expanders' decoders is `cxlBytes`, `w0` the bytes populated from class-1 address 0 (R375); its registration of a namespace is
`nvme`, `index` the number, `n` the latency, `w0` the rate, `addrs` what it holds, by byte offset (R376). -/
def execRegisterWrite (s : State) : Answer :=
  .next (if inWindow s.arg.reg then s.window fun s => s.mgmtWrite s.arg.unit s.arg.reg s.arg.w0
    else s.mgmtWrite 0 s.arg.reg s.arg.w0)

/-! ## External log and device table (R380, R384, R244) -/

/-- `arg`: `index` 0 for `xlbase`, 1 for `xlsize` and `xlen`; `w0` the word. -/
def State.xlogWrite (s : State) : State :=
  let w := s.arg.w0.toNat
  let x := s.xlog
  if s.arg.index = 0 then
    if x.en || nbits w 0 12 ≠ 0 || nbits w 52 12 ≠ 0 then s else { s with xlog := { x with base := s.arg.w0 } }
  else if nbits w 5 3 ≠ 0 || nbits w 9 55 ≠ 0 then s
  else
    let size := BitVec.ofNat 5 w
    let en := nbit w 8
    if x.en then (if size = x.size then { s with xlog := { x with en := en } } else s)
    else if en then
      (if 16 ≤ size.toNat then { s with xlog := { x with size := size, en := true, head := 0, drop := 0, shown := 0, shownAt := s.tick } } else s)
    else { s with xlog := { x with size := size } }

def execXlogControlWrite (s : State) : Answer := .next s.xlogWrite

def execHtlkWrite (s : State) : Answer := .next { s with dev := { s.dev with htlk := true } }

/-- `arg`: `index` the handle, `n` how far the generation advances, `flag` the new `hvalid` (R211, R244). -/
def execHandleGenerationAdvance (s : State) : Answer :=
  let a := s.handleAt s.arg.index + 16
  let w := s.hbm a 8
  .next (s.setHbm a 8 (nset (nset w 40 16 (nbits w 40 16 + s.arg.n)) 57 1 (boolNat s.arg.flag)))

end Sys2Proof.Machine
end

