-- ==== Sys2Proof/Machine/Choice.lean ====
section
/-!
DEFINITION. Which instruction the machine runs next, and in which state (logs 1, 2, 8): the head of the agenda, else the
hart whose turn it is, else an engine or dispatcher event that is due, else another hart.
DEDUCED (readings): log 20. DESIGN CHOICE: logs 1, 2, 8.
-/
namespace Sys2Proof.Machine

/-! ## Time -/

/-- Time passes (log 2): promises that have passed are marked (R247), trace and log heads that have been pending too long
are published (R354, R380), and the free values move on. -/
def State.passTime (s : State) : State :=
  let s := s.elapse (Config.elapsed s.fresh)
  let s := { s with harts := s.harts.map fun (p : Nat × Hart) => (p.1, p.2.miss s.tick)
                    fresh := s.fresh + 2 ^ 48
                    late := 0 }
  s.publishLate.publishLogLate

/-! ## Events -/

/-- The steps of the table that are events and no instruction of a program. -/
def isEvent (i : Instr) : Bool :=
  match i with
  | .registerWrite | .lwpush | .placement | .preload | .segmentImageCopy | .preloadTimeout | .headBlocking
  | .boundTaskResume | .taskCompletion | .budgetOverrun | .codeObjectLoad | .unforcedUnload | .forcedUnload
  | .queueWake | .queueStall | .wmonWake | .wmonTimeout | .cwaitWake | .cwaitTimeout | .cpyAccept | .copyCompletion
  | .copyFaultStop | .missedPromise | .matrixCommandDone | .mxwaitDone | .hazeTileExpiry | .hazeJunctionLimit
  | .preEmptionRequest | .faultRecordDelivery | .singleStep | .debugStop | .throttleNotice | .resultConfirmation
  | .suspectReexecute | .traceHeadPublish | .xlheadPublish | .powerPointRequest | .railStepDone | .frequencySwitchDone
  | .currentClamp | .thermalForce | .thermalForceClear | .thermalCut | .railLimit | .heartbeatWatchdog
  | .firmwareHeartbeat | .firmwareUpdate | .powerOnReset | .bootFetch | .bootVerify | .quickTest | .clusterExtendedPass
  | .extendedTestFail | .bootStageFail | .hostBar2Write | .hostBar2Read | .hostAtomicop | .statusRw1cWrite
  | .hostCompletionTimeout | .cxlLinkDown | .storageError | .skeinMessage | .skeinLinkTrain | .lanepartWrite
  | .vshareWrite | .vskewWrite | .traceControlWrite | .shootdownStart | .shootdownComplete | .dbstopWrite | .acdataRead
  | .xlogControlWrite | .htlkWrite | .illegalInstruction | .instructionFetchFault | .currentClampClear | .skeinLinkDown
  | .handleGenerationAdvance | .hostHold => true
  | _ => false

/-- The events left in the safe reporting state, where the ROM monitor runs and no other agent: reset, the limits and the
sequencer, which are hardware, and the host's reading of the status block (R366, R372, R373). -/
def runsFailed (i : Instr) : Bool :=
  match i with
  | .powerOnReset | .thermalCut | .thermalForce | .thermalForceClear | .currentClamp | .currentClampClear | .railStepDone
  | .frequencySwitchDone | .railLimit | .heartbeatWatchdog | .hazeJunctionLimit | .hostBar2Read | .statusRw1cWrite => true
  | _ => false

/-- The device has failed (R372). -/
def State.failed (s : State) : Bool := s.status.bstate = 15

/-- An event and what it is supplied with. -/
abbrev Due := Instr × EventArg

/-- What comes before a hart's next instruction: a segment image its accesses could reach (R320), or a cause it takes (R324).
A request that is to land inside an instruction waits for its element. -/
def State.asyncDue (s : State) (h : Nat) : Option Due :=
  let x := s.hartAt h
  match s.segWait h with
  | some (r, g) => some (.segmentImageCopy, { addr := r, index := g })
  | none =>
  if x.lim.isSome then none
  else
    match s.asyncFirst h with
    | none => none
    | some 15 => some (.budgetOverrun, { addr := x.rcb })
    | some 16 => some (.preEmptionRequest, { hart := h })
    | some 11 => some (.missedPromise, { hart := h, index := x.dueSlot.getD 0 })
    | some 20 => some (.singleStep, { hart := h })
    | some 26 => some (.throttleNotice, { hart := h })
    | some _ => some (.debugStop, { hart := h })

/-- The sequencer's step or switch has taken its ticks (R363). -/
def State.powerDue (s : State) : Option Due :=
  if !s.power.due s.tick then none
  else if s.power.stalled then some (.frequencySwitchDone, {})
  else some (.railStepDone, {})

/-- The lowest segment a task still waits for that can be copied now. -/
def State.segDue (s : State) (rcb : Nat) (t : Task) : Option Nat :=
  if t.phase = .preloaded || t.phase = .placed then
    (List.range 8).find? fun g => nbit t.toCopy g && !s.segBusy rcb t g
  else none

/-- A die whose dispatcher has something to do without a new instantiation's addresses: a task to place or reject, a head to
pass over, a running task to ask (R66-R68). -/
def State.dieDue (s : State) : Option Nat :=
  if !s.dispatching then none else
  [0, 1].find? fun die =>
    (s.preloadPlaced die {}).isSome || s.scanDue die ((List.range 16).map (15 - ·))

/-- A hart is to take queue stall (R100). -/
def State.stallDue (s : State) (h : Nat) : Bool :=
  s.stillWaits h &&
    (s.partnerEnded h || (s.isSplit h && s.stillWaits (partnerOf h) &&
      (match s.queueOf h, s.queueOf (partnerOf h) with
        | some (_, a), some (_, b) => decide (a + 2 ^ 20 ≤ s.tick) && decide (b + 2 ^ 20 ≤ s.tick)
        | _, _ => false)))

/-- A head that has been passed over long enough to block (R67). -/
def State.headDue (s : State) : Option (Nat × Nat) :=
  [0, 1].findSome? fun die => ((List.range 16).find? fun p =>
    !(s.headState die p).blocking && s.headStuck die p).map fun p => (die, p)

/-- An engine or dispatcher event that is due, with its argument. -/
def State.eventDue (s : State) : Option Due :=
  if s.power.beat + 12000000 ≤ s.tick ∧ s.status.fwd = false then some (.heartbeatWatchdog, {}) else
  match s.headDue with
  | some (die, p) => some (.headBlocking, { unit := die, n := p })
  | none =>
  match s.tasks.find? fun (_, t) => t.phase = .preloaded && decide (1200000 < s.tick - t.preAt) with
  | some (r, _) => some (.preloadTimeout, { addr := r })
  | none =>
  match s.tasks.find? fun (r, t) =>
      (t.phase = .bound || (t.phase = .orphaned && !t.notified)) && s.canResume r t with
  | some (r, _) => some (.boundTaskResume, { addr := r })
  | none =>
  match s.tasks.findSome? fun (r, t) => (s.segDue r t).map fun g => (r, g) with
  | some (r, g) => some (.segmentImageCopy, { addr := r, index := g })
  | none =>
  match s.harts.findSome? fun (h, x) =>
      (x.slots.toList.findIdx? fun sl => match sl.cmd with | some c => !s.pubHeld h c | none => false).map fun n => (h, n) with
  | some (h, n) => some (.copyCompletion, { hart := h, index := n })
  | none =>
  match s.clusters.findSome? fun (c, x) => (x.rows.toList.findIdx? fun r => !r.cmds.isEmpty && !s.landHeld r).map fun n => (c, n) with
  | some (c, n) => some (.matrixCommandDone, { unit := c, index := n })
  | none =>
  match s.harts.findSome? fun (h, x) =>
      (x.stores.head?.filter fun q => !(q.rel && s.replayHolds h)).map fun q => (h, q.slice) with
  | some (h, j) => some (.resultConfirmation, { hart := h, index := j })
  | none =>
  if (s.dueRecord s.records).isSome then some (.faultRecordDelivery, {}) else
  match s.tasks.find? fun (r, t) => !t.dying && (t.phase = .running || t.phase = .bound) && s.allEnded r t && !s.engineHolds r t with
  | some (r, _) => some (.taskCompletion, { addr := r })
  | none =>
  match s.codes.find? fun (i, o) => o.unloading && !s.harts.any fun (h, _) => s.unloadWaits i ((o.gen + 65535) % 65536) h with
  | some (i, _) => some (.forcedUnload, { index := i })
  | none =>
  match s.clusters.find? fun (_, x) => !x.sdq.isEmpty with
  | some (c, _) => some (.shootdownComplete, { unit := c })
  | none =>
  match s.harts.find? fun (h, _) => s.stallDue h with
  | some (h, _) => some (.queueStall, { hart := h })
  | none => s.dieDue.map fun d => (.placement, { unit := d })

/-! ## A hart's turn -/

/-- What runs: an instruction or event, or nothing, and the state it runs in. -/
abbrev Plan := Option Instr × State

/-- An event as a plan. -/
def State.planEvent (s : State) (d : Due) : Plan := (some d.1, { s with arg := d.2 })

/-- The instruction at the PC: fetched, decoded, or the event of the trap its fetch or its encoding raises (R45, R46, R59). -/
def State.planFetch (s : State) : Plan :=
  match s.fetchNext with
  | (_, .error _) => s.planEvent (.instructionFetchFault, { hart := s.turn })
  | (_, .ok (_, none)) => s.planEvent (.illegalInstruction, { hart := s.turn })
  | (t, .ok (_, some i)) => (some i, t)

/-- The turn of hart `turn`: a due cause, the instruction it waits in, or the next one. While the frequency switches, no
pipe serves it (R363). -/
def State.planHart (s : State) : Plan :=
  if s.failed || s.power.stalled || !s.cur.run.active then (none, s)
  else
    match s.asyncDue s.turn with
    | some d => s.planEvent d
    | none =>
      match s.cur.run with
      | .waiting w => (some w.instr, s)
      | _ => s.planFetch

/-- The harts after `turn` in number, then those up to it. -/
def State.others (s : State) : List (Nat × Hart) :=
  (s.harts.filter fun p => s.turn < p.1) ++ s.harts.filter fun p => p.1 ≤ s.turn

/-- With nothing on the agenda: a step of the sequencer that is due, the hart whose turn it is while it runs, an event that
is due, another running hart, the next waiting one. -/
def State.planFree (s : State) : Plan :=
  match s.powerDue with
  | some d => s.planEvent d
  | none =>
  if s.failed then (none, s)
  else if s.cur.run = .running then s.planHart
  else
    match s.eventDue with
    | some d => s.planEvent d
    | none =>
      match s.others.find? fun p => p.2.run = .running with
      | some (h, _) => ({ s with turn := h } : State).planHart
      | none =>
        match s.others.find? fun p => p.2.run.active with
        | some (h, _) => ({ s with turn := h } : State).planHart
        | none => (none, s)

/-- What the step runs, or the fault of a package without power (R366). -/
def State.plan (s : State) : Except Fault Plan :=
  let s := s.passTime
  match s.inputs with
  | .event i a :: rest =>
    let t := { s with inputs := rest, arg := a }
    if !s.power.powered && i ≠ .powerOnReset then .error .powerRemoved
    else if isEvent i && (!s.failed || runsFailed i) then .ok (some i, t)
    else .ok (none, t)
  | .hart h :: rest =>
    if !s.power.powered then .error .powerRemoved
    else .ok ({ s with inputs := rest, turn := h } : State).planHart
  | .late h m :: rest =>
    if !s.power.powered then .error .powerRemoved
    else .ok ({ s with inputs := rest, turn := h, late := m } : State).planHart
  | [] => if !s.power.powered then .error .powerRemoved else .ok s.planFree

/-! ## Replay (R361) -/

/-- The hart that moves while another's step is held back: the one whose event comes next in the recorded logs, or another
running one. -/
def State.replayTurn (s : State) : Nat :=
  match (s.replay.find? fun e => e.1 ≠ extAgent && (s.hartAt e.1).run = .running) with
  | some e => e.1
  | none => ((s.others.find? fun p => p.2.run = .running).map (·.1)).getD s.turn

/-- The outcome of a step in a replay: one that would perform an event of the recorded logs before one of a smaller stamp
has not performed yet, and another hart moves instead. -/
def State.inOrder (s : State) (r : Answer) : Answer :=
  match r with
  | .next t => if s.outOfOrder t then .next { s with turn := s.replayTurn } else r
  | r => r

/-! ## Placing an instruction (log 8) -/

/-- Where `withFetchWord` puts the instruction: the first page of the code range. -/
def fetchVa : Nat := 2 ^ 54

/-- The physical place of two page tables and a page, away from a root table. -/
def fetchBase (root : Nat) : Nat := if root < 0x40000 then 0x40000 else 0x10000

/-- A hart ready to fetch at `fetchVa`, nothing pending. -/
def Hart.ready (x : Hart) : Hart :=
  { x with
    run := .running, pc := w64 fetchVa, pending := Pending.init, lim := none, resuming := false, ptaken := false,
    tr := { x.tr with ppend := false }, dues := [] }

/-- Bytes at `fetchVa`, mapped with read and execute permission in the page tables that the running hart's fetch walks
(R207), and no cached leaf. -/
def State.putCode (s : State) (bs : List Byte) : State :=
  let root := (s.ctxOf s.turn).root
  let b := fetchBase root
  let s := ((s.setHbm (root + 0x8000) 8 (b + 1)).setHbm b 8 (b + 0x10001)).setHbm (b + 0x10000) 8 (b + 0x20017)
  { s with mem := memWriteN s.mem (b + 0x20000) bs, tlb := [] }

end Sys2Proof.Machine
end

