-- ==== Sys2Proof/Machine/ScalarFloat.lean ====
section
/-!
DEFINITION. Scalar floating point (R94-R96).
-/
namespace Sys2Proof.Machine

def fmtOf (dbl : Bool) : Fmt := if dbl then .b64 else .b32

/-- A source operand: a `.s` form reads bits [31:0] (R94). -/
def State.fsrc (s : State) (dbl : Bool) (r : Reg) : Nat := if dbl then (s.g r).toNat else (s.g r).toNat % 2 ^ 32

def State.fval (s : State) (dbl : Bool) (r : Reg) : Exact := (fmtOf dbl).decode (s.fsrc dbl r)

/-- An exact result with its flags, rounded once by `rm` into g[d]. -/
def fround (s : State) (dbl : Bool) (d : Reg) (r : Exact × Nat) : Eff :=
  let (bits, fl) := (fmtOf dbl).round s.rm false r.1
  fpEff s d (w64 bits) (r.2 ||| fl)

/-- A comparison's 0 or 1. -/
def fcmp (s : State) (d : Reg) (r : Bool × Nat) : Eff := fpEff s d (boolWord r.1) r.2
where boolWord (b : Bool) : Word := if b then 1 else 0

def execFadd (z : Bool) (d a b : Reg) (s : State) :=
  commit (.fadd z d a b) 4 (fround s z d ((s.fval z a).add s.rm (s.fval z b)))
def execFsub (z : Bool) (d a b : Reg) (s : State) :=
  commit (.fsub z d a b) 4 (fround s z d ((s.fval z a).add s.rm (s.fval z b).negate))
def execFmul (z : Bool) (d a b : Reg) (s : State) :=
  commit (.fmul z d a b) 4 (fround s z d ((s.fval z a).mul (s.fval z b)))
def execFdiv (z : Bool) (d a b : Reg) (s : State) :=
  commit (.fdiv z d a b) 4 (fround s z d ((s.fval z a).div (s.fval z b)))
def execFsqrt (z : Bool) (d a : Reg) (s : State) := commit (.fsqrt z d a) 4 (fround s z d (s.fval z a).sqrt)
def execFma (z : Bool) (d a b : Reg) (s : State) :=
  commit (.fma z d a b) 4 (fround s z d (Exact.fma s.rm (s.fval z a) (s.fval z b) (s.fval z d)))
def execFmin (z : Bool) (d a b : Reg) (s : State) :=
  commit (.fmin z d a b) 4 (fround s z d (Exact.minMax false (s.fval z a) (s.fval z b)))
def execFmax (z : Bool) (d a b : Reg) (s : State) :=
  commit (.fmax z d a b) 4 (fround s z d (Exact.minMax true (s.fval z a) (s.fval z b)))
def execFceq (z : Bool) (d a b : Reg) (s : State) :=
  commit (.fceq z d a b) 4 (fcmp s d ((s.fval z a).compare (s.fval z b) true condEq))
def execFclt (z : Bool) (d a b : Reg) (s : State) :=
  commit (.fclt z d a b) 4 (fcmp s d ((s.fval z a).compare (s.fval z b) false condLt))
def execFcle (z : Bool) (d a b : Reg) (s : State) :=
  commit (.fcle z d a b) 4 (fcmp s d ((s.fval z a).compare (s.fval z b) false condLe))

/-- To the other size; `z` names the source's (R95). -/
def execFcvtSize (z : Bool) (d a : Reg) (s : State) :=
  commit (.fcvtSize z d a) 4 (fround s (!z) d (s.fval z a, 0))

/-- x · 2^k. -/
def Exact.scaleBy (x : Exact) (k : Int) : Exact :=
  match x with
  | .num n m e st => .num n m (e + k) st
  | y => y

/-- To signed 64-bit fixed point: round(a × 2^f) by `rm` (R95). -/
def execFcvtToFixed (z : Bool) (d a : Reg) (f : BitVec 5) (s : State) :=
  let (v, fl) := roundInt true 64 s.rm ((s.fval z a).scaleBy f.toNat)
  commit (.fcvtToFixed z d a f) 4 (fpEff s d (w64 v) fl)

/-- From signed and unsigned fixed point: g[a] × 2^−f, rounded once (R95). -/
def execFcvtFromSigned (z : Bool) (d a : Reg) (f : BitVec 5) (s : State) :=
  commit (.fcvtFromSigned z d a f) 4 (fround s z d (.ofIntE (s.g a).toInt (-(f.toNat : Int)), 0))
def execFcvtFromUnsigned (z : Bool) (d a : Reg) (f : BitVec 5) (s : State) :=
  commit (.fcvtFromUnsigned z d a f) 4 (fround s z d (.ofIntE (s.g a).toNat (-(f.toNat : Int)), 0))

/-- The class mask; no flags (R94). -/
def execFclass (z : Bool) (d a : Reg) (s : State) :=
  commit (.fclass z d a) 4 (.done (s.setG d (w64 ((fmtOf z).classOf (s.fsrc z a)))))

end Sys2Proof.Machine
end

