-- ==== Sys2Proof/Machine/VConfig.lean ====
section
/-!
DEFINITION. The configuration instructions, unit 12 (R131, R132, R139, R140), with the debugger's strip stop (R356).
DEDUCED (readings): log 29.
-/
namespace Sys2Proof.Machine

/-- The hart is the access hart of a split task (R132). -/
def State.isAccess (s : State) : Bool := s.isSplit s.turn && slotOf s.turn = 0

/-- A pending declaration that would change the one in force (R131). -/
def State.declPending (s : State) : Bool := s.cur.vec.pend ≠ s.cur.vec.cur

/-- A vector queue of the core holds or is assembling an image (R132). -/
def State.vqBusy (s : State) : Bool :=
  let k := s.coreAt (coreOf s.turn)
  k.vq.toList.any (fun q => !q.isEmpty) || k.part.toList.any Option.isSome

/-- The pending declaration applied. -/
def State.applyDecl (s : State) : State :=
  if s.declPending then (s.setCur { s.cur with vec := s.cur.vec.declare s.cur.vec.cur s.cur.vec.pend }).dirtyV else s

/-- A new strip of granted length `n` (R139, R353, R355). -/
def State.beginStrip (s : State) (n : Nat) : State :=
  let x := s.cur
  let s := (s.setCur { x with vec := { x.vec with strip := x.vec.strip + 1, stripaddr := x.pc } }).dirtyV
  let s := s.count s.turn fun k => { k with kstrip := k.kstrip + 1 }
  let s := if (s.clusterAt (clusterOf s.turn)).trace.on 8 then
      s.recordPair s.turn 1 n s.cur.vec.stripaddr.toNat s.cur.vec.strip.toNat
    else s
  s.publishCounters s.turn

/-- The armed strip ordinal is the one the instruction would begin (R356, R379). -/
def State.stripStop (s : State) : Bool :=
  let c := s.clusterAt (clusterOf s.turn)
  c.dbarm && c.dbslot.toNat = s.turn % 8 && s.cur.vec.strip + 1 = c.dbstrip

/-- Lane groups of the hart that no element below `vl` uses (R147). -/
def State.gateGroups (s : State) : State :=
  let all := 2 ^ s.laneGroups s.turn - 1
  s.setCur { s.cur with gated := s.cur.gated ||| BitVec.ofNat 8 (all &&& (255 - s.usedGroups)) }

/-- `vset` and `vsetb`: `set` writes the length and answers it. -/
def vsetEff (s : State) (d : Reg) (set : State → State × Nat) : Eff :=
  match s.vecIssue with
  | some c => .trap s c 0
  | none =>
    if s.isExec s.turn && s.declPending && s.vqBusy then .trap s 2 0
    else if s.stripStop && !s.cur.tr.hl then .out (s.takeTrap s.turn 19 0x1000 s.cur.pc false)
    else
      let s := if s.stripStop then s.setCur { s.cur with pending := { s.cur.pending with debug := true } } else s
      let s := if s.isAccess then s else s.applyDecl
      let (s, n) := set s
      .done ((s.beginStrip n).setG d (w64 n))

def execVset (d a : Reg) (s : State) :=
  commit (.vset d a) 8 (vsetEff s d fun u =>
    let n := min (s.g a).toNat (u.vlmaxOf u.turn)
    ((u.setCur { u.cur with vec := { u.cur.vec with vl := w64 n } }).gateGroups, n))
def execVsetb (d a : Reg) (s : State) :=
  commit (.vsetb d a) 8 (vsetEff s d fun u =>
    let n := min (s.g a).toNat (u.vbits u.turn * u.vt.grp)
    (u.setCur { u.cur with vec := { u.cur.vec with vlb := w64 n } }, n))

/-- `vdecl`. -/
def vdeclEff (s : State) (code : BitVec 2) : Eff :=
  match s.vecIssue with
  | some c => .trap s c 0
  | none =>
    if s.isAccess then .trap s 2 0
    else .done (s.setCur { s.cur with vec := { s.cur.vec with pend := code } }).dirtyV

def execVdecl1 (s : State) := commit .vdecl1 8 (vdeclEff s 0)
def execVdecl2 (s : State) := commit .vdecl2 8 (vdeclEff s 1)
def execVdecl4 (s : State) := commit .vdecl4 8 (vdeclEff s 2)

/-- `vcfg`: a refused `vtype` is an illegal instruction, the first of R47's checks. -/
def vcfgEff (s : State) (d a : Reg) : Eff :=
  let w := s.g a
  if !vtypeLegal w.toNat then .trap s 1 (instrWord (.vcfg d a))
  else
    match s.vecIssue with
    | some c => .trap s c 0
    | none =>
      let u := (s.setCur { s.cur with vec := { s.cur.vec with vtype := w } }).dirtyV
      let vl := min u.cur.vec.vl.toNat (u.vlmaxOf u.turn)
      let vlb := min u.cur.vec.vlb.toNat (u.vbits u.turn * u.vt.grp)
      .done ((u.setCur { u.cur with vec := { u.cur.vec with vl := w64 vl, vlb := w64 vlb } }).setG d (w64 vl))
def execVcfg (d a : Reg) (s : State) := commit (.vcfg d a) 8 (vcfgEff s d a)

end Sys2Proof.Machine
end

