-- ==== Sys2Proof/Machine/Dispatch.lean ====
section
/-!
DEFINITION. One arm for each instruction and event: a direct call of its meaning.
-/
namespace Sys2Proof.Machine

/-- The meaning of an instruction at a state: the hart `turn` runs it; an event acts with the state's `arg`. -/
def exec (i : Instr) (s : State) : Host.Outcome State Fault Refusal :=
  match i with
  | .add d a b => Sys2Proof.Machine.execAdd d a b s
  | .sub d a b => Sys2Proof.Machine.execSub d a b s
  | .and d a b => Sys2Proof.Machine.execAnd d a b s
  | .or d a b => Sys2Proof.Machine.execOr d a b s
  | .xor d a b => Sys2Proof.Machine.execXor d a b s
  | .andn d a b => Sys2Proof.Machine.execAndn d a b s
  | .orn d a b => Sys2Proof.Machine.execOrn d a b s
  | .shl d a b => Sys2Proof.Machine.execShl d a b s
  | .shr d a b => Sys2Proof.Machine.execShr d a b s
  | .sar d a b => Sys2Proof.Machine.execSar d a b s
  | .rotl d a b => Sys2Proof.Machine.execRotl d a b s
  | .clt d a b => Sys2Proof.Machine.execClt d a b s
  | .cltu d a b => Sys2Proof.Machine.execCltu d a b s
  | .ceq d a b => Sys2Proof.Machine.execCeq d a b s
  | .mul d a b => Sys2Proof.Machine.execMul d a b s
  | .mulh d a b => Sys2Proof.Machine.execMulh d a b s
  | .mulhu d a b => Sys2Proof.Machine.execMulhu d a b s
  | .div d a b => Sys2Proof.Machine.execDiv d a b s
  | .divu d a b => Sys2Proof.Machine.execDivu d a b s
  | .mod d a b => Sys2Proof.Machine.execMod d a b s
  | .modu d a b => Sys2Proof.Machine.execModu d a b s
  | .min d a b => Sys2Proof.Machine.execMin d a b s
  | .max d a b => Sys2Proof.Machine.execMax d a b s
  | .minu d a b => Sys2Proof.Machine.execMinu d a b s
  | .maxu d a b => Sys2Proof.Machine.execMaxu d a b s
  | .clz d a => Sys2Proof.Machine.execClz d a s
  | .ctz d a => Sys2Proof.Machine.execCtz d a s
  | .pop d a => Sys2Proof.Machine.execPop d a s
  | .sext8 d a => Sys2Proof.Machine.execSext8 d a s
  | .sext16 d a => Sys2Proof.Machine.execSext16 d a s
  | .sext32 d a => Sys2Proof.Machine.execSext32 d a s
  | .zext32 d a => Sys2Proof.Machine.execZext32 d a s
  | .andi d a imm => Sys2Proof.Machine.execAndi d a imm s
  | .ori d a imm => Sys2Proof.Machine.execOri d a imm s
  | .xori d a imm => Sys2Proof.Machine.execXori d a imm s
  | .clti d a imm => Sys2Proof.Machine.execClti d a imm s
  | .shli d a sh => Sys2Proof.Machine.execShli d a sh s
  | .shri d a sh => Sys2Proof.Machine.execShri d a sh s
  | .sari d a sh => Sys2Proof.Machine.execSari d a sh s
  | .addi d a imm => Sys2Proof.Machine.execAddi d a imm s
  | .ldb d a imm => Sys2Proof.Machine.execLdb d a imm s
  | .ldbu d a imm => Sys2Proof.Machine.execLdbu d a imm s
  | .ldh d a imm => Sys2Proof.Machine.execLdh d a imm s
  | .ldhu d a imm => Sys2Proof.Machine.execLdhu d a imm s
  | .ldw d a imm => Sys2Proof.Machine.execLdw d a imm s
  | .ldwu d a imm => Sys2Proof.Machine.execLdwu d a imm s
  | .ldd d a imm => Sys2Proof.Machine.execLdd d a imm s
  | .stb sr a imm => Sys2Proof.Machine.execStb sr a imm s
  | .sth sr a imm => Sys2Proof.Machine.execSth sr a imm s
  | .stw sr a imm => Sys2Proof.Machine.execStw sr a imm s
  | .std sr a imm => Sys2Proof.Machine.execStd sr a imm s
  | .beq a b imm => Sys2Proof.Machine.execBeq a b imm s
  | .bne a b imm => Sys2Proof.Machine.execBne a b imm s
  | .blt a b imm => Sys2Proof.Machine.execBlt a b imm s
  | .bge a b imm => Sys2Proof.Machine.execBge a b imm s
  | .bltu a b imm => Sys2Proof.Machine.execBltu a b imm s
  | .bgeu a b imm => Sys2Proof.Machine.execBgeu a b imm s
  | .jal d imm => Sys2Proof.Machine.execJal d imm s
  | .jr d a imm => Sys2Proof.Machine.execJr d a imm s
  | .lih d imm => Sys2Proof.Machine.execLih d imm s
  | .pcrel d imm => Sys2Proof.Machine.execPcrel d imm s
  | .fadd dbl d a b => Sys2Proof.Machine.execFadd dbl d a b s
  | .fsub dbl d a b => Sys2Proof.Machine.execFsub dbl d a b s
  | .fmul dbl d a b => Sys2Proof.Machine.execFmul dbl d a b s
  | .fdiv dbl d a b => Sys2Proof.Machine.execFdiv dbl d a b s
  | .fsqrt dbl d a => Sys2Proof.Machine.execFsqrt dbl d a s
  | .fma dbl d a b => Sys2Proof.Machine.execFma dbl d a b s
  | .fmin dbl d a b => Sys2Proof.Machine.execFmin dbl d a b s
  | .fmax dbl d a b => Sys2Proof.Machine.execFmax dbl d a b s
  | .fceq dbl d a b => Sys2Proof.Machine.execFceq dbl d a b s
  | .fclt dbl d a b => Sys2Proof.Machine.execFclt dbl d a b s
  | .fcle dbl d a b => Sys2Proof.Machine.execFcle dbl d a b s
  | .fcvtSize dbl d a => Sys2Proof.Machine.execFcvtSize dbl d a s
  | .fcvtToFixed dbl d a f => Sys2Proof.Machine.execFcvtToFixed dbl d a f s
  | .fcvtFromSigned dbl d a f => Sys2Proof.Machine.execFcvtFromSigned dbl d a f s
  | .fcvtFromUnsigned dbl d a f => Sys2Proof.Machine.execFcvtFromUnsigned dbl d a f s
  | .fclass dbl d a => Sys2Proof.Machine.execFclass dbl d a s
  | .amoSwap sz8 ord d a b => Sys2Proof.Machine.execAmoSwap sz8 ord d a b s
  | .amoAdd sz8 ord d a b => Sys2Proof.Machine.execAmoAdd sz8 ord d a b s
  | .amoAnd sz8 ord d a b => Sys2Proof.Machine.execAmoAnd sz8 ord d a b s
  | .amoOr sz8 ord d a b => Sys2Proof.Machine.execAmoOr sz8 ord d a b s
  | .amoXor sz8 ord d a b => Sys2Proof.Machine.execAmoXor sz8 ord d a b s
  | .amoMin sz8 ord d a b => Sys2Proof.Machine.execAmoMin sz8 ord d a b s
  | .amoMax sz8 ord d a b => Sys2Proof.Machine.execAmoMax sz8 ord d a b s
  | .amoMinu sz8 ord d a b => Sys2Proof.Machine.execAmoMinu sz8 ord d a b s
  | .amoMaxu sz8 ord d a b => Sys2Proof.Machine.execAmoMaxu sz8 ord d a b s
  | .amoCas sz8 ord d a b => Sys2Proof.Machine.execAmoCas sz8 ord d a b s
  | .amoAddq ord d a b => Sys2Proof.Machine.execAmoAddq ord d a b s
  | .sget d n => Sys2Proof.Machine.execSget d n s
  | .sset n a => Sys2Proof.Machine.execSset n a s
  | .sswap d n a => Sys2Proof.Machine.execSswap d n a s
  | .trap n => Sys2Proof.Machine.execTrap n s
  | .trapRerun d a => Sys2Proof.Machine.execTrapRerun d a s
  | .trapDispose d a => Sys2Proof.Machine.execTrapDispose d a s
  | .tretTask d a => Sys2Proof.Machine.execTretTask d a s
  | .brkpt n => Sys2Proof.Machine.execBrkpt n s
  | .qsend q a => Sys2Proof.Machine.execQsend q a s
  | .qrecv d q => Sys2Proof.Machine.execQrecv d q s
  | .qflag a => Sys2Proof.Machine.execQflag a s
  | .bqz imm => Sys2Proof.Machine.execBqz imm s
  | .bqnz imm => Sys2Proof.Machine.execBqnz imm s
  | .spawn d a => Sys2Proof.Machine.execSpawn d a s
  | .yield d => Sys2Proof.Machine.execYield d s
  | .bar id dev a => Sys2Proof.Machine.execBar id dev a s
  | .ldAcq sz scope d a => Sys2Proof.Machine.execLdAcq sz scope d a s
  | .stRel sz scope sr a => Sys2Proof.Machine.execStRel sz scope sr a s
  | .wmon sz scope t d a => Sys2Proof.Machine.execWmon sz scope t d a s
  | .cpy d a n => Sys2Proof.Machine.execCpy d a n s
  | .cwait d a n => Sys2Proof.Machine.execCwait d a n s
  | .cstat d w n => Sys2Proof.Machine.execCstat d w n s
  | .ccan d n => Sys2Proof.Machine.execCcan d n s
  | .cvh cnt chain u2 u3 u4 u5 u6 => Sys2Proof.Machine.execCvh cnt chain u2 u3 u4 u5 u6 s
  | .cAdd vd vb m => Sys2Proof.Machine.execCAdd vd vb m s
  | .cSub vd vb m => Sys2Proof.Machine.execCSub vd vb m s
  | .cMul vd vb m => Sys2Proof.Machine.execCMul vd vb m s
  | .cFma vd vb m => Sys2Proof.Machine.execCFma vd vb m s
  | .cMin vd vb m => Sys2Proof.Machine.execCMin vd vb m s
  | .cMax vd vb m => Sys2Proof.Machine.execCMax vd vb m s
  | .cAnd vd vb m => Sys2Proof.Machine.execCAnd vd vb m s
  | .cXor vd vb m => Sys2Proof.Machine.execCXor vd vb m s
  | .cExp2 vd vb m => Sys2Proof.Machine.execCExp2 vd vb m s
  | .cMv vd vb m => Sys2Proof.Machine.execCMv vd vb m s
  | .vadd vd va b m => Sys2Proof.Machine.execVadd vd va b m s
  | .vsub vd va b m => Sys2Proof.Machine.execVsub vd va b m s
  | .vrsb vd va b m => Sys2Proof.Machine.execVrsb vd va b m s
  | .vmin vd va b m => Sys2Proof.Machine.execVmin vd va b m s
  | .vmax vd va b m => Sys2Proof.Machine.execVmax vd va b m s
  | .vand vd va b m => Sys2Proof.Machine.execVand vd va b m s
  | .vor vd va b m => Sys2Proof.Machine.execVor vd va b m s
  | .vxor vd va b m => Sys2Proof.Machine.execVxor vd va b m s
  | .vandn vd va b m => Sys2Proof.Machine.execVandn vd va b m s
  | .vshl vd va b m => Sys2Proof.Machine.execVshl vd va b m s
  | .vshr vd va b m => Sys2Proof.Machine.execVshr vd va b m s
  | .vsar vd va b m => Sys2Proof.Machine.execVsar vd va b m s
  | .vabs vd va m => Sys2Proof.Machine.execVabs vd va m s
  | .vneg vd va m => Sys2Proof.Machine.execVneg vd va m s
  | .vclamp vd va b c m => Sys2Proof.Machine.execVclamp vd va b c m s
  | .vcvt vd va st m => Sys2Proof.Machine.execVcvt vd va st m s
  | .vcvtSb vd va st g m => Sys2Proof.Machine.execVcvtSb vd va st g m s
  | .vscl vd va b m => Sys2Proof.Machine.execVscl vd va b m s
  | .vcmp md va b cond m => Sys2Proof.Machine.execVcmp md va b cond m s
  | .vsel vd va vb mk => Sys2Proof.Machine.execVsel vd va vb mk s
  | .vmv vd va m => Sys2Proof.Machine.execVmv vd va m s
  | .vdup vd b m => Sys2Proof.Machine.execVdup vd b m s
  | .vid vd m => Sys2Proof.Machine.execVid vd m s
  | .vmul vd va b m => Sys2Proof.Machine.execVmul vd va b m s
  | .vmulh vd va b m => Sys2Proof.Machine.execVmulh vd va b m s
  | .vfma vd va b m => Sys2Proof.Machine.execVfma vd va b m s
  | .vfms vd va b m => Sys2Proof.Machine.execVfms vd va b m s
  | .vfnma vd va b m => Sys2Proof.Machine.execVfnma vd va b m s
  | .vdiv vd va b m => Sys2Proof.Machine.execVdiv vd va b m s
  | .vmod vd va b m => Sys2Proof.Machine.execVmod vd va b m s
  | .vsqrt vd va m => Sys2Proof.Machine.execVsqrt vd va m s
  | .vexp2 vd va m => Sys2Proof.Machine.execVexp2 vd va m s
  | .vlog2 vd va m => Sys2Proof.Machine.execVlog2 vd va m s
  | .vrcp vd va m => Sys2Proof.Machine.execVrcp vd va m s
  | .vrsq vd va m => Sys2Proof.Machine.execVrsq vd va m s
  | .vsinpi vd va m => Sys2Proof.Machine.execVsinpi vd va m s
  | .vcospi vd va m => Sys2Proof.Machine.execVcospi vd va m s
  | .vtanh vd va m => Sys2Proof.Machine.execVtanh vd va m s
  | .vsigm vd va m => Sys2Proof.Machine.execVsigm vd va m s
  | .vgelu vd va m => Sys2Proof.Machine.execVgelu vd va m s
  | .vsilu vd va m => Sys2Proof.Machine.execVsilu vd va m s
  | .vld vd a imm m => Sys2Proof.Machine.execVld vd a imm m s
  | .vlds vd a b imm m => Sys2Proof.Machine.execVlds vd a b imm m s
  | .vldx vd a vb iw sc m => Sys2Proof.Machine.execVldx vd a vb iw sc m s
  | .vldxC vd vb m => Sys2Proof.Machine.execVldxC vd vb m s
  | .vldff vd a imm m => Sys2Proof.Machine.execVldff vd a imm m s
  | .vlsc b8 f a b c => Sys2Proof.Machine.execVlsc b8 f a b c s
  | .vldreg vd a imm => Sys2Proof.Machine.execVldreg vd a imm s
  | .pref t a b imm => Sys2Proof.Machine.execPref t a b imm s
  | .vst vs a imm m => Sys2Proof.Machine.execVst vs a imm m s
  | .vsts vs a b imm m => Sys2Proof.Machine.execVsts vs a b imm m s
  | .vstx vs a vb iw sc m => Sys2Proof.Machine.execVstx vs a vb iw sc m s
  | .vstxC vs vb m => Sys2Proof.Machine.execVstxC vs vb m s
  | .vsadd vs a vb iw sc m => Sys2Proof.Machine.execVsadd vs a vb iw sc m s
  | .vstreg vs a imm => Sys2Proof.Machine.execVstreg vs a imm s
  | .vssc b8 f a b c => Sys2Proof.Machine.execVssc b8 f a b c s
  | .vslup vd va b m => Sys2Proof.Machine.execVslup vd va b m s
  | .vsldn vd va b m => Sys2Proof.Machine.execVsldn vd va b m s
  | .vperm vd va vb m => Sys2Proof.Machine.execVperm vd va vb m s
  | .vcomp vd va mk => Sys2Proof.Machine.execVcomp vd va mk s
  | .vexpand vd va mk => Sys2Proof.Machine.execVexpand vd va mk s
  | .viota vd ms m => Sys2Proof.Machine.execViota vd ms m s
  | .vsum vd va vb m => Sys2Proof.Machine.execVsum vd va vb m s
  | .vmaxv vd va vb m => Sys2Proof.Machine.execVmaxv vd va vb m s
  | .vminv vd va vb m => Sys2Proof.Machine.execVminv vd va vb m s
  | .vandv vd va vb m => Sys2Proof.Machine.execVandv vd va vb m s
  | .vorv vd va vb m => Sys2Proof.Machine.execVorv vd va vb m s
  | .vxorv vd va vb m => Sys2Proof.Machine.execVxorv vd va vb m s
  | .kand md ma mb => Sys2Proof.Machine.execKand md ma mb s
  | .kor md ma mb => Sys2Proof.Machine.execKor md ma mb s
  | .kxor md ma mb => Sys2Proof.Machine.execKxor md ma mb s
  | .knot md ma => Sys2Proof.Machine.execKnot md ma s
  | .kpop d ma m => Sys2Proof.Machine.execKpop d ma m s
  | .kfirst d ma m => Sys2Proof.Machine.execKfirst d ma m s
  | .ksbf md ma m => Sys2Proof.Machine.execKsbf md ma m s
  | .ksif md ma m => Sys2Proof.Machine.execKsif md ma m s
  | .kset mk a n => Sys2Proof.Machine.execKset mk a n s
  | .kget d ma n => Sys2Proof.Machine.execKget d ma n s
  | .zld vd a b c => Sys2Proof.Machine.execZld vd a b c s
  | .zst vs a b c => Sys2Proof.Machine.execZst vs a b c s
  | .zadd vd va b => Sys2Proof.Machine.execZadd vd va b s
  | .zsub vd va b => Sys2Proof.Machine.execZsub vd va b s
  | .zmul vd va b => Sys2Proof.Machine.execZmul vd va b s
  | .zmin vd va b => Sys2Proof.Machine.execZmin vd va b s
  | .zmax vd va b => Sys2Proof.Machine.execZmax vd va b s
  | .zdec vd va => Sys2Proof.Machine.execZdec vd va s
  | .zdecF vd va => Sys2Proof.Machine.execZdecF vd va s
  | .zenc vd va => Sys2Proof.Machine.execZenc vd va s
  | .zencF vd va => Sys2Proof.Machine.execZencF vd va s
  | .zscan vd va => Sys2Proof.Machine.execZscan vd va s
  | .zcnt d va => Sys2Proof.Machine.execZcnt d va s
  | .zsplice vd va vb c => Sys2Proof.Machine.execZsplice vd va vb c s
  | .mxattach d a => Sys2Proof.Machine.execMxattach d a s
  | .mxdetach rows => Sys2Proof.Machine.execMxdetach rows s
  | .mxfmt afmt bfmt => Sys2Proof.Machine.execMxfmt afmt bfmt s
  | .mxload t a b c => Sys2Proof.Machine.execMxload t a b c s
  | .mxmul z t acc0 s0 va b => Sys2Proof.Machine.execMxmul z t acc0 s0 va b s
  | .mxgrp z acc0 s0 va b => Sys2Proof.Machine.execMxgrp z acc0 s0 va b s
  | .mxzero rows => Sys2Proof.Machine.execMxzero rows s
  | .mxwait rows => Sys2Proof.Machine.execMxwait rows s
  | .mxdrain t r0 fmt a b c m => Sys2Proof.Machine.execMxdrain t r0 fmt a b c m s
  | .mxdrainX t r0 fmt a vb c m => Sys2Proof.Machine.execMxdrainX t r0 fmt a vb c m s
  | .mxsave a => Sys2Proof.Machine.execMxsave a s
  | .mxrest a => Sys2Proof.Machine.execMxrest a s
  | .bbset strm fmt strict a b c => Sys2Proof.Machine.execBbset strm fmt strict a b c s
  | .bbget d strm => Sys2Proof.Machine.execBbget d strm s
  | .bbisect vd va vb => Sys2Proof.Machine.execBbisect vd va vb s
  | .bbmerge vd va vb mia mib => Sys2Proof.Machine.execBbmerge vd va vb mia mib s
  | .bbwalk vd va => Sys2Proof.Machine.execBbwalk vd va s
  | .sgproj h b d1 a gb => Sys2Proof.Machine.execSgproj h b d1 a gb s
  | .sgkey d h va b c => Sys2Proof.Machine.execSgkey d h va b c s
  | .sgsig d h va => Sys2Proof.Machine.execSgsig d h va s
  | .sggather vd h va b => Sys2Proof.Machine.execSggather vd h va b s
  | .hzld vd md a imm m => Sys2Proof.Machine.execHzld vd md a imm m s
  | .hzrenew d a b => Sys2Proof.Machine.execHzrenew d a b s
  | .hzage d a imm => Sys2Proof.Machine.execHzage d a imm s
  | .hzdrop a b => Sys2Proof.Machine.execHzdrop a b s
  | .pub d a => Sys2Proof.Machine.execPub d a s
  | .shsync d a b c => Sys2Proof.Machine.execShsync d a b c s
  | .vset d a => Sys2Proof.Machine.execVset d a s
  | .vsetb d a => Sys2Proof.Machine.execVsetb d a s
  | .vcfg d a => Sys2Proof.Machine.execVcfg d a s
  | .trapFwd => Sys2Proof.Machine.execTrapFwd s
  | .trapYld => Sys2Proof.Machine.execTrapYld s
  | .tret => Sys2Proof.Machine.execTret s
  | .idle => Sys2Proof.Machine.execIdle s
  | .lsync => Sys2Proof.Machine.execLsync s
  | .fenceAcquireCore => Sys2Proof.Machine.execFenceAcquireCore s
  | .fenceAcquireCluster => Sys2Proof.Machine.execFenceAcquireCluster s
  | .fenceAcquireDevice => Sys2Proof.Machine.execFenceAcquireDevice s
  | .fenceAcquireSystem => Sys2Proof.Machine.execFenceAcquireSystem s
  | .fenceReleaseCore => Sys2Proof.Machine.execFenceReleaseCore s
  | .fenceReleaseCluster => Sys2Proof.Machine.execFenceReleaseCluster s
  | .fenceReleaseDevice => Sys2Proof.Machine.execFenceReleaseDevice s
  | .fenceReleaseSystem => Sys2Proof.Machine.execFenceReleaseSystem s
  | .fenceFullCore => Sys2Proof.Machine.execFenceFullCore s
  | .fenceFullCluster => Sys2Proof.Machine.execFenceFullCluster s
  | .fenceFullDevice => Sys2Proof.Machine.execFenceFullDevice s
  | .fenceFullSystem => Sys2Proof.Machine.execFenceFullSystem s
  | .hint => Sys2Proof.Machine.execHint s
  | .vdecl1 => Sys2Proof.Machine.execVdecl1 s
  | .vdecl2 => Sys2Proof.Machine.execVdecl2 s
  | .vdecl4 => Sys2Proof.Machine.execVdecl4 s
  | .sgclr0 => Sys2Proof.Machine.execSgclr0 s
  | .sgclr1 => Sys2Proof.Machine.execSgclr1 s
  | .sgclr2 => Sys2Proof.Machine.execSgclr2 s
  | .sgclr3 => Sys2Proof.Machine.execSgclr3 s
  | .sgclr4 => Sys2Proof.Machine.execSgclr4 s
  | .sgclr5 => Sys2Proof.Machine.execSgclr5 s
  | .sgclr6 => Sys2Proof.Machine.execSgclr6 s
  | .sgclr7 => Sys2Proof.Machine.execSgclr7 s
  | .registerWrite => Sys2Proof.Machine.execRegisterWrite s
  | .lwpush => Sys2Proof.Machine.execLwpush s
  | .placement => Sys2Proof.Machine.execPlacement s
  | .preload => Sys2Proof.Machine.execPreload s
  | .segmentImageCopy => Sys2Proof.Machine.execSegmentImageCopy s
  | .preloadTimeout => Sys2Proof.Machine.execPreloadTimeout s
  | .headBlocking => Sys2Proof.Machine.execHeadBlocking s
  | .boundTaskResume => Sys2Proof.Machine.execBoundTaskResume s
  | .taskCompletion => Sys2Proof.Machine.execTaskCompletion s
  | .budgetOverrun => Sys2Proof.Machine.execBudgetOverrun s
  | .codeObjectLoad => Sys2Proof.Machine.execCodeObjectLoad s
  | .unforcedUnload => Sys2Proof.Machine.execUnforcedUnload s
  | .forcedUnload => Sys2Proof.Machine.execForcedUnload s
  | .queueWake => Sys2Proof.Machine.execQueueWake s
  | .queueStall => Sys2Proof.Machine.execQueueStall s
  | .wmonWake => Sys2Proof.Machine.execWmonWake s
  | .wmonTimeout => Sys2Proof.Machine.execWmonTimeout s
  | .cwaitWake => Sys2Proof.Machine.execCwaitWake s
  | .cwaitTimeout => Sys2Proof.Machine.execCwaitTimeout s
  | .cpyAccept => Sys2Proof.Machine.execCpyAccept s
  | .copyCompletion => Sys2Proof.Machine.execCopyCompletion s
  | .copyFaultStop => Sys2Proof.Machine.execCopyFaultStop s
  | .missedPromise => Sys2Proof.Machine.execMissedPromise s
  | .matrixCommandDone => Sys2Proof.Machine.execMatrixCommandDone s
  | .mxwaitDone => Sys2Proof.Machine.execMxwaitDone s
  | .hazeTileExpiry => Sys2Proof.Machine.execHazeTileExpiry s
  | .hazeJunctionLimit => Sys2Proof.Machine.execHazeJunctionLimit s
  | .preEmptionRequest => Sys2Proof.Machine.execPreEmptionRequest s
  | .faultRecordDelivery => Sys2Proof.Machine.execFaultRecordDelivery s
  | .singleStep => Sys2Proof.Machine.execSingleStep s
  | .debugStop => Sys2Proof.Machine.execDebugStop s
  | .throttleNotice => Sys2Proof.Machine.execThrottleNotice s
  | .resultConfirmation => Sys2Proof.Machine.execResultConfirmation s
  | .suspectReexecute => Sys2Proof.Machine.execSuspectReexecute s
  | .traceHeadPublish => Sys2Proof.Machine.execTraceHeadPublish s
  | .xlheadPublish => Sys2Proof.Machine.execXlheadPublish s
  | .powerPointRequest => Sys2Proof.Machine.execPowerPointRequest s
  | .railStepDone => Sys2Proof.Machine.execRailStepDone s
  | .frequencySwitchDone => Sys2Proof.Machine.execFrequencySwitchDone s
  | .currentClamp => Sys2Proof.Machine.execCurrentClamp s
  | .thermalForce => Sys2Proof.Machine.execThermalForce s
  | .thermalForceClear => Sys2Proof.Machine.execThermalForceClear s
  | .thermalCut => Sys2Proof.Machine.execThermalCut s
  | .railLimit => Sys2Proof.Machine.execRailLimit s
  | .heartbeatWatchdog => Sys2Proof.Machine.execHeartbeatWatchdog s
  | .firmwareHeartbeat => Sys2Proof.Machine.execFirmwareHeartbeat s
  | .firmwareUpdate => Sys2Proof.Machine.execFirmwareUpdate s
  | .powerOnReset => Sys2Proof.Machine.execPowerOnReset s
  | .bootFetch => Sys2Proof.Machine.execBootFetch s
  | .bootVerify => Sys2Proof.Machine.execBootVerify s
  | .quickTest => Sys2Proof.Machine.execQuickTest s
  | .clusterExtendedPass => Sys2Proof.Machine.execClusterExtendedPass s
  | .extendedTestFail => Sys2Proof.Machine.execExtendedTestFail s
  | .bootStageFail => Sys2Proof.Machine.execBootStageFail s
  | .hostBar2Write => Sys2Proof.Machine.execHostBar2Write s
  | .hostBar2Read => Sys2Proof.Machine.execHostBar2Read s
  | .hostAtomicop => Sys2Proof.Machine.execHostAtomicop s
  | .statusRw1cWrite => Sys2Proof.Machine.execStatusRw1cWrite s
  | .hostCompletionTimeout => Sys2Proof.Machine.execHostCompletionTimeout s
  | .cxlLinkDown => Sys2Proof.Machine.execCxlLinkDown s
  | .storageError => Sys2Proof.Machine.execStorageError s
  | .skeinMessage => Sys2Proof.Machine.execSkeinMessage s
  | .skeinLinkTrain => Sys2Proof.Machine.execSkeinLinkTrain s
  | .lanepartWrite => Sys2Proof.Machine.execLanepartWrite s
  | .vshareWrite => Sys2Proof.Machine.execVshareWrite s
  | .vskewWrite => Sys2Proof.Machine.execVskewWrite s
  | .traceControlWrite => Sys2Proof.Machine.execTraceControlWrite s
  | .shootdownStart => Sys2Proof.Machine.execShootdownStart s
  | .shootdownComplete => Sys2Proof.Machine.execShootdownComplete s
  | .dbstopWrite => Sys2Proof.Machine.execDbstopWrite s
  | .acdataRead => Sys2Proof.Machine.execAcdataRead s
  | .xlogControlWrite => Sys2Proof.Machine.execXlogControlWrite s
  | .htlkWrite => Sys2Proof.Machine.execHtlkWrite s
  | .illegalInstruction => Sys2Proof.Machine.execIllegalInstruction s
  | .instructionFetchFault => Sys2Proof.Machine.execInstructionFetchFault s
  | .currentClampClear => Sys2Proof.Machine.execCurrentClampClear s
  | .skeinLinkDown => Sys2Proof.Machine.execSkeinLinkDown s
  | .handleGenerationAdvance => Sys2Proof.Machine.execHandleGenerationAdvance s
  | .hostHold => Sys2Proof.Machine.execHostHold s

end Sys2Proof.Machine
end

