-- ==== Sys2Proof/Machine/Held.lean ====
section
/-!
DEFINITION. Instructions held back (R216, R233, R289, R381, R383): one whose accesses all lie in the scalar slice may perform
after what follows it in other slices. It is held whole, unretired, and runs where it would first be told from one that
performed in its place; so one step of the machine, with what is held.
DEDUCED (readings): log 4.
-/
namespace Sys2Proof.Machine

/-! ## What may be held, and what may pass it -/

/-- The length of an instruction that may be held: every access it makes is in the scalar slice, and no row of R381 orders it
against the other slices of its hart. -/
def heldLen : Instr → Option Nat
  | .amoSwap _ o _ _ _ | .amoAdd _ o _ _ _ | .amoAnd _ o _ _ _ | .amoOr _ o _ _ _ | .amoXor _ o _ _ _ | .amoMin _ o _ _ _
  | .amoMax _ o _ _ _ | .amoMinu _ o _ _ _ | .amoMaxu _ o _ _ _ | .amoCas _ o _ _ _ | .amoAddq o _ _ _ =>
    if o = 0 then some 4 else none
  | .hzage .. | .hzrenew .. | .hzdrop .. | .bbget .. | .bbisect .. | .bbmerge .. | .bbwalk .. | .sgproj .. | .mxrest _ => some 8
  | _ => none

/-- An instruction that may pass a held one where their registers allow: it makes no access in the scalar slice, is no
synchronisation point and neither reads nor writes special registers, but those `countsToo` names. -/
def calm : Instr → Bool
  | .add .. | .sub .. | .and .. | .or .. | .xor .. | .andn .. | .orn .. | .shl .. | .shr .. | .sar .. | .rotl .. | .clt ..
  | .cltu .. | .ceq .. | .mul .. | .mulh .. | .mulhu .. | .div .. | .divu .. | .mod .. | .modu .. | .min .. | .max .. | .minu ..
  | .maxu .. | .clz .. | .ctz .. | .pop .. | .sext8 .. | .sext16 .. | .sext32 .. | .zext32 .. | .andi .. | .ori .. | .xori ..
  | .clti .. | .shli .. | .shri .. | .sari .. | .addi .. | .jr .. | .lih .. | .pcrel .. | .jal .. | .beq .. | .bne .. | .blt ..
  | .bge .. | .bltu .. | .bgeu .. | .fadd .. | .fsub .. | .fmul .. | .fdiv .. | .fmin .. | .fmax .. | .fceq .. | .fclt .. | .fcle ..
  | .fma .. | .fsqrt .. | .fcvtSize .. | .fclass .. | .fcvtToFixed .. | .fcvtFromSigned .. | .fcvtFromUnsigned .. | .hint | .pref ..
  | .cAdd .. | .cSub .. | .cMul .. | .cFma .. | .cMin .. | .cMax .. | .cAnd .. | .cXor .. | .cExp2 .. | .cMv ..
  | .vadd .. | .vsub .. | .vrsb .. | .vmin .. | .vmax .. | .vand .. | .vor .. | .vxor .. | .vandn .. | .vshl .. | .vshr ..
  | .vsar .. | .vscl .. | .vmul .. | .vmulh .. | .vfma .. | .vfms .. | .vfnma .. | .vdiv .. | .vmod .. | .vslup .. | .vsldn ..
  | .vcmp .. | .vdup .. | .vclamp .. | .vcvt .. | .vcvtSb .. | .vabs .. | .vneg .. | .vsel .. | .vmv .. | .vid .. | .vsqrt ..
  | .vexp2 .. | .vlog2 .. | .vrcp .. | .vrsq .. | .vsinpi .. | .vcospi .. | .vtanh .. | .vsigm .. | .vgelu .. | .vsilu ..
  | .vld .. | .vlds .. | .vldx .. | .vldxC .. | .vldff .. | .vldreg .. | .vst .. | .vsts .. | .vstx .. | .vstxC .. | .vstreg ..
  | .vsadd .. | .vlsc .. | .vssc .. | .hzld .. | .vperm .. | .vcomp .. | .vexpand .. | .viota .. | .vsum .. | .vmaxv .. | .vminv ..
  | .vandv .. | .vorv .. | .vxorv .. | .kand .. | .kor .. | .kxor .. | .knot .. | .kpop .. | .kfirst .. | .ksbf .. | .ksif ..
  | .kset .. | .kget .. | .zld .. | .zst .. | .zadd .. | .zsub .. | .zmul .. | .zmin .. | .zmax .. | .zdec .. | .zdecF ..
  | .zenc .. | .zencF .. | .zscan .. | .zcnt .. | .zsplice .. => true
  | _ => false

/-- Those that write `vl`, `gcnt` or another special register that a Bobbin instruction reads or writes too. -/
def countsToo : Instr → Bool
  | .vldff .. | .zld .. | .zst .. | .zadd .. | .zsub .. | .zmul .. | .zmin .. | .zmax .. | .zdec .. | .zdecF .. | .zenc ..
  | .zencF .. | .zscan .. | .zcnt .. | .zsplice .. | .bbisect .. | .bbmerge .. | .bbwalk .. => true
  | _ => false

/-- Everything an instruction reads and writes that `lateFree` asks about: `g` registers from 128. -/
def State.uses (s : State) (i : Instr) : Option (List Nat × List Nat) :=
  let (r, w) := s.vUses i
  (gUses i).map fun (a, b) => (r ++ a.map (128 + ·.toNat), w ++ b.map (128 + ·.toNat))

/-- Two instructions may run in either order, their accesses apart: neither writes what the other reads or writes. -/
def State.apart (s : State) (i j : Instr) : Bool :=
  match s.uses i, s.uses j with
  | some (ri, wi), some (rj, wj) =>
    let meet := fun a b => a.any fun k => k ≠ 128 && b.contains k
    !(meet wj (ri ++ wi)) && !(meet rj wi) && !(usesScale s.vt i && usesScale s.vt j) && !(countsToo i && countsToo j)
  | _, _ => false

/-- No queue image is read or appended: a crossing is a release or an acquire (R261). -/
def State.noQueue (s : State) (i : Instr) : Bool :=
  match s.uses i with
  | some (r, w) => (r ++ w).all fun k => !(decide (48 ≤ k) && decide (k < 52))
  | none => false

/-- An instruction may pass all that its hart holds. -/
def State.passesOne (s : State) (i : Instr) : Bool :=
  calm i && s.noQueue i && s.held.all fun x => x.hart ≠ s.turn || s.apart x.instr i

/-- The members of a convoy at the PC, none where one cannot be fetched or decoded. -/
def State.membersAt (s : State) (n : Nat) : List (Option Instr) :=
  (List.range n).map fun i =>
    match s.fetchParcels (s.cur.pc.toNat + 4 + 8 * i) 4 with
    | (_, .ok w) => decode (.p64 (BitVec.ofNat 64 w))
    | _ => none

/-- What is held may stay so while an instruction runs: the step's mask says that the scalar slice performs late, and the
instruction, or each member of a convoy, may pass. -/
def State.passes (s : State) (i : Instr) : Bool :=
  nbit s.late 0 &&
    (match i with
    | .cvh n .. => (s.membersAt (n.toNat + 2)).all fun m => match m with | some m => s.passesOne m | none => false
    | i => s.passesOne i)

/-! ## Running what is held -/

/-- The hart has met nothing but completions: no trap, wait, request or new task. -/
def Hart.onCourse (x old : Hart) : Bool :=
  x.run = .running && x.rcb = old.rcb && { x.tr with retcnt := 0, fflags := 0 } = { old.tr with retcnt := 0, fflags := 0 } &&
    x.pending = old.pending && x.dues = old.dues && x.lim.isNone && !x.resuming && !x.stepArm

/-- A held instruction run as in its place, the hart standing where it stands; none unless it simply completes. -/
def State.tryHeld (s : State) (h : HeldInstr) : Option State :=
  let old := s.hartAt h.hart
  match heldLen h.instr with
  | none => none
  | some n =>
    match exec h.instr (({ s with turn := h.hart, late := 0 } : State).setHart h.hart { old with pc := h.pc }) with
    | .next t =>
      let new := t.hartAt h.hart
      if new.onCourse old && new.pc = h.pc + w64 n then
        some { t.setHart h.hart { new with pc := old.pc } with turn := s.turn, late := s.late, fresh := t.fresh + 2 ^ 44 }
      else none
    | _ => none

def State.tryAll (s : State) : List HeldInstr → Option State
  | [] => some s
  | h :: hs => match s.tryHeld h with | some t => t.tryAll hs | none => none

/-- What hart h holds runs, oldest first. Where that cannot be, which no run meets, the hart goes back to it. -/
def State.release (s : State) (h : Nat) : State :=
  let rest := s.held.filter (·.hart ≠ h)
  match s.held.filter (·.hart = h) with
  | [] => s
  | x :: xs =>
    match s.tryAll (x :: xs) with
    | some t => { t with held := rest }
    | none => { s.setHart h { s.hartAt h with pc := x.pc } with held := rest }

/-- The instruction held, if the step's mask asks for it and it may be: the hart steps over it. -/
def State.hold (s : State) (i : Instr) : Option State :=
  let x := s.cur
  match heldLen i with
  | none => none
  | some n =>
    let t := { s.setCur { x with pc := x.pc + w64 n } with held := s.held ++ [{ hart := s.turn, pc := x.pc, instr := i }] }
    if nbit s.late 0 && x.onCourse x && x.tr.est = 0 && x.tr.ecm = 0 && !x.relFence && s.replay.isEmpty &&
        nbits (s.clusterAt (clusterOf s.turn)).trace.w1.toNat 8 5 = 0 && s.lateFree i && s.noQueue i &&
        (t.tryAll t.held).isSome then some t
    else none

/-! ## One step -/

/-- What comes before an instruction of the running hart: what it holds runs, unless the instruction may pass it, and late
loads that the instruction could depend on perform. Nothing comes before an event. -/
def State.beforeNext (s : State) (i : Instr) : State :=
  if isEvent i then s else (if s.passes i then s else s.release s.turn).joinFor i

/-- An instruction or event runs, or is held. -/
def State.runNext (s : State) (i : Instr) : Answer :=
  match s.hold i with
  | some t => .next t
  | none => exec i (s.beforeNext i)

/-- One step: what `State.plan` chose, in the recorded order where a run is replayed. -/
def State.attempt (s : State) : Answer :=
  match s.plan with
  | .error f => .fault f
  | .ok (some i, t) => t.inOrder (t.runNext i)
  | .ok (none, t) => .next t

/-- A queued load or addition whose tile has expired: it can no longer perform as its checks found (R202). -/
def State.overdue (s : State) (q : QStore) : Bool :=
  (q.add.isSome || (match q.ld with | some l => l.hz.isNone | none => false)) && s.expired q.tgt

/-- After a step from `s` to `t`, what is held and what is queued can still perform. -/
def State.stays (s t : State) : Bool :=
  (t.held.all fun x => (t.hartAt x.hart).onCourse (s.hartAt x.hart)) && (t.tryAll t.held).isSome &&
    t.harts.all fun (_, x) => x.stores.all fun q => !t.overdue q

/-- What is held, and what `t` finds overdue, performs now. -/
def State.settled (s t : State) : State :=
  let s := (s.held.map (·.hart)).foldl (·.release ·) s
  t.harts.foldl (fun s (h, x) => (x.stores.filter t.overdue).foldl (fun s q => s.drainSlice h q.slice) s) s

/-- The head of the agenda without its late slices. -/
def State.onTime (s : State) : State :=
  match s.inputs with
  | .late h _ :: rest => { s with inputs := .late h 0 :: rest }
  | _ => s

/-- One step, in which nothing held or queued is overtaken: where it would be, it performs before the step. -/
def State.oneStep (s : State) : Answer :=
  match s.attempt with
  | .next t =>
    if s.stays t then .next t
    else
      let u := s.settled t
      match u.attempt with
      | .next v => if u.stays v then .next v else u.onTime.attempt
      | r => r
  | r => r

end Sys2Proof.Machine
end

