-- ==== Sys2Proof/Machine/Step.lean ====
section
/-!
DEFINITION. One step of the machine, and the placing of an instruction where it fetches next.
-/
namespace Sys2Proof.Machine

/-- One step: what `State.plan` chose, run by `exec` or held, with what is held back performing in time. -/
def step (s : State) : Host.Outcome State Fault Refusal := s.oneStep

/-- The instruction of a table row placed where the hart whose turn it is fetches next, with nothing else to come before
it (log 8). -/
def State.withFetchWord (s : State) (nbits w : Nat) : State :=
  let s := (s.setCur s.cur.ready).putCode (tableBytes nbits w)
  { s with inputs := [], held := [], replay := [], power := { s.power with powered := true, move := .still },
           status := if s.failed then { s.status with bstate := 0 } else s.status }

end Sys2Proof.Machine
end

