-- ==== Sys2Proof/Safety.lean ====
section
/-!
DEFINITION. The terms claims are stated in: what software reads of a hart, what a retired instruction leaves behind,
what taking an exception leaves behind, and the invariants of a safe run.
-/
namespace Sys2Proof.Machine

/-- A hart without its place in the program, its retirement count and the bookkeeping of its current instruction: every
register software can read by name. -/
def Hart.arch (x : Hart) : Hart :=
  { x with
    pc := 0, run := .running, resuming := false, lim := none, suspects := 0, stepArm := false, digest := [], lastAt := 0, cut := false
    pending := { x.pending with step := false }, tr := { x.tr with retcnt := 0 } }

/-- A cluster without its counters and its trace position. -/
def Cluster.still (c : Cluster) : Cluster := { c with counters := Cluster.init.counters, trace := Trace.init }

/-- The device without its harts, its clusters and its memory. -/
def State.rest (s : State) : State := { s with harts := [], clusters := [], mem := [] }

/-- No hash records in the cluster of the running hart (R352). -/
def State.hashOff (s : State) : Prop := (s.clusterAt (clusterOf s.turn)).trace.on 11 = false

/-- Everything but the running hart, cluster counters and trace is as before. -/
structure Alone (u t : State) : Prop where
  rest : t.rest = u.rest
  others : ∀ h, h ≠ u.turn → t.hartAt h = u.hartAt h
  clusters : ∀ c, (t.clusterAt c).still = (u.clusterAt c).still

/-- `t` is `u` with one instruction of the running hart retired and `npc` next: the PC, the retirement count and nothing
else a program can read; memory changes only by a hash record. -/
structure Retired (u t : State) (npc : Word) : Prop where
  alone : Alone u t
  pc : t.cur.pc = npc
  run : t.cur.run = .running
  retcnt : t.cur.tr.retcnt = u.cur.tr.retcnt + 1
  arch : t.cur.arch = u.cur.arch
  mem : u.hashOff → t.mem = u.mem

/-- `exec` completes instruction `i` in state `s` with effect `u`: the next word follows. -/
def Completes (i : Instr) (s u : State) (npc : Word) : Prop := ∃ t, exec i s = .next t ∧ Retired u t npc

/-- `t` is `u` after the running hart took exception `cause` with `val` and resume address `resume` (R325). -/
structure Entered (u t : State) (cause : Nat) (val resume : Word) : Prop where
  alone : Alone u t
  mem : t.mem = u.mem
  run : t.cur.run = .running
  pc : t.cur.pc = u.cur.tr.xvec &&& ~~~1
  arch : t.cur.arch = ({ u.cur with tr := { u.cur.tr with
    xcause := w64 cause, xval := val, xpc := resume, hl := true, ss := false } } : Hart).arch

/-- `exec` of `i` in state `s` takes exception `cause`, with effect `u` before the entry. -/
def Takes (i : Instr) (s u : State) (cause : Nat) (val resume : Word) : Prop :=
  ∃ t, exec i s = .next t ∧ Entered u t cause val resume

/-- A hart at task level whose handler takes exceptions: `xvec` is set. -/
def State.trapsHere (s : State) : Prop := s.cur.tr.hl = false ∧ s.cur.tr.xvec ≠ 0

/-! ## The invariant -/

/-- The canonical form of memory. -/
def State.memOk (s : State) : Prop := memWf s.mem = true

end Sys2Proof.Machine
end

