-- ==== Sys2Proof/Certificates/Slice0/Obligations.lean ====
section
/-!
DEFINITION. The statements for the provers. `Claims` holds what they are stated with: the result of an instruction as its
rule gives it.
-/
open Sys2Proof Sys2Proof.Machine

/-! ## Words (R44-R57) -/

/-- Ten words built from the encodings of spec/03, spec/05, spec/08 and spec/22 (lih, andi, beq, qsend, fma.d, sset
est, tret, trap fwd, vadd, vsum) decode to those instructions with those operands. (R49, R51, R53, R101, R339) -/
def Obligations.DecodesSpecWords : Prop :=
  decode (.p32 0x00001327#32) = some (.lih 9 0x12) ∧
  decode (.p32 0xFC701290#32) = some (.andi 9 9 0xFF0) ∧
  decode (.p32 0x00400A44#32) = some (.beq 4 5 8) ∧
  decode (.p32 0x0008007C#32) = some (.qsend 1 7) ∧
  decode (.p32 0x41050C79#32) = some (.fma true 6 7 8) ∧
  decode (.p32 0x1018000B#32) = some (.sset 0x018 0) ∧
  decode (.p32 0x9000000B#32) = some .tret ∧
  decode (.p32 0x8001000B#32) = some .trapFwd ∧
  decode (.p64 0x000000000C008204#64) = some (.vadd 2 1 (.vv 3) none) ∧
  decode (.p64 0x500600001C008518#64) = some (.vsum 5 6 7 none)

/-- For every well-formed instruction of the opcode table, at every value its fields admit, encode gives a word and
decode of that word is the instruction with every operand unchanged. (R44, R46, R48, R49, R51, R52, R53, R55, R56) -/
def Obligations.DecodeOfEncode : Prop :=
  ∀ i : Instr, i.wf = true → ∃ e, encode i = some e ∧ decode e = some i

/-- If a word decodes to an instruction, that instruction is well formed, and unless it is a hint (whose operand
fields have no effect and are not kept) its encoding is that very word: no bit of an assigned word is ignored. (R46,
R51, R52, R53) -/
def Obligations.DecodedWordsAreWellFormed : Prop :=
  ∀ (e : Enc) (i : Instr), decode e = some i → i.wf = true ∧ (i ≠ .hint → encode i = some e)

/-! ## Fetch and step (R44, R45) -/

/-- With nothing on the agenda, power on, no power move due or frequency switch in progress and no cause pending, a
step's attempt is exec of the instruction decoded from the word fetched at the running hart's PC, in the state after
time has passed and the fetch has marked its pages; what the hart holds back, and late loads it could depend on,
perform first (log 4); with none of these it is the fetch's state. A hart at the head of the agenda does the same, or
runs the instruction it waits in; only where its turn names the scalar slice as late may the instruction be held
instead, the PC past it. An event at the head runs with what its agent supplied (log 1). In a replay (log 44) the
outcome is held to the recorded order. The step is that attempt where it overtakes nothing that is held or queued
(always where nothing is held and no load or addition queued), or where it gives no next state; else the same attempt
after what would be overtaken has performed. (R44, R45, R324, R381) -/
def Obligations.StepRunsDecoded : Prop :=
  let runs := fun (s : State) (i : Instr) (t : State) =>
    s.attempt = t.inOrder (t.runNext i) ∧ (s.replay = [] → s.attempt = t.runNext i) ∧
    (nbit t.late 0 = false → t.hold i = none) ∧ (t.hold i = none → t.runNext i = exec i (t.beforeNext i)) ∧
    (∀ u, t.hold i = some u → t.runNext i = .next u ∧ ∃ n, heldLen i = some n ∧
      u = { t.setCur { t.cur with pc := t.cur.pc + BitVec.ofNat 64 n } with held := t.held ++ [⟨t.turn, t.cur.pc, i⟩] }) ∧
    ((isEvent i = true ∨ t.cur.hasLate = false ∧ ∀ x ∈ t.held, x.hart ≠ t.turn) → t.beforeNext i = t)
  let decoded := fun (s t : State) (e : Enc) => ∀ i, decode e = some i →
    (t.cur.resuming = true → t.cur.tr.hl = false → t.cur.tr.ecm ≠ 0 → isCvh i = true) →
    runs s i t
  let turn := fun (s u : State) => u.asyncDue u.turn = none →
    (∀ w, u.cur.run = .waiting w → runs s w.instr u) ∧
    (∀ t e, u.cur.run = .running → u.fetchWord = (t, .ok e) → decoded s t e)
  (∀ (s t : State) (e : Enc), s.inputs = [] → s.power.powered = true → s.failed = false →
    s.passTime.powerDue = none → s.power.stalled = false → s.cur.run = .running →
    s.passTime.asyncDue s.turn = none → s.passTime.fetchWord = (t, .ok e) → decoded s t e) ∧
  (∀ (s : State) (h : Nat) (l : List Act), s.power.powered = true → s.failed = false → s.power.stalled = false →
    (s.inputs = .hart h :: l → turn s { s.passTime with inputs := l, turn := h }) ∧
    (∀ m, s.inputs = .late h m :: l → turn s { s.passTime with inputs := l, turn := h, late := m })) ∧
  (∀ (s : State) (i : Instr) (a : EventArg) (l : List Act), s.inputs = .event i a :: l → isEvent i = true →
    s.power.powered = true → s.failed = false → runs s i { s.passTime with inputs := l, arg := a }) ∧
  (∀ s : State, (∀ t, s.attempt = .next t → s.stays t = true → step s = s.attempt) ∧
    ((∀ t, s.attempt ≠ .next t) → step s = s.attempt) ∧
    (∃ u, (u = s ∨ ∃ t, u = s.settled t ∨ u = (s.settled t).onTime) ∧ step s = u.attempt) ∧
    (∀ t : State, t.held = [] → (∀ x ∈ t.harts, ∀ q ∈ x.2.stores, q.ld = none ∧ q.add = none) → s.stays t = true))

/-- If the region's page tables map the page of the PC (no cached leaf differing) by a level-3 leaf with execute
permission to class-0 memory, and the bytes there are those of a word that ends within the page (a convoy header with
the words of its members), apart from the leaf's own byte, the fetch returns that word and changes nothing but the
leaf's accessed bit, which becomes 1, and the cached leaf. (R44, R45, R205, R207, R208) -/
def Obligations.FetchReadsTheWord : Prop :=
  ∀ (s : State) (e : Enc) (a v : Nat) (i : Instr), decode e = some i → s.memOk →
    let pc := s.cur.pc.toNat
    let c := s.ctxOf s.turn
    let len := e.len + if isCvh i then 8 * headerMembers e.word.toNat else 0
    let pa := v / 2 ^ 16 % 2 ^ 36 * 65536 + pc % 65536
    pc + len ≤ 2 ^ 55 → pc % 65536 + len ≤ 65536 →
    s.walk c.root pc = some (a, v, false) → (s.cached c pc).all (·.isLeaf (some (a, v, false))) = true →
    nbit v 4 = true → v / 2 ^ 7 % 4 = 0 → pa + len ≤ hbmBytes → (a < pa ∨ pa + len ≤ a) →
    memReadN s.mem pa e.len = natBytes e.len e.word.toNat →
    s.fetchWord = (s.noteLeaf c pc false (some (a, v, false)), .ok e) ∧
      nbit ((s.noteLeaf c pc false (some (a, v, false))).hbm a 8) 5 = true ∧
      ∀ p, p ≠ a → memRead (s.noteLeaf c pc false (some (a, v, false))).mem p = memRead s.mem p

/-! ## Scalar registers and integer operations (R83-R87) -/

/-- A write to g[r] followed by a read of g[q] gives the value written when q = r and r is not g0, and the former
value otherwise; g0 reads zero. (R83) -/
def Obligations.GRegisters : Prop :=
  ∀ (s : State) (r q : Reg) (v : Word), s.g 0 = 0 ∧ s.setG 0 v = s ∧
    (s.setG r v).g q = if q = r ∧ r ≠ 0 then v else s.g q

/-- What an integer instruction writes, as R84, R86 and R87 say it. -/
def Claims.intResult (s : State) : Instr → Option (Reg × Word)
  | .add d a b => some (d, BitVec.ofInt 64 ((s.g a).toInt + (s.g b).toInt))
  | .sub d a b => some (d, BitVec.ofInt 64 ((s.g a).toInt - (s.g b).toInt))
  | .and d a b => some (d, s.g a &&& s.g b)
  | .or d a b => some (d, s.g a ||| s.g b)
  | .xor d a b => some (d, s.g a ^^^ s.g b)
  | .andn d a b => some (d, s.g a &&& ~~~ s.g b)
  | .orn d a b => some (d, s.g a ||| ~~~ s.g b)
  | .shl d a b => some (d, s.g a <<< (s.g b).extractLsb' 0 6)
  | .shr d a b => some (d, s.g a >>> (s.g b).extractLsb' 0 6)
  | .sar d a b => some (d, (s.g a).sshiftRight' ((s.g b).extractLsb' 0 6))
  | .rotl d a b => some (d, (s.g a).rotateLeft ((s.g b).extractLsb' 0 6).toNat)
  | .clt d a b => some (d, if (s.g a).toInt < (s.g b).toInt then 1 else 0)
  | .cltu d a b => some (d, if (s.g a).toNat < (s.g b).toNat then 1 else 0)
  | .ceq d a b => some (d, if s.g a = s.g b then 1 else 0)
  | .mul d a b => some (d, BitVec.ofInt 64 ((s.g a).toInt * (s.g b).toInt))
  | .mulh d a b => some (d, BitVec.ofInt 64 ((s.g a).toInt * (s.g b).toInt / 2 ^ 64))
  | .mulhu d a b => some (d, BitVec.ofNat 64 ((s.g a).toNat * (s.g b).toNat / 2 ^ 64))
  | .min d a b => some (d, if (s.g a).toInt < (s.g b).toInt then s.g a else s.g b)
  | .max d a b => some (d, if (s.g a).toInt < (s.g b).toInt then s.g b else s.g a)
  | .minu d a b => some (d, if (s.g a).toNat < (s.g b).toNat then s.g a else s.g b)
  | .maxu d a b => some (d, if (s.g a).toNat < (s.g b).toNat then s.g b else s.g a)
  | .clz d a => some (d, BitVec.ofNat 64 ((List.range 64).takeWhile fun k => !(s.g a).getLsbD (63 - k)).length)
  | .ctz d a => some (d, BitVec.ofNat 64 ((List.range 64).takeWhile fun k => !(s.g a).getLsbD k).length)
  | .pop d a => some (d, BitVec.ofNat 64 ((List.range 64).filter fun k => (s.g a).getLsbD k).length)
  | .sext8 d a => some (d, ((s.g a).extractLsb' 0 8).signExtend 64)
  | .sext16 d a => some (d, ((s.g a).extractLsb' 0 16).signExtend 64)
  | .sext32 d a => some (d, ((s.g a).extractLsb' 0 32).signExtend 64)
  | .zext32 d a => some (d, ((s.g a).extractLsb' 0 32).setWidth 64)
  | .andi d a i => some (d, s.g a &&& i.signExtend 64)
  | .ori d a i => some (d, s.g a ||| i.signExtend 64)
  | .xori d a i => some (d, s.g a ^^^ i.signExtend 64)
  | .clti d a i => some (d, if (s.g a).toInt < i.toInt then 1 else 0)
  | .shli d a i => some (d, s.g a <<< i)
  | .shri d a i => some (d, s.g a >>> i)
  | .sari d a i => some (d, (s.g a).sshiftRight' i)
  | .addi d a i => some (d, BitVec.ofInt 64 ((s.g a).toInt + i.toInt))
  | .lih d i => some (d, BitVec.ofInt 64 (i.toInt * 2 ^ 16))
  | .pcrel d i => some (d, BitVec.ofInt 64 (s.cur.pc.toNat + i.toInt * 2 ^ 12))
  | .hint => some (0, 0)
  | _ => none

/-- Every integer instruction but a division, and a hint, completes in every state: g[d] takes the listed result, the
PC advances by 4, and every other register, flag, special register, the memory, the other harts and the device are
unchanged (a hint writes nothing at all). (R86, R87) -/
def Obligations.IntegerResults : Prop :=
  ∀ (s : State) (i : Instr) (d : Reg) (v : Word), Claims.intResult s i = some (d, v) →
    Completes i s (s.setG d v) (s.cur.pc + 4)

/-- What a division writes: R84, with the cases of R85. -/
def Claims.divResult (s : State) : Instr → Option (Reg × Reg × Word)
  | .div d a b => some (d, b, if s.g b = 0 then -1 else BitVec.ofInt 64 ((s.g a).toInt.tdiv (s.g b).toInt))
  | .divu d a b => some (d, b, if s.g b = 0 then -1 else BitVec.ofNat 64 ((s.g a).toNat / (s.g b).toNat))
  | .mod d a b => some (d, b, if s.g b = 0 then s.g a else BitVec.ofInt 64 ((s.g a).toInt.tmod (s.g b).toInt))
  | .modu d a b => some (d, b, if s.g b = 0 then s.g a else BitVec.ofNat 64 ((s.g a).toNat % (s.g b).toNat))
  | _ => none

/-- div, divu, mod and modu complete whenever the divisor is not zero or fmode.eid is 0, with all ones or x for a zero
divisor and −2^63 and 0 in the overflow case; with a zero divisor and fmode.eid set they take integer divide by zero
(14) with xval 0 and xpc the word, g[d] is unchanged and est is 0 (R142). (R85) -/
def Obligations.DivisionResults : Prop :=
  ∀ (s : State) (i : Instr) (d b : Reg) (v : Word), Claims.divResult s i = some (d, b, v) →
    ((s.g b ≠ 0 ∨ s.cur.tr.fmode.getLsbD 8 = false) → Completes i s (s.setG d v) (s.cur.pc + 4)) ∧
    (s.g b = 0 → s.cur.tr.fmode.getLsbD 8 = true → s.cur.run = .running → s.trapsHere →
      Takes i s (s.setEst 0) 14 0 s.cur.pc) ∧
    (∀ a, i = .div d a b → s.g a = BitVec.ofInt 64 (-2 ^ 63) → s.g b = BitVec.ofInt 64 (-1) → v = s.g a) ∧
    (∀ a, i = .mod d a b → s.g a = BitVec.ofInt 64 (-2 ^ 63) → s.g b = BitVec.ofInt 64 (-1) → v = 0)

/-! ## Branches and jumps (R88, R89) -/

/-- Whether a branch is taken, and its displacement in parcels. -/
def Claims.branch (s : State) : Instr → Option (Bool × BitVec 13)
  | .beq a b i => some (decide (s.g a = s.g b), i)
  | .bne a b i => some (decide (s.g a ≠ s.g b), i)
  | .blt a b i => some (decide ((s.g a).toInt < (s.g b).toInt), i)
  | .bge a b i => some (decide ((s.g b).toInt ≤ (s.g a).toInt), i)
  | .bltu a b i => some (decide ((s.g a).toNat < (s.g b).toNat), i)
  | .bgeu a b i => some (decide ((s.g b).toNat ≤ (s.g a).toNat), i)
  | _ => none

/-- The link register and target of a jump. -/
def Claims.jump (s : State) : Instr → Option (Reg × Word)
  | .jal d i => some (d, s.cur.pc + BitVec.ofInt 64 (2 * i.toInt))
  | .jr d a i => some (d, s.g a + BitVec.ofInt 64 i.toInt)
  | _ => none

/-- beq, bne, blt, bge, bltu and bgeu complete in every state: the PC becomes PC + 2 × sext(imm13) if the condition
holds and advances by 4 otherwise, and nothing else changes. A jump with an even target completes: g[d] is PC + 4 and
the PC is the target computed before any write; with an odd target it takes misaligned (3) with xval the target, est 0
and no register written. (R45, R88, R89) -/
def Obligations.BranchesAndJumps : Prop :=
  (∀ (s : State) (i : Instr) (c : Bool) (imm : BitVec 13), Claims.branch s i = some (c, imm) →
     Completes i s s (if c then s.cur.pc + BitVec.ofInt 64 (2 * imm.toInt) else s.cur.pc + 4)) ∧
  (∀ (s : State) (i : Instr) (d : Reg) (t : Word), Claims.jump s i = some (d, t) →
     (t.toNat % 2 = 0 → Completes i s (s.setG d (s.cur.pc + 4)) t) ∧
     (t.toNat % 2 = 1 → s.cur.run = .running → s.trapsHere → Takes i s (s.setEst 0) 3 t s.cur.pc))

/-! ## Scalar loads and stores (R90-R92, R97) -/

/-- A scalar load: destination, base, offset, bytes, and what becomes of the value read. -/
def Claims.scalarLoad : Instr → Option (Reg × Reg × BitVec 13 × Nat × (Nat → Word))
  | .ldb d a i => some (d, a, i, 1, fun v => (BitVec.ofNat 8 v).signExtend 64)
  | .ldbu d a i => some (d, a, i, 1, BitVec.ofNat 64)
  | .ldh d a i => some (d, a, i, 2, fun v => (BitVec.ofNat 16 v).signExtend 64)
  | .ldhu d a i => some (d, a, i, 2, BitVec.ofNat 64)
  | .ldw d a i => some (d, a, i, 4, fun v => (BitVec.ofNat 32 v).signExtend 64)
  | .ldwu d a i => some (d, a, i, 4, BitVec.ofNat 64)
  | .ldd d a i => some (d, a, i, 8, BitVec.ofNat 64)
  | _ => none

/-- A scalar store: data register, base, offset, bytes. -/
def Claims.scalarStore : Instr → Option (Reg × Reg × BitVec 13 × Nat)
  | .stb r a i => some (r, a, i, 1)
  | .sth r a i => some (r, a, i, 2)
  | .stw r a i => some (r, a, i, 4)
  | .std r a i => some (r, a, i, 8)
  | _ => none

/-- The address of R90. -/
def Claims.address (s : State) (a : Reg) (imm : BitVec 13) : Word := BitVec.ofInt 64 ((s.g a).toNat + imm.toInt)

/-- On a hart that may access memory, ldb, ldbu, ldh, ldhu, ldw, ldwu or ldd of an aligned address completes whenever
the checks of R92 pass (the address resolves for a read, no published page ends short, no Haze tile is expired). Where
the load performs at once, these are asked once the slice's earlier stores have performed: g[d] is the n bytes there
as a little-endian number, extended as the form says, the PC advances by 4, every other register and flag is as before
(but for an earlier load of the slice that was to perform late) and of memory only the leaf's accessed bit changes; in
the hart's own scratchpad, on a segment its task may access, every such aligned load completes. Where the step has the
scalar slice's loads perform late (the model's own choice of the time, log 4; never on a cluster that records hashes),
the load is the youngest entry of that slice and nothing else changes but the leaf; and whenever such an entry
performs, its tile if any not expired, g[d] becomes the n bytes then at its place, extended as the form says, and it
leaves the queue. (R90, R92, R142, R194, R208, R303, R381) -/
def Obligations.ScalarLoads : Prop :=
  ∀ (s : State) (i : Instr) (d a : Reg) (imm : BitVec 13) (n : Nat) (ext : Nat → Word),
    Claims.scalarLoad i = some (d, a, imm, n, ext) → s.isExec s.turn = false → (Claims.address s a imm).toNat % n = 0 →
    let va := (Claims.address s a imm).toNat
    let w := s.drainSlice s.turn 0
    let now := nbit s.late 0 = true → s.latePlace s.turn va n = none
    (now → ∀ tgt leaf, w.resolve (w.ctxOf s.turn) .load va = .ok (tgt, leaf) → w.beyond tgt n = false →
       w.expired tgt = false →
       let u := w.noteLeaf (w.ctxOf s.turn) va false leaf
       Completes i s (u.setG d (ext (bytesNat (u.readT tgt n)))) (s.cur.pc + 4) ∧
         (u.readT tgt n).length = n ∧ (s.cur.hasLate = false → u.cur.arch = { s.cur.arch with stores := u.cur.stores }) ∧
         (∀ p, (∀ x, leaf = some x → p ≠ x.1) → memRead u.mem p = memRead w.mem p)) ∧
    (now → va / 2 ^ 19 = 0xF000000000000000 / 2 ^ 19 →
       s.segAllowed (s.ctxOf s.turn) (coreOf s.turn) (nbits va 16 3) = true →
       Completes i s (w.setG d (ext (bytesNat (w.readT (.spad (coreOf s.turn * 2 ^ 19 + va % 2 ^ 19)) n)))) (s.cur.pc + 4)) ∧
    (∀ tgt leaf, nbit s.late 0 = true → s.resolve (s.ctxOf s.turn) .load va = .ok (tgt, leaf) → s.beyond tgt n = false →
       s.expired tgt = false → (s.clusterAt (clusterOf s.turn)).trace.on 11 = false →
       let u := s.noteLeaf (s.ctxOf s.turn) va false leaf
       ∃ q, q.slice = 0 ∧ q.tgt = tgt ∧
         Completes i s (u.setCur { u.cur with stores := s.cur.stores ++ [q] }) (s.cur.pc + 4) ∧
         ∀ (t : State) (rest : List QStore), t.expired tgt = false → t.perform t.turn q rest = (t.setCur { t.cur with stores := rest }).setG d (ext (bytesNat (t.readT tgt n))))

/-- On a hart that may access memory, stb, sth, stw or std to an aligned address completes whenever the checks of R92
pass (the address resolves for a write and no published page ends short): the low n bytes of g[s] are the youngest
entry of the scalar slice's queue, for that place and address, the PC advances by 4, no register changes; after a
release fence the entry is marked as that fence's release write and the fence no longer waits for one. In the hart's
own scratchpad, on a segment its task may access, every aligned store completes. (R91, R92, R194, R208, R309) -/
def Obligations.ScalarStores : Prop :=
  ∀ (s : State) (i : Instr) (r a : Reg) (imm : BitVec 13) (n : Nat),
    Claims.scalarStore i = some (r, a, imm, n) → s.isExec s.turn = false → (Claims.address s a imm).toNat % n = 0 →
    let va := (Claims.address s a imm).toNat
    let entry := fun tgt => ({ slice := 0, group := 0, rel := s.cur.relFence, tgt := tgt, va := va,
                               bytes := natBytes n (s.g r).toNat, mask := [], whole := none } : QStore)
    (∀ tgt leaf, s.resolve (s.ctxOf s.turn) .store va = .ok (tgt, leaf) → s.beyond tgt n = false →
       let u := s.noteLeaf (s.ctxOf s.turn) va true leaf
       Completes i s (u.setCur { u.cur with stores := s.cur.stores ++ [entry tgt], relFence := false }) (s.cur.pc + 4)) ∧
    (va / 2 ^ 19 = 0xF000000000000000 / 2 ^ 19 →
       s.segAllowed (s.ctxOf s.turn) (coreOf s.turn) (nbits va 16 3) = true →
       Completes i s (s.setCur { s.cur with stores := s.cur.stores ++ [entry (.spad (coreOf s.turn * 2 ^ 19 + va % 2 ^ 19))], relFence := false }) (s.cur.pc + 4))

/-- If a store of a hart is accepted, its address resolves to a place, the queue grows at its end by exactly that
place, address, bytes, mask, access group and release mark, every byte of memory but the first byte of the leaf used
(its accessed and dirty bits) reads as before, and every other hart and every other field of the hart is unchanged; if
it is refused nothing changes. Performing the oldest store of a slice, alone of its access group, whole bytes and no
expired Haze tile, makes the bytes at its place those of the store, leaves every byte outside as it was (a release
write after its sync event), and takes exactly that store out of the queue, keeping the order of the rest. Two stores
of one access group that fall in one 8-byte word of a scratchpad perform together, the later element's bytes last.
(R91, R192, R197, R202, R208, R212, R303, R348) -/
def Obligations.StoresQueueThenPerform : Prop :=
  (∀ (s u : State) (h slice group va : Nat) (rel : Bool) (need : Need) (bytes mask : List Byte) (whole : Option Nat),
     (∀ c, s.storeIn h slice group rel need va bytes mask whole = (u, some c) → u = s) ∧
     (s.storeIn h slice group rel need va bytes mask whole = (u, none) →
       ∃ t leaf, s.resolve (s.ctxOf h) need va = .ok (t, leaf) ∧
         u.hartAt h = { s.hartAt h with stores := (s.hartAt h).stores ++
           [{ slice := slice, group := group, rel := rel, tgt := t, va := va, bytes := bytes, mask := mask, whole := whole }] } ∧
         (∀ k, k ≠ h → u.hartAt k = s.hartAt k) ∧
         (∀ p, (∀ x, leaf = some x → p ≠ x.1) → memRead u.mem p = memRead s.mem p))) ∧
  (∀ (s : State) (h j : Nat) (q : QStore) (pre post : List QStore), (s.hartAt h).stores = pre ++ q :: post →
     q.slice = j → q.ld = none → q.add = none → (∀ r ∈ pre, r.slice ≠ j) → (q.group = 0 ∨ ∀ r ∈ post, r.slice = j → r.group ≠ q.group) → q.mask = [] →
     let s' := if q.rel then s.sync h 1 else s
     s'.expired q.tgt = false →
     let u := s.performOne h j
     (u.hartAt h).stores = pre ++ post ∧
     memReadN u.mem (s'.key q.tgt) q.bytes.length = q.bytes ∧
     (∀ p, p < s'.key q.tgt ∨ s'.key q.tgt + q.bytes.length ≤ p → memRead u.mem p = memRead s'.mem p)) ∧
  (∀ (s : State) (h : Nat) (q r : QStore) (a b : Nat), (s.hartAt h).stores = [q, r] → q.slice = r.slice →
     q.ld = none → r.ld = none → q.add = none → r.add = none → q.group = r.group → q.group ≠ 0 → q.tgt = .spad a → r.tgt = .spad b → s.key q.tgt / 8 = s.key r.tgt / 8 →
     r.mask = [] →
     let u := s.performOne h q.slice
     (u.hartAt h).stores = [] ∧ memReadN u.mem (s.key r.tgt) r.bytes.length = r.bytes)

/-- In the hart's own scratchpad window, on a segment its task may access, with nothing queued and the load performing
at once, an aligned std followed by an aligned ldd of the same address completes with the value stored, whatever
memory held. (R92, R194, R303) -/
def Obligations.LoadReturnsLatestStore : Prop :=
  ∀ (s t : State) (r a d : Reg) (imm : BitVec 13), s.isExec s.turn = false → s.cur.relFence = false →
    s.cur.stores = [] → (Claims.address s a imm).toNat % 8 = 0 →
    (Claims.address s a imm).toNat / 2 ^ 19 = 0xF000000000000000 / 2 ^ 19 →
    s.segAllowed (s.ctxOf s.turn) (coreOf s.turn) (nbits (Claims.address s a imm).toNat 16 3) = true → s.late = 0 →
    exec (.std r a imm) s = .next t → ∃ v, exec (.ldd d a imm) t = .next v ∧
      v.cur.g = (s.setG d (s.g r)).cur.g ∧ v.cur.pc = s.cur.pc + 8

/-- On the execute hart of a split task a scalar access is an illegal operand (2); elsewhere a misaligned address is
misaligned (3) before anything else; an aligned access takes the page fault (4), access fault (5) or, for a load, Haze
expired (6) its access answers with; xval is the address and est is 0 for a trap met at run time (R142) and as it was
for the one at issue (R344). A refused store changes nothing else, memory and the store queue included. A refused load
(one that does not perform late, log 4) is tested once the scalar slice's earlier stores have performed (R303): the
state it traps in is that of these stores performed and nothing more, g[d] and every other register as before. (R90,
R91, R92, R97) -/
def Obligations.ScalarAccessTraps : Prop :=
  ∀ (s : State) (i : Instr) (a : Reg) (imm : BitVec 13) (n : Nat),
    ((∃ d ext, Claims.scalarLoad i = some (d, a, imm, n, ext)) ∨ (∃ r, Claims.scalarStore i = some (r, a, imm, n))) →
    s.cur.run = .running → s.trapsHere →
    (s.isExec s.turn = true → Takes i s s 2 0 s.cur.pc) ∧
    (s.isExec s.turn = false → (Claims.address s a imm).toNat % n ≠ 0 → Takes i s (s.setEst 0) 3 (Claims.address s a imm) s.cur.pc) ∧
    (s.isExec s.turn = false → (Claims.address s a imm).toNat % n = 0 → ∀ u c, c ≠ 25 →
      (∀ d ext, Claims.scalarLoad i = some (d, a, imm, n, ext) →
        (nbit s.late 0 = true → s.latePlace s.turn (Claims.address s a imm).toNat n = none) → s.load s.turn 0 (Claims.address s a imm).toNat n = (u, .error c) →
        (c = 4 ∨ c = 5 ∨ c = 6) ∧ u = s.drainSlice s.turn 0 ∧
        (s.cur.hasLate = false → { u.cur with stores := s.cur.stores, digest := s.cur.digest } = s.cur) ∧
        Takes i s (u.setEst 0) c (Claims.address s a imm) s.cur.pc) ∧
      (∀ r, Claims.scalarStore i = some (r, a, imm, n) →
        s.storeNext 0 0 (Claims.address s a imm).toNat (natBytes n (s.g r).toNat) [] = (u, some c) →
        (c = 4 ∨ c = 5) ∧ Takes i s (s.setEst 0) c (Claims.address s a imm) s.cur.pc))

/-! ## Scalar floating point (R93-R96) -/

/-- The result and the flags of a scalar floating-point instruction (R94, R95). -/
def Claims.floatResult (s : State) : Instr → Option (Reg × Word × Nat)
  | .fadd z d a b => some (round z d ((s.fval z a).add s.rm (s.fval z b)))
  | .fsub z d a b => some (round z d ((s.fval z a).add s.rm (s.fval z b).negate))
  | .fmul z d a b => some (round z d ((s.fval z a).mul (s.fval z b)))
  | .fdiv z d a b => some (round z d ((s.fval z a).div (s.fval z b)))
  | .fsqrt z d a => some (round z d (s.fval z a).sqrt)
  | .fma z d a b => some (round z d (Exact.fma s.rm (s.fval z a) (s.fval z b) (s.fval z d)))
  | .fmin z d a b => some (round z d (Exact.minMax false (s.fval z a) (s.fval z b)))
  | .fmax z d a b => some (round z d (Exact.minMax true (s.fval z a) (s.fval z b)))
  | .fceq z d a b => some (test d ((s.fval z a).compare (s.fval z b) true (· == .eq)))
  | .fclt z d a b => some (test d ((s.fval z a).compare (s.fval z b) false (· == .lt)))
  | .fcle z d a b => some (test d ((s.fval z a).compare (s.fval z b) false (· != .gt)))
  | .fcvtSize z d a => some (round (!z) d (s.fval z a, 0))
  | .fcvtToFixed z d a f =>
    let x := match s.fval z a with | .num n m e st => Exact.num n m (e + f.toNat) st | y => y
    some (d, BitVec.ofNat 64 (roundInt true 64 s.rm x).1, (roundInt true 64 s.rm x).2)
  | .fcvtFromSigned z d a f => some (round z d (Exact.ofIntE (s.g a).toInt (-(f.toNat : Int)), 0))
  | .fcvtFromUnsigned z d a f => some (round z d (Exact.ofIntE ((s.g a).toNat : Int) (-(f.toNat : Int)), 0))
  | .fclass z d a => some (d, BitVec.ofNat 64 ((fmtOf z).classOf (s.fsrc z a)), 0)
  | _ => none
where
  /-- rounded once by `rm` into the format the size bit names -/
  round (z : Bool) (d : Reg) (r : Exact × Nat) : Reg × Word × Nat :=
    (d, BitVec.ofNat 64 ((fmtOf z).round s.rm false r.1).1, r.2 ||| ((fmtOf z).round s.rm false r.1).2)
  test (d : Reg) (r : Bool × Nat) : Reg × Word × Nat := (d, if r.1 then 1 else 0, r.2)

/-- Every scalar floating-point instruction ORs the flags it raises into fflags; if fmode enables none of them it
completes with g[d] the result of R94 and R95, otherwise it takes exception 13 with xval the flags it raised, g[d]
unchanged, the flags still set and est 0 (R142); nothing else changes. That fma of infinity and zero raises NV beside
a quiet NaN addend is the model's choice (log 47, DESIGN CHOICE: R94 is silent). (R94, R95, R96, R142) -/
def Obligations.FloatResults : Prop :=
  ∀ (s : State) (i : Instr) (d : Reg) (v : Word) (fl : Nat), Claims.floatResult s i = some (d, v, fl) →
    let u := s.setCur { s.cur with tr := { s.cur.tr with fflags := s.cur.tr.fflags ||| BitVec.ofNat 5 fl } }
    (fl &&& s.cur.tr.fmode.toNat / 8 % 32 = 0 → Completes i s (u.setG d v) (s.cur.pc + 4)) ∧
    (fl &&& s.cur.tr.fmode.toNat / 8 % 32 ≠ 0 → s.cur.run = .running → s.trapsHere →
      Takes i s (u.setEst 0) 13 (BitVec.ofNat 64 fl) s.cur.pc)

/-! ## State registers (R101, R323, R328, R93) -/

/-- What a read of a state register gives (R101), as a number; none where no register has the number. -/
def Claims.register (s : State) (n : Nat) : Option Nat :=
  let x := s.cur
  let c := s.clusterAt (s.turn / 8)
  let b (p : Bool) (k : Nat) : Nat := if p then 2 ^ k else 0
  match n with
  | 0x000 => some s.tick
  | 0x001 => some (s.turn % 2)
  | 0x002 => some (s.turn / 2 % 4)
  | 0x003 => some (s.turn / 8)
  | 0x004 => some 0x0001010101010101
  | 0x010 => some x.vec.vtype.toNat
  | 0x011 => some x.vec.vl.toNat
  | 0x012 => some x.vec.vlb.toNat
  | 0x013 => some (min 65536 (s.vbits s.turn / s.vt.ew * s.vt.grp))
  | 0x014 => some (s.vbits s.turn)
  | 0x015 => some (64 * s.laneGroups s.turn)
  | 0x016 => some (x.vec.pend.toNat + 256 * (s.declIn s.turn).toNat)
  | 0x017 => some (x.vec.window x.vec.sel.toNat)
  | 0x018 => some x.tr.est.toNat
  | 0x019 => some x.tr.ecm.toNat
  | 0x01A => some x.tr.fmode.toNat
  | 0x01B => some x.tr.fflags.toNat
  | 0x020 => some x.gcnt.toNat
  | 0x021 => some x.gsa.toNat
  | 0x022 => some x.gsb.toNat
  | 0x023 => some x.gsd.toNat
  | 0x024 => some x.zseed.toNat
  | 0x030 => some (s.mxg s.turn)
  | 0x031 => some x.mxcfg.toNat
  | 0x060 => some 1048576
  | 0x070 => some (b x.dirty.von 0 + b x.dirty.mon 1 + b x.dirty.dv 8 + b x.dirty.dm 9 + b x.dirty.db 10 +
      b x.dirty.ds 11 + b x.dirty.dc 12)
  | 0x071 => some x.tr.xcause.toNat
  | 0x072 => some x.tr.xpc.toNat
  | 0x073 => some x.tr.xval.toNat
  | 0x074 => some x.tr.xvec.toNat
  | 0x075 => some (b x.tr.hl 0 + b x.tr.ss 1 + b x.tr.tne 2 + b x.tr.ppend 3)
  | 0x076 => some x.tr.xsave.toNat
  | 0x080 => some x.vec.strip.toNat
  | 0x081 => some x.vec.stripaddr.toNat
  | 0x082 => some x.tr.retcnt.toNat
  | 0x090 => some c.vshare.toNat
  | 0x091 => some (c.own.toNat + 65536 * c.asg.toNat)
  | 0x092 => some c.vskew.toNat
  | 0x0A0 => some (s.budget s.turn)
  | n =>
    if 0x040 ≤ n ∧ n ≤ 0x047 then (x.bob.toList[n - 0x040]?).map (·.toNat)
    else if 0x050 ≤ n ∧ n ≤ 0x05F then (x.sig.toList[n - 0x050]?).map (·.toNat)
    else none

/-- The first-use trap of a state access (R329), if any. -/
def Claims.firstUse (s : State) (n : Nat) : Option Nat :=
  if s.cur.tr.hl then none
  else if ((0x010 ≤ n ∧ n ≤ 0x017) ∨ n = 0x080 ∨ n = 0x081) ∧ s.cur.dirty.von = false then some 17
  else if (n = 0x030 ∨ n = 0x031) ∧ s.cur.dirty.mon = false then some 18
  else none

/-- sget of each register of R101's table completes with g[d] its value, the status words xstat, dirty and vdecl
assembled from their bits; an unassigned number is an illegal operand (2) with nothing changed; a V register with von
clear, or 0x030 and 0x031 with mon clear, at task level take first use (17, 18). (R101, R323, R328, R329, R132, R135)
-/
def Obligations.StateRegisterReads : Prop :=
  ∀ (s : State) (d : Reg) (n : BitVec 12),
    (∀ v, Claims.firstUse s n.toNat = none → Claims.register s n.toNat = some v →
      Completes (.sget d n) s (s.setG d (BitVec.ofNat 64 v)) (s.cur.pc + 4)) ∧
    (Claims.firstUse s n.toNat = none → Claims.register s n.toNat = none → s.cur.run = .running → s.trapsHere →
      Takes (.sget d n) s s 2 0 s.cur.pc) ∧
    (∀ c, Claims.firstUse s n.toNat = some c → s.cur.run = .running → s.trapsHere →
      Takes (.sget d n) s s c 0 s.cur.pc)

/-- Whether a write of `v` to register `n` is allowed: the access column of R101 and each register's own rule. -/
def Claims.writable (s : State) (n v : Nat) : Bool :=
  let hl := s.cur.tr.hl
  match n with
  | 0x010 => vtypeLegal v
  | 0x011 => decide (v ≤ min 65536 (s.vbits s.turn / s.vt.ew * s.vt.grp))
  | 0x012 => decide (v ≤ s.vbits s.turn * s.vt.grp)
  | 0x016 => decide (v % 4 ≠ 3 ∧ v / 4 % 64 = 0 ∧ v / 1024 = 0) && !(s.isSplit s.turn && s.turn % 2 = 0)
  | 0x017 => hl && (s.cur.vec.writeTags v (declOf (s.declIn s.turn))).isSome
  | 0x018 => hl
  | 0x019 => hl
  | 0x01A => decide (v % 8 ≤ 4 ∧ v < 512)
  | 0x01B => decide (v < 32)
  | 0x020 => true
  | 0x021 => true
  | 0x022 => true
  | 0x023 => true
  | 0x024 => true
  | 0x031 => decide (v / 2 ^ 8 % 2 ^ 8 = 0 ∧ v < 2 ^ 21)
  | 0x070 => hl && decide (v / 4 % 64 = 0 ∧ v < 2 ^ 13)
  | 0x071 => hl
  | 0x072 => hl
  | 0x073 => hl
  | 0x074 => true
  | 0x075 => hl && decide (v < 16)
  | 0x076 => hl
  | 0x080 => hl
  | 0x081 => hl
  | 0x082 => hl
  | n =>
    if n = 0x042 ∨ n = 0x046 then decide (v < 2 ^ 52)
    else if 0x040 ≤ n ∧ n ≤ 0x047 then true
    else if n = 0x050 then decide (v % 64 = 0)
    else if 0x051 ≤ n ∧ n ≤ 0x054 then decide (v < 2 ^ 32)
    else if n = 0x055 then decide (v / 2 ^ 37 % 2 ^ 26 = 0)
    else if n = 0x056 then true
    else if n = 0x057 then decide (v < 2 ^ 24)
    else if 0x058 ≤ n ∧ n ≤ 0x05F then decide (v % 16 = 0)
    else false

/-- What a register reads after `v` was written to it: read-only bits keep their value (R132, R323). -/
def Claims.written (s : State) (n v : Nat) : Nat :=
  match n with
  | 0x016 => v % 4 + 256 * (s.declIn s.turn).toNat
  | 0x075 => (if s.cur.tr.hl then 1 else 0) + v / 2 % 4 * 2 + (if s.cur.tr.ppend then 8 else 0)
  | _ => v

/-- The dirty bit of the class a state register belongs to (R328). -/
def Claims.dirtyBit (n : Nat) : Nat :=
  if (0x010 ≤ n ∧ n ≤ 0x017) ∨ n = 0x080 ∨ n = 0x081 then 2 ^ 8
  else if n = 0x031 then 2 ^ 9
  else if 0x040 ≤ n ∧ n ≤ 0x047 then 2 ^ 10
  else if 0x050 ≤ n ∧ n ≤ 0x05F then 2 ^ 11
  else if 0x020 ≤ n ∧ n ≤ 0x024 then 2 ^ 12
  else 0

/-- An allowed write completes: the register reads back the value (its read-only bits kept), vtags the window it
selects, whose tags of existing registers it has set where w = 1, every other tag kept; every other register of the
table reads as before except dirty, whose bit of the class written is set, and vlmax after vtype; memory, the other
harts and, for sset, every g register are unchanged, and sswap puts the old value in g[d]. A refused value, a
read-only register, a handler-level register at task level or an unassigned number is an illegal operand (2) and
changes nothing. The model's readings: vl and vlb stay after a vtype write (log 29), a write of xstat ignores its
read-only bits and vdecl is refused on an access hart (log 27), a write of retcnt counts itself on top (log 47). (R93,
R101, R132, R135, R255, R278, R295, R323, R328, R329) -/
def Obligations.StateRegisterWrites : Prop :=
  ∀ (s : State) (i : Instr) (d a : Reg) (n : BitVec 12), (i = .sset n a ∧ d = 0) ∨ i = .sswap d n a →
    Claims.firstUse s n.toNat = none →
    (Claims.writable s n.toNat (s.g a).toNat = true →
      ∃ u old, Claims.register s n.toNat = some old ∧ Completes i s (u.setG d (BitVec.ofNat 64 old)) (s.cur.pc + 4) ∧
        (n ≠ 0x017 → Claims.register u n.toNat = some (Claims.written s n.toNat (s.g a).toNat)) ∧
        (n = 0x017 → let v := (s.g a).toNat
          u.cur.vec.sel.toNat = v % 4 ∧ Claims.register u 0x017 = some (u.cur.vec.window (v % 4)) ∧
          ∀ r, r < 42 → (u.cur.vec.tag r).toNat =
            if v / 4 % 2 = 1 ∧ r / 20 = v % 4 ∧ r ∈ regsUnder (declOf (s.declIn s.turn)) then v / 2 ^ (3 * (r % 20) + 3) % 8
            else (s.cur.vec.tag r).toNat) ∧
        (n ≠ 0x070 → Claims.register u 0x070 = (Claims.register s 0x070).map (· ||| Claims.dirtyBit n.toNat)) ∧
        (∀ m, m ≠ n.toNat → m ≠ 0x070 → (m = 0x013 → n ≠ 0x010) → Claims.register u m = Claims.register s m) ∧
        u.cur.g = s.cur.g ∧ u.cur.pc = s.cur.pc ∧ u.mem = s.mem ∧ ∀ h, h ≠ s.turn → u.hartAt h = s.hartAt h) ∧
    (Claims.writable s n.toNat (s.g a).toNat = false → s.cur.run = .running → s.trapsHere →
      Takes i s s 2 0 s.cur.pc)

/-! ## Queues (R97, R98) -/

/-- Whether the running hart writes (or reads) scalar queue q: split mode, in the queue's direction (R97). -/
def Claims.queueFor (s : State) (q : Nat) (writes : Bool) : Bool :=
  s.isSplit s.turn && (if q < 2 then (s.turn % 2 = 0) == writes else (s.turn % 2 = 1) == writes)

/-- In split mode and in the queue's direction: qsend on a queue of fewer than 16 entries appends g[a]; qrecv takes
the oldest entry into g[d]; qflag on fewer than 64 bits appends whether g[a] is nonzero; bqz and bqnz take the oldest
bit and branch; each completes and gives a sync stamp, an append after the hart's stores have performed (a release)
and a receipt likewise (an acquire is a join); that qflag is a release and bqz and bqnz are joins, with their stamps,
is the model's reading (log 38, DEDUCED: R307 names qsend and image appends). A full or empty queue makes the hart
wait in the instruction with the queue's code (R100) and nothing done; joined mode or the other direction is an
illegal operand. (R97, R98, R100, R307, R358) -/
def Obligations.QueueTransfers : Prop :=
  ∀ (s : State) (q : BitVec 2) (r : Reg) (imm : BitVec 13),
    let k := s.coreAt (s.turn / 2)
    let l := k.sq[q.toNat]
    let waits (i : Instr) (code : Nat) : Prop := ∃ t w, exec i s = .next t ∧ t = s.setCur { s.cur with run := .waiting w } ∧
      w.instr = i ∧ w.queue = some code
    let put (v : State) (k : Core) : State := v.setCore (s.turn / 2) k
    s.queueRelease.cur.stores = [] ∧ (∀ n, (s.queueAcquire n).cur.stores = []) ∧
    (Claims.queueFor s q.toNat true = true → l.length < 16 →
      Completes (.qsend q r) s ((put s.queueRelease { k with sq := k.sq.set q.toNat (l ++ [s.g r]) }).sync s.turn 4) (s.cur.pc + 4)) ∧
    (Claims.queueFor s q.toNat true = true → 16 ≤ l.length → waits (.qsend q r) (16 + q.toNat)) ∧
    (∀ x l', Claims.queueFor s q.toNat false = true → l = x :: l' →
      Completes (.qrecv r q) s (((put (s.queueAcquire q.toNat) { k with sq := k.sq.set q.toNat l' }).sync s.turn 5).setG r x) (s.cur.pc + 4)) ∧
    (Claims.queueFor s q.toNat false = true → l = [] → waits (.qrecv r q) q.toNat) ∧
    (Claims.queueFor s 0 true = true → k.bq.length < 64 →
      Completes (.qflag r) s ((put s.queueRelease { k with bq := k.bq ++ [decide (s.g r ≠ 0)] }).sync s.turn 4) (s.cur.pc + 4)) ∧
    (Claims.queueFor s 0 true = true → 64 ≤ k.bq.length → waits (.qflag r) 24) ∧
    (∀ b l', Claims.queueFor s 0 false = true → k.bq = b :: l' →
      let u := (put (s.queueAcquire 4) { k with bq := l' }).sync s.turn 5
      let target := s.cur.pc + BitVec.ofInt 64 (2 * imm.toInt)
      Completes (.bqz imm) s u (if b then s.cur.pc + 4 else target) ∧
      Completes (.bqnz imm) s u (if b then target else s.cur.pc + 4)) ∧
    (Claims.queueFor s 0 false = true → k.bq = [] → waits (.bqz imm) 8 ∧ waits (.bqnz imm) 8) ∧
    (s.cur.run = .running → s.trapsHere →
      (Claims.queueFor s q.toNat true = false → Takes (.qsend q r) s s 2 0 s.cur.pc) ∧
      (Claims.queueFor s q.toNat false = false → Takes (.qrecv r q) s s 2 0 s.cur.pc) ∧
      (Claims.queueFor s 0 true = false → Takes (.qflag r) s s 2 0 s.cur.pc) ∧
      (Claims.queueFor s 0 false = false → Takes (.bqz imm) s s 2 0 s.cur.pc ∧ Takes (.bqnz imm) s s 2 0 s.cur.pc))

/-! ## Exceptions (R322-R343) -/

/-- At task level with a handler, trap n and brkpt n go to xvec, its bit 0 cleared (the model's reading, log 27,
DEDUCED), at handler level: xcause is 24 or 19, xval n, xpc the next word, est 0, ss is cleared, the instruction is
counted, no single step is taken after it and none becomes pending, and every general register, flag, vector register,
the store queue and the other harts are unchanged. (R142, R322, R325, R340, R341, R342) -/
def Obligations.TrapAndBreakpoint : Prop :=
  ∀ (s : State) (i : Instr) (c n : Nat), ((∃ k : BitVec 10, i = .trap k ∧ c = 24 ∧ n = k.toNat) ∨
      (∃ k : BitVec 12, i = .brkpt k ∧ c = 19 ∧ n = k.toNat)) → s.cur.run = .running → s.trapsHere →
    ∃ t, exec i s = .next t ∧ Alone s t ∧ (s.hashOff → t.mem = s.mem) ∧ t.cur.run = .running ∧
      t.cur.pc = s.cur.tr.xvec &&& ~~~1 ∧
      t.cur.tr = { s.cur.tr with
        xcause := BitVec.ofNat 64 c, xval := BitVec.ofNat 64 n, xpc := s.cur.pc + 4, hl := true, ss := false
        est := 0, retcnt := s.cur.tr.retcnt + 1 } ∧
      t.cur.stepArm = false ∧ t.cur.pending = s.cur.pending ∧
      t.cur.g = s.cur.g ∧ t.cur.vec = s.cur.vec ∧ t.cur.stores = s.cur.stores ∧ t.cur.dirty = s.cur.dirty

/-- trap n at handler level, or with xvec 0, does not enter a handler: every store of the hart performs, the hart
stops with xcause, xpc, xval, xvec and xsave unchanged and est 0, and its task, unless its code is unloaded, is
stopped by a forward. That the stop clears a pending pre-emption request is the model's reading (log 27, DEDUCED).
(R142, R325, R326, R327, R333) -/
def Obligations.DoubleTrapForwards : Prop :=
  ∀ (s : State) (n : BitVec 10) (k : Task), s.cur.run = .running → (s.cur.tr.hl = true ∨ s.cur.tr.xvec = 0) →
    s.task? s.cur.rcb = some k → k.phase ≠ .orphaned →
    ∃ t, exec (.trap n) s = .next t ∧ t.cur.run = .stopped ∧ t.cur.stores = [] ∧
      t.cur.tr = { s.cur.tr with ppend := false, est := 0, retcnt := s.cur.tr.retcnt + 1 } ∧
      (∃ k', t.task? s.cur.rcb = some k' ∧ k'.phase = .forwarded ∧ k'.core = k.core ∧ k'.segs = k.segs)

/-- At task level with a handler, tret, trap fwd and trap yld take illegal instruction (1) with xval their word and
none of their effect. At handler level with an even xpc, tret continues at xpc at task level, resumes there at (est,
ecm), arms a single step exactly if ss was 1, and changes no other register; with an odd xpc it traps as misaligned
(3) with xval xpc and est 0. idle, at either level, ends the hart for good and changes no general register. (R45,
R335, R340, R341, R343) -/
def Obligations.TrapReturns : Prop :=
  ∀ s : State, (∀ (i : Instr) (w : Word), (i = .tret ∧ w = 0x9000000B) ∨ (i = .trapFwd ∧ w = 0x8001000B) ∨
      (i = .trapYld ∧ w = 0x8002000B) → s.cur.run = .running → s.trapsHere → Takes i s s 1 w s.cur.pc) ∧
    (s.cur.tr.hl = true → s.cur.tr.xpc.toNat % 2 = 0 →
      ∃ t, exec .tret s = .next t ∧ Alone s t ∧ t.cur.run = .running ∧ t.cur.pc = s.cur.tr.xpc ∧ t.cur.resuming = true ∧
        t.cur.stepArm = s.cur.tr.ss ∧ t.cur.tr = { s.cur.tr with hl := false, retcnt := s.cur.tr.retcnt + 1 } ∧
        t.cur.g = s.cur.g ∧ t.cur.vec = s.cur.vec ∧ t.cur.stores = s.cur.stores ∧ t.cur.dirty = s.cur.dirty) ∧
    (s.cur.tr.hl = true → s.cur.tr.xpc.toNat % 2 = 1 →
      exec .tret s = .next ((s.setEst 0).takeTrap s.turn 3 s.cur.tr.xpc s.cur.pc true)) ∧
    (∃ t, exec .idle s = .next t ∧ t.cur.run = .ended ∧ t.cur.g = s.cur.g ∧ t.cur.pc = s.cur.pc + 4 ∧
      (∀ h, h ≠ s.turn → t.hartAt h = s.hartAt h) ∧
      ∀ k, s.task? s.cur.rcb = some k → ∃ k', t.task? s.cur.rcb = some k' ∧ k'.ended = k.ended ||| BitVec.ofNat 2 (2 ^ (s.turn % 2)))

/-- At handler level, where the partial image can be written at xsave after every store has performed, trap yld and
trap fwd stop the hart with the PC at the next word, no store queued, no pre-emption pending and its other trap
registers kept; the task records a partial image at xsave for the slot, and is bound (trap yld) or stopped by a
forward (trap fwd) unless its code was unloaded or, for trap yld, it is already stopped by a forward. (R331, R332,
R338, R340) -/
def Obligations.YieldAndForwardStop : Prop :=
  ∀ (s v : State) (k : Task), s.cur.tr.hl = true → s.task? s.cur.rcb = some k →
    ((s.drain s.turn).finish s.turn (s.cur.pc + 4)).writeImage s.turn (s.cur.pc + 4) false = some v →
    ∀ (i : Instr) (p : Phase), (i = .trapYld ∧ p = .bound) ∨ (i = .trapFwd ∧ p = .forwarded) →
    ∃ t k', exec i s = .next t ∧ t.cur.run = .stopped ∧ t.cur.pc = s.cur.pc + 4 ∧ t.cur.stores = [] ∧
      t.cur.tr = { s.cur.tr with ppend := false, retcnt := s.cur.tr.retcnt + 1 } ∧
      t.task? s.cur.rcb = some k' ∧ tget (0, 0) k'.image (s.turn % 2) = (s.cur.tr.xsave.toNat, 1) ∧
      k'.phase = if k.phase = .orphaned ∨ (k.phase = .forwarded ∧ p = .bound) then k.phase else p

/-- Whatever declaration was in force before, putting back the base region of the image a hart's context makes,
partial or full, restores the resume PC, g1 to g31, the trap words, fmode, fflags, mxcfg, retcnt, the pending
declaration, the one in force on the hart (the execute hart's in split mode, R132) and every scale entry exactly; g0
reads zero and no pre-emption is pending. (R132, R331, R332, R333) -/
def Obligations.BaseRegionKeepsContext : Prop :=
  ∀ (s : State) (h : Nat) (pc : Word) (full : Bool) (z : Hart),
    let x := s.hartAt h
    ∀ old : BitVec 2, let y := z.fromBase old (s.imageBytes h pc full)
    y.pc = pc ∧ (∀ r : Fin 32, r ≠ 0 → y.g[r] = x.g[r]) ∧ y.g[0] = 0 ∧
    y.tr = { x.tr with ppend := false } ∧ y.dirty = x.dirty ∧ y.mxcfg = x.mxcfg ∧
    y.vec.cur = s.declIn h ∧ y.vec.pend = x.vec.pend ∧ y.vec.scale = x.vec.scale

/-- Where g[a] is no readable, aligned class-0 RCB, rerun and dispose complete with g[d] = 2 and tret gd, ga with 1;
where it names no task stopped by a forward in the caller's domain, the caller's own running task included, all three
complete with g[d] = 1; both with nothing else changed but the accessed bit of the leaf that names the RCB. Where it
names one: dispose completes with 0 and the task is live no longer; rerun completes with 0 and the task, with nothing
held, is queued at the front of its queue or, where a preload of its core waits, joins it as that starts; tret gd, ga
answers 2 for an orphan, whose task stays as it is, 3 where no image was written, nothing else changed, takes
misaligned (3) where a saved PC is odd, and otherwise answers 0 with the task bound to its core, to resume when that
takes it. That g[a] is read with read permission and that tret gd, ga leaves a task to be resumed are the model's
readings (log 27, DEDUCED). (R45, R77, R208, R327, R336, R340, R341) -/
def Obligations.TaskControlResults : Prop :=
  ∀ (s : State) (d a : Reg),
    (s.rcbOf (s.g a).toNat = none → Completes (.trapRerun d a) s (s.setG d 2) (s.cur.pc + 4) ∧
      Completes (.trapDispose d a) s (s.setG d 2) (s.cur.pc + 4) ∧ Completes (.tretTask d a) s (s.setG d 1) (s.cur.pc + 4)) ∧
    (∀ rcb, s.rcbOf (s.g a).toNat = some rcb → s.stoppedFor rcb = none →
      ∀ i, i = .trapRerun d a ∨ i = .trapDispose d a ∨ i = .tretTask d a →
        Completes i s ((s.rcbNote (s.g a).toNat).setG d 1) (s.cur.pc + 4)) ∧
    (∀ k, s.rcbOf (s.g a).toNat = some s.cur.rcb → s.task? s.cur.rcb = some k → s.turn ∈ k.harts → s.cur.run = .running →
      ∀ i, i = .trapRerun d a ∨ i = .trapDispose d a ∨ i = .tretTask d a →
        Completes i s ((s.rcbNote (s.g a).toNat).setG d 1) (s.cur.pc + 4)) ∧
    (∀ rcb k, s.rcbOf (s.g a).toNat = some rcb → s.stoppedFor rcb = some k → s.cur.rcb ≠ rcb →
      let n := s.rcbNote (s.g a).toNat
      (∃ u : State, Completes (.trapDispose d a) s (u.setG d 0) (s.cur.pc + 4) ∧ u.task? rcb = none ∧ u.cur.g = s.cur.g) ∧
      (∃ u : State, Completes (.trapRerun d a) s (u.setG d 0) (s.cur.pc + 4) ∧ u.cur.g = s.cur.g ∧
        ((∀ p ∈ s.tasks, p.2.core = k.core → p.2.phase ≠ .rerun) →
          ∃ k', u.task? rcb = some k' ∧ k'.eff = k.eff ∧ k'.segs = 0 ∧ k'.hzTiles = 0 ∧
            if s.tasks.any (fun p => p.2.core = k.core && p.2.phase = .preloaded) then
              k'.phase = .rerun ∧ k'.core = k.core
            else k'.phase = .queued ∧
              ((u.dieAt k.die).queues[k.eff.prio % 16]'(Nat.mod_lt _ (by decide))).head? = some (QEntry.fresh rcb))) ∧
      (k.phase = .orphaned → ∃ u : State, Completes (.tretTask d a) s (u.setG d 2) (s.cur.pc + 4) ∧ u.task? rcb = some k) ∧
      (k.phase = .forwarded → (∃ p ∈ k.image, p.2.2 = 0) → Completes (.tretTask d a) s (n.setG d 3) (s.cur.pc + 4)) ∧
      (k.phase = .forwarded → (∀ p ∈ k.image, p.2.2 ≠ 0) → ∀ v slot pc, (n.drain s.turn).oddResume rcb k = (v, some (slot, pc)) →
        s.cur.run = .running → s.trapsHere → Takes (.tretTask d a) s (v.setEst 0) 3 (BitVec.ofNat 64 pc) s.cur.pc) ∧
      (k.phase = .forwarded → (∀ p ∈ k.image, p.2.2 ≠ 0) → (∃ v, (n.drain s.turn).oddResume rcb k = (v, none)) → ∃ u : State, Completes (.tretTask d a) s (u.setG d 0) (s.cur.pc + 4) ∧
        u.task? rcb = some { k with phase := .bound }))

/-! ## Atomics, fences, acquire and release (R309-R312) -/

/-- An atomic: bytes, whether it acquires or releases, result, address and operand registers, whether host class takes it, and F(old, x)
with the compare value of `amo.cas`, none where nothing is written (R311). -/
structure Claims.Atomic where
  n : Nat
  joins : Bool
  d : Reg
  a : Reg
  b : Reg
  host : Bool
  f : Nat → Nat → Nat → Option Nat

/-- The atomics of the table of R311. -/
def Claims.atomic : Instr → Option Claims.Atomic
  | .amoSwap z o d a b => some ⟨w z, decide (o ≠ 0), d, a, b, true, fun _ x _ => some x⟩
  | .amoAdd z o d a b => some ⟨w z, decide (o ≠ 0), d, a, b, true, fun old x _ => some ((old + x) % 256 ^ w z)⟩
  | .amoAnd z o d a b => some ⟨w z, decide (o ≠ 0), d, a, b, false, fun old x _ => some (old &&& x)⟩
  | .amoOr z o d a b => some ⟨w z, decide (o ≠ 0), d, a, b, false, fun old x _ => some (old ||| x)⟩
  | .amoXor z o d a b => some ⟨w z, decide (o ≠ 0), d, a, b, false, fun old x _ => some (old ^^^ x)⟩
  | .amoMin z o d a b => some ⟨w z, decide (o ≠ 0), d, a, b, false, fun old x _ => some (if int z x < int z old then x else old)⟩
  | .amoMax z o d a b => some ⟨w z, decide (o ≠ 0), d, a, b, false, fun old x _ => some (if int z old < int z x then x else old)⟩
  | .amoMinu z o d a b => some ⟨w z, decide (o ≠ 0), d, a, b, false, fun old x _ => some (min old x)⟩
  | .amoMaxu z o d a b => some ⟨w z, decide (o ≠ 0), d, a, b, false, fun old x _ => some (max old x)⟩
  | .amoCas z o d a b => some ⟨w z, decide (o ≠ 0), d, a, b, true, fun old x e => if old = e then some x else none⟩
  | _ => none
where
  w (z : Bool) : Nat := if z then 8 else 4
  int (z : Bool) (x : Nat) : Int := if z then (BitVec.ofNat 64 x).toInt else (BitVec.ofNat 32 x).toInt

/-- The state in which an atomic performs: an acquire or a release joins every slice, otherwise the scalar slice performs
(R307, R312). -/
def Claims.joined (s : State) (joins : Bool) : State := if joins then s.drain s.turn else s.drainSlice s.turn 0

/-- One atomic step on a place: what is written, the next write after a release fence if one stands (R309). -/
def Claims.swapped (s : State) (va n : Nat) (t : Target) (leaf : Option (Nat × Nat × Bool)) (new : Option Nat) : State :=
  match new with
  | some x => ((s.noteLeaf (s.ctxOf s.turn) va true leaf).writeT t (natBytes n x) []).clearFence.sync s.turn 0
  | none => (s.noteLeaf (s.ctxOf s.turn) va false leaf).sync s.turn 0

/-- On a hart that may access memory and an aligned, permitted place, every 4- and 8-byte atomic completes: g[d] is
the old bytes, sign-extended from 32 bits for 4, exactly the new bytes are written in one step (amo.cas only where the
old value equals the low bytes of g[d]), an acquire or a release having joined every slice first; a misaligned address
is misaligned (3), host class refuses the operations of R205 with access fault, and a refused place takes its cause (a
page or access fault, or Haze expired) with xval the address, est 0, nothing written. amo.addq does the same on 16
bytes, the traps included (host class is always refused), adding the pair g[b+1]:g[b] (0 for b = 0) modulo 2^128 and
returning the old halves in g[d] and g[d+1] unless d is 0; an odd b or d is an illegal operand. Each is one sync
event; that an atomic which is a release fence's next write gives the atomic's stamp alone is the model's reading (log
38). (R121, R142, R205, R211, R307, R311, R312) -/
def Obligations.AtomicResults : Prop :=
  (∀ (s : State) (i : Instr) (m : Claims.Atomic), Claims.atomic i = some m → s.isExec s.turn = false →
    let va := s.g m.a
    let u := Claims.joined s m.joins
    (va.toNat % m.n = 0 → ∀ t leaf, u.resolve (u.ctxOf s.turn) .both va.toNat = .ok (t, leaf) → u.beyond t m.n = false →
      (∀ pa, t = .phys 2 pa → m.host = true) → u.expired t = false →
      let old := bytesNat (u.readT t m.n)
      let v := Claims.swapped u va.toNat m.n t leaf (m.f old ((s.g m.b).toNat % 256 ^ m.n) ((s.g m.d).toNat % 256 ^ m.n))
      Completes i s (v.setG m.d (if m.n = 8 then BitVec.ofNat 64 old else (BitVec.ofNat 32 old).signExtend 64)) (s.cur.pc + 4)) ∧
    (s.cur.run = .running → s.trapsHere →
      (va.toNat % m.n ≠ 0 → Takes i s (s.setEst 0) 3 va s.cur.pc) ∧
      (va.toNat % m.n = 0 → ∀ c, c ≠ 25 → u.resolve (u.ctxOf s.turn) .both va.toNat = .error c → Takes i s (u.setEst 0) c va s.cur.pc) ∧
      (va.toNat % m.n = 0 → ∀ t leaf, u.resolve (u.ctxOf s.turn) .both va.toNat = .ok (t, leaf) →
        (((∃ pa, t = .phys 2 pa) ∧ m.host = false ∨ u.beyond t m.n = true) → Takes i s (u.setEst 0) 5 va s.cur.pc) ∧
        (u.expired t = true → u.beyond t m.n = false → Takes i s (u.setEst 0) 6 va s.cur.pc)))) ∧
  (∀ (s : State) (o : BitVec 2) (d a b : Reg), s.isExec s.turn = false →
    let va := s.g a
    let u := Claims.joined s (decide (o ≠ 0))
    let x := if b = 0 then 0 else (s.g (b + 1)).toNat * 2 ^ 64 + (s.g b).toNat
    (b.toNat % 2 = 0 → d.toNat % 2 = 0 → va.toNat % 16 = 0 → ∀ t leaf,
      u.resolve (u.ctxOf s.turn) .both va.toNat = .ok (t, leaf) → u.beyond t 16 = false → (∀ pa, t ≠ .phys 2 pa) →
      u.expired t = false →
      let old := bytesNat (u.readT t 16)
      let v := Claims.swapped u va.toNat 16 t leaf (some ((old + x) % 2 ^ 128))
      Completes (.amoAddq o d a b) s
        (if d = 0 then v else (v.setG d (BitVec.ofNat 64 old)).setG (d + 1) (BitVec.ofNat 64 (old / 2 ^ 64))) (s.cur.pc + 4)) ∧
    (s.cur.run = .running → s.trapsHere → (b.toNat % 2 = 1 ∨ d.toNat % 2 = 1) → Takes (.amoAddq o d a b) s s 2 0 s.cur.pc) ∧
    (s.cur.run = .running → s.trapsHere → b.toNat % 2 = 0 → d.toNat % 2 = 0 → va.toNat % 16 ≠ 0 →
      Takes (.amoAddq o d a b) s (s.setEst 0) 3 va s.cur.pc) ∧
    (s.cur.run = .running → s.trapsHere → b.toNat % 2 = 0 → d.toNat % 2 = 0 → va.toNat % 16 = 0 →
      (∀ c, c ≠ 25 → u.resolve (u.ctxOf s.turn) .both va.toNat = .error c → Takes (.amoAddq o d a b) s (u.setEst 0) c va s.cur.pc) ∧
      (∀ t leaf, u.resolve (u.ctxOf s.turn) .both va.toNat = .ok (t, leaf) →
        (((∃ pa, t = .phys 2 pa) ∨ u.beyond t 16 = true) → Takes (.amoAddq o d a b) s (u.setEst 0) 5 va s.cur.pc) ∧
        (u.expired t = true → u.beyond t 16 = false → Takes (.amoAddq o d a b) s (u.setEst 0) 6 va s.cur.pc))))

/-- The fences, with whether a write after it is a release write (R309). -/
def Claims.fence : Instr → Option Bool
  | .lsync => some false
  | .fenceAcquireCore => some false
  | .fenceAcquireCluster => some false
  | .fenceAcquireDevice => some false
  | .fenceAcquireSystem => some false
  | .fenceReleaseCore => some true
  | .fenceReleaseCluster => some true
  | .fenceReleaseDevice => some true
  | .fenceReleaseSystem => some true
  | .fenceFullCore => some true
  | .fenceFullCluster => some true
  | .fenceFullDevice => some true
  | .fenceFullSystem => some true
  | _ => none

/-- lsync and each fence complete in every state, on either hart: no store or late load of the hart is queued
afterwards, no register or flag changes but by such a load, the other harts' queues are as they were, and after a
release or full fence the next write is a release write. (R307, R309) -/
def Obligations.FencesJoinTheSlices : Prop :=
  ∀ (s : State) (i : Instr) (r : Bool), Claims.fence i = some r →
    let u := s.drain s.turn
    Completes i s (if r then u.setCur { u.cur with relFence := true } else u) (s.cur.pc + 4) ∧ u.cur.stores = [] ∧
      (s.cur.hasLate = false → u.cur.arch = { s.cur.arch with stores := [] }) ∧ ∀ h, h ≠ s.turn → u.hartAt h = s.hartAt h

/-- A read of n bytes at `va` that the checks of R92 allow in state `s`: the bytes and the state after it. -/
def Claims.reads (s : State) (va n : Nat) (u : State) (bs : List Byte) : Prop :=
  ∃ tgt leaf, s.resolve (s.ctxOf s.turn) .load va = .ok (tgt, leaf) ∧ s.beyond tgt n = false ∧ s.expired tgt = false ∧
    u = s.noteLeaf (s.ctxOf s.turn) va false leaf ∧ bs = u.readT tgt n

/-- On a hart that may access memory and an aligned address, every store of the hart performs first; then, where the
checks of R92 pass: ld.acq completes with the bytes there, zero-extended, and a sync stamp; st.rel hands its low bytes
to the scalar slice as its release write, that of an earlier release fence too, and completes; wmon of 4 or 8 bytes
completes with the value read and a sync stamp when it differs from the low bytes of g[d] or its limit is reached, and
otherwise waits in the instruction, its limit 2^t ticks from the issue (none for t = 31) kept across the wait; a size
below 4 bytes is an illegal operand of wmon. (R307, R310, R315, R358, R90, R92) -/
def Obligations.AcquireAndRelease : Prop :=
  ∀ (s : State) (sz sc : BitVec 2) (tm : BitVec 5) (r a : Reg), s.isExec s.turn = false →
    let n := 2 ^ sz.toNat
    let va := (s.g a).toNat
    let w := s.drain s.turn
    w.cur.stores = [] ∧
    (va % n = 0 → ∀ u bs, Claims.reads w va n u bs →
      Completes (.ldAcq sz sc r a) s ((u.sync s.turn 2).setG r (BitVec.ofNat 64 (bytesNat bs))) (s.cur.pc + 4)) ∧
    (va % n = 0 → ∀ tgt leaf, w.resolve (w.ctxOf s.turn) .store va = .ok (tgt, leaf) → w.beyond tgt n = false →
      let u := w.noteLeaf (w.ctxOf s.turn) va true leaf
      Completes (.stRel sz sc r a) s (u.setCur { u.cur with relFence := false, stores :=
        [{ slice := 0, group := 0, rel := true, tgt := tgt, va := va, bytes := natBytes n (s.g r).toNat, mask := [],
           whole := none }] }) (s.cur.pc + 4)) ∧
    (va % n = 0 → 2 ≤ sz.toNat → ∀ u bs, Claims.reads w va n u bs →
      let limit := match s.cur.run with
        | .waiting k => if k.instr = .wmon sz sc tm r a then k.mark else if tm = 31 then 0 else s.tick + 2 ^ tm.toNat + 1
        | _ => if tm = 31 then 0 else s.tick + 2 ^ tm.toNat + 1
      ((bytesNat bs ≠ (s.g r).toNat % 256 ^ n ∨ (limit ≠ 0 ∧ limit ≤ u.tick + 1)) →
        Completes (.wmon sz sc tm r a) s ((u.sync s.turn 2).setG r (BitVec.ofNat 64 (bytesNat bs))) (s.cur.pc + 4)) ∧
      (bytesNat bs = (s.g r).toNat % 256 ^ n → (limit = 0 ∨ u.tick + 1 < limit) → ∃ k,
        exec (.wmon sz sc tm r a) s = .next (u.setCur { u.cur with run := .waiting k }) ∧
        k.instr = .wmon sz sc tm r a ∧ k.mark = limit)) ∧
    (s.cur.run = .running → s.trapsHere →
      (sz.toNat < 2 → Takes (.wmon sz sc tm r a) s s 2 0 s.cur.pc) ∧
      (va % n ≠ 0 → Takes (.ldAcq sz sc r a) s (s.setEst 0) 3 (s.g a) s.cur.pc ∧
        Takes (.stRel sz sc r a) s (s.setEst 0) 3 (s.g a) s.cur.pc ∧
        (2 ≤ sz.toNat → Takes (.wmon sz sc tm r a) s (s.setEst 0) 3 (s.g a) s.cur.pc)))

/-! ## The barrier (R313, R314) -/

/-- A hart arriving with m = g[a] from 1 to 8, equal to the barrier's target if others have arrived, performs every
store first. If it is the m-th, bar completes, the barrier's count is 0, and every other hart of the cluster waiting
in a bar of that id goes on past its bar; otherwise the hart waits and the count is one higher. m outside 1 to 8, or
different from the target, is an illegal operand and the hart does not arrive. (R313, R314) -/
def Obligations.BarrierReleases : Prop :=
  ∀ (s : State) (id : BitVec 3) (dev : Bool) (a : Reg), s.cur.run = .running →
    let i : Instr := .bar id dev a
    let cl := s.turn / 8
    let m := (s.g a).toNat
    let b := (s.clusterAt cl).bars[id.toNat]
    (1 ≤ m → m ≤ 8 → (b.count = 0 ∨ b.target = m) → b.count + 1 = m → ∃ u, Completes i s u (s.cur.pc + 4) ∧
      (s.cur.hasLate = false → u.cur.arch = { s.cur.arch with stores := [] }) ∧ (u.clusterAt cl).bars[id.toNat].count = 0 ∧
      ∀ h w dev' a', h / 8 = cl → h ≠ s.turn → (s.hartAt h).run = .waiting w → w.instr = .bar id dev' a' →
        (u.hartAt h).run = .running ∧ (u.hartAt h).pc = (s.hartAt h).pc + 4 ∧ (u.hartAt h).g = (s.hartAt h).g) ∧
    (1 ≤ m → m ≤ 8 → (b.count = 0 ∨ b.target = m) → b.count + 1 ≠ m → ∃ t w, exec i s = .next t ∧
      t.cur.run = .waiting w ∧ w.instr = i ∧ t.cur.pc = s.cur.pc ∧ t.cur.stores = [] ∧
      (t.clusterAt cl).bars[id.toNat].count = b.count + 1 ∧ (t.clusterAt cl).bars[id.toNat].target = m ∧
      ∀ h, h ≠ s.turn → t.hartAt h = s.hartAt h) ∧
    ((m < 1 ∨ 8 < m ∨ (b.count ≠ 0 ∧ b.target ≠ m)) → s.trapsHere → Takes i s s 2 0 s.cur.pc)

/-! ## Publication (R316-R318) -/

/-- With g[a] bits 63:36 zero and the entry of its index valid and of its generation after every store of the hart has
performed, pub completes with g[d] the new phase, the entry reads as before but for its phase, and a sync stamp is
given; an invalid or older entry is stale handle (12) with xval the handle; nonzero bits 63:36 are an illegal operand.
shsync takes illegal operand, stale handle (12) and access fault (5) in the order of R318's table; with length 0 it
completes with 0; with a free engine place it waits having captured the phase and performed every store, and without
one it waits for the place; a flip of the entry's phase while it waits is noted; when its copy is done, no link behind
the two ranges being down, it completes: the range of the backing that was current at issue is written over the
captured shadow, and g[d] is 1 exactly if the phase changed meanwhile. (R211, R235, R317, R318) -/
def Obligations.PublicationResults : Prop :=
  (∀ (s : State) (d a : Reg), s.isExec s.turn = false →
     let h := (s.g a).toNat
     let idx := h % 2 ^ 20
     let u := s.drain s.turn
     (h < 2 ^ 36 → (u.handle idx).hvalid = true → (u.handle idx).gen = h / 2 ^ 20 →
       Completes (.pub d a) s (((u.flipPhase idx).sync s.turn 6).setG d (if (u.handle idx).phase then 0 else 1)) (s.cur.pc + 8) ∧
       (u.flipPhase idx).handle idx = { u.handle idx with phase := !(u.handle idx).phase }) ∧
     (s.cur.run = .running → s.trapsHere →
       (h < 2 ^ 36 → ((u.handle idx).hvalid = false ∨ (u.handle idx).gen ≠ h / 2 ^ 20) → Takes (.pub d a) s (u.setEst 0) 12 (s.g a) s.cur.pc) ∧
       (2 ^ 36 ≤ h → Takes (.pub d a) s s 2 0 s.cur.pc))) ∧
  (∀ (s : State) (d a b c : Reg), s.isExec s.turn = false →
     let i : Instr := .shsync d a b c
     let h := (s.g a).toNat
     let n := (s.g b).toNat
     let off := (s.g c).toNat
     let e := s.handle (h % 2 ^ 20)
     (s.cur.run = .running → s.trapsHere → ((2 ^ 36 ≤ h ∨ 524288 < n) → Takes i s s 2 0 s.cur.pc) ∧
       (h < 2 ^ 36 → n ≤ 524288 → ((e.hvalid = false ∨ e.gen ≠ h / 2 ^ 20) → Takes i s (s.setEst 0) 12 (s.g a) s.cur.pc) ∧
         (e.hvalid = true → e.gen = h / 2 ^ 20 → e.size < off + n → Takes i s (s.setEst 0) 5 (s.g a) s.cur.pc))) ∧
     (h < 2 ^ 36 → n ≤ 524288 → e.hvalid = true → e.gen = h / 2 ^ 20 → off + n ≤ e.size →
       (s.cur.run = .running ∨ ∃ w, s.cur.run = .waiting w ∧ w.instr = i ∧ w.mark = 0) →
       (n = 0 → Completes i s (s.setG d 0) (s.cur.pc + 8)) ∧
       (0 < n → s.engineLoad (s.turn / 8) < 16 → ∃ w, exec i s =
           .next ((s.drain s.turn).setCur { (s.drain s.turn).cur with run := .waiting w }) ∧
         w.instr = i ∧ w.mark = if e.phase then 2 else 1) ∧
       (0 < n → 16 ≤ s.engineLoad (s.turn / 8) → ∃ w, exec i s = .next (s.setCur { s.cur with run := .waiting w }) ∧
         w.instr = i ∧ w.mark = 0)) ∧
     (∀ w (p flipped : Bool), h < 2 ^ 36 → n ≤ 524288 → s.cur.run = .waiting w → w.instr = i →
       w.mark = (if p then 2 else 1) + (if flipped then 2 else 0) →
       let src := if p then e.back1 else e.back0
       let dst := if p then e.back0 else e.back1
       s.backingRun src off n = n → s.backingRun dst off n = n →
       let m := memWriteN s.mem (physKey dst.1 (dst.2 + off)) (memReadN s.mem (physKey src.1 (src.2 + off)) n)
       Completes i s (({ s with mem := m } : State).setG d (if flipped then 1 else 0)) (s.cur.pc + 8))) ∧
  (∀ (s : State) (h idx : Nat) (w : WaitRec) (d a b c : Reg), (s.hartAt h).run = .waiting w → w.instr = .shsync d a b c →
     ((s.hartAt h).reg a).toNat % 2 ^ 20 = idx → w.mark = 1 ∨ w.mark = 2 →
     ((s.flipPhase idx).hartAt h).run = .waiting { w with mark := w.mark + 2 })

/-! ## Work requests (R103, R104) -/

/-- On a hart that may, spawn performs every store and completes: 4 where g[a] is no readable, aligned class-0 block,
else, its leaf's accessed bit set, the reason of the enqueue on the hart's die, 0 when accepted. yield completes with
0 and no other change unless a queue head of at least the task's priority waits for a core and this one would be
eligible; then with 1, a pre-emption request pending on the hart, and the task counting one priority lower. (R63, R64,
R103, R104) -/
def Obligations.SpawnAndYield : Prop :=
  ∀ (s : State) (d a : Reg),
    (s.isExec s.turn = false → (s.drain s.turn).rcbOf (s.g a).toNat = none →
      Completes (.spawn d a) s ((s.drain s.turn).setG d 4) (s.cur.pc + 4)) ∧
    (s.isExec s.turn = false → ∀ rcb, (s.drain s.turn).rcbOf (s.g a).toNat = some rcb →
      let r := ((s.drain s.turn).rcbNote (s.g a).toNat).enqueue (s.turn / 512) rcb
      Completes (.spawn d a) s ((r.1.sync s.turn 8).setG d (BitVec.ofNat 64 r.2)) (s.cur.pc + 4)) ∧
    (s.isExec s.turn = true → s.cur.run = .running → s.trapsHere → Takes (.spawn d a) s s 2 0 s.cur.pc) ∧
    ((∀ k, s.task? s.cur.rcb = some k → s.yieldHead s.cur.rcb k = false) → Completes (.yield d) s (s.setG d 0) (s.cur.pc + 4)) ∧
    (∀ k, s.task? s.cur.rcb = some k → s.yieldHead s.cur.rcb k = true → k.phase = .running → s.cur.run = .running →
      s.turn ∈ k.harts → (∀ p ∈ s.tasks, p.1 = s.cur.rcb → p.2 = k) →
      ∃ u, Completes (.yield d) s u (s.cur.pc + 4) ∧ u.cur.g = (s.setG d 1).cur.g ∧ u.cur.tr = { s.cur.tr with ppend := true } ∧
        u.task? s.cur.rcb = some { k with lower := true })

/-! ## Copy commands (R235-R251) -/

/-- The command block a hart reads at an address (R238). -/
def Claims.block (bs : List Byte) : List Word := (List.range 8).map fun i => BitVec.ofNat 64 (bytesNat ((bs.drop (8 * i)).take 8))

/-- With no load of the hart still to perform late (a step sees to that before cpy, log 4): on the execute hart of a
split task cpy is an illegal operand (2), and elsewhere a g[a] that is not 64-byte aligned is misaligned (3). With
g[a] aligned and the block readable as R92 says, once the slice's earlier stores have performed: a block with a bad
field is an illegal operand (2) with xval the lowest byte offset; a handle operand that is stale or out of range traps
with xval the handle; a legal block of at least one element, with its handles valid and in range, whose slot does not
run and whose engine has a place completes: every earlier store has performed, the slot holds the block as a running
command with nothing moved and no error, and g[d] is the promise; a block of no element completes the same way, its
command completed; if the slot runs or the engine is full the hart waits with nothing done. (R142, R235, R237, R240,
R243, R244, R246, R248, R249) -/
def Obligations.CopyAccepted : Prop :=
  (∀ (s : State) (d a : Reg) (n : BitVec 5), s.cur.run = .running → s.trapsHere →
    (s.isExec s.turn = true → Takes (.cpy d a n) s s 2 0 s.cur.pc ∧ Takes (.ccan d n) s s 2 0 s.cur.pc) ∧
    (s.isExec s.turn = false → (s.g a).toNat % 64 ≠ 0 → Takes (.cpy d a n) s (s.setEst 0) 3 (s.g a) s.cur.pc)) ∧
  ∀ (s u : State) (d a : Reg) (n : BitVec 5) (bs : List Byte), n.toNat < 4 → s.cur.hasLate = false → s.isExec s.turn = false →
    (s.g a).toNat % 64 = 0 → Claims.reads (s.drainSlice s.turn 0) (s.g a).toNat 64 u bs →
    let i : Instr := .cpy d a n
    let w := Claims.block bs
    let box1 := reach (fun a b c => srcBit w (blkOrg w 0 + a) (blkOrg w 1 + b) c) w (srcBits w)
    let box2 := reach (fun a b c => dstBit w a b c) w (dstBits w)
    (blkRefused w ≠ [] → s.cur.run = .running → s.trapsHere → ∃ k, k ∈ blkRefused w ∧ (∀ j ∈ blkRefused w, k ≤ j) ∧
      Takes i s (u.setEst 0) 2 (BitVec.ofNat 64 k) s.cur.pc) ∧
    let check1 := if blkOp w = 2 then none else u.handleCheck w (blkW w 1) (if blkOp w = 3 then none else some box1)
    let check2 := u.handleCheck w (blkW w 2) (some box2)
    (blkRefused w = [] → s.cur.run = .running → s.trapsHere →
      (∀ c, check1 = some c → Takes i s (u.setEst 0) c (BitVec.ofNat 64 (opHand (blkW w 1))) s.cur.pc) ∧
      (∀ c, check1 = none → check2 = some c → Takes i s (u.setEst 0) c (BitVec.ofNat 64 (opHand (blkW w 2))) s.cur.pc)) ∧
    (blkRefused w = [] → check1 = none → check2 = none →
      ((u.slotAt s.turn (slotOfImm n)).running = false → u.engineLoad (s.turn / 8) < 16 → blkCount w ≠ 0 →
        ∃ v : State, let sl := v.slotAt s.turn (slotOfImm n)
          Completes i s (v.setG d (BitVec.ofNat 64 sl.promise)) (s.cur.pc + 4) ∧ v.cur.stores = [] ∧ v.cur.g = s.cur.g ∧
          sl.state = 1 ∧ sl.moved = 0 ∧ sl.faddr = 0 ∧ s.tick + 380 ≤ sl.promise ∧
          ∃ c, sl.cmd = some c ∧ c.block = w ∧ c.pos = 0 ∧ c.rcb = s.cur.rcb) ∧
      ((u.slotAt s.turn (slotOfImm n)).running = false → u.engineLoad (s.turn / 8) < 16 → blkCount w = 0 →
        ∃ v : State, let sl := v.slotAt s.turn (slotOfImm n)
          Completes i s (v.setG d (BitVec.ofNat 64 sl.promise)) (s.cur.pc + 4) ∧ v.cur.stores = [] ∧ v.cur.g = s.cur.g ∧
          sl.moved = 0 ∧ (s.replay = [] → sl.state = 2)) ∧
      (((u.slotAt s.turn (slotOfImm n)).running = true ∨ 16 ≤ u.engineLoad (s.turn / 8)) → ∃ r,
        exec i s = .next (u.setCur { u.cur with run := .waiting r }) ∧ r.instr = i))

/-- cwait on a slot that does not run completes with its status word; on one that runs it completes with 0 once the
limit has passed and otherwise waits. cwait any with nothing running completes with 0, and otherwise with the status
of the lowest slot whose command ran when it began and has stopped (the slot runs none, or one accepted since); a wait
with no slot completes with 0 at its limit. That a wait on a slot still running answers 0 when its limit wakes it is
the model's reading (log 21, DEDUCED). cstat completes with the status, the fault address or the bytes written so far
of the slot (of the elements a running command has issued, those that have performed), after whatever the engine has
moved; ccan completes with the status, a running command having become cancelled (state 3) with what it moved left in
place and nothing it issued left to perform. (R235, R248, R250, R251) -/
def Obligations.CopyQueries : Prop :=
  ∀ (s : State) (d a w n : Reg),
    let h := if s.isSplit s.turn then s.turn / 2 * 2 else s.turn
    let sl := s.slotAt h (slotOfImm n)
    let late : Prop := (s.g a).toNat ≠ 2 ^ 64 - 1 ∧ (s.g a).toNat ≤ s.tick
    (n.toNat < 4 → sl.state ≠ 1 →
      Completes (.cwait d a n) s ((if 2 ≤ sl.state then s.drain s.turn else s).setG d sl.status) (s.cur.pc + 4)) ∧
    (n.toNat < 4 → sl.state = 1 → (late → Completes (.cwait d a n) s (s.setG d 0) (s.cur.pc + 4)) ∧
      (¬ late → ∃ r, exec (.cwait d a n) s = .next (s.setCur { s.cur with run := .waiting r }) ∧ r.instr = .cwait d a n)) ∧
    (n = 4 → (∀ j : Fin 4, (s.slotAt h j).state ≠ 1) → s.cur.run = .running →
      Completes (.cwait d a n) s (s.setG d 0) (s.cur.pc + 4)) ∧
    (n = 4 → ∀ (r : WaitRec) (j : Fin 4), s.cur.run = .waiting r → r.instr = .cwait d a n → nbit r.mark j = true →
      let stopped := fun k : Fin 4 => (s.slotAt h k).state ≠ 1 ∨ ∃ c, (s.slotAt h k).cmd = some c ∧ r.mark / 16 < c.seq
      stopped j → (∀ k : Fin 4, k < j → nbit r.mark k = true → ¬ stopped k) →
      let st := (s.slotAt h j).status
      Completes (.cwait d a n) s ((if 2 ≤ (s.slotAt h j).state then s.drain s.turn else s).setG d st) (s.cur.pc + 4)) ∧
    (n = 5 → late → Completes (.cwait d a n) s (s.setG d 0) (s.cur.pc + 4)) ∧
    (let u := s.copyAdvance (s.turn / 8)
     let sl := u.slotAt h (slotOfImm n)
     Completes (.cstat d w n) s (if w = 0 then (if 2 ≤ sl.state then u.drain s.turn else u).setG d sl.status
       else if w = 1 then u.setG d sl.faddr else u.setG d (BitVec.ofNat 64 (match sl.cmd with
         | some c => ((c.pos - c.pend.length) * dstBits c.block + 7) / 8
         | none => sl.moved))) (s.cur.pc + 4)) ∧
    (s.isExec s.turn = false → ∃ v : State,
      let old := (s.copyAdvance (s.turn / 8)).slotAt s.turn (slotOfImm n)
      let new := v.slotAt s.turn (slotOfImm n)
      Completes (.ccan d n) s (v.setG d new.status) (s.cur.pc + 4) ∧ v.cur.g = s.cur.g ∧
      (if old.state = 1 then new.state = 3 ∧ new.cmd = none ∧ new.moved = old.moved else new = old))

/-! ## Vector configuration (R131, R132, R138-R140) -/

/-- With lanes and no first use pending, and no armed debug stop at the strip (which at task level is taken first,
cause 19): vset completes with g[d] = vl = min(g[a], vlmax) and vsetb with g[d] = vlb = min(g[a], vbits × grp), both
under the pending declaration, which takes force (registers and tags read zero if it changed; on a split task's access
hart it is left alone), with strip one higher and stripaddr the PC; vset and vsetb are an illegal operand (2) where a
changed declaration meets a busy vector queue; vcfg with a legal type sets vtype, lowers vl and vlb to the new limits
and answers vl; an illegal type is an illegal instruction (1) before any other check; vdecl1, vdecl2 and vdecl4 set
the pending declaration only, and are an illegal operand on an access hart. No lanes is 23 and no vector permission at
task level 17. (R47, R128, R131, R132, R138, R139, R140, R147, R356, R379) -/
def Obligations.VectorLengths : Prop :=
  ∀ (s : State) (d a : Reg),
    let acc := s.isSplit s.turn && decide (s.turn % 2 = 0)
    let vec := if acc then s.cur.vec else s.cur.vec.declare s.cur.vec.cur s.cur.vec.pend
    let u := s.setCur { s.cur with vec := vec }
    let ready : Prop := s.laneGroups s.turn ≠ 0 ∧ (s.cur.tr.hl = true ∨ s.cur.dirty.von = true)
    let strip (v : VecState) : VecState := { v with strip := v.strip + 1, stripaddr := s.cur.pc }
    (ready → ¬ (s.isExec s.turn = true ∧ s.declPending = true ∧ s.vqBusy = true) →
      (s.stripStop = true → s.cur.tr.hl = true) →
      (let n := min (s.g a).toNat (u.vlmaxOf s.turn)
       ∃ v : State, Completes (.vset d a) s (v.setG d (BitVec.ofNat 64 n)) (s.cur.pc + 8) ∧ v.cur.g = s.cur.g ∧
         v.cur.vec = strip { vec with vl := BitVec.ofNat 64 n } ∧ v.cur.dirty.dv = true) ∧
      (let n := min (s.g a).toNat (u.vbits s.turn * u.vt.grp)
       ∃ v : State, Completes (.vsetb d a) s (v.setG d (BitVec.ofNat 64 n)) (s.cur.pc + 8) ∧ v.cur.g = s.cur.g ∧
         v.cur.vec = strip { vec with vlb := BitVec.ofNat 64 n } ∧ v.cur.dirty.dv = true)) ∧
    (ready → s.cur.run = .running → s.trapsHere → ∀ i, i = .vset d a ∨ i = .vsetb d a →
      (s.isExec s.turn = true → s.declPending = true → s.vqBusy = true → Takes i s s 2 0 s.cur.pc) ∧
      (¬ (s.isExec s.turn = true ∧ s.declPending = true ∧ s.vqBusy = true) → s.stripStop = true →
        Takes i s s 19 0x1000 s.cur.pc)) ∧
    (ready → vtypeLegal (s.g a).toNat = true →
      let t := VT.ofNat (s.g a).toNat
      let vl := min s.cur.vec.vl.toNat (min 65536 (s.vbits s.turn / t.ew * t.grp))
      ∃ v : State, Completes (.vcfg d a) s (v.setG d (BitVec.ofNat 64 vl)) (s.cur.pc + 8) ∧ v.cur.g = s.cur.g ∧
        v.cur.vec = { s.cur.vec with
          vtype := s.g a, vl := BitVec.ofNat 64 vl
          vlb := BitVec.ofNat 64 (min s.cur.vec.vlb.toNat (s.vbits s.turn * t.grp)) }) ∧
    (∀ i (c : BitVec 2), (i = .vdecl1 ∧ c = 0) ∨ (i = .vdecl2 ∧ c = 1) ∨ (i = .vdecl4 ∧ c = 2) →
      (ready → acc = false → ∃ v : State, Completes i s v (s.cur.pc + 8) ∧ v.cur.g = s.cur.g ∧
        v.cur.vec = { s.cur.vec with pend := c }) ∧
      (ready → acc = true → s.cur.run = .running → s.trapsHere → Takes i s s 2 0 s.cur.pc)) ∧
    (s.cur.run = .running → s.trapsHere → ∀ i, i = .vset d a ∨ i = .vsetb d a ∨ i = .vcfg d a ∨ i = .vdecl1 ∨ i = .vdecl2 ∨
        i = .vdecl4 → (i = .vcfg d a → vtypeLegal (s.g a).toNat = true) →
      (s.laneGroups s.turn = 0 → Takes i s s 23 0 s.cur.pc) ∧
      (s.laneGroups s.turn ≠ 0 → s.cur.dirty.von = false → Takes i s s 17 0 s.cur.pc)) ∧
    (vtypeLegal (s.g a).toNat = false → s.cur.run = .running → s.trapsHere →
      Takes (.vcfg d a) s s 1 (match encode (.vcfg d a) with | some e => e.word | none => 0) s.cur.pc)

/-! ## Element-wise vector instructions (R143-R162, R173) -/

/-- An element-wise instruction at a state: its length in bytes, unit, destination, sources, whether it is illegal under the
type in force or by the overlap rule, its mask, and OP(e) in the state its elements start from (R143). -/
structure Claims.Ew where
  len : Nat
  unit : Nat
  vd : VSpec
  srcs : List VRead
  bad : Bool
  mask : VMask
  op : State → Nat → ERes

/-- The members of units 0 and 1 that combine two sources: on plain integers by `fi`, narrowed once (R107); otherwise on
exact scaled values by `fx`, rounded once into the kind (R112, R116, R153, R160). -/
def Claims.binary (s : State) (unit : Nat) (vd va : VSpec) (b : VSrc) (m : VMask) (fi : Int → Int → Int)
    (fx : Nat → Exact → Exact → Exact × Nat) : Claims.Ew :=
  let t := s.vt
  let srcs := t.read va :: srcReads b t
  ⟨8, unit, vd, srcs, s.kindBad true true || s.overlapBad s.flagRule vd srcs, m, fun u e =>
    if t.plainInt then .val (t.narrow (fi (t.int (u.rawAt va e)) (u.opbI t b e))) 0
    else
      let x := u.elemX t e (u.rawAt va e)
      let y := u.opbX t b e
      u.putX e (fx u.rm x.1 y.1) (x.2 ||| y.2)⟩

/-- An integer-only member of two sources: `fi` on plain integers and the bits of b; with scales `fx` on the exact value of
a, its own bits, and the exact value and the bits of b, rounded once into the kind (R116, R149, R152). The bits of a scaled
value that is no integer are free (log 31). -/
def Claims.bits (s : State) (unit : Nat) (vd va : VSpec) (b : VSrc) (m : VMask) (fi : Nat → Nat → Nat)
    (fx : Exact → Nat → Exact → Nat → Exact × Nat) : Claims.Ew :=
  let t := s.vt
  let srcs := t.read va :: srcReads b t
  ⟨8, unit, vd, srcs, s.kindBad true false || s.overlapBad s.flagRule vd srcs, m, fun u e =>
    if t.plainInt then .val (fi (u.rawAt va e) (wrapN t.ew (u.opbI t b e)) % 2 ^ t.ew) 0
    else
      let x := u.elemX t e (u.rawAt va e)
      let y := u.opbX t b e
      let r := fx x.1 (bitsOfX t (u.entryOf t e) (u.rawAt va e) x.1) y.1 (u.opbBits t b e)
      u.putX e (r.1, 0) (x.2 ||| y.2 ||| r.2)⟩

/-- The bitwise and shift members: `f` on the `ew` bits of a and b. -/
def Claims.bitwise (s : State) (vd va : VSpec) (b : VSrc) (m : VMask) (f : Nat → Nat → Nat) : Claims.Ew :=
  bits s 0 vd va b m f fun _ x _ y => (.ofInt (s.vt.int (f x y)), 0)

/-- The members with one source. -/
def Claims.unary (s : State) (unit : Nat) (vd va : VSpec) (m : VMask) (int : Bool) (fi : Int → Int) (fx : Exact → Exact × Nat) :
    Claims.Ew :=
  let t := s.vt
  ⟨8, unit, vd, [t.read va], s.kindBad int true || s.overlapBad s.flagRule vd [t.read va], m, fun u e =>
    if t.plainInt then .val (t.narrow (fi (t.int (u.rawAt va e)))) 0
    else u.putX e (fx (u.elemX t e (u.rawAt va e)).1) (u.elemX t e (u.rawAt va e)).2⟩

/-- ±(a × b) ± d, formed exactly (R160). -/
def Claims.fused (s : State) (vd va : VSpec) (b : VSrc) (m : VMask) (np nd : Bool) : Claims.Ew :=
  let t := s.vt
  let srcs := t.read va :: t.read vd :: srcReads b t
  let si (n : Bool) (x : Int) : Int := if n then -x else x
  let sx (n : Bool) (x : Exact) : Exact := if n then x.negate else x
  ⟨8, 1, vd, srcs, s.kindBad true true || s.overlapBad s.flagRule vd srcs, m, fun u e =>
    if t.plainInt then .val (t.narrow (si np (t.int (u.rawAt va e) * u.opbI t b e) + si nd (t.int (u.rawAt vd e)))) 0
    else
      let x := u.elemX t e (u.rawAt va e)
      let y := u.opbX t b e
      let z := u.elemX t e (u.rawAt vd e)
      u.putX e (Exact.fma u.rm (sx np x.1) y.1 (sx nd z.1)) (x.2 ||| y.2 ||| z.2)⟩

/-- Division and remainder: on integer kinds truncating, a zero divisor giving all ones or the dividend, or integer divide by
zero (14) with `eid` (R161). With scales the result is written as any value of the kind is (R116, R149). -/
def Claims.divide (s : State) (vd va : VSpec) (b : VSrc) (m : VMask) (rem : Bool) : Claims.Ew :=
  let t := s.vt
  let srcs := t.read va :: srcReads b t
  let eid := s.cur.tr.fmode.getLsbD 8
  ⟨8, 2, vd, srcs, s.kindBad true (!rem) || s.overlapBad (s.flagRule || (t.isI && eid)) vd srcs, m, fun u e =>
    let raw := u.rawAt va e
    if t.plainInt then
      if u.opbI t b e = 0 then (if eid then .trap 14 0 else .val (if rem then raw else 2 ^ t.ew - 1) 0)
      else .val (t.narrow (if rem then (t.int raw).tmod (u.opbI t b e) else (t.int raw).tdiv (u.opbI t b e))) 0
    else
      let x := u.elemX t e raw
      let y := u.opbX t b e
      if t.isF then u.putX e (x.1.div y.1) (x.2 ||| y.2)
      else if y.1.isZero then
        (if eid then .trap 14 0 else u.putX e (if rem then x.1 else .ofInt (t.int (2 ^ t.ew - 1)), 0) (x.2 ||| y.2))
      else
        match alignX x.1 y.1 with
        | some (p, q, k) => u.putX e (if rem then .ofIntE (p.tmod q) k else .ofInt (p.tdiv q), 0) (x.2 ||| y.2)
        | none => u.putX e (.nan false, 0) (x.2 ||| y.2)⟩

/-- A move of raw bits (R159). -/
def Claims.move (s : State) (vd : VSpec) (srcs : List VRead) (m : VMask) (op : State → Nat → ERes) : Claims.Ew :=
  ⟨8, 0, vd, srcs, s.moveBad, m, op⟩

/-- The wide element-wise instructions of units 0 to 2. -/
def Claims.wide (s : State) : Instr → Option Claims.Ew
  | .vadd vd va b m => some (binary s 0 vd va b m (· + ·) fun rm x y => x.add rm y)
  | .vsub vd va b m => some (binary s 0 vd va b m (· - ·) fun rm x y => x.add rm y.negate)
  | .vrsb vd va b m => some (binary s 0 vd va b m (fun x y => y - x) fun rm x y => y.add rm x.negate)
  | .vmin vd va b m => some (binary s 0 vd va b m min fun _ x y => Exact.minMax false x y)
  | .vmax vd va b m => some (binary s 0 vd va b m max fun _ x y => Exact.minMax true x y)
  | .vmul vd va b m => some (binary s 1 vd va b m (· * ·) fun _ x y => x.mul y)
  | .vand vd va b m => some (bitwise s vd va b m (· &&& ·))
  | .vor vd va b m => some (bitwise s vd va b m (· ||| ·))
  | .vxor vd va b m => some (bitwise s vd va b m (· ^^^ ·))
  | .vandn vd va b m => some (bitwise s vd va b m fun x y => x &&& (2 ^ s.vt.ew - 1 - y))
  | .vshl vd va b m => some (bits s 0 vd va b m (fun x y => s.vt.narrow (s.vt.int x * 2 ^ (y % s.vt.ew)))
      fun x _ _ y => (x.scl (y % s.vt.ew : Nat), 0))
  | .vshr vd va b m => some (bitwise s vd va b m fun x y => x >>> (y % s.vt.ew))
  | .vsar vd va b m => some (bitwise s vd va b m fun x y => wrapN s.vt.ew (sext s.vt.ew x / 2 ^ (y % s.vt.ew)))
  | .vabs vd va m => some (unary s 0 vd va m true (fun x => x.natAbs) fun x => (x.abs, 0))
  | .vneg vd va m => some (unary s 0 vd va m true (fun x => -x) fun x => (x.negate, 0))
  | .vsqrt vd va m => some (unary s 2 vd va m false id Exact.sqrt)
  | .vexp2 vd va m => some (unary s 2 vd va m false id (sfu 3))
  | .vlog2 vd va m => some (unary s 2 vd va m false id (sfu 4))
  | .vrcp vd va m => some (unary s 2 vd va m false id (sfu 5))
  | .vrsq vd va m => some (unary s 2 vd va m false id (sfu 6))
  | .vsinpi vd va m => some (unary s 2 vd va m false id (sfu 7))
  | .vcospi vd va m => some (unary s 2 vd va m false id (sfu 8))
  | .vtanh vd va m => some (unary s 2 vd va m false id (sfu 9))
  | .vsigm vd va m => some (unary s 2 vd va m false id (sfu 10))
  | .vgelu vd va m => some (unary s 2 vd va m false id (sfu 11))
  | .vsilu vd va m => some (unary s 2 vd va m false id (sfu 12))
  | .vfma vd va b m => some (fused s vd va b m false false)
  | .vfms vd va b m => some (fused s vd va b m false true)
  | .vfnma vd va b m => some (fused s vd va b m true false)
  | .vdiv vd va b m => some (divide s vd va b m false)
  | .vmod vd va b m => some (divide s vd va b m true)
  | .vmulh vd va b m =>
    let t := s.vt
    let high (v : Int) : Nat := wrapN t.ew (v / 2 ^ t.ew)
    let w := bits s 1 vd va b m (fun _ _ => 0) fun x _ y _ =>
      ((match (x.mul y).1.floor? with | some (v, _) => .ofInt (t.int (high v)) | none => (x.mul y).1), (x.mul y).2)
    some { w with op := fun u e =>
      if t.plainInt then .val (high (t.int (u.rawAt va e) * u.opbI t b e)) 0 else w.op u e }
  | .vclamp vd va b c m =>
    let hi : VSrc := match b with | .vv _ => .vv c | _ => .vs (c.setWidth 5)
    let t := s.vt
    let srcs := t.read va :: srcReads b t ++ srcReads hi t
    some ⟨8, 0, vd, srcs, s.kindBad true true || s.overlapBad s.flagRule vd srcs, m, fun u e =>
      if t.plainInt then .val (t.narrow (min (max (t.int (u.rawAt va e)) (u.opbI t b e)) (u.opbI t hi e))) 0
      else
        let x := u.elemX t e (u.rawAt va e)
        let y := Exact.minMax true x.1 (u.opbX t b e).1
        u.putX e (Exact.minMax false y.1 (u.opbX t hi e).1) (x.2 ||| y.2 ||| (u.opbX t b e).2 ||| (u.opbX t hi e).2)⟩
  | .vcvt vd va st m =>
    let t := s.vt
    let v := srcType t st
    let n := srcGroup t v
    some ⟨8, 0, vd, [⟨va, n, v.ewCode⟩], s.kindBad true true || !srcLegal st || decide (8 < n) ||
        s.overlapBad ((t.isF || v.isF || decide (t.skind ≠ 0)) && s.anyEnable) vd [⟨va, n, v.ewCode⟩], m, fun u e =>
      u.convert v e (nbits (u.groupBits va n) (v.ew * e) v.ew)⟩
  | .vscl vd va b m =>
    let t := s.vt
    some ⟨8, 0, vd, [t.read va], s.kindBad true true || s.overlapBad s.flagRule vd [t.read va], m, fun u e =>
      let x := u.elemX t e (u.rawAt va e)
      u.putX e (x.1.scl (u.sclExp b), 0) x.2⟩
  | .vsel vd va vb k => some (move s vd [s.vt.read va, s.vt.read vb] none fun u e =>
      .val (s.vt.clean (if nbit (u.mask k) e then u.rawAt va e else u.rawAt vb e)) 0)
  | .vmv vd va m => some (move s vd [s.vt.read va] m fun u e => .val (s.vt.clean (u.rawAt va e)) 0)
  | .vdup vd (.vs g) m => some (move s vd [] m fun u _ => .val (s.vt.clean (u.g g).toNat) 0)
  | .vdup vd (.vi i) m => some (move s vd [] m fun u _ =>
      match s.vt.fmt with
      | some f => .val (f.round u.rm s.vt.sat (Fmt.b16.decode i.toNat)).1 (f.round u.rm s.vt.sat (Fmt.b16.decode i.toNat)).2
      | none => .val (s.vt.narrow i.toInt) 0)
  | .vid vd m => some ⟨8, 0, vd, [], s.kindBad true true, m, fun u e =>
      if s.vt.plainInt then .val (s.vt.narrow e) 0 else u.putX e (.ofInt e, 0) 0⟩
  | _ => none

/-- The compact forms are wide ones on v0 to v15, their first source l0, masked by m0, illegal under grouping (R55, R173). -/
def Claims.elementwise (s : State) : Instr → Option Claims.Ew
  | .cAdd vd vb m => two (wide s (.vadd (vd.setWidth 6) 40 (.vv (vb.setWidth 6)) (mk m)))
  | .cSub vd vb m => two (wide s (.vsub (vd.setWidth 6) 40 (.vv (vb.setWidth 6)) (mk m)))
  | .cMul vd vb m => two (wide s (.vmul (vd.setWidth 6) 40 (.vv (vb.setWidth 6)) (mk m)))
  | .cFma vd vb m => two (wide s (.vfma (vd.setWidth 6) 40 (.vv (vb.setWidth 6)) (mk m)))
  | .cMin vd vb m => two (wide s (.vmin (vd.setWidth 6) 40 (.vv (vb.setWidth 6)) (mk m)))
  | .cMax vd vb m => two (wide s (.vmax (vd.setWidth 6) 40 (.vv (vb.setWidth 6)) (mk m)))
  | .cAnd vd vb m => two (wide s (.vand (vd.setWidth 6) 40 (.vv (vb.setWidth 6)) (mk m)))
  | .cXor vd vb m => two (wide s (.vxor (vd.setWidth 6) 40 (.vv (vb.setWidth 6)) (mk m)))
  | .cExp2 vd vb m => two (wide s (.vexp2 (vd.setWidth 6) (vb.setWidth 6) (mk m)))
  | .cMv vd vb m => two (wide s (.vmv (vd.setWidth 6) (vb.setWidth 6) (mk m)))
  | i => wide s i
where
  mk (m : Bool) : VMask := if m then some 0 else none
  two (w : Option Claims.Ew) : Option Claims.Ew := w.map fun x => { x with len := 2, bad := x.bad || decide (s.vt.grp ≠ 1) }

/-- A vector instruction issues: lanes, no first use, its registers may be named, its queues are ready (R47, R97, R128). -/
structure Claims.Issues (s : State) (srcs : List VRead) (dst : Option (VSpec × Nat)) : Prop where
  lanes : s.laneGroups s.turn ≠ 0
  use : s.cur.tr.hl = true ∨ s.cur.dirty.von = true
  specs : s.specsOk srcs dst = true
  queues : s.queueWait srcs (dst.map (·.1)) = none

/-- The elements at or above `est` and below `vl` that the mask makes active (R137). -/
def Claims.active (u : State) (m : VMask) : List Nat :=
  (List.range u.cur.vec.vl.toNat).filter fun e => decide (u.est ≤ e) && nbit (u.maskBits m) e

/-- A destination of elements `ew` bits wide after the frame of R143: element by element, `mpol` for an inactive one, `tail`
from `vl` up. -/
structure Claims.Written (u : State) (ew : Nat) (m : VMask) (old : Nat) (x : Nat → Nat) (new : Nat) : Prop where
  act : ∀ e ∈ Claims.active u m, nbits new (ew * e) ew = x e % 2 ^ ew
  inactive : ∀ e, u.est ≤ e → e < u.cur.vec.vl.toNat → e ∉ Claims.active u m →
    nbits new (ew * e) ew = if u.vt.mpol then 0 else nbits old (ew * e) ew
  done : ∀ e, e < u.est → e < u.cur.vec.vl.toNat → nbits new (ew * e) ew = nbits old (ew * e) ew
  tail : new / 2 ^ (ew * u.cur.vec.vl.toNat) = if u.vt.tail then 0 else old / 2 ^ (ew * u.cur.vec.vl.toNat)

/-- Where the instruction issues, is legal, runs uninterrupted and none of its active elements traps, it completes:
the destination group holds OP(e) for each active element from est up, by mpol zero or the old element for an inactive
one, the old elements below est and by tail zero or the old bits from vl up; the flags of the active elements are ORed
into fflags, est is 0, the tags are set (also where no element was written, which is the model's choice, log 47),
queue images move and the result file shifts; the PC advances by the word's length and nothing else changes. Under an
integer kind with scales it is the model's reading that the bitwise, shift and high-product members work on the scaled
values, written back as integers of the kind (log 31, DEDUCED; the bits of a scaled value that is no integer are
free), and that a scaled quotient is rounded and then wrapped or clamped (log 30, DEDUCED). (R107, R110, R112, R116,
R119, R137, R141, R143, R145, R153, R160, R173) -/
def Obligations.ElementwiseResults : Prop :=
  ∀ (s : State) (i : Instr) (w : Claims.Ew), Claims.elementwise s i = some w →
    Claims.Issues s w.srcs (some (w.vd, s.vt.grp)) → w.bad = false → s.cur.lim = none →
    let u := s.readied w.srcs
    let old := u.destBits w.vd s.vt.grp
    ∀ (x fl : Nat → Nat), (∀ e ∈ Claims.active u w.mask, w.op u e = .val (x e) (fl e) ∧ u.flagTraps (fl e) = false) →
    ∃ new, Claims.Written u s.vt.ew w.mask old x new ∧
      Completes i s (((u.orFlags ((Claims.active u w.mask).foldl (fun f e => f ||| fl e) 0)).setGroup w.vd s.vt.grp
        s.vt.ewCode new |>.setEst 0).vecDone w.unit w.srcs (some (w.vd, s.vt.grp)) w.mask) (s.cur.pc + BitVec.ofNat 64 w.len)

/-- Where its queues are not ready it waits with the code of R100 and nothing done. At task level with a handler:
without lanes it takes 23; with lanes and von clear first use (17); illegal under the type, by the overlap rule or by
its registers, illegal operand (2), all with nothing changed. At the lowest active element k that raises an enabled
flag or traps, it takes 13 with the flags or the element's own cause, est is k, the flags of the elements up to k are
set, and no element from k up of the destination changes. (R47, R96, R98, R100, R128, R143, R144, R145, R329) -/
def Obligations.ElementwiseTraps : Prop :=
  ∀ (s : State) (i : Instr) (w : Claims.Ew), Claims.elementwise s i = some w →
    (∀ q, s.laneGroups s.turn ≠ 0 → (s.cur.tr.hl = true ∨ s.cur.dirty.von = true) → w.bad = false →
      s.specsOk w.srcs (some (w.vd, s.vt.grp)) = true → s.queueWait w.srcs (some w.vd) = some q →
      ∃ r, exec i s = .next (s.setCur { s.cur with run := .waiting r }) ∧ r.instr = i ∧ r.queue = some q) ∧
    (s.cur.run = .running → s.trapsHere →
    (s.laneGroups s.turn = 0 → Takes i s s 23 0 s.cur.pc) ∧
    (s.laneGroups s.turn ≠ 0 → s.cur.dirty.von = false → Takes i s s 17 0 s.cur.pc) ∧
    (s.laneGroups s.turn ≠ 0 → s.cur.dirty.von = true →
      (w.bad = true ∨ s.specsOk w.srcs (some (w.vd, s.vt.grp)) = false) → Takes i s s 2 0 s.cur.pc) ∧
    (Claims.Issues s w.srcs (some (w.vd, s.vt.grp)) → w.bad = false → s.cur.lim = none →
      let u := s.readied w.srcs
      ∀ (k c v : Nat) (x fl : Nat → Nat), k ∈ Claims.active u w.mask →
        (∀ e ∈ Claims.active u w.mask, e < k → w.op u e = .val (x e) (fl e) ∧ u.flagTraps (fl e) = false) →
        ((w.op u k = .val (x k) (fl k) ∧ u.flagTraps (fl k) = true ∧ c = 13 ∧ v = fl k) ∨
          (w.op u k = .trap 14 (BitVec.ofNat 64 v) ∧ c = 14 ∧ fl k = 0)) →
        ∃ u', Takes i s u' c (BitVec.ofNat 64 v) s.cur.pc ∧ u'.cur.tr.est = BitVec.ofNat 64 k ∧
          u'.cur.tr.fflags = ((Claims.active u w.mask).filter (· ≤ k)).foldl (fun f e => f ||| BitVec.ofNat 5 (fl e)) s.cur.tr.fflags ∧
          u'.cur.g = s.cur.g ∧ ((s.clusterAt (s.turn / 8)).trace.on 9 = false → u'.mem = s.mem) ∧ (vqOf w.vd = none → (u.vt.ew * u.cur.vec.vl.toNat ≤ s.vbits s.turn * s.vt.grp) →
            ∀ e, k ≤ e → e < u.cur.vec.vl.toNat → nbits (u'.groupBits w.vd s.vt.grp) (u.vt.ew * e) u.vt.ew =
              nbits (u.groupBits w.vd s.vt.grp) (u.vt.ew * e) u.vt.ew)))

/-! ## Masks, movements, reductions, block conversion (R117, R118, R156, R158, R163-R171) -/

/-- An instruction with a mask destination at a state: unit, destination, sources, illegality, mask, the bit of element e. -/
structure Claims.Mw where
  unit : Nat
  md : BitVec 3
  srcs : List VRead
  bad : Bool
  mask : VMask
  op : State → Nat → Nat × Nat

/-- `vcmp` and the bitwise mask operations (R158, R168). -/
def Claims.maskwise (s : State) : Instr → Option Claims.Mw
  | .vcmp md va b c m =>
    let t := s.vt
    some ⟨0, md, t.read va :: srcReads b t,
      s.kindBad true true || (t.isI && decide (6 ≤ c.toNat)) || (s.anyEnable && decide (m = some md)), m, fun u e =>
      let x := u.elemX t e (u.rawAt va e)
      let y := u.opbX t b e
      let nan := x.1.isNan || y.1.isNan
      let sig := x.1.isSig || y.1.isSig
      -- −0 is below +0 but under eq and ne, and an integer kind has one zero (R110)
      let o := if t.isF && decide (2 ≤ c.toNat) then x.1.order y.1 else x.1.cmp y.1
      -- the conditions eq, ne, lt, le, gt, ge, unordered, ordered; the orderings raise NV for every NaN
      let bit : Bool := match c.toNat with
        | 0 => !nan && o == .eq
        | 1 => nan || o != .eq
        | 2 => !nan && o == .lt
        | 3 => !nan && o != .gt
        | 4 => !nan && o == .gt
        | 5 => !nan && o != .lt
        | 6 => nan
        | _ => !nan
      let nv := if (2 ≤ c.toNat && c.toNat ≤ 5 && nan) || sig then 1 else 0
      (if bit then 1 else 0, nv ||| x.2 ||| y.2)⟩
  | .kand md ma mb => some ⟨5, md, [], s.moveBad, none, fun u e => (if nbit (u.mask ma) e && nbit (u.mask mb) e then 1 else 0, 0)⟩
  | .kor md ma mb => some ⟨5, md, [], s.moveBad, none, fun u e => (if nbit (u.mask ma) e || nbit (u.mask mb) e then 1 else 0, 0)⟩
  | .kxor md ma mb => some ⟨5, md, [], s.moveBad, none, fun u e => (if nbit (u.mask ma) e != nbit (u.mask mb) e then 1 else 0, 0)⟩
  | .knot md ma => some ⟨5, md, [], s.moveBad, none, fun u e => (if nbit (u.mask ma) e then 0 else 1, 0)⟩
  | _ => none

/-- Where it issues, is legal, runs uninterrupted and no comparison raises an enabled flag, vcmp or a bitwise mask
operation completes: each active element's bit of the mask destination is the condition or the bitwise result, an
inactive one is zero by mpol or kept, the bits from vl up are zero by tail or kept; the flags raised are ORed into
fflags, est is 0; no vector register changes. kpop completes with the number of active set bits below vl, kfirst with
the lowest or all ones; ksbf makes exactly the active elements before the first active set bit 1 and ksif those up to
it, with mpol for inactive elements and tail from vl; kset writes bits 64n to 64n+63 of the mask only and kget reads
them, both whatever vl is and as one element group (log 39, DEDUCED). (R110, R137, R143, R145, R158, R168, R169, R170,
R171) -/
def Obligations.MaskResults : Prop :=
  (∀ (s : State) (i : Instr) (w : Claims.Mw), Claims.maskwise s i = some w → Claims.Issues s w.srcs none → w.bad = false →
     s.cur.lim = none →
     let u := s.readied w.srcs
     let old := u.mask w.md
     (∀ e ∈ Claims.active u w.mask, u.flagTraps (w.op u e).2 = false) →
     ∃ new, Claims.Written u 1 w.mask old (fun e => (w.op u e).1) new ∧
       Completes i s (((u.orFlags ((Claims.active u w.mask).foldl (fun f e => f ||| (w.op u e).2) 0)).setMask w.md new
         |>.setEst 0).vecDone w.unit w.srcs none w.mask) (s.cur.pc + 8)) ∧
  (∀ (s : State) (d a : Reg) (md ma : BitVec 3) (m : VMask) (n : BitVec 10), Claims.Issues s [] none →
     let u := s.readied []
     let vl := s.cur.vec.vl.toNat
     let act (e : Nat) : Bool := decide (e < vl) && nbit (u.maskBits m) e
     let hit (e : Nat) : Bool := act e && nbit (u.mask ma) e
     (s.moveBad = false →
       Completes (.kpop d ma m) s ((u.setG d (BitVec.ofNat 64 ((List.range vl).filter hit).length)).vecDone 5 [] none m)
         (s.cur.pc + 8) ∧
       Completes (.kfirst d ma m) s ((u.setG d (match (List.range vl).find? hit with
         | some e => BitVec.ofNat 64 e
         | none => -1)).vecDone 5 [] none m) (s.cur.pc + 8) ∧
       ∀ (i : Instr) (upto : Bool), (i = .ksbf md ma m ∧ upto = false) ∨ (i = .ksif md ma m ∧ upto = true) → ∃ new,
         Completes i s (((u.setMask md new).setEst 0).vecDone 5 [] none m) (s.cur.pc + 8) ∧
         (∀ e, e < vl → nbit new e =
           if act e then decide (∀ k < e, hit k = false) && (upto || !hit e)
           else !u.vt.mpol && nbit (u.mask md) e) ∧
         new / 2 ^ vl = if u.vt.tail then 0 else u.mask md / 2 ^ vl) ∧
     Completes (.kget d ma n) s ((u.setG d (BitVec.ofNat 64 (u.mask ma / 2 ^ (64 * n.toNat)))).vecDoneOf 1 5 [] none none) (s.cur.pc + 8) ∧
     ∃ new, Completes (.kset md a n) s ((u.setMask md new).vecDoneOf 1 5 [] none none) (s.cur.pc + 8) ∧
       ∀ e, nbit new e = if 64 * n.toNat ≤ e ∧ e < 64 * n.toNat + 64 then nbit (s.g a).toNat (e - 64 * n.toNat) else nbit (u.mask md) e)

/-- A movement at a state: destination, sources, illegality, mask, and the element's new value, none where it keeps its own
(R163-R166). -/
structure Claims.Mv where
  vd : VSpec
  srcs : List VRead
  bad : Bool
  mask : VMask
  op : State → Nat → Option Nat

def Claims.movement (s : State) : Instr → Option Claims.Mv
  | .vslup vd va b m => some ⟨vd, [s.vt.read va], s.moveBad, m, fun u e =>
      if u.slideOff b ≤ e then some (s.vt.clean (u.rawAt va (e - u.slideOff b))) else none⟩
  | .vsldn vd va b m => some ⟨vd, [s.vt.read va], s.moveBad, m, fun u e =>
      some (if e + u.slideOff b < u.cap then s.vt.clean (u.rawAt va (e + u.slideOff b)) else 0)⟩
  | .vperm vd va vb m => some ⟨vd, [s.vt.read va, s.vt.read vb], s.moveBad, m, fun u e =>
      some (if u.rawAt vb e < u.cap then s.vt.clean (u.rawAt va (u.rawAt vb e)) else 0)⟩
  | .vexpand vd va k => some ⟨vd, [s.vt.read va], s.moveBad, some k, fun u e =>
      some (s.vt.clean (u.rawAt va ((List.range e).filter (nbit (u.mask k))).length))⟩
  | .viota vd ms m => some ⟨vd, [], s.vt.isF || s.moveBad, m, fun u e =>
      some (s.vt.narrow ((List.range e).filter fun k => nbit (u.mask ms) k && nbit (u.maskBits m) k).length)⟩
  | _ => none

/-- Where the movement issues and is legal it completes whole, whatever est holds: each active element takes the
element its rule names (zero beyond the group), an inactive one mpol, the elements from vl up tail; vcomp puts the
elements whose mask bits are set, in order, at the bottom of the destination and gives the rest, whatever their mask
bits, by tail zero or their old value. (R137, R163, R164, R165, R166) -/
def Obligations.MovementResults : Prop :=
  ∀ (s : State) (i : Instr),
    (∀ w : Claims.Mv, Claims.movement s i = some w → Claims.Issues s w.srcs (some (w.vd, s.vt.grp)) → w.bad = false →
      let u := s.readied w.srcs
      let ew := s.vt.ew
      let vl := s.cur.vec.vl.toNat
      let old := u.destBits w.vd s.vt.grp
      ∃ new, Completes i s (((u.setGroup w.vd s.vt.grp s.vt.ewCode new).setEst 0).vecDone 5 w.srcs (some (w.vd, s.vt.grp)) w.mask)
          (s.cur.pc + 8) ∧
        (∀ e, e < vl → nbits new (ew * e) ew =
          if nbit (u.maskBits w.mask) e then (match w.op u e with | some x => x % 2 ^ ew | none => nbits old (ew * e) ew)
          else if u.vt.mpol then 0 else nbits old (ew * e) ew) ∧
        new / 2 ^ (ew * vl) = if u.vt.tail then 0 else old / 2 ^ (ew * vl)) ∧
    (∀ vd va k, i = .vcomp vd va k → Claims.Issues s [s.vt.read va] (some (vd, s.vt.grp)) → s.moveBad = false →
      let u := s.readied [s.vt.read va]
      let ew := s.vt.ew
      let sel := (List.range s.cur.vec.vl.toNat).filter (nbit (u.mask k))
      let old := u.destBits vd s.vt.grp
      ∃ new, Completes i s (((u.setGroup vd s.vt.grp s.vt.ewCode new).setEst 0).vecDone 5 [s.vt.read va] (some (vd, s.vt.grp)) none)
          (s.cur.pc + 8) ∧
        (∀ n e, sel[n]? = some e → nbits new (ew * n) ew = s.vt.clean (u.rawAt va e) % 2 ^ ew) ∧
        new / 2 ^ (ew * sel.length) = if u.vt.tail then 0 else old / 2 ^ (ew * sel.length))

/-- A reduction: destination, elements, initial value, mask, whether floating kinds are allowed, and how two values combine. -/
structure Claims.Red where
  vd : VSpec
  va : VSpec
  vb : VSpec
  mask : VMask
  fl : Bool
  fi : VT → Nat → Nat → Int
  fx : Nat → Exact → Exact → Exact × Nat

def Claims.reduction : Instr → Option Claims.Red
  | .vsum vd va vb m => some ⟨vd, va, vb, m, true, fun t x y => t.int x + t.int y, fun rm x y => x.add rm y⟩
  | .vmaxv vd va vb m => some ⟨vd, va, vb, m, true, fun t x y => max (t.int x) (t.int y), fun _ x y => Exact.minMax true x y⟩
  | .vminv vd va vb m => some ⟨vd, va, vb, m, true, fun t x y => min (t.int x) (t.int y), fun _ x y => Exact.minMax false x y⟩
  | .vandv vd va vb m => some ⟨vd, va, vb, m, false, fun t x y => t.int (x &&& y), fun _ x _ => (x, 0)⟩
  | .vorv vd va vb m => some ⟨vd, va, vb, m, false, fun t x y => t.int (x ||| y), fun _ x _ => (x, 0)⟩
  | .vxorv vd va vb m => some ⟨vd, va, vb, m, false, fun t x y => t.int (x ^^^ y), fun _ x _ => (x, 0)⟩
  | _ => none

/-- Where the reduction issues, its type is legal (no scales) and it raises no enabled flag, it completes: element 0
of the destination is the value of R120's tree over the active elements from init, the bits above it are zero by tail
or kept, the flags are ORed into fflags. For a wrapping integer kind alone (not a clamping or floating one, whose tree
order shows) vsum's element 0 is moreover init plus every active element modulo 2^ew. (R120, R121, R167) -/
def Obligations.ReductionResults : Prop :=
  ∀ (s : State) (i : Instr) (w : Claims.Red), Claims.reduction i = some w →
    let t := s.vt
    let srcs := [t.read w.va, t.read w.vb]
    Claims.Issues s srcs (some (w.vd, t.grp)) → t.skind = 0 → (t.isF = true → w.fl = true) →
    s.overlapBad s.flagRule w.vd srcs = false →
    let u := s.readied srcs
    let comb := fun x y =>
      match t.fmt with
      | some f => ((f.round u.rm t.sat (w.fx u.rm (f.decode x) (f.decode y)).1).1,
          (w.fx u.rm (f.decode x) (f.decode y)).2 ||| (f.round u.rm t.sat (w.fx u.rm (f.decode x) (f.decode y)).1).2)
      | none => (t.narrow (w.fi t x y), 0)
    let elem := fun e => if nbit (u.maskBits w.mask) e then some (u.rawAt w.va e) else none
    let vl := s.cur.vec.vl.toNat
    let r := reduce comb elem vl (u.rawAt w.vb 0)
    u.flagTraps r.2 = false →
    (∃ new, Completes i s ((((u.orFlags r.2).setGroup w.vd t.grp t.ewCode new).setEst 0).vecDone 5 srcs (some (w.vd, t.grp)) w.mask)
        (s.cur.pc + 8) ∧ nbits new 0 t.ew = t.clean r.1 % 2 ^ t.ew ∧
      new / 2 ^ t.ew = if t.tail then 0 else u.destBits w.vd t.grp / 2 ^ t.ew) ∧
    (∀ vd va vb m, i = .vsum vd va vb m → t.isI = true → t.sat = false → 0 < t.ew →
      r.1 % 2 ^ t.ew = wrapN t.ew (t.int (u.rawAt vb 0) +
        ((((List.range vl).filter (nbit (u.maskBits m))).map fun e => t.int (u.rawAt va e)).sum)))

/-- Where vcvt.sb issues, its types are legal and it raises no enabled flag, it completes whole: for each block of
2^blk elements below vl (the last one cut at vl) the scale entry of its number and its elements are those R117 and
R118 give for the block's exact source values, scale entries past the blocks keep their value, the elements from vl up
follow tail, the flags are ORed into fflags and the destination's tags are set. With a mask it is an illegal operand
(2). The entry 0 under a zero, infinite or NaN band scale and the flags of NaN and infinite elements are the model's
choice (log 47, DESIGN CHOICE). (R117, R118, R156) -/
def Obligations.BlockConversionResults : Prop :=
  ∀ (s : State) (vd va : VSpec) (st : BitVec 7) (g : Reg),
    let t := s.vt
    let v := srcType t st
    let n := srcGroup t v
    let srcs : List VRead := [⟨va, n, v.ewCode⟩]
    Claims.Issues s srcs (some (vd, t.grp)) → s.kindBad true true = false → srcLegal st = true → n ≤ 8 → sbLegal t g = true →
    s.overlapBad s.anyEnable vd srcs = false →
    let u := s.readied srcs
    let vl := s.cur.vec.vl.toNat
    let size := 2 ^ t.blk
    let count := (vl + size - 1) / size
    let band := if t.skind = 1 then none else some (Fmt.bf16.decode ((s.g g).toNat % 65536))
    let blk := fun j => sbBlock t u.rm band ((List.range (min size (vl - j * size))).map fun k =>
      v.exact (nbits (u.groupBits va n) (v.ew * (j * size + k)) v.ew))
    let fl := (List.range count).foldl (fun f j => f ||| (blk j).2.2) 0
    u.flagTraps fl = false →
    (∀ k, s.laneGroups s.turn ≠ 0 → s.cur.dirty.von = true → s.cur.run = .running → s.trapsHere →
      Takes (.vcvtSb vd va st g (some k)) s s 2 0 s.cur.pc) ∧
    ∃ new scale, Completes (.vcvtSb vd va st g none) s
        ((((u.orFlags fl).setCur { (u.orFlags fl).cur with vec := { (u.orFlags fl).cur.vec with scale := scale } }
          |>.setGroup vd t.grp t.ewCode new).setEst 0).vecDone 0 srcs (some (vd, t.grp)) none) (s.cur.pc + 8) ∧
      (∀ j : Fin 256, scale[j] = if j.val < count then BitVec.ofNat 16 (blk j).1 else s.cur.vec.scale[j]) ∧
      (∀ e, e < vl → some (nbits new (t.ew * e) t.ew) = ((blk (e / size)).2.1[e % size]?).map (· % 2 ^ t.ew)) ∧
      new / 2 ^ (t.ew * vl) = if t.tail then 0 else u.destBits vd t.grp / 2 ^ (t.ew * vl)

/-! ## Vector memory (R213-R233) -/

/-- A vector access at a state: the register, other sources, illegality, mask, and the address of element e, or the cause and
value its index fails with (R214). -/
structure Claims.Va where
  r : VSpec
  srcs : List VRead
  bad : Bool
  mask : VMask
  addr : State → Nat → Except (Nat × Word) Nat

/-- The unit-stride, strided, indexed and cluster-span addresses (R199, R213, R214). -/
def Claims.unitAt (s : State) (a : Reg) (imm : BitVec 16) (_ : State) (e : Nat) : Except (Nat × Word) Nat :=
  .ok (((s.g a + imm.signExtend 64).toNat + (if s.vt.ew = 4 then e / 2 else e * (s.vt.ew / 8))) % 2 ^ 64)
def Claims.strideAt (s : State) (a b : Reg) (imm : BitVec 16) (_ : State) (e : Nat) : Except (Nat × Word) Nat :=
  .ok (wrapN 64 ((s.g a + imm.signExtend 64).toNat + e * (s.g b).toInt))
def Claims.indexAt (s : State) (a : Reg) (vb : VSpec) (iw : Bool) (sc : BitVec 2) (u : State) (e : Nat) : Except (Nat × Word) Nat :=
  let w := if iw then 64 else 32
  .ok (((s.g a).toNat + nbits (u.groupBits vb (max 1 (s.vt.grp * w / s.vt.ew))) (w * e) w * 2 ^ sc.toNat) % 2 ^ 64)
def Claims.spanAt (s : State) (vb : VSpec) (u : State) (e : Nat) : Except (Nat × Word) Nat :=
  let n := nbits (u.groupBits vb (max 1 (s.vt.grp * 32 / s.vt.ew))) (32 * e) 32
  if 2 ^ 21 ≤ n then .error (5, BitVec.ofNat 64 n) else .ok (0xF100000000000000 + n)

/-- The index group as a source. -/
def Claims.indexRead (s : State) (vb : VSpec) (iw : Bool) : VRead :=
  ⟨vb, max 1 (s.vt.grp * (if iw then 64 else 32) / s.vt.ew), if iw then 3 else 2⟩

def Claims.loadOf (s : State) : Instr → Option Claims.Va
  | .vld vd a imm m => some ⟨vd, [], s.isExec s.turn, m, unitAt s a imm⟩
  | .vlds vd a b imm m => some ⟨vd, [], s.isExec s.turn || decide (s.vt.ew = 4), m, strideAt s a b imm⟩
  | .vldx vd a vb iw sc m => some ⟨vd, [indexRead s vb iw], illegal vd vb iw, m, indexAt s a vb iw sc⟩
  | .vldxC vd vb m => some ⟨vd, [indexRead s vb false], illegal vd vb false, m, spanAt s vb⟩
  | .vldff vd a imm m => some ⟨vd, [], s.isExec s.turn, m, unitAt s a imm⟩
  | _ => none
where
  illegal (vd vb : VSpec) (iw : Bool) : Bool :=
    s.isExec s.turn || decide (s.vt.ew = 4) || decide (8 < (indexRead s vb iw).n) || overlaps vd s.vt.grp s.vt.ewCode (indexRead s vb iw)

def Claims.storeOf (s : State) : Instr → Option Claims.Va
  | .vst vs a imm m => some ⟨vs, [], s.isExec s.turn, m, unitAt s a imm⟩
  | .vsts vs a b imm m => some ⟨vs, [], s.isExec s.turn || decide (s.vt.ew = 4), m, strideAt s a b imm⟩
  | .vstx vs a vb iw sc m => some ⟨vs, [indexRead s vb iw], illegal vb iw, m, indexAt s a vb iw sc⟩
  | .vstxC vs vb m => some ⟨vs, [indexRead s vb false], illegal vb false, m, spanAt s vb⟩
  | _ => none
where
  illegal (vb : VSpec) (iw : Bool) : Bool :=
    s.isExec s.turn || decide (s.vt.ew = 4) || decide (8 < (indexRead s vb iw).n)

/-- Bytes of an element: one for a nibble (R213). -/
def Claims.ebytes (s : State) : Nat := if s.vt.ew = 4 then 1 else s.vt.ew / 8

/-- The first n of the accesses `es`, each made in the state the one before left: `acc` makes one. -/
def Claims.Chain (es : List Nat) (n : Nat) (σ : Nat → State) (acc : State → Nat → State → Prop) : Prop :=
  ∀ k, k < n → ∀ e, es[k]? = some e → acc (σ k) e (σ (k + 1))

/-- The slice of element e: its lane group's (R216). -/
def Claims.slice (s : State) (e : Nat) : Nat := 1 + e % (64 * s.laneGroups s.turn) / 64

/-- The access group of element e: the elements an instruction issues together (R196); of its own for each instruction and
each member of a convoy. -/
def Claims.group (s : State) (e : Nat) : Nat :=
  s.fresh + 2 ^ 40 * (s.cur.tr.ecm.toNat % 8) + e / (64 * s.laneGroups s.turn) + 1

def Claims.firstFault : Instr → Bool
  | .vldff .. => true
  | _ => false

/-- Element e of a load of the elements `es` begun in state u is to perform later: this step has its slice's loads perform
late, and every element of `es` in such a slice may (R381; the time is the model's own choice, log 4). -/
def Claims.stays (s u : State) (es : List Nat) (addr : Nat → Except (Nat × Word) Nat) (e n : Nat) : Prop :=
  nbit s.late (Claims.slice s e) = true ∧ ∀ k ∈ es, nbit s.late (Claims.slice s k) = true → ∃ va, addr k = .ok va ∧ va % n = 0 ∧
    (u.latePlace s.turn va n).isSome = true

/-- In state p the read `q` at `va` joins its slice's queue, at the place state u resolves; its leaf is marked. -/
def Claims.Joins (s u p : State) (va n : Nat) (q : Target → QStore) (p' : State) : Prop :=
  ∃ tgt leaf, u.latePlace s.turn va n = some (tgt, leaf) ∧
    let v := p.noteLeaf (p.ctxOf s.turn) va false leaf
    p' = v.setCur { v.cur with stores := v.cur.stores ++ [q tgt] }

/-- A queued read (R381). -/
def Claims.lateRead (slice va : Nat) (l : LateLoad) (tgt : Target) : QStore :=
  { slice := slice, group := 0, rel := false, tgt := tgt, va := va, bytes := [], mask := [], whole := none, ld := some l }

/-- The entry such an element of register group `r` leaves in its slice's queue; `hz` the mask and bit that `hzld` writes
with it. -/
def Claims.lateEntry (s : State) (r : VSpec) (e va n : Nat) (tgt : Target) (hz : Option (Nat × Nat) := none) : QStore :=
  let vb := max 1 (s.vbits s.turn)
  Claims.lateRead (Claims.slice s e) va ⟨.v (r.toNat + s.vt.ew * e / vb) (s.vt.ew * e % vb) s.vt.ew 0, n,
    if s.vt.ew = 4 then 4 * (e % 2) else 0, if s.vt.kind = 6 || s.vt.kind = 7 then 6 else s.vt.ew, hz⟩ tgt

/-- The read of element e of a load in state p: `vldff` uses the addresses as they resolved in the state u it began in
(R234). -/
def Claims.element (s u : State) (i : Instr) (p : State) (e va n : Nat) : State × Except Nat (List Byte) :=
  if Claims.firstFault i then (p.drainSlice s.turn (Claims.slice s e)).loadVia u s.turn va n
  else p.load s.turn (Claims.slice s e) va n

/-- Where a vector load issues, is legal and runs uninterrupted: if every active element from est up, in order, has an
aligned address whose access gives its bytes, the load completes with those elements (a nibble by its element's
parity), mpol and tail as for any destination, est 0. If element e is the first to fail, it takes misaligned (3), its
access's cause with the address, or access fault with the index for an index outside the window, with est = e; vldff,
which resolves every address as the run began, completes instead with vl = e if an active element stands below e. No g
register changes but by an earlier load that was to perform late. An element whose slice's loads this step has perform
late, where every active element of those slices may (the model's own choice of the time, log 4; never into a vq or on
a cluster that records hashes), keeps its bits, its leaf is marked and its read is the youngest entry of its slice's
queue; whenever such an entry performs, its tile if any not expired, the element's bits become those of the bytes then
at its place and it leaves the queue. (R97, R144, R199, R213, R214, R215, R216, R217, R221, R234, R381) -/
def Obligations.VectorLoads : Prop :=
  ∀ (s : State) (i : Instr) (w : Claims.Va), Claims.loadOf s i = some w → Claims.Issues s w.srcs (some (w.r, s.vt.grp)) →
    w.bad = false → s.cur.lim = none →
    let u := s.readied w.srcs
    let n := Claims.ebytes s
    let es := Claims.active u w.mask
    let old := u.destBits w.r s.vt.grp
    let value := fun (e : Nat) (b : List Byte) => s.vt.clean (if s.vt.ew = 4 then bytesNat b / 16 ^ (e % 2) else bytesNat b)
    let late := fun (e : Nat) => vqOf w.r = none ∧ Claims.stays s u es (w.addr u) e n
    -- an element's bytes, none for one that performs late
    ∀ (σ : Nat → State) (bs : Nat → Option (List Byte)), σ 0 = u →
    let reads := fun (p : State) (e : Nat) (q : State) => ∃ va, w.addr u e = .ok va ∧ va % n = 0 ∧
      match bs e with
      | some b => ¬ late e ∧ Claims.element s u i p e va n = (q, .ok b)
      | none => late e ∧ Claims.Joins s u p va n (Claims.lateEntry s w.r e va n) q
    (Claims.Chain es es.length σ reads → ∃ new,
      Claims.Written u s.vt.ew w.mask old
        (fun e => match bs e with | some b => value e b | none => nbits old (s.vt.ew * e) s.vt.ew) new ∧
      Completes i s ((((σ es.length).setGroup w.r s.vt.grp s.vt.ewCode new).setEst 0).vecDone 3 w.srcs (some (w.r, s.vt.grp)) w.mask)
        (s.cur.pc + 8)) ∧
    (∀ k e c v, es[k]? = some e → Claims.Chain es k σ reads → c ≠ 25 → s.cur.run = .running → s.trapsHere →
      ((w.addr u e = .error (c, v)) ∨ (∃ va, w.addr u e = .ok va ∧ va % n ≠ 0 ∧ c = 3 ∧ v = BitVec.ofNat 64 va) ∨
        (∃ va q, w.addr u e = .ok va ∧ va % n = 0 ∧ ¬ late e ∧
          Claims.element s u i (σ k) e va n = (q, .error c) ∧ v = BitVec.ofNat 64 va)) →
      let short := Claims.firstFault i = true ∧ (∃ j < e, nbit (u.maskBits w.mask) j = true)
      (short → ∃ t, exec i s = .next t ∧ t.cur.pc = s.cur.pc + 8 ∧ t.cur.vec.vl = BitVec.ofNat 64 e ∧ t.cur.tr.est = 0 ∧
        (s.cur.hasLate = false → t.cur.g = s.cur.g)) ∧
      (¬ short → ∃ u', Takes i s u' c v s.cur.pc ∧ u'.cur.tr.est = BitVec.ofNat 64 e ∧
        (s.cur.hasLate = false → u'.cur.g = s.cur.g) ∧ u'.cur.vec.vl = s.cur.vec.vl)) ∧
    (∀ (t : State) (e va : Nat) (tgt : Target) (rest : List QStore), t.turn = s.turn → t.expired tgt = false →
      let vb := max 1 (s.vbits s.turn)
      let k := w.r.toNat + s.vt.ew * e / vb
      t.perform t.turn (Claims.lateEntry s w.r e va n tgt) rest = (t.setCur { t.cur with
        stores := rest
        vec := t.cur.vec.setReg k (BitVec.ofNat vregBits
          (nset (t.cur.vec.reg k).toNat (s.vt.ew * e % vb) s.vt.ew (value e (t.readT tgt n)))) }).dirtyV)

/-- Where a vector store issues, is legal and runs uninterrupted: if every active element from est up, in order, has
an aligned address whose store is accepted (a nibble under its half's mask) as one of its access group, it completes
with est 0 and no register changed; a store with every element below vl active, no run of which was trapped part-way,
is one whole-tile write of each Haze tile it fills, the runs before a pre-emption counting with it (log 42, DEDUCED).
The first element e that fails traps with its cause and est = e, the elements below it handed over. vsadd of an
integer or plain floating kind performs the earlier stores of the slices it uses; then with every active element
permitted it completes: with one active element its place, wherever it lies, holds the sum of what it held and the
element, in one atomic step, or, where this step has its slice's accesses perform late (the model's own choice of the
time, log 4), that step stands in its slice's queue and is taken whenever the entry performs; with several at distinct
places of the scratchpads, or of Haze while the tick has sync stamps left, in slices that are not late, each place
holds its sum; the first element refused traps with its cause and est its number. No g register changes but by an
earlier load that was to perform late (log 4). (R144, R196, R199, R213, R214, R215, R216, R217, R220, R222, R223,
R309) -/
def Obligations.VectorStores : Prop :=
  (∀ (s : State) (i : Instr) (w : Claims.Va), Claims.storeOf s i = some w →
    let srcs := s.vt.read w.r :: w.srcs
    Claims.Issues s srcs none → w.bad = false → s.cur.lim = none →
    let u := s.readied srcs
    let n := Claims.ebytes s
    let es := Claims.active u w.mask
    let vl := s.cur.vec.vl.toNat
    ∀ σ : Nat → State, σ 0 = u →
    let put := fun (p : State) (e va : Nat) =>
      let sh := if s.vt.ew = 4 then 4 * (e % 2) else 0
      p.storeNext (Claims.slice s e) (Claims.group s e) va (natBytes n (s.vt.clean (u.rawAt w.r e) <<< sh))
        (if s.vt.ew = 4 then natBytes 1 (15 <<< sh) else [])
    let writes := fun (p : State) (e : Nat) (q : State) => ∃ va, w.addr u e = .ok va ∧ va % n = 0 ∧ put p e va = (q, none)
    (Claims.Chain es es.length σ writes →
      let q := σ es.length
      let bits := fun e => if s.vt.ew = 4 then 15 <<< (4 * (e % 2)) else 2 ^ (8 * n) - 1
      Completes i s (((if (u.est = 0 ∨ s.cur.cut = false) ∧ ∀ e, e < vl → nbit (u.maskBits w.mask) e = true then
          q.markFilled u.cur.stores.length u.est vl (w.addr u) bits else q).setEst 0).vecDone 4 srcs none w.mask)
        (s.cur.pc + 8)) ∧
    (∀ k e c v, es[k]? = some e → Claims.Chain es k σ writes → c ≠ 25 → s.cur.run = .running → s.trapsHere →
      ((w.addr u e = .error (c, v)) ∨ (∃ va, w.addr u e = .ok va ∧ va % n ≠ 0 ∧ c = 3 ∧ v = BitVec.ofNat 64 va) ∨
        (∃ va q, w.addr u e = .ok va ∧ va % n = 0 ∧ put (σ k) e va = (q, some c) ∧ v = BitVec.ofNat 64 va)) →
      ∃ u', Takes i s u' c v s.cur.pc ∧ u'.cur.tr.est = BitVec.ofNat 64 e ∧ u'.cur.stores = (σ k).cur.stores ∧ u'.cur.g = s.cur.g)) ∧
  (∀ (s : State) (vs : VSpec) (a : Reg) (vb : VSpec) (iw : Bool) (sc : BitVec 2) (m : VMask),
    let t := s.vt
    let srcs := [t.read vs, Claims.indexRead s vb iw]
    Claims.Issues s srcs none → s.isExec s.turn = false → t.skind = 0 → t.kind ≤ 3 → (Claims.indexRead s vb iw).n ≤ 8 →
    s.cur.lim = none →
    let u := s.readied srcs
    let n := max 1 (t.ew / 8)
    let es := Claims.active u m
    let v := ((es.map fun e => e % (64 * s.laneGroups s.turn) / 64).eraseDups).foldl (fun p j => p.drainSlice s.turn (1 + j)) u
    let may := fun (e : Nat) => ∃ va p, Claims.indexAt s a vb iw sc u e = .ok va ∧ va % n = 0 ∧
      v.atomicPlace s.turn va n false = .ok p
    (∀ e c va, e ∈ es → (∀ k ∈ es, k < e → may k) → c ≠ 25 → s.cur.run = .running → s.trapsHere →
      Claims.indexAt s a vb iw sc u e = .ok va →
      ((va % n ≠ 0 ∧ c = 3) ∨ (va % n = 0 ∧ v.atomicPlace s.turn va n false = .error c)) →
      ∃ u', Takes (.vsadd vs a vb iw sc m) s u' c (BitVec.ofNat 64 va) s.cur.pc ∧ u'.cur.tr.est = BitVec.ofNat 64 e ∧
        (s.cur.hasLate = false → u'.cur.g = s.cur.g)) ∧
    let sum := fun (e old : Nat) => match t.fmt with
      | some f => (f.round u.rm false ((f.decode old).add u.rm (f.decode (u.rawAt vs e))).1).1
      | none => (old + u.rawAt vs e) % 2 ^ t.ew
    ((∀ e ∈ es, may e) → ∃ u', Completes (.vsadd vs a vb iw sc m) s ((u'.setEst 0).vecDone 4 srcs none m) (s.cur.pc + 8) ∧
      (s.cur.hasLate = false → u'.cur.g = s.cur.g ∧ u'.cur.vec = u.cur.vec) ∧
      (∀ e va tgt leaf, es = [e] → (u.est = 0 ∨ ∀ o, tgt ≠ .haze o) → Claims.indexAt s a vb iw sc u e = .ok va →
        v.atomicPlace s.turn va n false = .ok (tgt, leaf) → nbit s.late (Claims.slice s e) = true → s.cur.relFence = false →
        (s.clusterAt (clusterOf s.turn)).trace.on 11 = false →
        let p := v.noteLeaf (v.ctxOf s.turn) va true leaf
        ∃ q, q.slice = Claims.slice s e ∧ q.tgt = tgt ∧ u' = p.setCur { p.cur with stores := p.cur.stores ++ [q] } ∧
          ∀ w : State, let x := w.writeT tgt (natBytes n (sum e (bytesNat (w.readT tgt n)))) []
            w.perform w.turn q [] = (x.setHart w.turn { x.hartAt w.turn with stores := [] }).sync w.turn 0) ∧
      (∀ e va tgt leaf, es = [e] → (u.est = 0 ∨ ∀ o, tgt ≠ .haze o) → Claims.indexAt s a vb iw sc u e = .ok va →
        v.atomicPlace s.turn va n false = .ok (tgt, leaf) → nbit s.late (Claims.slice s e) = false →
        u' = (((v.noteLeaf (v.ctxOf s.turn) va true leaf).writeT tgt (natBytes n (sum e (bytesNat (v.readT tgt n)))) []).clearFence).sync
          s.turn 0) ∧
      (∀ place : Nat → Target, (∀ e ∈ es, nbit s.late (Claims.slice s e) = false) →
        (∀ e ∈ es, ((∃ o, place e = .spad o) ∨ (∃ o, place e = .haze o ∧ v.stamp + es.length < 16 * (v.tick + 1))) ∧ ∃ va, Claims.indexAt s a vb iw sc u e = .ok va ∧
          v.atomicPlace s.turn va n false = .ok (place e, none)) →
        (∀ e ∈ es, ∀ k ∈ es, e ≠ k → v.key (place e) + n ≤ v.key (place k) ∨ v.key (place k) + n ≤ v.key (place e)) →
        ∀ e ∈ es, memReadN u'.mem (v.key (place e)) n = natBytes n (sum e (bytesNat (v.readT (place e) n))))))

/-- On a hart that may access memory: vlsc and vssc of at most 256 entries that fit the file, each aligned and
permitted in turn, complete having loaded or handed over exactly those entries from est up; vldreg and vstreg of a
register that may be named, 64-byte aligned with every word permitted in turn, complete having loaded every word from
est up into the register (the words below est kept, the tag and the result file unchanged) or handed every word over
(a Haze tile that lies in the register's range, however the runs were cut, is one whole-tile write: the model's
reading, log 42, DEDUCED, where R220 says that a trap undoes it for vst); pref completes with nothing changed at all.
Where this step has a slice's loads perform late (the model's own choice of the time, log 4), an entry vlsc loads into
the hart's own file, and a word vldreg loads into a v or o register where every word of those slices may, is the
youngest entry of its slice's queue instead, and takes its bytes, those then at its place, whenever that performs, its
tile if any not expired. (R196, R202, R217, R224, R225, R226, R227, R228, R381) -/
def Obligations.ScaleAndRegisterMoves : Prop :=
  (∀ (s : State), Claims.Issues s [] none → s.cur.lim = none →
    let u := s.readied []
    (∀ (b8 : Bool) (f : BitVec 8) (a b c : Reg) (σ : Nat → State), σ 0 = u → s.isExec s.turn = false →
      f.toNat + (s.g c).toNat ≤ 256 →
      let n := if b8 then 1 else 2
      let es := (List.range (s.g c).toNat).filter (u.est ≤ ·)
      let va := fun (k : Nat) => wrapN 64 ((s.g a).toNat + k * (s.g b).toInt)
      let h := if s.isSplit s.turn then s.turn / 2 * 2 + 1 else s.turn
      let late := fun (p : State) (k : Nat) => h = s.turn ∧ nbit s.late (Claims.slice s k) = true ∧
        (p.latePlace s.turn (va k) n).isSome = true
      let entry := fun (k : Nat) => Claims.lateRead (Claims.slice s k) (va k) ⟨.scale (f.toNat + k), n, 0, 8 * n, none⟩
      (∀ (t : State) (k : Nat) (tgt : Target) (rest : List QStore), t.turn = s.turn → t.expired tgt = false →
        t.perform t.turn (entry k tgt) rest = (t.setCur { t.cur with stores := rest }).setScale t.turn (f.toNat + k) (bytesNat (t.readT tgt n))) ∧
      (Claims.Chain es es.length σ (fun p k q => va k % n = 0 ∧ ((late p k ∧ Claims.Joins s p p (va k) n (entry k) q) ∨
          (¬ late p k ∧ ∃ w bs, p.load s.turn (Claims.slice s k) (va k) n = (w, .ok bs) ∧
            q = w.setScale h (f.toNat + k) (bytesNat bs)))) →
        Completes (.vlsc b8 f a b c) s (((σ es.length).setEst 0).vecDoneOf (s.g c).toNat 3 [] none none) (s.cur.pc + 8)) ∧
      (Claims.Chain es es.length σ (fun p k q => va k % n = 0 ∧ p.storeNext (Claims.slice s k) (Claims.group s k) (va k)
          (natBytes n ((p.hartAt h).vec.scale.toList.getD (f.toNat + k) 0).toNat) [] = (q, none)) →
        Completes (.vssc b8 f a b c) s (((σ es.length).setEst 0).vecDoneOf (s.g c).toNat 4 [] none none) (s.cur.pc + 8))) ∧
    (∀ (r : VSpec) (a : Reg) (imm : BitVec 16) (σ : Nat → State) (bs : Nat → Option (List Byte)), σ 0 = u → s.regBad r = false →
      let base := (s.g a + imm.signExtend 64).toNat
      base % 64 = 0 →
      let es := (List.range (s.vbits s.turn / 64)).filter (u.est ≤ ·)
      let va := fun (k : Nat) => (base + 8 * k) % 2 ^ 64
      let late := fun (k : Nat) => r.toNat < 40 ∧ Claims.stays s u es (fun k => .ok (va k)) k 8
      let entry := fun (k : Nat) => Claims.lateRead (Claims.slice s k) (va k) ⟨.v r.toNat (64 * k) 64 0, 8, 0, 64, none⟩
      let old := (u.cur.vec.reg r.toNat).toNat
      (∀ (t : State) (k : Nat) (tgt : Target) (rest : List QStore), t.turn = s.turn → t.expired tgt = false →
        t.perform t.turn (entry k tgt) rest = (t.setCur { t.cur with
          stores := rest
          vec := t.cur.vec.setReg r.toNat (BitVec.ofNat vregBits (nset (t.cur.vec.reg r.toNat).toNat (64 * k) 64 (bytesNat (t.readT tgt 8)))) }).dirtyV) ∧
      (Claims.Chain es es.length σ (fun p k q => match bs k with
          | some b => ¬ late k ∧ p.load s.turn (Claims.slice s k) (va k) 8 = (q, .ok b)
          | none => late k ∧ Claims.Joins s u p (va k) 8 (entry k) q) →
        ∃ new, Completes (.vldreg r a imm) s (((σ es.length).setCur
            { (σ es.length).cur with vec := (σ es.length).cur.vec.setReg r.toNat (BitVec.ofNat vregBits new) }).dirtyV.setEst 0
            |>.vecDoneOf (s.vbits s.turn / 64) 3 [] none none) (s.cur.pc + 8) ∧
          (∀ k ∈ es, nbits new (64 * k) 64 = match bs k with | some b => bytesNat b | none => nbits old (64 * k) 64) ∧
          (∀ k, k < u.est → nbits new (64 * k) 64 = nbits old (64 * k) 64)) ∧
      (Claims.Chain es es.length σ (fun p k q => p.storeNext (Claims.slice s k) (Claims.group s k) (va k)
          (natBytes 8 (nbits (u.cur.vec.reg r.toNat).toNat (64 * k) 64)) [] = (q, none)) →
        let q := σ es.length
        Completes (.vstreg r a imm) s (((q.markRange u.cur.stores.length base (s.vbits s.turn / 8)).setEst 0).vecDoneOf
          (s.vbits s.turn / 64) 4 [] none none) (s.cur.pc + 8)))) ∧
  (∀ (s : State) (t : BitVec 2) (a b : Reg) (imm : BitVec 16), s.isExec s.turn = false → Completes (.pref t a b imm) s s (s.cur.pc + 8))

/-- On a hart that may access memory, once the scalar slice's earlier stores have performed and with every tile of the
range allowed: hzrenew completes with the number of expired tiles and gives every live one a birth at the present
tick; hzage completes with the ticks the tile has left, 0 if expired; hzdrop completes with every tile of the range
expired; no other tile changes, and no other g register but by an earlier load that was to perform late (log 4). hzld,
where it issues, is legal, uninterrupted and each active element's address is aligned and in the window, completes
with the element read and its mask bit 1 where the tile is live, and a zero element with mask bit 0 where it is
expired, mpol and tail applying to both destinations. Where this step has the loads of every slice it uses perform
late (the model's own choice of the time, log 4; not into a vq), element and bit keep what they hold, its reads stand
in their slices' queues, and whenever one performs its element and its mask bit become those of the tile as it then
is. (R142, R201, R229, R230, R231, R232, R233) -/
def Obligations.HazeOperations : Prop :=
  (∀ (s : State) (d a b : Reg) (imm : BitVec 16), s.isExec s.turn = false →
    let u := s.drainSlice s.turn 0
    let cl := s.turn / 8
    (∀ ts, u.hzRange (s.g a).toNat (s.g b).toNat = .ok ts →
      (∃ v : State, Completes (.hzrenew d a b) s
          (v.setG d (BitVec.ofNat 64 (ts.filter fun t => !u.tileLive cl t).length)) (s.cur.pc + 8) ∧ v.mem = u.mem ∧
        (s.cur.hasLate = false → v.cur.g = s.cur.g) ∧ ∀ c t, v.birth c t = if c = cl ∧ t ∈ ts ∧ u.tileLive cl t = true then some u.tick else u.birth c t) ∧
      (∃ v : State, Completes (.hzdrop a b) s v (s.cur.pc + 8) ∧ v.mem = u.mem ∧
        (s.cur.hasLate = false → v.cur.g = s.cur.g) ∧ ∀ c t, v.birth c t = if c = cl ∧ t ∈ ts then none else u.birth c t)) ∧
    (∀ t, u.hzRange (s.g a + imm.signExtend 64).toNat 1 = .ok [t] →
      Completes (.hzage d a imm) s (u.setG d (match u.birth cl t with
        | some k => BitVec.ofNat 64 (k + 1048576 - u.tick)
        | none => 0)) (s.cur.pc + 8)) ∧
    (∀ va, u.hzRange (s.g a).toNat (s.g b).toNat = .error va → s.cur.run = .running → s.trapsHere →
      Takes (.hzrenew d a b) s (u.setEst 0) 5 (BitVec.ofNat 64 va) s.cur.pc ∧
      Takes (.hzdrop a b) s (u.setEst 0) 5 (BitVec.ofNat 64 va) s.cur.pc)) ∧
  (∀ (s : State) (vd : VSpec) (md : BitVec 3) (a : Reg) (imm : BitVec 16) (m : VMask), Claims.Issues s [] (some (vd, s.vt.grp)) →
    s.isExec s.turn = false → s.vt.ew ≠ 4 → m ≠ some md → s.cur.lim = none →
    let u := s.readied []
    let n := s.vt.ew / 8
    let es := Claims.active u m
    let old := u.destBits vd s.vt.grp
    (∀ (σ : Nat → State) (bs : Nat → Option (List Byte)), σ 0 = u → s.late = 0 →
    Claims.Chain es es.length σ (fun p e q => ∃ va, Claims.unitAt s a imm u e = .ok va ∧ va % n = 0 ∧
      va / 2 ^ 22 = 0xF200000000000000 / 2 ^ 22 ∧
      p.load s.turn (Claims.slice s e) va n = (q, match bs e with | some b => .ok b | none => .error 6)) →
    ∃ new bits, Claims.Written u s.vt.ew m old
        (fun e => match bs e with | some b => s.vt.clean (bytesNat b) | none => 0) new ∧
      Claims.Written u 1 m (u.mask md) (fun e => if (bs e).isSome then 1 else 0) bits ∧
      Completes (.hzld vd md a imm m) s (((((σ es.length).setGroup vd s.vt.grp s.vt.ewCode new).setMask md bits).setEst 0).vecDone 10
        [] (some (vd, s.vt.grp)) m) (s.cur.pc + 8)) ∧
    (∀ q : Nat → QStore, vqOf vd = none → s.late ≠ 0 →
      (∀ e ∈ es, nbit s.late (Claims.slice s e) = true ∧ ∃ va tgt, Claims.unitAt s a imm u e = .ok va ∧ va % n = 0 ∧
        va / 2 ^ 22 = 0xF200000000000000 / 2 ^ 22 ∧ u.latePlaceOf true s.turn va n = some (tgt, none) ∧
        q e = Claims.lateEntry s vd e va n tgt (some (md.toNat, e))) →
      ∃ new bits, Claims.Written u s.vt.ew m old (fun e => nbits old (s.vt.ew * e) s.vt.ew) new ∧
        Claims.Written u 1 m (u.mask md) (fun e => nbits (u.mask md) e 1) bits ∧
        Completes (.hzld vd md a imm m) s (((((u.setCur { u.cur with stores := u.cur.stores ++ es.map q }).setGroup vd s.vt.grp
          s.vt.ewCode new).setMask md bits).setEst 0).vecDone 10 [] (some (vd, s.vt.grp)) m) (s.cur.pc + 8)) ∧
    (∀ (t : State) (e va : Nat) (tgt : Target) (rest : List QStore), t.turn = s.turn →
      let vb := max 1 (s.vbits s.turn)
      let k := vd.toNat + s.vt.ew * e / vb
      let live := !t.expired tgt
      let v := t.cur.vec.setReg k (BitVec.ofNat vregBits (nset (t.cur.vec.reg k).toNat (s.vt.ew * e % vb) s.vt.ew
        (if live then s.vt.clean (bytesNat (t.readT tgt n)) else 0)))
      let bit := BitVec.ofNat mregBits (nset (v.masks[md.toNat]).toNat e 1 (if live then 1 else 0))
      t.perform t.turn (Claims.lateEntry s vd e va n tgt (some (md.toNat, e))) rest = (t.setCur { t.cur with
        stores := rest
        vec := { v with masks := v.masks.set md.toNat bit } }).dirtyV))

/-! ## Coded streams (R122-R127, R175-R190) -/

/-- For EZ4 and EZ8, every u below 2^64, every position and whatever bits stand before and after: the code at the
position of a register that holds the minimal code of u there is u, ending after the code's granules; cut short by the
limit it is incomplete; and unzig of zigzag gives back every signed 64-bit value. (R122, R123, R124, R125, R178) -/
def Obligations.CodesRoundTrip : Prop :=
  (∀ (ez8 : Bool) (u pos limit before after : Nat), u < 2 ^ 64 → before < 2 ^ pos →
    let c := encodeCode ez8 u
    let bits := before + c.1 * 2 ^ pos + after * 2 ^ (pos + c.2)
    c.1 < 2 ^ c.2 ∧ (pos + c.2 ≤ limit → ezCodeAt ez8 bits limit pos = .code u (pos + c.2)) ∧
      (limit < pos + c.2 → ezCodeAt ez8 bits limit pos = .incomplete)) ∧
  (∀ v : BitVec 64, unzig (zigzag v.toInt) = v.toInt ∧ zigzag v.toInt < 2 ^ 64)

/-- A member of R186 at a state: destination, sources, illegality and the combination of two values. -/
structure Claims.Za where
  vd : VSpec
  va : VSpec
  b : VSrc
  bad : Bool
  f : Int → Int → Int

def Claims.codedOp (s : State) : Instr → Option Claims.Za
  | .zadd vd va b => some ⟨vd, va, b, false, (· + ·)⟩
  | .zsub vd va b => some ⟨vd, va, b, false, (· - ·)⟩
  | .zmul vd va b => some ⟨vd, va, b, decide (s.vt.skind ≠ 0), (· * ·)⟩
  | .zmin vd va b => some ⟨vd, va, b, false, min⟩
  | .zmax vd va b => some ⟨vd, va, b, false, max⟩
  | _ => none

/-- A decoding or encoding member: destination, source, whether it works on reals. -/
def Claims.decodeOf : Instr → Option (VSpec × VSpec × Bool)
  | .zdec vd va => some (vd, va, false)
  | .zdecF vd va => some (vd, va, true)
  | _ => none
def Claims.encodeOf : Instr → Option (VSpec × VSpec × Bool)
  | .zenc vd va => some (vd, va, false)
  | .zencF vd va => some (vd, va, true)
  | _ => none

/-- Under a coded kind with one register a group, where the instruction issues: zadd to zmax complete with the codes
of the combined values that fit and the grants elements, bits read of each source and bits written, or take malformed
code (7) with est the element and xval the bit and source, the pipe having begun; zdec and zdec.f complete with the
decoded elements, zseed the last value under ezd; zenc and zenc.f with the codes of the elements that fit; zscan with
each code's start; zcnt with the count in g[d], neither asking for R116's scale registers (log 32, DEDUCED); under ezd
zadd to zmax are an illegal operand (2); zdec, zdec.f, zscan and zcnt take malformed code (7) with est the codes
before it and xval its bit; zsplice with the low k bits of a followed by b; zld with the stream's bits, every byte
read in order after all were checked, or, where this step has lane group 0's loads perform late (the model's own
choice of the time, log 4), with zeros and an entry for each byte in the slice's queue that, whenever it performs, its
tile if any not expired, puts the stream's bits then in that byte in their place; zst hands each byte over under its
bits, a byte written in part having been checked for reading too. The bits above what is written follow tail and est
is 0. (R176, R177, R179, R180, R182, R184, R185, R186, R187, R188, R189, R208) -/
def Obligations.CodedResults : Prop :=
  ∀ (s : State), s.vt.coded = true → s.vt.grp = 1 →
    let t := s.vt
    let vl := s.cur.vec.vl.toNat
    let r (v : VSpec) : VRead := ⟨v, 1, 0⟩
    (∀ (i : Instr) (w : Claims.Za), Claims.codedOp s i = some w → t.kind ≠ 12 → s.scaleOver t = false → w.bad = false →
      let srcs := r w.va :: (match w.b with | .vv v => [r v] | _ => [])
      Claims.Issues s srcs (some (w.vd, 1)) →
      let u := s.readied srcs
      let o := zLoop t (u.groupBits w.va 1) s.vlb (u.zSrc t w.b) (fun x y => t.fit64 (w.f x y)) vl ⟨0, 0, 0, 0, 0⟩
      (o.bad = none → Completes i s ((u.putCoded w.vd 0 (u.codedTail (u.destBits w.vd 1) o.z.pd o.z.out) o.z.n o.z.pa o.z.pb o.z.pd).vecDone
        6 srcs (some (w.vd, 1)) none) (s.cur.pc + 8)) ∧
      (∀ src pos, o.bad = some (src, pos) → s.cur.run = .running → s.trapsHere →
        Takes i s ((u.setEst o.z.n).vecStop s.vlN 6 o.z.n none true) 7 (BitVec.ofNat 64 (pos % 2 ^ 32 + src * 2 ^ 32)) s.cur.pc)) ∧
    (∀ (i : Instr) (w : Claims.Za), Claims.codedOp s i = some w → t.kind = 12 → s.vecIssue = none → s.cur.run = .running → s.trapsHere →
      Takes i s s 2 0 s.cur.pc) ∧
    (∀ (i : Instr) (vd va : VSpec) (real : Bool), Claims.decodeOf i = some (vd, va, real) → s.scaleOver t = false →
      Claims.Issues s [r va] (some (vd, 1)) →
      let u := s.readied [r va]
      let seed := t.wide s.cur.zseed.toNat
      let l := codesFrom t.gran (u.groupBits va 1) s.vlb vl 0
      let vs := t.values seed l.1
      let rs := vs.zipIdx.map fun (v, n) => if real then u.decodeReal t n v else (t.narrow v, 0)
      let fl := rs.foldl (fun f x => f ||| x.2) 0
      (l.2 = none → u.flagTraps fl = false →
        let p := (u.orFlags fl).putCoded vd t.ewCode (u.codedTail (u.destBits vd 1) (l.1.length * t.ew) (packElems t.ew (rs.map (·.1))))
          l.1.length (codesEnd l.1) 0 (l.1.length * t.ew)
        Completes i s ((if t.kind = 12 ∧ l.1 ≠ [] then p.setZseed (vs.getLastD seed) else p).vecDone 6 [r va] (some (vd, 1)) none)
          (s.cur.pc + 8)) ∧
      (∀ pos, l.2 = some pos → s.cur.run = .running → s.trapsHere →
        Takes i s ((u.setEst l.1.length).vecStop s.vlN 6 l.1.length none true) 7 (BitVec.ofNat 64 (pos % 2 ^ 32)) s.cur.pc)) ∧
    (∀ (i : Instr) (vd va : VSpec) (real : Bool), Claims.encodeOf i = some (vd, va, real) → s.scaleOver t = false →
      Claims.Issues s [t.read va] (some (vd, 1)) →
      let u := s.readied [t.read va]
      let raw := fun n => nbits (u.groupBits va 1) (t.ew * n) t.ew
      let z := encLoop t s.vlb (fun n => if real then u.encodeReal t n (raw n) else (t.int (raw n), 0)) vl
        ⟨0, 0, t.wide s.cur.zseed.toNat, 0, 0⟩
      u.flagTraps z.fl = false →
      let p := (u.orFlags z.fl).putCoded vd 0 (u.codedTail (u.destBits vd 1) z.p z.out) z.n (z.n * t.ew) 0 z.p
      Completes i s ((if t.kind = 12 ∧ z.n ≠ 0 then p.setZseed z.prev else p).vecDone 6 [t.read va] (some (vd, 1)) none) (s.cur.pc + 8)) ∧
    (∀ (vd va : VSpec), Claims.Issues s [r va] (some (vd, 1)) →
      let u := s.readied [r va]
      let l := codesFrom t.gran (u.groupBits va 1) s.vlb vl 0
      (l.2 = none → Completes (.zscan vd va) s ((u.putCoded vd t.ewCode (u.codedTail (u.destBits vd 1) (l.1.length * t.ew)
        (packElems t.ew (l.1.map (·.1)))) l.1.length (codesEnd l.1) 0 (l.1.length * t.ew)).vecDone 6 [r va] (some (vd, 1)) none)
        (s.cur.pc + 8)) ∧
      (∀ pos, l.2 = some pos → s.cur.run = .running → s.trapsHere →
        Takes (.zscan vd va) s ((u.setEst l.1.length).vecStop s.vlN 6 l.1.length none true) 7 (BitVec.ofNat 64 (pos % 2 ^ 32)) s.cur.pc)) ∧
    (∀ (d : Reg) (va : VSpec), Claims.Issues s [r va] none →
      let u := s.readied [r va]
      let l := codesFrom t.gran (u.groupBits va 1) s.vlb (s.vlb / (if t.gran then 8 else 4)) 0
      (l.2 = none → Completes (.zcnt d va) s ((((u.setG d (BitVec.ofNat 64 l.1.length)).grant l.1.length (codesEnd l.1) 0 0).setEst 0
        |>.vecDone 6 [r va] none none)) (s.cur.pc + 8)) ∧
      (∀ pos, l.2 = some pos → s.cur.run = .running → s.trapsHere →
        Takes (.zcnt d va) s ((u.setEst l.1.length).vecStop s.vlN 6 l.1.length none true) 7 (BitVec.ofNat 64 (pos % 2 ^ 32)) s.cur.pc)) ∧
    (∀ (vd va vb : VSpec) (c : Reg), Claims.Issues s [r va, r vb] (some (vd, 1)) → (s.g c).toNat ≤ s.vlb →
      let u := s.readied [r va, r vb]
      let k := (s.g c).toNat
      let new := u.groupBits va 1 % 2 ^ k + u.groupBits vb 1 * 2 ^ k
      Completes (.zsplice vd va vb c) s ((u.putCoded vd 0 (u.codedTail (u.destBits vd 1) s.vlb new) 0 k (s.vlb - k) s.vlb).vecDone 6
        [r va, r vb] (some (vd, 1)) none) (s.cur.pc + 8)) ∧
    (∀ (vd : VSpec) (a b c : Reg) (σ : Nat → State) (bs : Nat → Byte), Claims.Issues s [] (some (vd, 1)) → s.isExec s.turn = false →
      let A := 8 * (s.g a).toNat + (s.g c).toNat
      let n := min (s.g b).toNat s.vlb
      let vas := streamBytes A n
      (s.readied []).zldLate vd vas = false → σ 0 = (if n = 0 then s.readied [] else (s.readied []).drainSlice s.turn 1) → (σ 0).streamFail .load vas = none →
      (∀ k va, vas[k]? = some va → (σ k).load s.turn 1 va 1 = (σ (k + 1), .ok [bs k])) →
      Completes (.zld vd a b c) s (((σ vas.length).putCoded vd 0
        (nbits (bytesNat ((List.range vas.length).map bs)) (A % 8) n) 0 n 0 n).vecDone 6 [] (some (vd, 1)) none) (s.cur.pc + 8)) ∧
    (∀ (vd : VSpec) (a b c : Reg), Claims.Issues s [] (some (vd, 1)) → s.isExec s.turn = false →
      let u := s.readied []
      let A := 8 * (s.g a).toNat + (s.g c).toNat
      let n := min (s.g b).toNat s.vlb
      let vas := streamBytes A n
      u.zldLate vd vas = true →
      ∃ (v : State) (qs : List QStore), v.cur.stores = u.cur.stores ++ qs ∧ qs.length = vas.length ∧ v.cur.g = s.cur.g ∧
        Completes (.zld vd a b c) s ((v.putCoded vd 0 0 0 n 0 n).vecDone 6 [] (some (vd, 1)) none) (s.cur.pc + 8) ∧
        ∀ k q, qs[k]? = some q → q.slice = 1 ∧ ∀ (x : State) (rest : List QStore), x.turn = s.turn → x.expired q.tgt = false →
          let lo := max (8 * k) (A % 8)
          let w := min (8 * k + 8) (A % 8 + n) - lo
          x.perform x.turn q rest = (x.setCur { x.cur with
            stores := rest
            vec := x.cur.vec.setReg vd.toNat (BitVec.ofNat vregBits (nset (x.cur.vec.reg vd.toNat).toNat (lo - A % 8) w
              (bytesNat (x.readT q.tgt 1) / 2 ^ (lo - 8 * k) % 2 ^ w))) }).dirtyV) ∧
    (∀ (vs : VSpec) (a b c : Reg) (σ : Nat → State), Claims.Issues s [r vs] none → s.isExec s.turn = false →
      (s.g b).toNat ≤ s.vbits s.turn →
      let A := 8 * (s.g a).toNat + (s.g c).toNat
      let n := (s.g b).toNat
      let vas := streamBytes A n
      σ 0 = s.readied [r vs] → (σ 0).zstFail A n = none →
      let val := ((σ 0).groupBits vs 1 % 2 ^ n) * 2 ^ (A % 8)
      let mask := (2 ^ n - 1) * 2 ^ (A % 8)
      (∀ k va, vas[k]? = some va → (σ k).storeNext 1 0 va (natBytes 1 (nbits val (8 * k) 8))
        (if nbits mask (8 * k) 8 = 255 then [] else natBytes 1 (nbits mask (8 * k) 8)) = (σ (k + 1), none)) →
      Completes (.zst vs a b c) s (((((σ vas.length).markWhole (σ 0).cur.stores.length).grant 0 n 0 n).setEst 0).vecDone 6 [r vs] none none)
        (s.cur.pc + 8))

/-! ## The matrix unit (R253-R276) -/

/-- The instruction waits with nothing done (R98, R261). -/
def Claims.Waits (i : Instr) (s : State) : Prop :=
  ∃ r : WaitRec, exec i s = .next (s.setCur { s.cur with run := .waiting r }) ∧ r.instr = i

/-- A command as it enters a row: its hart, and how far the hart's queues had got, which orders it with the partner's (R261). -/
def Claims.cmdOf (s : State) (o : MxOp) : MxCmd :=
  { hart := s.turn, op := o, before := (s.coreAt (coreOf s.turn)).queueLens, seen := false }

/-- Commands `add t` have entered tile row t of the hart's cluster behind those it held; registers and memory stand. -/
def Claims.Enters (s v : State) (add : Fin 4 → List MxOp) : Prop :=
  v.cur.g = s.cur.g ∧ v.cur.vec.regs = s.cur.vec.regs ∧ v.mem = s.mem ∧ ∀ t, v.rowAt (s.turn / 8) t =
    { s.rowAt (s.turn / 8) t with cmds := (s.rowAt (s.turn / 8) t).cmds ++ (add t).map (Claims.cmdOf s) }

/-- Row r of an A operand: its elements and its scale entries (R268). -/
def Claims.aRow (s : State) (f : MxFmt) (va : VSpec) (m s0 r : Nat) : List Nat × List Nat :=
  let vb := s.vbits s.turn
  let bits := ((List.range (s.aRegs f m)).map fun i => (s.cur.vec.reg (va.toNat + i)).toNat % 2 ^ vb * 2 ^ (vb * i)).sum
  let per := if f.per = 0 then 0 else 256 / f.per
  ((List.range 256).map fun k => nbits bits (f.aw * (256 * r + k)) f.aw,
    (List.range per).map fun q => (s.cur.vec.scale.toList.getD (s0 + r * per + q) 0).toNat % 256)

/-- Column n of a panel read in state p leaves q: elements, scale bytes and, every 64 columns of the F4 block format, the
band scale (R256, R267). -/
def Claims.ReadsColumn (x : PanelSrc) (p : State) (n : Nat) (q : State) (c : (List Nat × List Nat) × Option Nat) : Prop :=
  let f := mxFmt x.fmt
  let va := wrapN 64 ((x.base.toNat : Int) + n * x.pitch.toInt)
  let per := if f.per = 0 then 0 else 256 / f.per
  (f.bw = 16 → va % 2 = 0) ∧ ∃ (u w : State) (bs ss : List Byte), p.loadBytes va (32 * f.bw) = (u, .ok bs) ∧
    u.loadBytes (x.sbase.toNat + per * n) per = (w, .ok ss) ∧
    c.1 = ((List.range 256).map fun k => nbits (bytesNat bs) (f.bw * k) f.bw, ss.map (·.toNat)) ∧
    if f.per = 8 ∧ n % 64 = 0 then
      ∃ bb, w.loadBytes (x.sbase.toNat + 16384 + 2 * (n / 64)) 2 = (q, .ok bb) ∧ c.2 = some (bytesNat bb)
    else q = w ∧ c.2 = none

/-- With no first use pending: mxattach completes with the lowest free rows of its mask granted, fresh, and their
number in g[d]; mxdetach with its rows released; mxfmt with the two formats in mxcfg; mxzero, mxload, mxmul and mxgrp
with one command behind those of each row they name (the zeroing; every column read in order and the panel's record;
the product of the A rows with their elements and scales; each held row's share of the A rows, nothing at all where no
row takes any), waiting with nothing done while such a row has two; mxwait completes with nothing changed once none of
the rows has a command of the hart, or one of its partner that a queue crossing put before it, and waits until then. A
row not held is tile not attached (22) with the missing rows (for mxgrp, which holds none, all four), a pending first
use 18, both for every instruction that names rows or the unit; a panel column that fails its cause with est the
column. No g register but d changes, but by an earlier load that was to perform late (log 4). (R254, R256, R260, R261,
R264, R265, R266, R267, R268, R269, R270, R329) -/
def Obligations.MatrixCommands : Prop :=
  ∀ (s : State),
    let cl := s.turn / 8
    let pc8 := s.cur.pc + 8
    let free (rows : Nat) : Prop := rows &&& (15 - s.heldRows) = 0
    (s.mxIssue = none →
      (∀ (d a : Reg), let v := (s.g a).toNat
        let n := v % 8
        let allow := if nbits v 4 4 = 0 then 15 else nbits v 4 4
        let open_ := (List.finRange 4).filter fun t => nbit allow t.val && decide ((s.rowAt cl t).holder = none)
        let k := match s.rowRoom with | none => min n open_.length | some r => min (min n open_.length) r.toNat
        v / 8 % 2 = 0 → v < 256 → n ≤ 4 → ∃ u : State, Completes (.mxattach d a) s (u.setG d (BitVec.ofNat 64 k)) pc8 ∧
          u.cur.g = s.cur.g ∧ u.mem = s.mem ∧ (0 < k → u.cur.dirty.dm = true) ∧ (k = 0 → u.cur.dirty = s.cur.dirty) ∧ ∀ t, u.rowAt cl t =
            if t ∈ open_.take k then { TileRow.init with holder := some s.cur.rcb } else s.rowAt cl t) ∧
      (∀ rows : BitVec 4, free rows.toNat → ∃ u : State, Completes (.mxdetach rows) s u pc8 ∧ u.cur.g = s.cur.g ∧ u.mem = s.mem ∧
        ∀ t, u.rowAt cl t = if nbit rows.toNat t.val then TileRow.init else s.rowAt cl t) ∧
      (∀ a b : BitVec 4, ∃ u : State, Completes (.mxfmt a b) s u pc8 ∧ u.cur.g = s.cur.g ∧ u.mem = s.mem ∧
        u.cur.mxcfg.toNat = s.cur.mxcfg.toNat / 256 * 256 + 16 * b.toNat + a.toNat) ∧
      (∀ rows : BitVec 4, free rows.toNat →
        (s.rowsFull rows.toNat = true → Claims.Waits (.mxzero rows) s) ∧
        (s.rowsFull rows.toNat = false → ∃ u : State, Completes (.mxzero rows) s u pc8 ∧
          Claims.Enters s u fun t => if nbit rows.toNat t.val then [.zero] else [])) ∧
      (∀ rows : BitVec 4, free rows.toNat →
        let named (t : Fin 4) : Bool := if rows = 0 then nbit s.heldRows t.val else nbit rows.toNat t.val
        let earlier (c : MxCmd) : Prop := c.hart = s.turn ∨ (c.hart = partnerOf s.turn ∧ c.seen = true)
        ((∃ t, named t = true ∧ ∃ c ∈ (s.rowAt cl t).cmds, earlier c) → Claims.Waits (.mxwait rows) s) ∧
        ((∀ t, named t = true → ∀ c ∈ (s.rowAt cl t).cmds, ¬ earlier c) → Completes (.mxwait rows) s s pc8)) ∧
      (∀ (t : BitVec 2) (a b c : Reg), s.isExec s.turn = false → (s.reduced = true → s.bfmt = 14) → free (2 ^ t.toNat) →
        (s.rowsFull (2 ^ t.toNat) = true → Claims.Waits (.mxload t a b c) s) ∧
        (s.rowsFull (2 ^ t.toNat) = false →
          let x : PanelSrc := ⟨s.g a, s.g b, s.g c, s.bfmt⟩
          let es := (List.range 512).filter (s.est ≤ ·)
          ∀ (σ : Nat → State) (col : Nat → (List Nat × List Nat) × Option Nat), σ 0 = s →
          let reads := fun (p : State) (n : Nat) (q : State) => Claims.ReadsColumn x p n q (col n)
          (Claims.Chain es es.length σ reads →
            let r := (σ es.length).rowAt cl (rowOf t)
            let op : MxOp := .load s.est (es.map fun n => (col n).1)
              (es.filterMap fun n => (col n).2.map fun b => (n / 64, b)) s.bfmt
            ∃ u : State, Completes (.mxload t a b c) s u pc8 ∧ (s.cur.hasLate = false → u.cur.g = s.cur.g) ∧ u.cur.tr.est = 0 ∧
              u.mem = (σ es.length).mem ∧ u.cur.stores = (σ es.length).cur.stores ∧ r = s.rowAt cl (rowOf t) ∧
              ∀ q, u.rowAt cl q = if q = rowOf t then
                { r with cmds := r.cmds ++ [Claims.cmdOf s op], base := s.g a, pitch := s.g b, sbase := s.g c,
                         fmt := BitVec.ofNat 4 s.bfmt, loaded := true }
                else s.rowAt cl q) ∧
          (∀ k n cause v, es[k]? = some n → Claims.Chain es k σ reads → (∃ q, (σ k).readColumn x n = (q, .error (cause, v))) →
            cause ≠ 25 → s.cur.run = .running → s.trapsHere →
            ∃ u, Takes (.mxload t a b c) s u cause v s.cur.pc ∧ u.cur.tr.est = BitVec.ofNat 64 n ∧
              (s.cur.hasLate = false → u.cur.g = s.cur.g)))) ∧
      (∀ (z : Bool) (acc0 : BitVec 6) (s0 : BitVec 8) (va : VSpec) (b : Reg), s.vecIssue = none →
        (s.reduced = true → s.afmt = 14) →
        let f := mxFmt s.afmt
        let op (m : Nat) (rs : List Nat) (t : Fin 4) : MxOp :=
          .mul z acc0.toNat (rs.map fun r => (r, Claims.aRow s f va m s0.toNat r)) s.afmt ((s.rowAt cl t).bfmtFor f)
        (∀ t : BitVec 2, let m := (s.g b).toNat
          1 ≤ m → acc0.toNat + m ≤ 64 → s.aBad f m va s0.toNat = false → s.rowRefuses f (rowOf t) = false →
          free (2 ^ t.toNat) →
          (s.rowsFull (2 ^ t.toNat) = true → Claims.Waits (.mxmul z t acc0 s0 va b) s) ∧
          (s.rowsFull (2 ^ t.toNat) = false → ∃ u : State, Completes (.mxmul z t acc0 s0 va b) s u pc8 ∧
            Claims.Enters s u fun q => if q = rowOf t then [op m (List.range m) q] else [])) ∧
        (let size (t : Nat) := nbits (s.g b).toNat (8 * t) 8
         let first (t : Nat) := ((List.range t).map size).sum
         let m := first 4
         let takes (t : Fin 4) : Bool := nbit s.heldRows t.val && decide (0 < size t.val)
         (s.g b).toNat < 2 ^ 32 → acc0.toNat + m ≤ 64 → s.aBad f m va s0.toNat = false → s.heldRows ≠ 0 →
         (∀ t, takes t = true → s.rowRefuses f t = false) →
         ((∃ t, takes t = true ∧ 2 ≤ (s.rowAt cl t).cmds.length) → Claims.Waits (.mxgrp z acc0 s0 va b) s) ∧
         ((∀ t, takes t = true → (s.rowAt cl t).cmds.length < 2) → ∃ u : State, Completes (.mxgrp z acc0 s0 va b) s u pc8 ∧
           Claims.Enters s u fun t => if takes t then [op m ((List.range (size t.val)).map (first t.val + ·)) t] else []))) ∧
      (∀ rows : BitVec 4, ¬ free rows.toNat → s.cur.run = .running → s.trapsHere →
        ∀ i, i = .mxdetach rows ∨ i = .mxzero rows ∨ i = .mxwait rows →
          Takes i s s 22 (BitVec.ofNat 64 (rows.toNat &&& (15 - s.heldRows))) s.cur.pc) ∧
      (∀ (t : BitVec 2) (a b c : Reg), s.isExec s.turn = false → (s.reduced = true → s.bfmt = 14) → ¬ free (2 ^ t.toNat) →
        s.cur.run = .running → s.trapsHere →
        Takes (.mxload t a b c) s s 22 (BitVec.ofNat 64 (2 ^ t.toNat &&& (15 - s.heldRows))) s.cur.pc) ∧
      (∀ (z : Bool) (acc0 : BitVec 6) (s0 : BitVec 8) (va : VSpec) (b : Reg), s.vecIssue = none →
        (s.reduced = true → s.afmt = 14) → s.cur.run = .running → s.trapsHere →
        let f := mxFmt s.afmt
        (∀ t : BitVec 2, let m := (s.g b).toNat
          1 ≤ m → acc0.toNat + m ≤ 64 → s.aBad f m va s0.toNat = false → s.rowRefuses f (rowOf t) = false → ¬ free (2 ^ t.toNat) →
          Takes (.mxmul z t acc0 s0 va b) s s 22 (BitVec.ofNat 64 (2 ^ t.toNat &&& (15 - s.heldRows))) s.cur.pc) ∧
        (let m := ((List.range 4).map fun t => nbits (s.g b).toNat (8 * t) 8).sum
         (s.g b).toNat < 2 ^ 32 → acc0.toNat + m ≤ 64 → s.aBad f m va s0.toNat = false → s.heldRows = 0 →
          Takes (.mxgrp z acc0 s0 va b) s s 22 15 s.cur.pc))) ∧
    (s.cur.dirty.mon = false → s.cur.run = .running → s.trapsHere → ∀ (rows a b : BitVec 4) (t : BitVec 2) (x y z : Reg) (i : Instr),
      i = .mxattach x y ∨ i = .mxdetach rows ∨ i = .mxfmt a b ∨ i = .mxzero rows ∨ i = .mxwait rows ∨ i = .mxload t x y z ∨
        i = .mxsave x ∨ i = .mxrest x → Takes i s s 18 0 s.cur.pc) ∧
    (s.cur.dirty.mon = false → s.vecIssue = none → s.cur.run = .running → s.trapsHere →
      ∀ (z : Bool) (t : BitVec 2) (acc0 : BitVec 6) (s0 fmt : BitVec 8) (va : VSpec) (a b c : Reg) (m : VMask) (i : Instr),
      i = .mxmul z t acc0 s0 va b ∨ i = .mxgrp z acc0 s0 va b ∨ i = .mxdrain t acc0 fmt a b c m ∨ i = .mxdrainX t acc0 fmt a va c m →
        Takes i s s 18 0 s.cur.pc)

/-- A drain at a state: index source, address of element e, row, first accumulator row, format, the register of columns. -/
structure Claims.Drain where
  t : BitVec 2
  r0 : Nat
  fmt : Nat
  c : Reg
  mask : VMask
  srcs : List VRead
  addr : State → Nat → Except (Nat × Word) Nat

def Claims.drainOf (s : State) : Instr → Option Claims.Drain
  | .mxdrain t r0 fmt a b c m =>
    let nc := (s.g c).toNat % 1024
    some ⟨t, r0.toNat, fmt.toNat, c, m, [], fun _ e => .ok (wrapN 64 ((s.g a).toNat + (e / nc : Nat) * (s.g b).toInt +
      (e % nc * ((drainFmt fmt.toNat).bits / 8) : Nat)))⟩
  | .mxdrainX t r0 fmt a vb c m =>
    some ⟨t, r0.toNat, fmt.toNat, c, m, [Claims.indexRead s vb false], Claims.indexAt s a vb false 0⟩
  | _ => none

/-- With no first use pending and the rows held: mxdrain and mxdrain.x, where they issue and are legal, wait while a
command earlier than them is on the row (a row not held is tile not attached, 22), and otherwise, if every active
element from est up has an aligned address whose store is accepted, complete having handed over, in the element's
access group, row r0 + e / nc, column c0 + e mod nc in the format for each, its flags in mxcfg, est 0; a Haze tile
that the elements fill, every element below vl active, is one whole-tile write however the runs were cut. mxsave at a
256-byte aligned address with no command on the held rows completes having handed over every word of the image from
est up in order: mxcfg, the held rows, kinds and records, then the accumulators two to a word; a Haze tile that lies
in the image's range is one whole-tile write, resumed runs included: for both the model's reading (log 42, DEDUCED),
where R220 says that a trap undoes it for vst. mxrest of such an image that reads without a reserved bit, of rows the
hart holds with no command, completes with mxcfg, kinds, records and accumulators as the image has them, and with each
loaded panel read again as a command; from word est on it reads memory whenever it issues, and the words below are
those a stopped run of it read or, where none are kept, free values without reserved bits (log 35); from the panels on
it reloads from the column it stopped at; an image row not held is 22 with the missing rows and est 32. (R196, R202,
R255, R260, R261, R271, R272, R273, R274, R335, R345) -/
def Obligations.MatrixDrainsAndImages : Prop :=
  ∀ (s : State), s.mxIssue = none →
    let cl := s.turn / 8
    let pc8 := s.cur.pc + 8
    (∀ (i : Instr) (w : Claims.Drain), Claims.drainOf s i = some w → Claims.Issues s w.srcs none → s.cur.lim = none →
      let x := (s.g w.c).toNat
      let nc := x % 1024
      let c0 := nbits x 16 9
      let ds := (drainFmt w.fmt).bits / 8
      s.isExec s.turn = false → nbits x 10 6 = 0 → x < 2 ^ 25 → 1 ≤ nc → c0 + nc ≤ 512 → s.cur.vec.vl.toNat ≤ (64 - w.r0) * nc →
      drainFmtOk w.fmt = true → (∀ r ∈ w.srcs, r.n ≤ 8) →
      (2 ^ w.t.toNat &&& (15 - s.heldRows) ≠ 0 → s.cur.run = .running → s.trapsHere →
        Takes i s s 22 (BitVec.ofNat 64 (2 ^ w.t.toNat &&& (15 - s.heldRows))) s.cur.pc) ∧
      (2 ^ w.t.toNat &&& (15 - s.heldRows) = 0 → s.rowsPend (2 ^ w.t.toNat) = true → Claims.Waits i s) ∧
      (2 ^ w.t.toNat &&& (15 - s.heldRows) = 0 → s.rowsPend (2 ^ w.t.toNat) = false →
        let u := s.readied w.srcs
        let es := Claims.active u w.mask
        ∀ σ : Nat → State, σ 0 = u →
        Claims.Chain es es.length σ (fun p e q => ∃ va v, w.addr u e = .ok va ∧ va % ds = 0 ∧
          let y := (p.rowAt cl (rowOf w.t)).drainValue (w.r0 + e / nc) (c0 + e % nc) w.fmt p.rm p.vt.sat
          p.storeNext (Claims.slice s e) (Claims.group s e) va (natBytes ds y.1) [] = (v, none) ∧
            q = v.addMflags s.cur.rcb s.turn y.2) →
        let q := σ es.length
        Completes i s (((if ∀ e, e < s.cur.vec.vl.toNat → nbit (u.maskBits w.mask) e = true then
            q.markFilled u.cur.stores.length u.est s.cur.vec.vl.toNat (w.addr u) (fun _ => 2 ^ (drainFmt w.fmt).bits - 1) else q).setEst
          0).vecDone 7 w.srcs none w.mask) pc8)) ∧
    (∀ a : Reg, s.isExec s.turn = false → (s.g a).toNat % 256 = 0 →
      let rows := (List.finRange 4).filter fun t => nbit s.heldRows t.val
      let va (w : Nat) := ((s.g a).toNat + 8 * w) % 2 ^ 64
      ((∀ t ∈ rows, (s.rowAt cl t).cmds = []) →
        let es := (List.range (32 + 16384 * rows.length)).filter (s.est ≤ ·)
        s.saveWord 0 = s.cur.mxcfg.toNat ∧ s.saveWord 1 = s.heldRows ∧
        (∀ j (t : Fin 4) (i n : Nat), rows[j]? = some t → i < 64 → n < 256 →
          let row := tget (List.replicate 512 0) (s.rowAt cl t).acc i
          s.saveWord (32 + 16384 * j + 256 * i + n) = row.getD (2 * n) 0 + 2 ^ 32 * row.getD (2 * n + 1) 0) ∧
        ∀ σ : Nat → State, σ 0 = s →
          Claims.Chain es es.length σ (fun p w q => p.storeNext 0 0 (va w) (natBytes 8 (s.saveWord w)) [] = (q, none)) →
          let q := σ es.length
          Completes (.mxsave a) s ((q.markRange s.cur.stores.length (s.g a).toNat (8 * (32 + 16384 * rows.length))).setEst 0) pc8) ∧
      (∀ (n : Nat) (σ : Nat → State) (bs : Nat → List Byte), σ 0 = s →
        let es := (List.range n).filter (s.est ≤ ·)
        Claims.Chain es es.length σ (fun p w q => p.load s.turn 0 (va w) 8 = (q, .ok (bs w)) ∧
          (w < 32 → headBad w (bytesNat (bs w)) = false)) →
        s.restUpTo (s.g a).toNat n =
          (σ es.length, .ok ((List.range n).map fun w => if s.est ≤ w then bytesNat (bs w) else s.unread w))) ∧
      (∀ (head image : List Nat) (u v : State), s.restUpTo (s.g a).toNat 32 = (u, .ok head) →
        let imask := head.getD 1 0
        let put := (List.finRange 4).filter fun t => nbit imask t.val
        let W := 32 + 16384 * put.length
        (imask &&& (15 - s.heldRows) ≠ 0 → s.cur.run = .running → s.trapsHere →
          Takes (.mxrest a) s ((u.keepRest head).setEst 32) 22 (BitVec.ofNat 64 (imask &&& (15 - s.heldRows))) s.cur.pc) ∧
        (imask &&& (15 - s.heldRows) = 0 → s.est < W → u.restUpTo (s.g a).toNat W = (v, .ok image) →
          (∀ t ∈ put, (s.rowAt cl t).cmds = []) →
          ∃ p : State, (s.cur.hasLate = false → p.cur.g = s.cur.g) ∧ p.mem = v.mem ∧ p.cur.mxcfg = BitVec.ofNat 64 (head.getD 0 0) ∧
            (∀ t, t ∉ put → p.rowAt cl t = s.rowAt cl t) ∧
            (∀ j t, put[j]? = some t → let r := p.rowAt cl t
              r.holder = some s.cur.rcb ∧ r.isInt = nbit (head.getD 2 0) t.val ∧
              r.base = BitVec.ofNat 64 (head.getD (8 + 6 * t.val) 0) ∧ r.loaded = nbit (head.getD (11 + 6 * t.val) 0) 8 ∧
              ∀ i n, i < 64 → n < 512 → (tget (List.replicate 512 0) r.acc i).getD n 0 =
                nbits (image.getD (32 + 16384 * j + 256 * i + n / 2) 0) (32 * (n % 2)) 32) ∧
            ∀ q : State, p.reload W 0 W (put.filter fun t => (p.rowAt cl t).loaded) = (q, none) →
              Completes (.mxrest a) s ((q.keepRest []).setEst 0) pc8) ∧
        (imask &&& (15 - s.heldRows) = 0 → W ≤ s.est → (∀ t ∈ put, (s.rowAt cl t).cmds = []) →
          ∀ q : State, u.reload W 0 s.est (put.filter fun t => (u.rowAt cl t).loaded) = (q, none) →
            Completes (.mxrest a) s ((q.keepRest []).setEst 0) pc8)))

/-! ## Bobbin (R277-R289) -/

/-- An emitting instruction at a state: its destinations, its masks, one turn of its loop, and where the loop ends with the
state its peeks leave (R281, R285-R287). -/
structure Claims.Bob where
  ds : List VSpec
  ks : Option (BitVec 3 × BitVec 3)
  turn : State × Emit → State × Emit → Prop
  ends : State × Emit → State → Prop

/-- What a peek of stream A, then one of stream B, finds. -/
def Claims.Peeks (s : State) (a b : Peek) (u : State) : Prop :=
  ∃ t, s.peek false = (t, a) ∧ t.peek true = (u, b)

def Claims.bobOf (s : State) : Instr → Option Claims.Bob
  | .bbisect vd va vb => some
    { ds := [vd, va, vb], ks := none
      turn := fun (p, z) q => ∃ a wa b wb u, Peeks p (.value a wa) (.value b wb) u ∧ q =
        if a < b then (u.advance false a wa, { z with adv := z.adv + 1 })
        else if b < a then (u.advance true b wb, { z with adv := z.adv + 1 })
        else ((u.advance false a wa).advance true b wb, z.put ew a (u.cursor false).idx (u.cursor true).idx true true 2)
      ends := fun (p, _) u => p.peek false = (u, .exhausted) ∨ ∃ a wa, Peeks p (.value a wa) .exhausted u }
  | .bbmerge vd va vb i j => some
    { ds := [vd, va, vb], ks := some (i, j)
      turn := fun (p, z) q => ∃ u, let ia := (u.cursor false).idx
        let ib := (u.cursor true).idx
        (∃ a wa b wb, Peeks p (.value a wa) (.value b wb) u ∧ q =
          if a < b then (u.advance false a wa, z.put ew a ia ib true false 1)
          else if b < a then (u.advance true b wb, z.put ew b ia ib false true 1)
          else ((u.advance false a wa).advance true b wb, z.put ew a ia ib true true 2)) ∨
        (∃ a wa, Peeks p (.value a wa) .exhausted u ∧ q = (u.advance false a wa, z.put ew a ia ib true false 1)) ∨
        (∃ b wb, Peeks p .exhausted (.value b wb) u ∧ q = (u.advance true b wb, z.put ew b ia ib false true 1))
      ends := fun (p, _) u => Peeks p .exhausted .exhausted u }
  | .bbwalk vd va => some
    { ds := [vd, va], ks := none
      turn := fun (p, z) q =>
        let a := p.cursor false
        let b := p.cursor true
        b.idx < b.end_ ∧
        if a.v = false ∨ a.last ≤ b.idx then
          ∃ x w u, p.peek false = (u, .value x w) ∧ q = (u.advance false x w, { z with adv := z.adv + 1 })
        else q = (p.setCursor true { b with idx := (b.idx + 1) % 2 ^ 64 },
          z.put ew (wrapN 64 ((a.idx : Int) - 1)) b.idx 0 false false 1)
      ends := fun (p, _) u =>
        ((p.cursor true).end_ ≤ (p.cursor true).idx ∧ u = p) ∨
        ((p.cursor true).idx < (p.cursor true).end_ ∧
          ((p.cursor false).v = false ∨ (p.cursor false).last ≤ (p.cursor true).idx) ∧ p.peek false = (u, .exhausted)) }
  | _ => none
where
  ew : Nat := s.vt.ew

/-- On a hart that may access memory: bbset with bits 63 to 48 of the end clear completes with the stream's four
registers set and the other stream's kept; bbget completes with the coordinate at the cursor, all ones if exhausted,
and a plain stream's coordinate is the element its address holds, out of order 8 at the cursor. Where bbisect, bbmerge
and bbwalk may issue (an unscaled integer kind of 32 or 64 bits, distinct destinations the hart may name), whatever
number of turns of their loop runs until its end, or until vl results or 65,536 advances, they complete with each
result in its place in every destination and mask, the tail above the last, gcnt the number of results, est 0 and the
cursors where the turns left them. (R278, R279, R280, R281, R282, R283, R284, R285, R286, R287) -/
def Obligations.BobbinResults : Prop :=
  ∀ (s : State), s.isExec s.turn = false →
    let pc8 := s.cur.pc + 8
    (∀ (strm : Bool) (fmt : BitVec 2) (strict : Bool) (a b c : Reg), (s.g b).toNat < 2 ^ 48 →
      ∃ u : State, Completes (.bbset strm fmt strict a b c) s u pc8 ∧ u.cur.g = s.cur.g ∧ u.mem = s.mem ∧
        u.cursor strm = ⟨(s.g a).toNat, 0, (s.g b).toNat, fmt.toNat, strict, false, (s.g c).toNat⟩ ∧
        ∀ i : Fin 8, (if strm then i.val < 4 else 4 ≤ i.val) → u.cur.bob[i] = s.cur.bob[i]) ∧
    (∀ (d : Reg) (strm : Bool) (u : State),
      (s.peek strm = (u, .exhausted) → Completes (.bbget d strm) s (u.setG d (BitVec.allOnes 64)) pc8) ∧
      (∀ v w, s.peek strm = (u, .value v w) → Completes (.bbget d strm) s (u.setG d (BitVec.ofNat 64 v)) pc8) ∧
      (∀ c v, s.peek strm = (u, .fail c v) → c ≠ 25 → s.cur.run = .running → s.trapsHere →
        Takes (.bbget d strm) s (u.setEst 0) c v s.cur.pc) ∧
      (let x := s.cursor strm
       let n := if x.fmt = 0 then 4 else 8
       (x.end_ ≤ x.idx → s.peek strm = (s, .exhausted)) ∧
       (∀ bs, x.idx < x.end_ → x.fmt < 2 → x.cur % (8 * n) = 0 → s.load s.turn 0 (x.cur / 8) n = (u, .ok bs) →
         let v := bytesNat bs
         s.peek strm = (u, if x.v = true ∧ (v < x.last ∨ (x.strict = true ∧ v = x.last)) then .fail 8 (BitVec.ofNat 64 x.cur)
           else .value v (8 * n))))) ∧
    (∀ (i : Instr) (w : Claims.Bob), Claims.bobOf s i = some w → s.vecIssue = none → s.vt.kind ≤ 1 → (s.vt.ew = 32 ∨ s.vt.ew = 64) →
      s.vt.skind = 0 → (∀ d ∈ w.ds, s.vspecOk d s.vt.grp true = true ∧ s.queueWait [] (some d) = none) →
      w.ds.Pairwise (fun a b => groupsMeet a b s.vt.grp = false) → (∀ x y, w.ks = some (x, y) → x ≠ y) → s.cur.lim = none →
      let u := s.readied []
      let t := s.vt
      let vl := s.cur.vec.vl.toNat
      let old := w.ds.map fun d => u.destBits d t.grp
      let oldK (b : Bool) := match w.ks with | some (x, y) => u.mask (if b then y else x) | none => 0
      ∀ (σ : Nat → State × Emit) (N : Nat) (q : State),
        σ 0 = (u, ⟨u.est, 0, old.getD 0 0, old.getD 1 0, old.getD 2 0, oldK false, oldK true⟩) →
        (∀ k, k < N → (σ k).2.n < vl ∧ (σ k).2.adv < 65536 ∧ w.turn (σ k) (σ (k + 1))) →
        let z := (σ N).2
        (if z.n < vl ∧ z.adv < 65536 then w.ends (σ N) q else q = (σ N).1) →
        let tl (b : Nat) := if t.tail then b % 2 ^ (t.ew * z.n) else b
        let mt (b : Nat) := if t.tail then b % 2 ^ z.n else b
        let p := q.putEmit w.ds w.ks ([z.d0, z.d1, z.d2].map tl) (mt z.ka) (mt z.kb)
        let p := ((p.setCur { p.cur with gcnt := BitVec.ofNat 64 z.n }).dirtyC).setEst 0
        let p := (w.ds.drop 1).foldl (fun (p : State) d => p.appendQueue d) (p.pipe 8 ((z.n + 63) / 64 - s.est / 64))
        ∃ d, w.ds.head? = some d ∧ Completes i s (p.finishDest d) pc8)

/-! ## Signature buckets (R290-R302) -/

/-- On a hart that may access memory: sgproj of a projection that reads completes with the slot loaded; sgsig of a
legal vector completes with the signature, bit i set where the exact dot product with row i is at least zero; sgkey,
whose checks follow the slice's earlier stores, completes with the signature in g[d], every key element handed over
and performed, and the token linked into its bucket as one step, a full bucket's new segment first; sggather completes
with the ids its loop delivers in order, their number in gcnt and the cursor where it stopped; each sgclr of a loaded
slot completes with an empty entry handed over for each of its 2^b buckets from est up, whole Haze tiles among them
written whole, also by a run that starts behind an earlier one (log 42, DEDUCED). An entry that fails stops sgclr with
est its number. sgproj changes no g register but by an earlier load that was to perform late (log 4). (R290, R291,
R292, R294, R297, R298, R299, R300, R301, R321) -/
def Obligations.SignatureResults : Prop :=
  ∀ (s : State), s.isExec s.turn = false →
    let pc8 := s.cur.pc + 8
    let t := s.vt
    (∀ (h : BitVec 3) (b : BitVec 5) (d1 : BitVec 8) (a c : Reg) (u : State) (rows : List (List (BitVec 16))),
      let v := s.drainSlice s.turn 0
      v.readProj (v.ctxOf s.turn) (v.g a).toNat (v.g c).toInt b.toNat (d1.toNat + 1) = (u, .ok rows) →
      ∃ w : State, Completes (.sgproj h b d1 a c) s w pc8 ∧ (s.cur.hasLate = false → w.cur.g = s.cur.g) ∧ w.mem = u.mem ∧ w.cur.tr.est = 0 ∧
        w.projAt h = { loaded := true, b := b.toNat, d := d1.toNat + 1, base := v.g a, pitch := v.g c, rows := rows } ∧
        ∀ k, k ≠ h → w.projAt k = s.projAt k) ∧
    (let kinds : Prop := t.kind = 3 ∨ (t.kind = 2 ∧ (t.ew = 16 ∨ t.ew = 32))
     let src (va : VSpec) : List VRead := [t.read va]
     let key (u : State) (va : VSpec) (d : Nat) : List Exact :=
       (List.range d).map fun j => (t.fmt.getD .b32).decode (nbits (u.groupBits va 1) (t.ew * j) t.ew)
     let sig (p : Proj) (x : List Exact) : Nat := ((List.range p.rows.length).map fun i =>
       if dotBit (dotX ((p.rows.getD i []).map fun w => Fmt.bf16.decode w.toNat) x) then 2 ^ i else 0).sum
     ∀ (d : Reg) (h : BitVec 3) (va : VSpec), kinds → t.grp = 1 → t.skind = 0 → (s.projAt h).loaded = true →
      Claims.Issues s (src va) none →
      let u := s.readied (src va)
      let p := s.projAt h
      let n := sig p (key u va p.d)
      (let z := u.setG d (BitVec.ofNat 64 n)
       Completes (.sgsig d h va) s (z.vecDoneOf (z.projAt h).d 9 (src va) none none) pc8) ∧
      (∀ (b c : Reg), let u := u.drainSlice s.turn 0
        let p := u.projAt h
        let n := sig p (key u va p.d)
        (s.g b).toNat < 2 ^ 32 → 1 ≤ u.sgpnext → u.sgpnext < u.sgplim →
        let E := (u.sgdir h.toNat + 16 * n) % 2 ^ 64
        let w := t.ew / 8
        let ks := (List.range p.d).map fun j => ((u.g c).toNat + j * w) % 2 ^ 64
        (∀ a ∈ ks, u.storeFail a w = none) → u.entryFail E = none → u.storeFail (u.segAt u.sgpnext) 64 = none →
        ∀ (σ : Nat → State) (v : State), σ 0 = u →
        (∀ j a, ks[j]? = some a → (σ j).storeNext 0 0 a (natBytes w (nbits (u.groupBits va 1) (t.ew * j) t.ew)) [] =
          (σ (j + 1), none)) →
        ((σ p.d).drain s.turn).linkStep E (u.g b).toNat = .ok v →
        let z := ((v.sync s.turn 7).setG d (BitVec.ofNat 64 n)).setEst 0
        Completes (.sgkey d h va b c) s (z.vecDoneOf (z.projAt h).d 9 (src va) none none) pc8)) ∧
    (∀ (vd : VSpec) (h : BitVec 3) (va : VSpec) (b : Reg), t.kind ≤ 1 → t.ew = 32 → t.skind = 0 → t.grp = 1 →
      s.vspecOk va 1 false = true →
      let go := s.gather.go
      (go = false → (s.projAt h).loaded = true ∧ (s.g b).toNat ≤ (s.projAt h).b) →
      let srcs := if go then [] else [t.read va]
      Claims.Issues s srcs (some (vd, t.grp)) →
      let u := s.readied srcs
      ∀ (v w : State) (z y : Gather) (ids : List Nat),
      (if go then v = u ∧ z = s.gather else u.gatherStart h va (s.g b).toNat = (v, .ok z)) →
      gatherLoop (min s.cur.vec.vl.toNat 4096) 8192 v z 0 = (w, .ok (y, ids)) →
      ∃ new, (∀ j, j < ids.length → nbits new (32 * j) 32 = ids.getD j 0 % 2 ^ 32) ∧
        new / 2 ^ (32 * ids.length) = (if t.tail then 0 else w.destBits vd t.grp / 2 ^ (32 * ids.length)) ∧
        let p := (w.setGroup vd t.grp t.ewCode new).setGather y
        Completes (.sggather vd h va b) s ((((p.setCur { p.cur with gcnt := BitVec.ofNat 64 ids.length }).dirtyC).setEst 0).vecDone 9
          srcs (some (vd, t.grp)) none) pc8) ∧
    (∀ (i : Instr) (h : BitVec 3), (i, h) ∈ [(Instr.sgclr0, (0 : BitVec 3)), (.sgclr1, 1), (.sgclr2, 2), (.sgclr3, 3), (.sgclr4, 4),
        (.sgclr5, 5), (.sgclr6, 6), (.sgclr7, 7)] → (s.projAt h).loaded = true →
      let es := (List.range (2 ^ (s.projAt h).b)).filter (s.est ≤ ·)
      let va (w : Nat) := (s.sgdir h.toNat + 16 * w) % 2 ^ 64
      ∀ σ : Nat → State, σ 0 = s →
      let puts := fun (p : State) (w : Nat) (q : State) => p.storeNext 0 0 (va w) (List.replicate 16 0) [] = (q, none)
      (Claims.Chain es es.length σ puts →
        Completes i s (((σ es.length).markRange s.cur.stores.length (s.sgdir h.toNat) (16 * 2 ^ (s.projAt h).b)).setEst 0) pc8) ∧
      (∀ k w c, es[k]? = some w → Claims.Chain es k σ puts → c ≠ 25 → s.cur.run = .running → s.trapsHere →
        (∃ q, (σ k).storeNext 0 0 (va w) (List.replicate 16 0) [] = (q, some c)) →
        ∃ q, Takes i s q c (BitVec.ofNat 64 (va w)) s.cur.pc ∧ q.cur.tr.est = BitVec.ofNat 64 w ∧ q.cur.g = s.cur.g))

/-! ## Convoys (R56-R60) -/

/-- The element member number k of those run starts from: `est` for the resumed member and those chained to it in a row, else
0 (R59). -/
def Claims.startsAt (s : State) (ms : List Member) (k : Nat) : Nat :=
  if (List.range k).all (fun j => match ms[j + 1]? with | some m => m.chained | none => true) then s.est else 0

/-- Every instruction that may stand in a convoy executes alone as the effect the convoy gives it. A convoy whose
members can be fetched and pass the checks of R57, not interrupted, completes when each member from ecm on, started at
est if it is the resumed one or chained to it and at 0 otherwise, completes in the state its predecessor left (the
work records of a chain gathered, those of a member in order among them): est and ecm are 0 and the PC follows the
last member. A header or member that fails the checks is an illegal instruction (1) whose xval names the header word
and the member, with nothing executed, ecm 0 and est 0. Which number xval reports where several checks fail is the
model's choice (log 47, DESIGN CHOICE: the header first, else the lowest member). A member's own late loads, if it has
any in this step, are the model's choice of the time (log 4); those it could depend on have performed. (R45, R46, R56,
R57, R58, R59) -/
def Obligations.ConvoysRunTheirMembers : Prop :=
  (∀ (s : State) (i : Instr), (memberInfo s.vt i).isSome = true → exec i s = commit i 8 (memberEff i s)) ∧
  (∀ (s : State) (cnt : BitVec 3) (chain : BitVec 5) (u2 u3 u4 u5 u6 : BitVec 3) (τ : Nat → State) (w : Nat → Nat),
    let i : Instr := .cvh cnt chain u2 u3 u4 u5 u6
    let n := cnt.toNat + 2
    let codes := [u2.toNat, u3.toNat, u4.toNat, u5.toNat, u6.toNat]
    let word := match encode i with | some e => e.word.toNat | none => 0
    let ws := (List.range n).map w
    let u := τ n
    τ 0 = s → (∀ k, k < n → (τ k).fetchParcels (s.cur.pc.toNat + 4 + 8 * k) 4 = (τ (k + 1), .ok (w k))) →
    (∀ ms, headerOk n chain.toNat codes = true → checkMembers s.vt n chain.toNat codes [] 1 ws = .ok ms →
      s.cur.tr.ecm.toNat ≤ n → s.cur.lim = none →
      let rs := ms.drop (s.cur.tr.ecm.toNat - 1)
      ∀ σ : Nat → State, σ 0 = u.setCur { u.cur with pipes := some [] } →
      (∀ k m, rs[k]? = some m → ∃ q, let p := (((σ k).joinFor m.instr).setEcm m.num).setEst (Claims.startsAt s rs k)
        memberEff m.instr (p.setCur { p.cur with lim := none }) = .done q ∧
        σ (k + 1) = if (rs[k + 1]?).any (!·.chained) then q.flushPipes (some []) else q) →
      let z := ((σ rs.length).setEcm 0).setEst 0
      Completes i s ((z.setCur { z.cur with lim := none }).flushPipes none) (s.cur.pc + BitVec.ofNat 64 (4 + 8 * n))) ∧
    (s.cur.run = .running → s.trapsHere →
      (headerOk n chain.toNat codes = false → Takes i s ((u.setEcm 0).setEst 0) 1 (BitVec.ofNat 64 (word % 2 ^ 32)) s.cur.pc) ∧
      (∀ k, headerOk n chain.toNat codes = true → checkMembers s.vt n chain.toNat codes [] 1 ws = .error k →
        Takes i s ((u.setEcm 0).setEst 0) 1 (BitVec.ofNat 64 (word % 2 ^ 32 + k * 2 ^ 32)) s.cur.pc)))

/-! ## Launches, placement and code objects (R24-R31, R61-R82) -/

/-- lwpush completes with the region's task live at the tail of its queue and lwcount one higher, or with lwreject one
higher and lwlast the value with its reason. placement, where no preload waits and every higher queue is empty,
completes with the head on the core picked for its validated values: running from its entry with arg in g1, or placed
while segments are to be copied. preload binds the head to the core; a segment copy leaves the image's bytes in the
segment, or rejects the launch (an image not aligned to 64 KiB among them); a preload older than 1,200,000 ticks goes
back to the front of its queue; a head passed over for 65,536 ticks, no core being eligible for it, blocks. A bound
task resumes with every image put back; a task whose harts have ended and whose engines are idle completes, live no
longer, with no store queued; an overrun stops its first issuing hart, and the other with it, with the task forwarded.
A task whose forced unload caught it running does not complete, and no hart resumes at an odd PC. Each does nothing
where its condition does not hold: placement and preload while the dispatcher is not at work or no head waits, preload
also of a head that is blocked or whom the core does not take, the segment copy with nothing to copy or the segment
still another task's, the timeout before its time, the resumption of a task that is not stopped or may not resume, the
completion of one that has not ended, the overrun with no hart issuing or budget left. A placement completes where the
runtime's page-table writes supplied with it leave all loaded code mapped in every region with a task on a core (log
6, DEDUCED). A preload that lapses keeps what blocking it had. Model's readings: a lwpush before reduced service only
enqueues (log 47, DESIGN CHOICE, R61 is silent); what a resumption at an odd PC leaves (log 22, DEDUCED); an overrun
is taken on the first hart that issues, with one record, and the partner stops with it (log 24, DEDUCED). (R14, R16,
R28, R61, R62, R66, R67, R69, R76, R77, R79, R333) -/
def Obligations.LaunchEvents : Prop :=
  ∀ s : State, let a := s.arg
    (s.status.bstate ≠ 15 →
      let die := a.unit % 2
      let v := a.w0.toNat
      let s1 := s.logInput 2 0 (0x10000 + 0x1000 * die) (natBytes 8 v)
      let r := if v % 256 = 0 then s1.enqueue die v else (s1, 4)
      let x := r.1.dieAt die
      ∃ t, exec .lwpush s = .next t ∧ t.tasks = r.1.tasks ∧ t.mem = r.1.mem ∧ (t.dieAt die).queues = x.queues ∧
        (r.2 = 0 → (t.dieAt die).lwcount = x.lwcount + 1 ∧ (t.dieAt die).lwreject = x.lwreject ∧ (t.dieAt die).lwlast = x.lwlast ∧
          ∃ k, t.task? v = some k ∧ k.phase = .queued ∧ k.die = die ∧
            ((t.dieAt die).queues[k.eff.prio % 16]'(Nat.mod_lt _ (by decide))).getLast? = some (QEntry.fresh v)) ∧
        (r.2 ≠ 0 → (t.dieAt die).lwcount = x.lwcount ∧ (t.dieAt die).lwreject = x.lwreject + 1 ∧
          (t.dieAt die).lwlast = BitVec.ofNat 64 (v / 256 * 256 + r.2))) ∧
    (s.dispatching = false → exec .placement s = .next s ∧ exec .preload s = .next s) ∧
    ((∀ q ∈ s.tasks, q.2.phase ≠ .preloaded) → (∀ p, p < 16 → s.headOf a.unit p = none) → exec .placement s = .next s) ∧
    (s.headOf a.unit (a.n % 16) = none → exec .preload s = .next s) ∧
    (∀ (rcb : Nat) (k : Task), s.headOf a.unit (a.n % 16) = some rcb → s.task? rcb = some k →
      s.blocked a.unit (a.n % 16) = true ∨ s.canPreload a.unit a.index rcb k.eff = false → exec .preload s = .next s) ∧
    (s.dispatching = true →
      let die := a.unit
      (∀ (p rcb c : Nat) (k : Task), p < 16 → (∀ q ∈ s.tasks, q.2.phase ≠ .preloaded ∧ q.2.phase ≠ .rerun) →
        (∀ q, p < q → q < 16 → s.headOf die q = none) →
        s.headOf die p = some rcb → s.task? rcb = some k → k.phase = .queued → (s.pickCore die rcb k.eff none).isSome = true →
        let ch := s.chainOf rcb 8
        let e := s.effVals ch.1
        s.launchReason ch.1 ch.2 = 0 → s.pickCore die rcb e none = some c → s.replayHolds (2 * c) = false →
        (s.settle rcb k e c a).isSome = true →
        ∃ t k', exec .placement s = .next t ∧ t.task? rcb = some k' ∧ k'.eff = e ∧ k'.core = c ∧
          (∀ q : Fin 16, ∀ x ∈ (t.dieAt k.die).queues[q], x.rcb ≠ rcb) ∧
          (e.preSegs ≠ 0 → k'.phase = .placed ∧ k'.toCopy = e.preSegs) ∧
          (e.preSegs = 0 → k'.phase = .running ∧ (t.hartAt (2 * c)).run = .running ∧ (t.hartAt (2 * c)).rcb = rcb ∧
            (t.hartAt (2 * c)).g[1] = BitVec.ofNat 64 e.arg ∧ (t.hartAt (2 * c)).tr.xvec = 0 ∧
            (e.split = true → (t.hartAt (2 * c + 1)).run = .running ∧ (t.hartAt (2 * c + 1)).rcb = rcb))) ∧
      (∀ (rcb : Nat) (k : Task), s.headOf die (a.n % 16) = some rcb → s.task? rcb = some k → s.blocked die (a.n % 16) = false →
        let ch := s.chainOf rcb 8
        let e := s.effVals ch.1
        s.canPreload die a.index rcb k.eff = true → s.launchReason ch.1 ch.2 = 0 → s.canPreload die a.index rcb e = true →
        ∃ t k', exec .preload s = .next t ∧ t.task? rcb = some k' ∧ k'.phase = .preloaded ∧ k'.core = a.index ∧ k'.eff = e ∧
          k'.segs = e.segs ∧ k'.toCopy = e.preSegs ∧ k'.preAt = s.tick ∧ t.headOf die (a.n % 16) ≠ some rcb)) ∧
    (∀ (k : Task), s.task? a.addr = some k →
      let g := a.index % 8
      (∀ u bs, k.phase = .preloaded → nbit k.toCopy g = true → s.segBusy a.addr k g = false → k.eff.segimg % 65536 = 0 →
        s.imagePieces (k.ctx a.addr) (k.eff.segimg + 65536 * g) 16 = (u, some bs) →
        ∃ t, exec .segmentImageCopy s = .next t ∧ memReadN t.mem (spadKey (k.core * 2 ^ 19 + g * 65536)) 65536 = bs ∧
          t.task? a.addr = some { k with toCopy := nset k.toCopy g 1 0 }) ∧
      (∀ u, k.phase = .preloaded ∨ k.phase = .placed → nbit k.toCopy g = true → s.segBusy a.addr k g = false →
        (k.eff.segimg % 65536 ≠ 0 ∨ s.imagePieces (k.ctx a.addr) (k.eff.segimg + 65536 * g) 16 = (u, none)) →
        ∃ t, exec .segmentImageCopy s = .next t ∧ t.task? a.addr = none) ∧
      (nbit k.toCopy g = false ∨ s.segBusy a.addr k g = true → exec .segmentImageCopy s = .next s) ∧
      (k.phase = .preloaded → 1200000 < s.tick - k.preAt →
        (∀ q ∈ s.tasks, q.2.phase = .rerun → q.2.core ≠ k.core) → ∃ t k', exec .preloadTimeout s = .next t ∧ t.task? a.addr = some k' ∧
        k'.phase = .queued ∧ k'.eff = k.eff ∧ k'.segs = 0 ∧
        ((t.dieAt k.die).queues[k.eff.prio % 16]'(Nat.mod_lt _ (by decide))).head? =
          some { QEntry.fresh a.addr with blocking := k.blocks }) ∧
      (k.phase ≠ .preloaded ∨ s.tick - k.preAt ≤ 1200000 → exec .preloadTimeout s = .next s) ∧
      (∀ (c : Cluster) (u v : State), k.phase = .bound → s.canResume a.addr k = true → s.oddResume a.addr k = (v, none) →
        v.giveGroups k.core k.eff.lgreq a.addr = some c →
        let k' := { k with
          phase := .running, since := s.cycle, image := [], saved := [], held := [], rest := [], mflags := [], lower := false }
        ((((v.setCluster (k.core / 4) c).setTask a.addr k').reloadProjs a.addr k).keepEnded a.addr k).resumeAll a.addr k k.image.reverse = some u →
        exec .boundTaskResume s = .next u ∧ u.task? a.addr = some k' ∧
          ∀ p ∈ k.image, (u.hartAt (2 * k.core + p.1 % 2)).run = .running ∧ (u.hartAt (2 * k.core + p.1 % 2)).rcb = a.addr) ∧
      (∀ v pc, k.phase = .bound → s.canResume a.addr k = true → s.oddResume a.addr k = (v, some pc) →
        ∃ t, exec .boundTaskResume s = .next t ∧ ∀ h, t.hartAt h = s.hartAt h) ∧
      ((k.phase ≠ .bound ∧ k.phase ≠ .orphaned) ∨ (k.phase = .bound ∧ s.canResume a.addr k = false) ∨
        (k.phase = .orphaned ∧ k.notified = true) → exec .boundTaskResume s = .next s) ∧
      ((k.phase = .running ∨ k.phase = .bound) → k.dying = false → s.allEnded a.addr k = true → s.engineHolds a.addr k = false →
        ∃ t, exec .taskCompletion s = .next t ∧ t.task? a.addr = none ∧
          ∀ h ∈ k.harts, (t.hartAt h).stores = [] ∧ ((s.hartAt h).rcb = a.addr → (t.hartAt h).run = .empty)) ∧
      (k.dying = true ∨ (k.phase ≠ .running ∧ k.phase ≠ .bound) ∨ s.allEnded a.addr k = false ∨ s.engineHolds a.addr k = true → exec .taskCompletion s = .next s) ∧
      (s.activeHart a.addr k = none ∨ (∃ h, s.activeHart a.addr k = some h ∧ s.overBudget h = none) →
        exec .budgetOverrun s = .next s) ∧
      (∀ (h lvl : Nat), k.phase = .running ∨ k.phase = .bound → s.activeHart a.addr k = some h →
        s.overBudget h = some lvl → ∃ t k', exec .budgetOverrun s = .next t ∧ (t.hartAt h).run = .stopped ∧
          (t.hartAt h).stores = [] ∧ (∀ p ∈ k.harts, (t.hartAt p).run.active = false) ∧
          t.task? a.addr = some k' ∧ k'.phase = .forwarded)) ∧
    (∀ p rcb, (s.headState a.unit a.n).passed = some p → s.headOf a.unit a.n = some rcb →
      (p + 65536 ≤ s.tick → s.tryPlace a.unit rcb {} = .noCore → ∃ t, exec .headBlocking s = .next t ∧
        t.headState a.unit a.n = { s.headState a.unit a.n with blocking := true } ∧
        ∀ q, q % 16 ≠ a.n % 16 → t.headState a.unit q = s.headState a.unit q) ∧
      (s.tick < p + 65536 ∨ s.tryPlace a.unit rcb {} ≠ .noCore → exec .headBlocking s = .next s))

/-- A legal file whose sections can be placed clear of live pages and each other is loaded under its free index with
the generation kept and no instantiation, where the runtime's page-table writes supplied with the load leave all
loaded code mapped in every region with a task on a core (log 6, DEDUCED); where they do not, nothing changes. An
object with no reference unloads: the index is free with the next generation and no page of its data sections is kept;
a referenced one stays. A forced unload advances the generation; while a hart executes in the object it is asked to
stop and the unload waits, and with none, and none in a handler that is to return into it, the index is free at once.
A host hold counts up and down. Model's readings: that an unforced unload advances the generation too, and that the
forced unload is two events, its second once the harts have stopped (log 23, DEDUCED); that a load or placement the
supplied addresses do not admit does nothing (log 7, DESIGN CHOICE). (R24, R25, R28, R29, R30) -/
def Obligations.CodeObjectEvents : Prop :=
  ∀ s : State, let a := s.arg
    let o := s.codeAt a.index
    let next := (o.gen + 1) % 65536
    (∀ u, o.loaded = false → a.index < 2 ^ 20 → fxoOk a.bytes = true →
      s.placeData a.bytes (a.addrs.take (sectCount a.bytes)) (a.addrs.drop (sectCount a.bytes)) = some u →
      s.offKept a.bytes (a.addrs.take (sectCount a.bytes)) false = true →
      (hasFrameReloc a.bytes = true ∨
        u.sharedOk a.bytes (a.addrs.take (sectCount a.bytes)) (a.addrs.drop (sectCount a.bytes)) = true) →
      let v := u.writeTables a.tables
      (v.codeMapped = false → exec .codeObjectLoad s = .next s) ∧
      (v.codeMapped = true → ∃ t, exec .codeObjectLoad s = .next t ∧ t.mem = v.mem ∧ t.codeMap = u.codeMap ∧
        t.codeAt a.index = { CodeObj.init with
          gen := o.gen, loaded := true, fxo := a.bytes, data := a.addrs.take (sectCount a.bytes)
          shared := if hasFrameReloc a.bytes then none else some (a.addrs.drop (sectCount a.bytes)) })) ∧
    ((o.loaded = true ∨ fxoOk a.bytes = false ∨
      s.offKept a.bytes (a.addrs.take (sectCount a.bytes)) false = false) → exec .codeObjectLoad s = .next s) ∧
    (o.loaded = true →
      (o.unloading = false → s.refCount a.index = 0 → ∃ t, exec .unforcedUnload s = .next t ∧ (s.tasks = [] → t.mem = s.mem) ∧
        t.codeAt a.index = { CodeObj.init with gen := next } ∧
        ∀ i j, i < sectCount o.fxo → sectKind o.fxo i ≠ 1 →
          let va := (o.data.getD i (0, 0)).1
          j < pageCount va (sectSize o.fxo i) → (tfind t.codeMap (va / 65536 + j)).all (!·.kept) = true) ∧
      (s.refCount a.index ≠ 0 → exec .unforcedUnload s = .next s) ∧
      (o.unloading = false → o.gen < 65536 → (∀ p ∈ s.harts, s.hartIn a.index o.gen p.1 = false ∧ s.unloadWaits a.index o.gen p.1 = false) →
        ∃ t, exec .forcedUnload s = .next t ∧ t.codeAt a.index = { CodeObj.init with gen := next }) ∧
      (∀ p ∈ s.harts, o.unloading = false → (s.hartAt p.1).run.active = true → o.covers (s.hartAt p.1).pc.toNat = true →
        ∃ t, exec .forcedUnload s = .next t ∧ t.codeAt a.index = { o with gen := next, unloading := true } ∧
          (t.hartAt p.1).tr.ppend = true ∧ (t.hartAt p.1).pc = (s.hartAt p.1).pc) ∧
      (∃ t, exec .hostHold s = .next t ∧
        t.codeAt a.index = { o with holds := if a.flag then o.holds + 1 else o.holds - 1 }))

/-! ## Events of waits, engines and traps -/

/-- A hart at task level that took exception `cause`: `x` before, `y` after (R325). -/
def Claims.Entry (x y : Hart) (cause : Nat) (val resume : Word) : Prop :=
  y.run = .running ∧ y.pc = x.tr.xvec &&& ~~~1 ∧ y.g = x.g ∧ y.vec = x.vec ∧ y.stores = x.stores ∧ y.dirty = x.dirty ∧
  y.tr = { x.tr with xcause := BitVec.ofNat 64 cause, xval := val, xpc := resume, hl := true, ss := false }

/-- An instruction that may wait: of a convoy, or one of those that wait for a queue, a word, a slot or a row. -/
def Claims.mayWait (t : VT) (i : Instr) : Bool :=
  (memberInfo t i).isSome ||
  match i with
  | .qsend .. | .qrecv .. | .qflag .. | .bqz .. | .bqnz .. | .bar .. | .wmon .. | .cpy .. | .cwait .. | .shsync .. | .mxload ..
  | .mxmul .. | .mxgrp .. | .mxzero .. | .mxwait .. | .mxdrain .. | .mxdrainX .. | .mxsave .. | .mxrest .. | .bbisect ..
  | .bbmerge .. | .bbwalk .. | .vcvtSb .. | .sgsig .. | .sgkey .. | .sggather .. | .vldff .. | .vldreg .. | .vstreg .. | .hzld .. | .cvh .. => true
  | _ => false

/-- The wait an event looks at. -/
def Claims.wakes : Instr → Option (WaitRec → Bool)
  | .queueWake => some fun w => w.queue.isSome
  | .wmonWake => some fun w => isWmon w.instr
  | .wmonTimeout => some fun w => isWmon w.instr
  | .cwaitWake => some fun w => isCwait w.instr
  | .cwaitTimeout => some fun w => isCwait w.instr
  | .cpyAccept => some fun w => isCpy w.instr
  | .mxwaitDone => some fun w => isMxwait w.instr
  | _ => none

/-- Where the named hart waits in an instruction of the event's kind, the event completes with the state that
instruction gives when that hart runs it, the turn unchanged; where it does not, and while the frequency switches, a
segment image the hart can reach is still to be copied or a cause of R324 is to be taken first (R247), nothing
changes. A queue wait whose instruction, run again, would still wait, with the partner ended, or two such waits of a
split task that both last 2^20 ticks, end in queue stall (21) with est 0 and in xval the queue it still waits on, the
instruction to be run again; one whose queue no longer holds it back does not trap. That a stall looks at the wait the
instruction run again would meet, and reports its queue, is the model's reading (log 21, DEDUCED), as is that no
instruction is run again while the frequency switches or the image is copied (logs 21, 22, DEDUCED). (R98, R99, R100,
R142, R249, R250, R270, R315, R320, R363) -/
def Obligations.WakingRunsAgain : Prop :=
  ∀ s : State, let h := s.arg.hart
    (∀ (i : Instr) (f : WaitRec → Bool), Claims.wakes i = some f →
      (s.power.stalled = true ∨ (s.segWait h).isSome = true ∨ (s.asyncFirst h).isSome = true → exec i s = .next s) ∧
      (s.power.stalled = false → s.segWait h = none → s.asyncFirst h = none → ∀ w, (s.hartAt h).run = .waiting w → f w = true → Claims.mayWait ({ s with turn := h } : State).vt w.instr = true →
        ∃ t, exec w.instr { s with turn := h } = .next t ∧ exec i s = .next { t with turn := s.turn }) ∧
      ((∀ w, (s.hartAt h).run = .waiting w → f w = false) → exec i s = .next s)) ∧
    (∀ q0 since, s.queueOf h = some (q0, since) →
      let x := s.hartAt h
      let outside (z : Hart) : Hart := { z with tr := { z.tr with est := 0 } }
      (s.waitsOn h = none → exec .queueStall s = .next s) ∧
      (∀ q, s.waitsOn h = some q → s.partnerEnded h = true → x.tr.hl = false → x.tr.xvec ≠ 0 → ∃ t, exec .queueStall s = .next t ∧
        Claims.Entry (outside x) (t.hartAt h) 21 (BitVec.ofNat 64 q) x.pc ∧ t.mem = s.mem ∧
        ∀ k, k ≠ h → t.hartAt k = s.hartAt k) ∧
      (let p := if h % 2 = 0 then h + 1 else h - 1
       let y := s.hartAt p
       ∀ q q1 q2 since2, s.waitsOn h = some q → s.waitsOn p = some q2 → s.partnerEnded h = false → s.isSplit h = true →
        s.queueOf p = some (q1, since2) → since + 2 ^ 20 ≤ s.tick → since2 + 2 ^ 20 ≤ s.tick →
        x.tr.hl = false → x.tr.xvec ≠ 0 → y.tr.hl = false → y.tr.xvec ≠ 0 →
        ∃ t, exec .queueStall s = .next t ∧ Claims.Entry (outside x) (t.hartAt h) 21 (BitVec.ofNat 64 q) x.pc ∧
          Claims.Entry (outside y) (t.hartAt p) 21 (BitVec.ofNat 64 q2) y.pc) ∧
      (s.partnerEnded h = false → s.isSplit h = false → exec .queueStall s = .next s))

/-- copyCompletion, where no segment image the command could reach is still to be copied, and a fault stop of a
running command complete with its slot running no command; a drive error stops a storage-sourced command with err 7
and no address; each leaves an idle slot alone. A promise that has passed is marked once in the slot and, unless
exempt, taken as missed promise (11) by the hart whose task it is where nothing comes before it, or held as due for
that slot and task; a further one does not replace it. A landing command, unless a single step is due before it or the
frequency switches, leaves its row's queue: zero clears the accumulators, a load puts its columns and bands, and a
product of row r adds to each accumulator of row acc0 + r (to zero under z) the integer products modulo 2^32, or the
float blocks one after another. A tile whose life is over, and every tile of a die at its junction limit, expires,
hzlim recording it. A confirmed access performs, alone or with those of its access group in the same word; a store
that writes its bytes in part may first only read what it keeps, writing nothing (R184, R213; the two events are the
model's, log 32). Model's readings (DEDUCED): each missed promise is held for itself (log 25), a drive error has
address 0 (log 34), and a due single step holds a landing back (log 20). (R201, R204, R243, R245, R247, R251, R257,
R259, R261, R262, R348, R376) -/
def Obligations.EngineEvents : Prop :=
  ∀ s : State, let a := s.arg
    (let n := slotIdx a.index
     let sl := s.slotAt a.hart n
     (sl.cmd = none → exec .copyCompletion s = .next s ∧ exec .copyFaultStop s = .next s) ∧
     (∀ c, sl.cmd = some c →
       (s.replay = [] → s.copyMoves c = true → ∃ t, exec .copyCompletion s = .next t ∧ (t.slotAt a.hart n).cmd = none ∧
         (t.hartAt a.hart).g = (s.hartAt a.hart).g) ∧
       (∃ t, exec .copyFaultStop s = .next t ∧ (t = s ∨ (t.slotAt a.hart n).cmd = none)) ∧
       (∀ v, (s.copySteps a.hart n (blkCount c.block - c.pos) = v) → (v.slotAt a.hart n).cmd = none →
         exec .copyFaultStop s = .next v ∧ exec .copyCompletion s = .next v)) ∧
     (let u := s.copyAdvance (a.hart / 8)
      ∀ c, (u.slotAt a.hart n).cmd = some c → blkOp c.block ≠ 2 → opStore (blkW c.block 1) = true →
        ∃ t, exec .storageError s = .next t ∧ (t.slotAt a.hart n).cmd = none ∧ (t.slotAt a.hart n).state = 2 ∧
          nbits (t.slotAt a.hart n).status.toNat 8 8 = 7 ∧ (t.slotAt a.hart n).faddr = 0 ∧ (t.slotAt a.hart n).moved = (u.slotAt a.hart n).moved) ∧
     (∀ c, sl.cmd = some c → sl.running = true → sl.promise ≤ s.tick → nbit sl.status.toNat 22 = false →
       let x := s.hartAt a.hart
       let first : Prop := x.run.active = true ∧ s.overrun a.hart = false ∧ (x.tr.ppend = false ∨ x.ptaken = true) ∧
         x.tr.hl = false ∧ x.atBarrier = false ∧ x.copying = false ∧ c.rcb = x.rcb
       let d := (n.val, c.rcb)
       let dues := (x.miss s.tick).dues
       ∃ t, exec .missedPromise s = .next t ∧ nbit (t.slotAt a.hart n).status.toNat 22 = true ∧ (∃ l, dues = x.dues ++ l) ∧
         (sl.exempt = false → d ∈ dues) ∧
         (sl.exempt = false → first → x.tr.xvec ≠ 0 →
           Claims.Entry x (t.hartAt a.hart) 11 (BitVec.ofNat 64 n.val) x.pc ∧ (t.hartAt a.hart).dues = dues.erase d) ∧
         (sl.exempt = true ∨ ¬ first → (n.val, x.rcb) ∉ x.dues →
           (t.hartAt a.hart).dues = dues ∧ (t.hartAt a.hart).pc = x.pc ∧ (t.hartAt a.hart).tr = x.tr)) ∧
     ((n.val, (s.hartAt a.hart).rcb) ∉ (s.hartAt a.hart).dues →
       (∀ i : Fin 4, let p := s.slotAt a.hart i
         p.cmd = none ∨ p.running = false ∨ s.tick < p.promise ∨ nbit p.status.toNat 22 = true) →
       ∃ t, exec .missedPromise s = .next t ∧ t.mem = s.mem ∧ ∀ h, t.hartAt h = s.hartAt h)) ∧
    (let t := slotIdx a.index
     let r := s.rowAt a.unit t
     (r.cmds = [] → exec .matrixCommandDone s = .next s) ∧
     (s.landHeld r = true → exec .matrixCommandDone s = .next s) ∧
     (∀ c cs, r.cmds = c :: cs → s.landHeld r = false → ∃ u, exec .matrixCommandDone s = .next u ∧ u.mem = s.mem ∧
       (u.rowAt a.unit t).cmds = cs ∧ (u.rowAt a.unit t).holder = r.holder ∧ (∀ q, q ≠ t → u.rowAt a.unit q = s.rowAt a.unit q) ∧
       (c.op = .zero → (u.rowAt a.unit t).acc = [] ∧ (u.rowAt a.unit t).panel = r.panel) ∧
       (∀ start cols bands fmt, c.op = .load start cols bands fmt → (u.rowAt a.unit t).landed = fmt ∧ (u.rowAt a.unit t).acc = r.acc ∧
         ∀ n v, cols[n]? = some v → tget ([], []) (u.rowAt a.unit t).panel (start + n) = v) ∧
       (∀ z acc0 k es ss afmt bfmt, c.op = .mul z acc0 [(k, es, ss)] afmt bfmt →
         let old := if z then List.replicate 512 0 else tget (List.replicate 512 0) r.acc (acc0 + k)
         let new := tget (List.replicate 512 0) (u.rowAt a.unit t).acc (acc0 + k)
         let col (n : Nat) := tget ([], []) r.panel n
         new.length = old.length ∧ (u.rowAt a.unit t).isInt = (mxFmt afmt).int ∧
         (∀ i, i ≠ acc0 + k → tget (List.replicate 512 0) (u.rowAt a.unit t).acc i = tget (List.replicate 512 0) r.acc i) ∧
         ∀ (n c : Nat), old[n]? = some c → new[n]? = some (
           if (mxFmt afmt).int then
             wrapN 32 ((c : Int) + ((List.range 256).map fun j =>
               sext (mxFmt afmt).aw (es.getD j 0) * sext (mxFmt bfmt).bw ((col n).1.getD j 0)).sum)
           else (mxFloat ⟨afmt, es, ss⟩ ⟨bfmt, (col n).1, (col n).2⟩ c).1)))) ∧
    ((∀ b, s.birth a.unit a.index = some b → b + hzlife ≤ s.tick → ∃ t, exec .hazeTileExpiry s = .next t ∧
        ∀ c n, t.birth c n = if c = a.unit ∧ n = a.index then none else s.birth c n) ∧
      (∀ b, s.birth a.unit a.index = some b → s.tick < b + hzlife → exec .hazeTileExpiry s = .next s) ∧
      (∃ t, exec .hazeJunctionLimit s = .next t ∧ t.status.hzlim = s.status.hzlim ||| BitVec.ofNat 2 (2 ^ (a.unit % 2)) ∧
        t.mem = s.mem ∧ t.harts = s.harts ∧ ∀ c n, t.birth c n = if c / 64 = a.unit % 2 then none else s.birth c n)) ∧
    ((a.flag = false → exec .resultConfirmation s = .next (s.performOne a.hart a.index)) ∧
      (a.flag = true → ∃ t, exec .resultConfirmation s = .next t ∧ t.mem = s.mem ∧
        (t.hartAt a.hart).stores = s.keepFirst a.index (s.hartAt a.hart).stores) ∧
      ((∀ q ∈ (s.hartAt a.hart).stores, q.slice ≠ a.index) → s.performOne a.hart a.index = s) ∧
      (∀ q rest, takeStore a.index (s.hartAt a.hart).stores = some (q, rest) →
        let t := s.performOne a.hart a.index
        (t.hartAt a.hart).stores.length ≤ rest.length ∧ (q.group = 0 → (t.hartAt a.hart).stores = rest)))

/-- A pre-emption request, which a fault domain makes of both harts of a split task, is taken as cause 16 at task
level with a handler, and otherwise stops the hart with every store performed; one that is to land inside an
instruction waits for its element group, or between two stream reads of an emitting instruction. A due single step
(20), throttle notice (26) and debug stop (19, xval 0x1000) are taken at task level when nothing earlier in the order
stands (a budget overrun, a pre-emption, a missed promise) and the hart neither waits at a barrier nor in an shsync
whose copy runs, and are then no longer due; a notice with tne 0 is discarded; without one nothing changes. On a hart
about to fetch, an illegal word is cause 1 with the word, ecm and est 0 where it is a convoy header, and a fetch fault
its cause with the parcel's address; both events do nothing where there is no such fault or the hart, at a barrier
say, is not about to fetch. A record whose domain's handler is free is delivered. The first two suspect marks in a row
of a hart with an unconfirmed result change no register, the third stops it with machine check, an ended hart as
before its idle (log 18, DEDUCED); one with every result confirmed is not marked. g changes only by a load that was to
perform late (log 4). A trace head publishes head and drops, with the counters of every slot of its cluster. (R46,
R57, R324, R325, R326, R332, R334, R337, R341, R342, R350, R354) -/
def Obligations.TrapEvents : Prop :=
  ∀ s : State, let a := s.arg
    let x := s.hartAt a.hart
    let calm : Prop := x.run.active = true ∧ x.tr.hl = false ∧ x.tr.xvec ≠ 0 ∧ x.tr.ppend = false ∧ s.overrun a.hart = false ∧
      x.dueSlot = none ∧ x.atBarrier = false ∧ x.copying = false
    let noCopy : Prop := ∀ w d p q r, x.run = .waiting w → w.instr = .shsync d p q r → w.mark = 0
    let u := if a.flag then (s.requestPre a.hart).requestPartner a.hart else s
    let p := partnerOf a.hart
    (a.n = 0 → x.run.active = true → x.ptaken = false → s.overrun a.hart = false → (a.flag = true ∨ x.tr.ppend = true) →
      (x.tr.hl = false → x.tr.xvec ≠ 0 → ∃ t, exec .preEmptionRequest s = .next t ∧ (noCopy → t.mem = s.mem) ∧
        (t.hartAt a.hart).ptaken = true ∧
        (a.flag = true → s.isSplit a.hart = true → (s.hartAt p).run.active = true → (t.hartAt p).tr.ppend = true) ∧
        Claims.Entry { x with tr := { x.tr with ppend := true } } (t.hartAt a.hart) 16 0 x.pc) ∧
      ((x.tr.hl = true ∨ x.tr.xvec = 0) → ∃ t, exec .preEmptionRequest s = .next t ∧ (t.hartAt a.hart).run = .stopped ∧
        (t.hartAt a.hart).stores = [] ∧ (t.hartAt a.hart).tr = { x.tr with ppend := false } ∧
        (x.hasLate = false → (t.hartAt a.hart).g = x.g))) ∧
    (a.n ≠ 0 → x.run.active = true → x.tr.hl = false → x.ptaken = false → s.overrun a.hart = false → (a.flag = true ∨ x.tr.ppend = true) →
      ∃ t e, exec .preEmptionRequest s = .next t ∧ (t.hartAt a.hart).lim = some e ∧ (t.hartAt a.hart).pc = x.pc ∧
        (u.nextEmits a.hart = true → e = a.n) ∧
        (u.nextEmits a.hart = false → e ≤ a.n ∧ e / 2 ^ 32 = a.n / 2 ^ 32 ∧ e % 2 ^ 32 % max 1 (u.lanes a.hart) = 0)) ∧
    (a.flag = false → x.tr.ppend = false → exec .preEmptionRequest s = .next s) ∧
    (calm → x.pending.step = true → ∃ t, exec .singleStep s = .next t ∧ t.mem = s.mem ∧ (t.hartAt a.hart).pending.step = false ∧
      Claims.Entry x (t.hartAt a.hart) 20 0 x.pc) ∧
    (x.pending.step = false → exec .singleStep s = .next s) ∧
    (calm → x.pending.step = false → a.flag = false → ∀ v, x.pending.throttle = some v → ∃ t, exec .throttleNotice s = .next t ∧
      (t.hartAt a.hart).pending.throttle = none ∧
      (x.tr.tne = true → (t.hartAt a.hart).lastNotice = some s.tick ∧ Claims.Entry x (t.hartAt a.hart) 26 v x.pc) ∧
      (x.tr.tne = false → (t.hartAt a.hart).pc = x.pc ∧ (t.hartAt a.hart).tr = x.tr)) ∧
    (a.flag = true → x.run.active = true → x.tr.tne = true → x.tr.hl = true → a.n + 1024 ≤ s.tick → x.pending.throttle = none →
      (∀ l, x.lastNotice = some l → l + 65536 ≤ s.tick) → ∃ t, exec .throttleNotice s = .next t ∧
        (t.hartAt a.hart).pending.throttle = some (BitVec.ofNat 64 a.n) ∧ (t.hartAt a.hart).pc = x.pc) ∧
    (calm → x.pending.step = false → x.pending.throttle = none → x.pending.debug = true → ∃ t, exec .debugStop s = .next t ∧
      (t.hartAt a.hart).pending.debug = false ∧ Claims.Entry x (t.hartAt a.hart) 19 0x1000 x.pc) ∧
    (x.pending.debug = false → exec .debugStop s = .next s) ∧
    (let at_ := ({ s with turn := a.hart } : State)
     (s.fetching a.hart = false → exec .illegalInstruction s = .next s ∧ exec .instructionFetchFault s = .next s) ∧
     (∀ t w i, at_.fetchNext = (t, .ok (w, some i)) →
       exec .illegalInstruction s = .next s ∧ exec .instructionFetchFault s = .next s) ∧
     (s.fetching a.hart = true → x.tr.hl = false → x.tr.xvec ≠ 0 →
       (∀ t w, at_.fetchNext = (t, .ok (w, none)) → ∃ u, exec .illegalInstruction s = .next u ∧ u.mem = t.mem ∧ u.turn = s.turn ∧
         Claims.Entry (if nbits w.word.toNat 12 4 = 12 then { x with tr := { x.tr with ecm := 0, est := 0 } } else x) (u.hartAt a.hart)
           1 w.word x.pc) ∧
       (∀ t c p, at_.fetchNext = (t, .error (c, p)) → c ∉ [15, 25, 27] → ∃ u, exec .instructionFetchFault s = .next u ∧
         u.mem = t.mem ∧ u.turn = s.turn ∧ Claims.Entry x (u.hartAt a.hart) c (BitVec.ofNat 64 p) x.pc))) ∧
    (∀ r rs, s.dueRecord s.records = some (r, rs) → ∃ t, exec .faultRecordDelivery s = .next t ∧ t.records = rs ∧
      (t.mailbox = tset s.mailbox 0 (tget [] s.mailbox 0 ++ [r.record]) ∨ (t.mailbox = s.mailbox ∧ (t.task? r.dom).isSome = true))) ∧
    (s.dueRecord s.records = none → exec .faultRecordDelivery s = .next s) ∧
    (a.flag = false → s.unconfirmed a.hart = false → exec .suspectReexecute s = .next s) ∧
    (a.flag = false → s.unconfirmed a.hart = true →
      let at_ := (x.markPc.toNat, x.tr.est.toNat)
      let again := x.suspectAt = at_
      ((¬ again ∨ x.suspects < 2) → ∃ t, exec .suspectReexecute s = .next t ∧
        t.hartAt a.hart = { x with
          suspects := if again then x.suspects + 1 else 1, suspectAt := at_, suspectLane := a.index } ∧
        t.mem = s.mem) ∧
      (again → 2 ≤ x.suspects → ∃ t, exec .suspectReexecute s = .next t ∧ (t.hartAt a.hart).run = .stopped ∧
        (t.hartAt a.hart).stores = [] ∧ (t.hartAt a.hart).tr =
          { x.tr with ppend := false, retcnt := if x.run = .ended then x.tr.retcnt - 1 else x.tr.retcnt })) ∧
    (let tr := (s.clusterAt a.unit).trace
     ∃ t, exec .traceHeadPublish s = .next t ∧ t.harts = s.harts ∧ (∀ c, (t.clusterAt c).still = (s.clusterAt c).still) ∧
       (nbits tr.w1.toNat 8 5 ≠ 0 → t.hbm tr.base 8 = tr.head % 2 ^ 64 ∧ t.hbm (tr.base + 8) 8 = tr.drop % 2 ^ 64) ∧
       (nbits tr.w1.toNat 8 5 = 0 → t = s)) ∧
    exec .xlheadPublish s = .next { s with xlog := { s.xlog with shown := s.xlog.head, shownAt := s.tick } }

/-! ## Power and bring-up (R363-R372) -/

/-- The next move towards a target point: the rail goes up before the frequency and down after it (R364). -/
def Claims.moveTo (target full : Bool) (vcode : Nat) : PowerMove :=
  match target, full with
  | true, _ => if vcode < 20 then .stepUp else if full then .still else .switchUp
  | false, true => .switchDown
  | false, false => if 12 < vcode then .stepDown else .still

/-- A request reaches the sequencer: latched while a step or switch runs, else the new target (R365). -/
def Claims.requested (p : Power) (full : Bool) (tick : Nat) : Power :=
  if p.move ≠ .still then { p with latched := some full }
  else if full = p.target then p
  else { p with target := full, move := moveTo full p.full p.vcode, since := tick }

/-- A step or switch is done: the latched request, if there is one, is the target from now on (R365). -/
def Claims.replanned (p : Power) (full : Bool) (vcode tick : Nat) : Power :=
  let target := p.latched.getD p.target
  { p with full := full, vcode := vcode, target := target, latched := none, move := moveTo target full vcode, since := tick }

/-- What keeps the safe point: a force (R367, R368), or bring-up before every cluster has passed (R3, R370). -/
def Claims.forced (t : Status) : Bool :=
  t.fwd || t.fth || decide (t.fwst = 2) || !(decide (t.bstate = 5) || decide (t.bstate = 4 ∧ t.dclus = BitVec.allOnes 128))

/-- The safe reporting state (R372): nothing executes, no tile of the device lives, and dfail says where. -/
def Claims.Failed (s t : State) (stage unit cluster : Nat) : Prop :=
  t.status.bstate = 15 ∧ t.status.dfail = BitVec.ofNat 32 (unit % 65536 + 65536 * (cluster % 256) + 2 ^ 24 * stage) ∧
  ((∀ c, nbits (s.clusterAt c).trace.w1.toNat 8 5 = 0) → t.mem = s.mem) ∧ t.power = s.power ∧ (∀ h, (t.hartAt h).run.active = false ∧ (t.hartAt h).g = (s.hartAt h).g) ∧
  ∀ c n, c < 128 → t.birth c n = none

/-- A point request becomes the target or is latched while the sequencer moves; one for full under a force, or before
every cluster has passed, is held until it may act. A rail step completes after 2,400 ticks and a frequency switch
after 240, each the move it ends, and plans the next toward the latched request or the target. The clamp is a bit; a
thermal force, a heartbeat missing for 12,000,000 ticks and a firmware update ask for safe and set their bits; their
ends clear them and let a held request act. A thermal cut removes power, after which the machine faults until power-on
reset, which gives every register its reset value and remembers the cut. Boot passes fetch, verification (header,
SHA-384 of the payload, key digest, ECDSA signature), quick test and, cluster by cluster, the extended tests, the last
of which asks for full. A rail limit, a failed test and a failed stage enter the safe reporting state with their
stage. Model's readings (log 40, DEDUCED): a request for full, firmware's among them, is held until stage 5 or every
cluster has passed; the fetch stage takes two events, its beginning and its end; the key is two 48-byte numbers.
(R363, R364, R365, R366, R367, R368, R369, R370, R371, R372, R373) -/
def Obligations.PowerEvents : Prop :=
  ∀ s : State, let a := s.arg
    let p := s.power
    let st := s.status
    let now := s.tick
    let released (p : Power) (t : Status) : Power :=
      if Claims.forced t = false ∧ p.held = some true then Claims.requested { p with held := none } true now else p
    (let q := if Claims.forced st = true ∧ a.flag = true then { p with held := some true } else Claims.requested { p with held := none } a.flag now
     exec .powerPointRequest s = .next { s with power := q }) ∧
    (p.move = .stepUp → p.since + 2400 ≤ now →
      exec .railStepDone s = .next { s with power := Claims.replanned p p.full (p.vcode + 1) now }) ∧
    (p.move = .stepDown → p.since + 2400 ≤ now →
      exec .railStepDone s = .next { s with power := Claims.replanned p p.full (p.vcode - 1) now }) ∧
    ((p.move ≠ .stepUp ∧ p.move ≠ .stepDown) ∨ now < p.since + 2400 → exec .railStepDone s = .next s) ∧
    (p.move = .switchUp → p.since + 240 ≤ now → exec .frequencySwitchDone s = .next { s with
      power := Claims.replanned p true p.vcode now
      status := if st.bstate = 4 ∧ st.dclus = BitVec.allOnes 128 then { st with bstate := 5 } else st }) ∧
    (p.move = .switchDown → p.since + 240 ≤ now →
      exec .frequencySwitchDone s = .next { s with power := Claims.replanned p false p.vcode now }) ∧
    ((p.move ≠ .switchUp ∧ p.move ≠ .switchDown) ∨ now < p.since + 240 → exec .frequencySwitchDone s = .next s) ∧
    exec .currentClamp s = .next { s with status := { st with clamp := true } } ∧
    exec .currentClampClear s = .next { s with status := { st with clamp := false } } ∧
    exec .thermalForce s = .next { s with status := { st with fth := true, ttrip := true }, power := Claims.requested p false now } ∧
    (let t := { st with fth := false }
     exec .thermalForceClear s = .next { s with status := t, power := released p t }) ∧
    (p.beat + 12000000 ≤ now → exec .heartbeatWatchdog s = .next { s with
      status := { st with fwd := true, fwst := 1 }, power := Claims.requested p false now }) ∧
    (now < p.beat + 12000000 → exec .heartbeatWatchdog s = .next s) ∧
    (let t := { st with fwd := false, fwst := 0 }
     exec .firmwareHeartbeat s = .next { s with status := t, power := released { p with beat := now } t }) ∧
    exec .firmwareUpdate s = .next { s with status := { st with fwst := 2 }, power := Claims.requested p false now } ∧
    (∃ t, exec .thermalCut s = .next t ∧ t.power = { p with powered := false, cut := true } ∧ t.mem = s.mem ∧
      (∀ l ls, (∀ b, l ≠ Act.event .powerOnReset b) → step { t with inputs := l :: ls } = .fault .powerRemoved) ∧
      step { t with inputs := [] } = .fault .powerRemoved) ∧
    (∃ t, exec .powerOnReset s = .next t ∧ t.harts = [] ∧ t.mem = [] ∧ t.tasks = [] ∧ t.power = Power.init ∧ t.inputs = s.inputs ∧
      t.status = { Status.init with dfail := if p.cut then 0x07000000 else 0 }) ∧
    (st.bstate ≠ 15 → ∃ t, exec .railLimit s = .next t ∧ Claims.Failed s t 6 a.n a.unit) ∧
    (st.bstate = 15 → exec .railLimit s = .next s) ∧
    (exec .bootFetch s = .next (if st.bstate.toNat < 2 then { s with status := { st with bstate := st.bstate + 1 } } else s)) ∧
    (st.bstate = 2 →
      let im := a.bytes
      let ok : Prop := 256 ≤ im.length ∧ fx im 0 4 = 0x4B424C46 ∧ fx im 4 2 = 1 ∧ a.n ≤ fx im 6 2 ∧ fx im 8 8 ≤ 2 ^ 26 ∧
        256 + fx im 8 8 ≤ im.length ∧ (∀ b ∈ (im.drop 0xA0).take 0x60, b = 0) ∧
        sha384 ((im.drop 256).take (fx im 8 8)) = bytesNatBE ((im.drop 0x10).take 48) ∧
        a.extra.length = 96 ∧ sha384 a.extra = a.pa ∧
        ecdsaOk (bytesNatBE (a.extra.take 48), bytesNatBE (a.extra.drop 48)) (sha384 (im.take 64))
          (bytesNatBE ((im.drop 0x40).take 48)) (bytesNatBE ((im.drop 0x70).take 48)) = true
      (ok → exec .bootVerify s = .next { s with status := { st with bstate := 3 } }) ∧
      (¬ ok → ∃ t, exec .bootVerify s = .next t ∧ Claims.Failed s t 2 0 0)) ∧
    (st.bstate ≠ 2 → exec .bootVerify s = .next s) ∧
    (exec .quickTest s = .next (if st.bstate = 3 then { s with status := { st with bstate := 4 } } else s)) ∧
    (st.bstate = 4 →
      let d := st.dclus ||| BitVec.ofNat 128 (2 ^ (a.unit % 128))
      (d ≠ BitVec.allOnes 128 → exec .clusterExtendedPass s = .next { s with status := { st with dclus := d } }) ∧
      (d = BitVec.allOnes 128 → ∃ t, exec .clusterExtendedPass s = .next t ∧ t.status.dclus = d ∧
        t.power = (if Claims.forced { st with dclus := d } = true then { p with held := some true } else Claims.requested { p with held := none } true now) ∧
        t.status.bstate = if p.full then 5 else 4) ∧
      ∃ t, exec .extendedTestFail s = .next t ∧ Claims.Failed s t 4 a.n a.unit) ∧
    (st.bstate ≠ 4 → exec .clusterExtendedPass s = .next s ∧ exec .extendedTestFail s = .next s) ∧
    (st.bstate.toNat ≤ 5 → ∃ t, exec .bootStageFail s = .next t ∧ Claims.Failed s t (max 1 st.bstate.toNat) a.n a.unit) ∧
    (5 < st.bstate.toNat → exec .bootStageFail s = .next s)

/-! ## The host, the fabric and the management windows (R72, R73, R205, R209, R352, R359, R362, R373-R384) -/

/-- A message m of a port ends (R377, R244, R245, R362): its checksum is absorbed and it is counted; one that was not dropped
lands in the backing its first flit captured, what lies behind a down link aside (R375), and with `pubc` the phase flips unless the handle went stale or its phase has
changed. -/
def Claims.MessageEnds (s t : State) (port : Nat) (m : SkeinMsg) (bytes checksum : List Byte) : Prop :=
  let y := s.portAt port
  let at_ := s.dev.htbase.toNat + 32 * m.index + 23
  t.portAt port = { y with pdig := crcBytes y.pdig checksum, pmsg := y.pmsg + 1, msg := none } ∧
  (∀ h, (t.hartAt h).g = (s.hartAt h).g) ∧ (m.pubc = false → t.harts = s.harts) ∧
  (m.ok = false → t.mem = s.mem ∧ t.xlog = s.xlog) ∧
  (m.ok = true → ∃ v : State, v.dev = s.dev ∧
    (∀ i b, bytes[i]? = some b → ¬ (m.backing.1 = 1 ∧ s.linkDown (m.backing.2 + m.off + i) = true) →
      memRead v.mem (physKey m.backing.1 (m.backing.2 + m.off) + i) = b) ∧
    (s.xlog.en = false → ∀ x, (∀ i, i < bytes.length → x = physKey m.backing.1 (m.backing.2 + m.off) + i →
      m.backing.1 = 1 ∧ s.linkDown (m.backing.2 + m.off + i) = true) → memRead v.mem x = memRead s.mem x) ∧
    let e := v.handle m.index
    t.mem = if m.pubc = true ∧ e.hvalid = true ∧ e.gen = m.gen ∧ e.phase = m.phase then memWrite v.mem at_ (memRead v.mem at_ ^^^ 1)
      else v.mem)

/-- A BAR2 write lands at its address after its log entry, a read answers the bytes that stand there, an AtomicOp the
old value with the new one written, and anything outside completes with Unsupported Request and no effect. The failure
report can be read in the safe reporting state only, dfail first (the rest is free, log 48), in its two places: behind
a capability header with DVSEC ID 0x0A1E (whose other fields log 49 presumes), and as it stands. The status bits
written with 1 clear. A poisoned or timed-out host access is a machine check that stops the hart, unless it waits at a
barrier, where it has none outstanding (log 18, DEDUCED). A message's first flit is absorbed in its port's digest and
captures the handle's backing, current or shadow, and phase, or counts the message as stale; its end is absorbed and
counted, and the data of one not stale land in the captured backing, but for bytes behind a link that is down (R375),
the phase flipping when asked unless the handle went stale or its phase has changed since. A port that the device does
not have is ignored. Training a link clears the port and counts its lanes; a link goes down; an expander's link goes
down. xlog is enabled with head and drop at 0; htlk locks; a handle's generation and validity are set. Model's
readings (log 41, DEDUCED): Unsupported Request for an AtomicOp of another size or misaligned; a link that goes down
keeps llanes; a message is its first flit and its end, two events or one, and its port takes no other message between
them. (R1, R205, R322, R362, R372, R373, R374, R375, R377, R378, R380, R384) -/
def Obligations.HostEvents : Prop :=
  ∀ s : State, let a := s.arg
    let inBar (n : Nat) : Prop := a.addr + n ≤ hbmBytes
    (inBar a.bytes.length → ∃ t, exec .hostBar2Write s = .next t ∧ memReadN t.mem a.addr a.bytes.length = a.bytes ∧ t.harts = s.harts) ∧
    (¬ inBar a.bytes.length → exec .hostBar2Write s = .next { s with reply := none }) ∧
    (a.flag2 = false → a.flag = false → exec .hostBar2Read s = .next { s with
      reply := if a.addr + a.n ≤ hbmBytes then some (memReadN s.mem a.addr a.n) else none }) ∧
    (a.flag2 = false → a.flag = true → ∃ bs, exec .hostBar2Read s = .next { s with reply := some bs } ∧ bs.length = a.n ∧
      (a.addr = 0 → a.n = 8 → bytesNat bs % 16 = s.status.bstate.toNat ∧ nbit (bytesNat bs) 4 = s.power.full ∧
        nbits (bytesNat bs) 8 8 = s.power.vcode % 256 ∧ nbit (bytesNat bs) 20 = s.status.clamp ∧ nbit (bytesNat bs) 24 = s.status.ttrip) ∧
      (a.addr = 0x30 → a.n = 4 → bytesNat bs = s.status.dfail.toNat)) ∧
    (a.flag2 = true → (s.status.bstate ≠ 15 → exec .hostBar2Read s = .next { s with reply := none }) ∧
      (s.status.bstate = 15 → a.index ≠ 0 → ∃ bs, exec .hostBar2Read s = .next { s with reply := some bs } ∧
        bs.length = min a.n (256 - a.addr) ∧ (a.addr = 0 → a.n = 4 → bytesNat bs = s.status.dfail.toNat)) ∧
      (s.status.bstate = 15 → a.index = 0 → ∃ bs, exec .hostBar2Read s = .next { s with reply := some bs } ∧
        bs.length = min a.n (268 - a.addr) ∧ (a.addr = 8 → a.n = 2 → bytesNat bs = 0x0A1E) ∧
        (a.addr = 12 → a.n = 4 → bytesNat bs = s.status.dfail.toNat))) ∧
    (let ok : Prop := (a.n = 4 ∨ a.n = 8) ∧ a.index ≤ 2 ∧ a.addr % a.n = 0 ∧ inBar a.n
     let old := bytesNat (memReadN s.mem a.addr a.n)
     let m := 2 ^ (8 * a.n)
     let new := if a.index = 0 then (old + a.w0.toNat) % m else if a.index = 1 then a.w0.toNat % m
       else if old = a.w1.toNat % m then a.w0.toNat % m else old
     (ok → ∃ t, exec .hostAtomicop s = .next t ∧ t.reply = some (natBytes a.n old) ∧ bytesNat (memReadN t.mem a.addr a.n) = new ∧
       (s.xlog.en = false → ∀ x, ¬ (a.addr ≤ x ∧ x < a.addr + a.n) → memRead t.mem x = memRead s.mem x) ∧ t.harts = s.harts) ∧
     (¬ ok → exec .hostAtomicop s = .next { s with reply := none })) ∧
    (∃ t, exec .statusRw1cWrite s = .next t ∧ t.status.hzlim = s.status.hzlim &&& ~~~(a.w0.extractLsb' 22 2) ∧
      t.status.ttrip = (s.status.ttrip && !a.w0.getLsbD 24) ∧ t.status.bstate = s.status.bstate ∧ t.power = s.power) ∧
    (let x := s.hartAt a.hart
     (x.run.active = true → x.atBarrier = false → ∃ t, exec .hostCompletionTimeout s = .next t ∧ (t.hartAt a.hart).run = .stopped ∧
       (t.hartAt a.hart).stores = [] ∧ (x.hasLate = false → (t.hartAt a.hart).g = x.g) ∧
       (t.hartAt a.hart).tr = { x.tr with ppend := false }) ∧
     (x.run.active = false ∨ x.atBarrier = true → exec .hostCompletionTimeout s = .next s)) ∧
    (∃ t, exec .cxlLinkDown s = .next t ∧ t.mem = s.mem ∧
      ∀ p, p < 4 → nbit t.dev.links.toNat p = (nbit s.dev.links.toNat p && decide (p ≠ a.index % 4))) ∧
    (let idx := handleIndex a.addr
     let y := s.portAt a.unit
     let e := s.handle idx
     let live (n : Nat) : Bool := e.hvalid && decide (e.gen = handleGen a.addr) && decide (n = 0 ∨ a.n + n ≤ e.size)
     let msg (n : Nat) : SkeinMsg := { index := idx, gen := handleGen a.addr, backing := if a.flag then e.shadow else e.current,
                                       phase := e.phase, off := a.n, len := n, pubc := a.flag2, ok := live n }
     let flit (n : Nat) : State := s.setPort a.unit { y with
       pdig := crcBytes y.pdig (a.extra.take 32), pstale := if live n then y.pstale else y.pstale + 1, msg := some (msg n) }
     (128 ≤ a.unit → exec .skeinMessage s = .next s ∧ exec .skeinLinkTrain s = .next s ∧ exec .skeinLinkDown s = .next s) ∧
     (a.unit < 128 → a.index = 0 → y.msg = none → ∃ t, exec .skeinMessage s = .next t ∧
       Claims.MessageEnds (flit a.bytes.length) t a.unit (msg a.bytes.length) a.bytes (a.extra.drop 32)) ∧
     (a.unit < 128 → a.index = 1 → y.msg = none → exec .skeinMessage s = .next (flit a.pa)) ∧
     (∀ m, a.unit < 128 → a.index = 2 → y.msg = some m → a.bytes.length = m.len → ∃ t, exec .skeinMessage s = .next t ∧
       Claims.MessageEnds s t a.unit m a.bytes a.extra) ∧
     ((a.index < 2 ∧ y.msg ≠ none) ∨ (a.index = 2 ∧ y.msg = none) ∨ 2 < a.index → exec .skeinMessage s = .next s)) ∧
    (a.unit < 128 → ∃ t, exec .skeinLinkTrain s = .next t ∧
      t.portAt a.unit = { pdig := 0, pmsg := 0, lup := true, llanes := BitVec.ofNat 2 (min 2 a.n), pstale := 0, msg := none }) ∧
    (a.unit < 128 → ∃ t, exec .skeinLinkDown s = .next t ∧ t.portAt a.unit = { s.portAt a.unit with lup := false, msg := none }) ∧
    (let w := a.w0
     let x := s.xlog
     (a.index = 0 → x.en = false → w.extractLsb' 0 12 = 0 → w.extractLsb' 52 12 = 0 →
       exec .xlogControlWrite s = .next { s with xlog := { x with base := w } }) ∧
     (a.index ≠ 0 → x.en = false → w.extractLsb' 5 3 = 0 → w.extractLsb' 9 55 = 0 →
       (w.getLsbD 8 = false → exec .xlogControlWrite s = .next { s with xlog := { x with size := w.extractLsb' 0 5 } }) ∧
       (w.getLsbD 8 = true → 16 ≤ (w.extractLsb' 0 5).toNat → exec .xlogControlWrite s = .next { s with
         xlog := { x with size := w.extractLsb' 0 5, en := true, head := 0, drop := 0, shown := 0, shownAt := s.tick } })) ∧
     (x.en = true → a.index = 0 → exec .xlogControlWrite s = .next s)) ∧
    exec .htlkWrite s = .next { s with dev := { s.dev with htlk := true } } ∧
    (let k := a.index
     let e := s.handle k
     ∃ t, exec .handleGenerationAdvance s = .next t ∧
       t.handle k = { e with gen := (e.gen + a.n) % 65536, hvalid := a.flag } ∧ t.harts = s.harts)

/-- For a cluster the device has (any other window ignores its write): a register write sets exactly its register,
htbase not once locked, and its word's bit 0 locks it; the partition is written unless it would change the groups of a
core in use; weights exempt the running copies from missed promises; the skew is written; a strip stop is asked of the
hart dbslot names. Trace control is written only with the trace stopped and legal bits, and enabling it starts head,
drops and counters at zero with the header cleared. A shootdown takes its range as it starts, and when it completes no
cached translation of the range stays no store of the cluster is queued and no write its engine has issued has still
to perform. acdata reads the accumulator acsel names, once its row has no command, and acsel moves on. The runtime's
programming of the expanders' decoders populates class 1, and its registration of a namespace gives the number its
latency and rate. A read of a window gives back what is RW, sdgo 1 until the shootdown completes, and zero for what is
not listed. Model's readings (DEDUCED): acsel wraps after row 63 (log 41); htbase, hostlim and trace words with
nonzero reserved bits are refused whole (logs 39 and 41); a change of the weights clears the promises already due (log
25); the shootdown's range is captured at its start, and the decoders are programmed by one write (log 41); a
namespace's registration (log 34). (R72, R73, R209, R247, R275, R342, R352, R375, R376, R379, R380, R384) -/
def Obligations.ManagementEvents : Prop :=
  ∀ s : State, let a := s.arg
    let c := s.clusterAt a.unit
    let w := a.w0
    let only (i : Instr) (d : Cluster) : Prop := exec i s = .next (s.setCluster a.unit d)
    let windows : List Instr := [.lanepartWrite, .vshareWrite, .vskewWrite, .traceControlWrite, .shootdownStart, .acdataRead]
    (128 ≤ a.unit → (a.flag = false → ∀ i ∈ windows, exec i s = .next s) ∧
      (a.reg ∉ [.xltail, .htbase, .hostlim, .cxlBytes, .nvme] → exec .registerWrite s = .next s)) ∧
    (a.unit < 128 →
    (a.reg = .sdasn → only .registerWrite { c with sdasn := w.extractLsb' 0 16 }) ∧
    (a.reg = .sdva → only .registerWrite { c with sdva := BitVec.ofNat 64 (w.toNat / 65536 % 2 ^ 39 * 65536) }) ∧
    (a.reg = .sdlen → only .registerWrite { c with sdlen := w.extractLsb' 0 48 }) ∧
    (a.reg = .dbslot → only .registerWrite { c with dbslot := w.extractLsb' 0 3 }) ∧
    (a.reg = .dbstrip → only .registerWrite { c with dbstrip := w }) ∧
    (a.reg = .dbarm → only .registerWrite { c with dbarm := w.getLsbD 0 }) ∧
    (a.reg = .acsel → only .registerWrite { c with acsel := w.extractLsb' 0 17 })) ∧
    (a.reg = .xltail → exec .registerWrite s = .next { s with xlog := { s.xlog with tail := w } }) ∧
    (a.reg = .htbase → exec .registerWrite s = .next
      (if s.dev.htlk = false ∧ w.extractLsb' 1 15 = 0 ∧ w.extractLsb' 52 12 = 0 then
        { s with dev := { s.dev with htbase := BitVec.ofNat 64 (w.toNat / 65536 * 65536), htlk := w.getLsbD 0 } } else s)) ∧
    (a.reg = .hostlim → exec .registerWrite s = .next
      (if w.extractLsb' 0 12 = 0 then { s with dev := { s.dev with hostlim := w } } else s)) ∧
    (a.reg = .cxlBytes → exec .registerWrite s = .next { s with dev := { s.dev with cxlBytes := min w.toNat (2 ^ 42) } }) ∧
    (a.reg = .nvme → ∃ t data, exec .registerWrite s = .next t ∧ t.harts = s.harts ∧ t.mem = s.mem ∧
      t.spaces = tset s.spaces (a.index % 4096) { latency := a.n, rate := w.toNat, data := data }) ∧
    (a.flag = true → ∀ cl off, cl < 128 → off < 65536 → off % 8 = 0 → off ≠ 0x408 → a.addr = 0x7F0000000000 + 65536 * cl + off →
      let x := s.clusterAt cl
      let regs : List (Nat × Nat) := [(0x000, x.own.toNat + 65536 * x.asg.toNat), (0x008, x.vshare.toNat), (0x010, x.vskew.toNat),
        (0x100, x.trace.w0.toNat), (0x108, x.trace.w1.toNat), (0x200, x.sdasn.toNat), (0x208, x.sdva.toNat), (0x210, x.sdlen.toNat),
        (0x218, if x.sdq = [] then 0 else 1), (0x300, x.dbslot.toNat), (0x308, x.dbstrip.toNat),
        (0x310, if x.dbarm then 1 else 0), (0x400, x.acsel.toNat)]
      exec .acdataRead s = .next { s with reply := some (natBytes 8 (match regs.find? fun r => r.1 = off with
        | some r => r.2
        | none => 0)) }) ∧
    (a.unit < 128 → let d := { c with own := w.extractLsb' 0 16, asg := w.extractLsb' 16 8 }
     ((∀ k, k < 4 → c.groups k ≠ d.groups k → s.coreTaken (4 * a.unit + k) none = false) → only .lanepartWrite d) ∧
     (∀ k, k < 4 → c.groups k ≠ d.groups k → s.coreTaken (4 * a.unit + k) none = true → exec .lanepartWrite s = .next s)) ∧
    (a.unit < 128 → ∃ t, exec .vshareWrite s = .next t ∧ (t.clusterAt a.unit).vshare = w.extractLsb' 0 16 ∧ t.mem = s.mem ∧
      ∀ h n, h / 8 = a.unit → (t.slotAt h n).status = (s.slotAt h n).status ∧ (t.slotAt h n).cmd = (s.slotAt h n).cmd ∧
        ((s.slotAt h n).running = true → (t.slotAt h n).exempt = true) ∧ (t.hartAt h).dues = []) ∧
    (a.unit < 128 → only .vskewWrite { c with vskew := w.extractLsb' 0 4 }) ∧
    (let h := 8 * a.unit + c.dbslot.toNat
     let x := s.hartAt h
     (x.run.active = true → exec .dbstopWrite s = .next (s.setHart h { x with pending := { x.pending with debug := true } })) ∧
     (x.run.active = false → exec .dbstopWrite s = .next s)) ∧
    (a.unit < 128 → let stopped : Prop := c.trace.w1.extractLsb' 8 5 = 0
     (¬ stopped → exec .traceControlWrite s = .next s) ∧
     (stopped → a.index = 0 → (w.extractLsb' 0 12 = 0 ∧ w.extractLsb' 52 12 = 0 →
         only .traceControlWrite { c with trace := { c.trace with w0 := w } }) ∧
       (w.extractLsb' 0 12 ≠ 0 ∨ w.extractLsb' 52 12 ≠ 0 → exec .traceControlWrite s = .next s)) ∧
     (stopped → a.index ≠ 0 → w.extractLsb' 5 3 = 0 → w.extractLsb' 13 3 = 0 → w.extractLsb' 22 2 = 0 → w.extractLsb' 25 39 = 0 →
       w.extractLsb' 8 5 ≠ 0 → 8 ≤ (w.extractLsb' 0 5).toNat → (w.extractLsb' 0 5).toNat ≤ 24 →
       10 ≤ (w.extractLsb' 16 6).toNat → (w.extractLsb' 16 6).toNat ≤ 40 →
       ∃ t, exec .traceControlWrite s = .next t ∧ (t.clusterAt a.unit).trace.w1 = w ∧ (t.clusterAt a.unit).trace.head = 0 ∧
         (t.clusterAt a.unit).trace.drop = 0 ∧ (t.clusterAt a.unit).counters = Cluster.init.counters ∧
         (∀ x, c.trace.base ≤ x → x < c.trace.base + 4096 → memRead t.mem x = 0) ∧
         ∀ x, (x < c.trace.base ∨ c.trace.base + 4096 ≤ x) → memRead t.mem x = memRead s.mem x)) ∧
    (a.unit < 128 →
      only .shootdownStart { c with sdq := c.sdq ++ [{ asn := c.sdasn.toNat, va := c.sdva.toNat, pages := c.sdlen.toNat }] }) ∧
    (∀ d q, c.sdq = d :: q → ∃ t, exec .shootdownComplete s = .next t ∧ (t.clusterAt a.unit).sdq = q ∧
      (∀ h, h / 8 = a.unit → (t.hartAt h).stores = [] ∧ (∀ n c, (t.slotAt h n).cmd = some c → c.pend = []) ∧
        ((s.hartAt h).hasLate = false → (t.hartAt h).g = (s.hartAt h).g)) ∧
      (∀ e ∈ t.tlb, e ∈ s.tlb ∧ ¬ (e.cluster = a.unit ∧ e.asn = d.asn ∧ (d.pages = 0 ∨
        (e.block = false ∧ d.va / 65536 ≤ e.vpage ∧ e.vpage < d.va / 65536 + d.pages)))) ∧
      (∀ e ∈ s.tlb, e.cluster ≠ a.unit ∨ e.asn ≠ d.asn → e ∈ t.tlb)) ∧
    (c.sdq = [] → exec .shootdownComplete s = .next s) ∧
    (a.unit < 128 → a.flag = false → let r := c.rows[(c.acsel.extractLsb' 0 2).toNat]
     let row := tget [] r.acc (c.acsel.extractLsb' 2 6).toNat
     let n := (c.acsel.extractLsb' 8 9).toNat
     (r.cmds ≠ [] → exec .acdataRead s = .next s) ∧
     (r.cmds = [] → ∃ t d, exec .acdataRead s = .next t ∧ d = t.clusterAt a.unit ∧
       d.acdata = BitVec.ofNat 32 (row.getD n 0) ∧ d.acsel.extractLsb' 0 2 = c.acsel.extractLsb' 0 2 ∧
       (n < 511 → d.acsel = c.acsel + 256) ∧
       (n = 511 → (d.acsel.extractLsb' 8 9).toNat = 0 ∧ d.acsel.extractLsb' 2 6 = c.acsel.extractLsb' 2 6 + 1)))

/-! ## The machine as a whole -/

/-- In every state whose memory lists rising addresses and no byte that an unlisted address reads as anyway, a step of
any instruction or event that gives a next state leaves memory in that form, so that equal memories are equal data.
(R4, R192, R348) -/
def Obligations.MemoryFormKept : Prop :=
  ∀ s t : State, s.memOk → step s = .next t → t.memOk

/-- At reset bstate is 0, no cluster has passed, the sequencer stands at the safe point with code 12, every cluster's
partition is 0x00FFFA50 and its weights 0x4444, no task is live, no hart issues, and a hart slot's dirty register is
0x3. Memory is in its canonical form with nothing listed. Every other register of a hart slot is 0, which is the
model's choice where the spec gives no value (logs 9 and 10), as is a byte nothing has written (log 3). (R17, R72,
R73, R328, R330, R365, R369, R373) -/
def Obligations.ResetState : Prop :=
  let s := State.reset
  s.memOk ∧ s.mem = [] ∧ s.status.bstate = 0 ∧ s.status.dclus = 0 ∧ s.status.dfail = 0 ∧ s.power.full = false ∧ s.power.vcode = 12 ∧
  s.power.move = .still ∧ s.tasks = [] ∧
  (∀ c, (s.clusterAt c).own = 0xFA50 ∧ (s.clusterAt c).asg = 0xFF ∧ (s.clusterAt c).vshare = 0x4444 ∧ (s.clusterAt c).vskew = 0) ∧
  (∀ h, (s.hartAt h).run.active = false ∧ (s.hartAt h).dirty.word = 3 ∧ (s.hartAt h).tr = TrapRegs.init ∧
    ∀ r : Fin 32, (s.hartAt h).g[r] = 0) ∧
  ∀ a, memRead s.mem a = 0
end

