-- ==== Sys2Proof/Laws/Table.lean ====
section
/-!
SUPPORT. Read after write on sparse tables.
-/
namespace Sys2Proof.Machine

variable {α : Type}

@[simp] theorem tget_nil (d : α) (i : Nat) : tget d [] i = d := rfl

@[simp] theorem tget_tset_self (d : α) (t : Table α) (i : Nat) (v : α) : tget d (tset t i v) i = v := by
  induction t with
  | nil => simp [tset, tget]
  | cons p t ih =>
    obtain ⟨k, w⟩ := p
    unfold tset
    split
    · simp [tget]
    · split
      · simp [tget]
      · simp [tget, *]

theorem tget_tset_ne (d : α) (t : Table α) {i j : Nat} (v : α) (h : j ≠ i) : tget d (tset t i v) j = tget d t j := by
  induction t with
  | nil => simp [tset, tget, h.symm]
  | cons p t ih =>
    obtain ⟨k, w⟩ := p
    unfold tset
    split
    · simp [tget, h.symm]
    · split
      · rename_i hk
        subst hk
        simp [tget, h.symm]
      · simp [tget, ih]

theorem tget_tset (d : α) (t : Table α) (i j : Nat) (v : α) :
    tget d (tset t i v) j = if j = i then v else tget d t j := by
  split
  · simp_all
  · exact tget_tset_ne d t v ‹_›

theorem terase_eq_filter (t : Table α) (i : Nat) : terase t i = t.filter fun p => p.1 ≠ i := by
  induction t with
  | nil => rfl
  | cons p t ih =>
    obtain ⟨k, w⟩ := p
    by_cases h : k = i <;> simp [terase, h, ih]

/-- Reading a table some of whose entries have been dropped. -/
theorem tget_filter (d : α) (t : Table α) (q : Nat → Bool) (i : Nat) :
    tget d (t.filter fun p => q p.1) i = if q i then tget d t i else d := by
  induction t with
  | nil => simp
  | cons p t ih =>
    obtain ⟨k, w⟩ := p
    by_cases hk : k = i
    · subst hk
      by_cases hq : q k = true
      · simp [tget, hq]
      · have hq' : q k = false := by simpa using hq
        rw [hq'] at ih
        simpa [List.filter, hq', tget] using ih
    · by_cases hq : q k = true
      · simp [List.filter, hq, tget, hk, ih]
      · have hq' : q k = false := by simpa using hq
        simp [List.filter, hq', tget, hk, ih]

@[simp] theorem tget_terase_self (d : α) (t : Table α) (i : Nat) : tget d (terase t i) i = d := by
  have h := tget_filter d t (fun k => decide (k ≠ i)) i
  rw [terase_eq_filter]
  simpa using h

theorem tget_terase_ne (d : α) (t : Table α) {i j : Nat} (h : j ≠ i) : tget d (terase t i) j = tget d t j := by
  have h' := tget_filter d t (fun k => decide (k ≠ i)) j
  rw [terase_eq_filter]
  simpa [h] using h'

theorem tset_keys (t : Table α) (i : Nat) (v : α) (p : Nat × α) (h : p ∈ tset t i v) : p = (i, v) ∨ p ∈ t := by
  induction t with
  | nil => simpa [tset] using h
  | cons q t ih =>
    obtain ⟨k, w⟩ := q
    unfold tset at h
    split at h
    · simpa using h
    · split at h
      · simp at h; tauto
      · rcases List.mem_cons.mp h with h | h
        · simp [h]
        · rcases ih h with h | h <;> simp [h]

/-- Keys that rise still rise after an entry is set. -/
theorem tset_sorted (t : Table α) (i : Nat) (v : α) (h : t.Pairwise fun p q => p.1 < q.1) :
    (tset t i v).Pairwise fun p q => p.1 < q.1 := by
  induction t with
  | nil => simp [tset]
  | cons q t ih =>
    obtain ⟨k, w⟩ := q
    obtain ⟨hk, ht⟩ := List.pairwise_cons.mp h
    unfold tset
    split
    · rename_i hlt
      refine List.pairwise_cons.mpr ⟨?_, h⟩
      intro p hp
      rcases List.mem_cons.mp hp with rfl | hp
      · exact hlt
      · exact Nat.lt_trans hlt (hk p hp)
    · split
      · rename_i heq
        exact List.pairwise_cons.mpr ⟨fun p hp => by simpa [heq] using hk p hp, ht⟩
      · refine List.pairwise_cons.mpr ⟨?_, ih ht⟩
        intro p hp
        rcases tset_keys t i v p hp with rfl | hp
        · simp; omega
        · exact hk p hp

theorem terase_sorted (t : Table α) (i : Nat) (h : t.Pairwise fun p q => p.1 < q.1) :
    (terase t i).Pairwise fun p q => p.1 < q.1 := by
  rw [terase_eq_filter]; exact h.filter _

/-! ## Bits of natural numbers -/

theorem nbits_lt (x lo n : Nat) : nbits x lo n < 2 ^ n := Nat.mod_lt _ (by positivity)

@[simp] theorem natBytes_length (n v : Nat) : (natBytes n v).length = n := by
  induction n generalizing v with
  | zero => rfl
  | succ n ih => simp [natBytes, ih]

/-- A number's bytes spell the number back, modulo its length. -/
theorem bytesNat_natBytes (n v : Nat) : bytesNat (natBytes n v) = v % 256 ^ n := by
  induction n generalizing v with
  | zero => simp [natBytes, bytesNat, Nat.mod_one]
  | succ n ih =>
    have e : (256 : Nat) ^ (n + 1) = 256 * 256 ^ n := by ring
    rw [natBytes, bytesNat, ih, BitVec.toNat_ofNat, e, Nat.mod_mul]

end Sys2Proof.Machine
end

