-- ==== Sys2Proof/Laws/Memory.lean ====
section
/-!
SUPPORT. Memory as canonical lists: read after write, and that every memory operation keeps the canonical form.
-/
namespace Sys2Proof.Machine

/-! ## Reading -/

@[simp] theorem memRead_nil (a : Nat) : memRead [] a = memUnlisted := rfl

@[simp] theorem memRead_memWrite_self (m : List Host.Cell) (a : Nat) (b : Byte) : memRead (memWrite m a b) a = b := by
  unfold memWrite memRead
  split
  · simp [*]
  · simp

theorem memRead_memWrite_ne (m : List Host.Cell) {a x : Nat} (b : Byte) (h : x ≠ a) :
    memRead (memWrite m a b) x = memRead m x := by
  unfold memWrite memRead
  split
  · exact tget_terase_ne _ _ h
  · exact tget_tset_ne _ _ _ h

theorem memRead_memWrite (m : List Host.Cell) (a x : Nat) (b : Byte) :
    memRead (memWrite m a b) x = if x = a then b else memRead m x := by
  split
  · simp_all
  · exact memRead_memWrite_ne m b ‹_›

theorem memRead_memWriteN (m : List Host.Cell) (a x : Nat) (bs : List Byte) :
    memRead (memWriteN m a bs) x = if a ≤ x ∧ x < a + bs.length then bs.getD (x - a) 0 else memRead m x := by
  induction bs generalizing m a with
  | nil => simp [memWriteN]
  | cons b bs ih =>
    rw [memWriteN, ih, memRead_memWrite]
    by_cases h : x = a
    · subst h; simp
    · by_cases h1 : a + 1 ≤ x ∧ x < a + 1 + bs.length
      · have h2 : a ≤ x ∧ x < a + (b :: bs).length := by simp; omega
        have h3 : x - a = (x - (a + 1)) + 1 := by omega
        rw [if_pos h1, if_pos h2, h3]
        simp
      · have h2 : ¬ (a ≤ x ∧ x < a + (b :: bs).length) := by simp; omega
        rw [if_neg h1, if_neg h2, if_neg h]

theorem memRead_memWriteN_out (m : List Host.Cell) (a x : Nat) (bs : List Byte) (h : x < a ∨ a + bs.length ≤ x) :
    memRead (memWriteN m a bs) x = memRead m x := by
  rw [memRead_memWriteN, if_neg]; omega

/-- A store under a mask changes no byte outside its own. -/
theorem memRead_memWriteMasked_out (m : List Host.Cell) (a x : Nat) (bs ks : List Byte)
    (h : x < a ∨ a + bs.length ≤ x) : memRead (memWriteMasked m a bs ks) x = memRead m x := by
  induction bs generalizing m a ks with
  | nil => cases ks <;> rfl
  | cons b bs ih =>
    have hx : x ≠ a := by simp at h; omega
    have ho : x < a + 1 ∨ a + 1 + bs.length ≤ x := by simp at h; omega
    cases ks with
    | nil => rw [memWriteMasked, ih _ _ _ ho, memRead_memWrite_ne _ _ hx]
    | cons k ks => rw [memWriteMasked, ih _ _ _ ho, memRead_memWrite_ne _ _ hx]

/-- With an empty mask every bit is written. -/
theorem memWriteMasked_nil (m : List Host.Cell) (a : Nat) (bs : List Byte) :
    memWriteMasked m a bs [] = memWriteN m a bs := by
  induction bs generalizing m a with
  | nil => rfl
  | cons b bs ih => rw [memWriteMasked, memWriteN, ih]

theorem memRead_memClear (m : List Host.Cell) (a n x : Nat) :
    memRead (memClear m a n) x = if x < a ∨ a + n ≤ x then memRead m x else memUnlisted := by
  have h := tget_filter memUnlisted m (fun k => decide (k < a ∨ a + n ≤ k)) x
  simpa [memRead, memClear] using h

@[simp] theorem memReadN_length (m : List Host.Cell) (a n : Nat) : (memReadN m a n).length = n := by
  induction n generalizing a with
  | zero => rfl
  | succ n ih => simp [memReadN, ih]

theorem memReadN_getD (m : List Host.Cell) (a n i : Nat) (h : i < n) : (memReadN m a n).getD i 0 = memRead m (a + i) := by
  induction n generalizing a i with
  | zero => omega
  | succ n ih =>
    cases i with
    | zero => simp [memReadN]
    | succ i =>
      have := ih (a + 1) i (by omega)
      simpa [memReadN, Nat.add_assoc, Nat.add_comm 1 i] using this

/-- Memories that agree on a range read the same bytes from it. -/
theorem memReadN_congr (m m' : List Host.Cell) (a n : Nat) (h : ∀ x, a ≤ x → x < a + n → memRead m x = memRead m' x) :
    memReadN m a n = memReadN m' a n := by
  induction n generalizing a with
  | zero => rfl
  | succ n ih =>
    rw [memReadN, memReadN, h a (by omega) (by omega), ih (a + 1) fun x h1 h2 => h x (by omega) (by omega)]

/-- Bytes written read back. -/
theorem memReadN_memWriteN (m : List Host.Cell) (a : Nat) (bs : List Byte) :
    memReadN (memWriteN m a bs) a bs.length = bs := by
  apply List.ext_getElem (by simp)
  intro i h1 h2
  have hi : i < bs.length := by simpa using h2
  have := memReadN_getD (memWriteN m a bs) a bs.length i hi
  rw [memRead_memWriteN, if_pos (by omega)] at this
  simpa [List.getD_eq_getElem?_getD, hi] using this

/-! ## The canonical form -/

theorem memWf_iff (m : List Host.Cell) :
    memWf m = true ↔ (m.Pairwise fun p q => p.1 < q.1) ∧ ∀ c ∈ m, c.2 ≠ memUnlisted := by
  induction m with
  | nil => simp [memWf]
  | cons c m ih =>
    cases m with
    | nil => simp [memWf]
    | cons d m =>
      simp only [memWf, Bool.and_eq_true, decide_eq_true_eq, ih]
      constructor
      · rintro ⟨⟨h1, h2⟩, h3, h4⟩
        refine ⟨List.pairwise_cons.mpr ⟨?_, h3⟩, ?_⟩
        · intro p hp
          rcases List.mem_cons.mp hp with rfl | hp
          · exact h1
          · exact Nat.lt_trans h1 ((List.pairwise_cons.mp h3).1 p hp)
        · intro p hp
          rcases List.mem_cons.mp hp with rfl | hp
          · exact h2
          · exact h4 p hp
      · rintro ⟨h1, h2⟩
        obtain ⟨h3, h4⟩ := List.pairwise_cons.mp h1
        exact ⟨⟨h3 d (by simp), h2 c (by simp)⟩, h4, fun p hp => h2 p (List.mem_cons_of_mem _ hp)⟩

@[simp] theorem memWf_nil : memWf [] = true := rfl

@[simp] theorem memWf_memWrite (m : List Host.Cell) (a : Nat) (b : Byte) (h : memWf m = true) :
    memWf (memWrite m a b) = true := by
  obtain ⟨h1, h2⟩ := (memWf_iff m).mp h
  unfold memWrite
  split
  · refine (memWf_iff _).mpr ⟨terase_sorted m a h1, ?_⟩
    intro c hc
    rw [terase_eq_filter] at hc
    exact h2 c (List.mem_filter.mp hc).1
  · rename_i hb
    refine (memWf_iff _).mpr ⟨tset_sorted m a b h1, ?_⟩
    intro c hc
    rcases tset_keys m a b c hc with rfl | hc
    · exact hb
    · exact h2 c hc

@[simp] theorem memWf_memWriteN (m : List Host.Cell) (a : Nat) (bs : List Byte) (h : memWf m = true) :
    memWf (memWriteN m a bs) = true := by
  induction bs generalizing m a with
  | nil => exact h
  | cons b bs ih => exact ih _ _ (memWf_memWrite m a b h)

@[simp] theorem memWf_memWriteMasked (m : List Host.Cell) (a : Nat) (bs ks : List Byte) (h : memWf m = true) :
    memWf (memWriteMasked m a bs ks) = true := by
  induction bs generalizing m a ks with
  | nil => cases ks <;> exact h
  | cons b bs ih => cases ks <;> exact ih _ _ _ (memWf_memWrite m a _ h)

@[simp] theorem memWf_memClear (m : List Host.Cell) (a n : Nat) (h : memWf m = true) : memWf (memClear m a n) = true := by
  obtain ⟨h1, h2⟩ := (memWf_iff m).mp h
  exact (memWf_iff _).mpr ⟨h1.filter _, fun c hc => h2 c (List.mem_filter.mp hc).1⟩

end Sys2Proof.Machine
end

