-- ==== Sys2Proof/Laws/State.lean ====
section
/-!
SUPPORT. What each update of the state leaves alone, field by field, and what it writes.
-/
namespace Sys2Proof.Machine

variable (s : State)

/-! ## setHart -/

@[simp] theorem State.setHart_tick (h : Nat) (x : Hart) : (s.setHart h x).tick = s.tick := rfl
@[simp] theorem State.setHart_cycle (h : Nat) (x : Hart) : (s.setHart h x).cycle = s.cycle := rfl
@[simp] theorem State.setHart_half (h : Nat) (x : Hart) : (s.setHart h x).half = s.half := rfl
@[simp] theorem State.setHart_replay (h : Nat) (x : Hart) : (s.setHart h x).replay = s.replay := rfl
@[simp] theorem State.setHart_held (h : Nat) (x : Hart) : (s.setHart h x).held = s.held := rfl
@[simp] theorem State.setHart_late (h : Nat) (x : Hart) : (s.setHart h x).late = s.late := rfl
@[simp] theorem State.setHart_mem (h : Nat) (x : Hart) : (s.setHart h x).mem = s.mem := rfl
@[simp] theorem State.setHart_cores (h : Nat) (x : Hart) : (s.setHart h x).cores = s.cores := rfl
@[simp] theorem State.setHart_clusters (h : Nat) (x : Hart) : (s.setHart h x).clusters = s.clusters := rfl
@[simp] theorem State.setHart_dies (h : Nat) (x : Hart) : (s.setHart h x).dies = s.dies := rfl
@[simp] theorem State.setHart_ports (h : Nat) (x : Hart) : (s.setHart h x).ports = s.ports := rfl
@[simp] theorem State.setHart_tasks (h : Nat) (x : Hart) : (s.setHart h x).tasks = s.tasks := rfl
@[simp] theorem State.setHart_codes (h : Nat) (x : Hart) : (s.setHart h x).codes = s.codes := rfl
@[simp] theorem State.setHart_codeMap (h : Nat) (x : Hart) : (s.setHart h x).codeMap = s.codeMap := rfl
@[simp] theorem State.setHart_tlb (h : Nat) (x : Hart) : (s.setHart h x).tlb = s.tlb := rfl
@[simp] theorem State.setHart_status (h : Nat) (x : Hart) : (s.setHart h x).status = s.status := rfl
@[simp] theorem State.setHart_power (h : Nat) (x : Hart) : (s.setHart h x).power = s.power := rfl
@[simp] theorem State.setHart_xlog (h : Nat) (x : Hart) : (s.setHart h x).xlog = s.xlog := rfl
@[simp] theorem State.setHart_dev (h : Nat) (x : Hart) : (s.setHart h x).dev = s.dev := rfl
@[simp] theorem State.setHart_spaces (h : Nat) (x : Hart) : (s.setHart h x).spaces = s.spaces := rfl
@[simp] theorem State.setHart_mailbox (h : Nat) (x : Hart) : (s.setHart h x).mailbox = s.mailbox := rfl
@[simp] theorem State.setHart_records (h : Nat) (x : Hart) : (s.setHart h x).records = s.records := rfl
@[simp] theorem State.setHart_stamp (h : Nat) (x : Hart) : (s.setHart h x).stamp = s.stamp := rfl
@[simp] theorem State.setHart_turn (h : Nat) (x : Hart) : (s.setHart h x).turn = s.turn := rfl
@[simp] theorem State.setHart_inputs (h : Nat) (x : Hart) : (s.setHart h x).inputs = s.inputs := rfl
@[simp] theorem State.setHart_arg (h : Nat) (x : Hart) : (s.setHart h x).arg = s.arg := rfl
@[simp] theorem State.setHart_fresh (h : Nat) (x : Hart) : (s.setHart h x).fresh = s.fresh := rfl
@[simp] theorem State.setHart_reply (h : Nat) (x : Hart) : (s.setHart h x).reply = s.reply := rfl

/-! ## setCur -/

@[simp] theorem State.setCur_tick (x : Hart) : (s.setCur x).tick = s.tick := rfl
@[simp] theorem State.setCur_cycle (x : Hart) : (s.setCur x).cycle = s.cycle := rfl
@[simp] theorem State.setCur_half (x : Hart) : (s.setCur x).half = s.half := rfl
@[simp] theorem State.setCur_replay (x : Hart) : (s.setCur x).replay = s.replay := rfl
@[simp] theorem State.setCur_held (x : Hart) : (s.setCur x).held = s.held := rfl
@[simp] theorem State.setCur_late (x : Hart) : (s.setCur x).late = s.late := rfl
@[simp] theorem State.setCur_mem (x : Hart) : (s.setCur x).mem = s.mem := rfl
@[simp] theorem State.setCur_cores (x : Hart) : (s.setCur x).cores = s.cores := rfl
@[simp] theorem State.setCur_clusters (x : Hart) : (s.setCur x).clusters = s.clusters := rfl
@[simp] theorem State.setCur_dies (x : Hart) : (s.setCur x).dies = s.dies := rfl
@[simp] theorem State.setCur_ports (x : Hart) : (s.setCur x).ports = s.ports := rfl
@[simp] theorem State.setCur_tasks (x : Hart) : (s.setCur x).tasks = s.tasks := rfl
@[simp] theorem State.setCur_codes (x : Hart) : (s.setCur x).codes = s.codes := rfl
@[simp] theorem State.setCur_codeMap (x : Hart) : (s.setCur x).codeMap = s.codeMap := rfl
@[simp] theorem State.setCur_tlb (x : Hart) : (s.setCur x).tlb = s.tlb := rfl
@[simp] theorem State.setCur_status (x : Hart) : (s.setCur x).status = s.status := rfl
@[simp] theorem State.setCur_power (x : Hart) : (s.setCur x).power = s.power := rfl
@[simp] theorem State.setCur_xlog (x : Hart) : (s.setCur x).xlog = s.xlog := rfl
@[simp] theorem State.setCur_dev (x : Hart) : (s.setCur x).dev = s.dev := rfl
@[simp] theorem State.setCur_spaces (x : Hart) : (s.setCur x).spaces = s.spaces := rfl
@[simp] theorem State.setCur_mailbox (x : Hart) : (s.setCur x).mailbox = s.mailbox := rfl
@[simp] theorem State.setCur_records (x : Hart) : (s.setCur x).records = s.records := rfl
@[simp] theorem State.setCur_stamp (x : Hart) : (s.setCur x).stamp = s.stamp := rfl
@[simp] theorem State.setCur_turn (x : Hart) : (s.setCur x).turn = s.turn := rfl
@[simp] theorem State.setCur_inputs (x : Hart) : (s.setCur x).inputs = s.inputs := rfl
@[simp] theorem State.setCur_arg (x : Hart) : (s.setCur x).arg = s.arg := rfl
@[simp] theorem State.setCur_fresh (x : Hart) : (s.setCur x).fresh = s.fresh := rfl
@[simp] theorem State.setCur_reply (x : Hart) : (s.setCur x).reply = s.reply := rfl

/-! ## setCluster -/

@[simp] theorem State.setCluster_tick (c : Nat) (x : Cluster) : (s.setCluster c x).tick = s.tick := rfl
@[simp] theorem State.setCluster_cycle (c : Nat) (x : Cluster) : (s.setCluster c x).cycle = s.cycle := rfl
@[simp] theorem State.setCluster_half (c : Nat) (x : Cluster) : (s.setCluster c x).half = s.half := rfl
@[simp] theorem State.setCluster_replay (c : Nat) (x : Cluster) : (s.setCluster c x).replay = s.replay := rfl
@[simp] theorem State.setCluster_held (c : Nat) (x : Cluster) : (s.setCluster c x).held = s.held := rfl
@[simp] theorem State.setCluster_late (c : Nat) (x : Cluster) : (s.setCluster c x).late = s.late := rfl
@[simp] theorem State.setCluster_mem (c : Nat) (x : Cluster) : (s.setCluster c x).mem = s.mem := rfl
@[simp] theorem State.setCluster_harts (c : Nat) (x : Cluster) : (s.setCluster c x).harts = s.harts := rfl
@[simp] theorem State.setCluster_cores (c : Nat) (x : Cluster) : (s.setCluster c x).cores = s.cores := rfl
@[simp] theorem State.setCluster_dies (c : Nat) (x : Cluster) : (s.setCluster c x).dies = s.dies := rfl
@[simp] theorem State.setCluster_ports (c : Nat) (x : Cluster) : (s.setCluster c x).ports = s.ports := rfl
@[simp] theorem State.setCluster_tasks (c : Nat) (x : Cluster) : (s.setCluster c x).tasks = s.tasks := rfl
@[simp] theorem State.setCluster_codes (c : Nat) (x : Cluster) : (s.setCluster c x).codes = s.codes := rfl
@[simp] theorem State.setCluster_codeMap (c : Nat) (x : Cluster) : (s.setCluster c x).codeMap = s.codeMap := rfl
@[simp] theorem State.setCluster_tlb (c : Nat) (x : Cluster) : (s.setCluster c x).tlb = s.tlb := rfl
@[simp] theorem State.setCluster_status (c : Nat) (x : Cluster) : (s.setCluster c x).status = s.status := rfl
@[simp] theorem State.setCluster_power (c : Nat) (x : Cluster) : (s.setCluster c x).power = s.power := rfl
@[simp] theorem State.setCluster_xlog (c : Nat) (x : Cluster) : (s.setCluster c x).xlog = s.xlog := rfl
@[simp] theorem State.setCluster_dev (c : Nat) (x : Cluster) : (s.setCluster c x).dev = s.dev := rfl
@[simp] theorem State.setCluster_spaces (c : Nat) (x : Cluster) : (s.setCluster c x).spaces = s.spaces := rfl
@[simp] theorem State.setCluster_mailbox (c : Nat) (x : Cluster) : (s.setCluster c x).mailbox = s.mailbox := rfl
@[simp] theorem State.setCluster_records (c : Nat) (x : Cluster) : (s.setCluster c x).records = s.records := rfl
@[simp] theorem State.setCluster_stamp (c : Nat) (x : Cluster) : (s.setCluster c x).stamp = s.stamp := rfl
@[simp] theorem State.setCluster_turn (c : Nat) (x : Cluster) : (s.setCluster c x).turn = s.turn := rfl
@[simp] theorem State.setCluster_inputs (c : Nat) (x : Cluster) : (s.setCluster c x).inputs = s.inputs := rfl
@[simp] theorem State.setCluster_arg (c : Nat) (x : Cluster) : (s.setCluster c x).arg = s.arg := rfl
@[simp] theorem State.setCluster_fresh (c : Nat) (x : Cluster) : (s.setCluster c x).fresh = s.fresh := rfl
@[simp] theorem State.setCluster_reply (c : Nat) (x : Cluster) : (s.setCluster c x).reply = s.reply := rfl

/-! ## setCore -/

@[simp] theorem State.setCore_tick (k : Nat) (x : Core) : (s.setCore k x).tick = s.tick := rfl
@[simp] theorem State.setCore_cycle (k : Nat) (x : Core) : (s.setCore k x).cycle = s.cycle := rfl
@[simp] theorem State.setCore_half (k : Nat) (x : Core) : (s.setCore k x).half = s.half := rfl
@[simp] theorem State.setCore_replay (k : Nat) (x : Core) : (s.setCore k x).replay = s.replay := rfl
@[simp] theorem State.setCore_held (k : Nat) (x : Core) : (s.setCore k x).held = s.held := rfl
@[simp] theorem State.setCore_late (k : Nat) (x : Core) : (s.setCore k x).late = s.late := rfl
@[simp] theorem State.setCore_mem (k : Nat) (x : Core) : (s.setCore k x).mem = s.mem := rfl
@[simp] theorem State.setCore_harts (k : Nat) (x : Core) : (s.setCore k x).harts = s.harts := rfl
@[simp] theorem State.setCore_clusters (k : Nat) (x : Core) : (s.setCore k x).clusters = s.clusters := rfl
@[simp] theorem State.setCore_dies (k : Nat) (x : Core) : (s.setCore k x).dies = s.dies := rfl
@[simp] theorem State.setCore_ports (k : Nat) (x : Core) : (s.setCore k x).ports = s.ports := rfl
@[simp] theorem State.setCore_tasks (k : Nat) (x : Core) : (s.setCore k x).tasks = s.tasks := rfl
@[simp] theorem State.setCore_codes (k : Nat) (x : Core) : (s.setCore k x).codes = s.codes := rfl
@[simp] theorem State.setCore_codeMap (k : Nat) (x : Core) : (s.setCore k x).codeMap = s.codeMap := rfl
@[simp] theorem State.setCore_tlb (k : Nat) (x : Core) : (s.setCore k x).tlb = s.tlb := rfl
@[simp] theorem State.setCore_status (k : Nat) (x : Core) : (s.setCore k x).status = s.status := rfl
@[simp] theorem State.setCore_power (k : Nat) (x : Core) : (s.setCore k x).power = s.power := rfl
@[simp] theorem State.setCore_xlog (k : Nat) (x : Core) : (s.setCore k x).xlog = s.xlog := rfl
@[simp] theorem State.setCore_dev (k : Nat) (x : Core) : (s.setCore k x).dev = s.dev := rfl
@[simp] theorem State.setCore_spaces (k : Nat) (x : Core) : (s.setCore k x).spaces = s.spaces := rfl
@[simp] theorem State.setCore_mailbox (k : Nat) (x : Core) : (s.setCore k x).mailbox = s.mailbox := rfl
@[simp] theorem State.setCore_records (k : Nat) (x : Core) : (s.setCore k x).records = s.records := rfl
@[simp] theorem State.setCore_stamp (k : Nat) (x : Core) : (s.setCore k x).stamp = s.stamp := rfl
@[simp] theorem State.setCore_turn (k : Nat) (x : Core) : (s.setCore k x).turn = s.turn := rfl
@[simp] theorem State.setCore_inputs (k : Nat) (x : Core) : (s.setCore k x).inputs = s.inputs := rfl
@[simp] theorem State.setCore_arg (k : Nat) (x : Core) : (s.setCore k x).arg = s.arg := rfl
@[simp] theorem State.setCore_fresh (k : Nat) (x : Core) : (s.setCore k x).fresh = s.fresh := rfl
@[simp] theorem State.setCore_reply (k : Nat) (x : Core) : (s.setCore k x).reply = s.reply := rfl

/-! ## setDie -/

@[simp] theorem State.setDie_tick (d : Nat) (x : Die) : (s.setDie d x).tick = s.tick := rfl
@[simp] theorem State.setDie_cycle (d : Nat) (x : Die) : (s.setDie d x).cycle = s.cycle := rfl
@[simp] theorem State.setDie_half (d : Nat) (x : Die) : (s.setDie d x).half = s.half := rfl
@[simp] theorem State.setDie_replay (d : Nat) (x : Die) : (s.setDie d x).replay = s.replay := rfl
@[simp] theorem State.setDie_held (d : Nat) (x : Die) : (s.setDie d x).held = s.held := rfl
@[simp] theorem State.setDie_late (d : Nat) (x : Die) : (s.setDie d x).late = s.late := rfl
@[simp] theorem State.setDie_mem (d : Nat) (x : Die) : (s.setDie d x).mem = s.mem := rfl
@[simp] theorem State.setDie_harts (d : Nat) (x : Die) : (s.setDie d x).harts = s.harts := rfl
@[simp] theorem State.setDie_cores (d : Nat) (x : Die) : (s.setDie d x).cores = s.cores := rfl
@[simp] theorem State.setDie_clusters (d : Nat) (x : Die) : (s.setDie d x).clusters = s.clusters := rfl
@[simp] theorem State.setDie_ports (d : Nat) (x : Die) : (s.setDie d x).ports = s.ports := rfl
@[simp] theorem State.setDie_tasks (d : Nat) (x : Die) : (s.setDie d x).tasks = s.tasks := rfl
@[simp] theorem State.setDie_codes (d : Nat) (x : Die) : (s.setDie d x).codes = s.codes := rfl
@[simp] theorem State.setDie_codeMap (d : Nat) (x : Die) : (s.setDie d x).codeMap = s.codeMap := rfl
@[simp] theorem State.setDie_tlb (d : Nat) (x : Die) : (s.setDie d x).tlb = s.tlb := rfl
@[simp] theorem State.setDie_status (d : Nat) (x : Die) : (s.setDie d x).status = s.status := rfl
@[simp] theorem State.setDie_power (d : Nat) (x : Die) : (s.setDie d x).power = s.power := rfl
@[simp] theorem State.setDie_xlog (d : Nat) (x : Die) : (s.setDie d x).xlog = s.xlog := rfl
@[simp] theorem State.setDie_dev (d : Nat) (x : Die) : (s.setDie d x).dev = s.dev := rfl
@[simp] theorem State.setDie_spaces (d : Nat) (x : Die) : (s.setDie d x).spaces = s.spaces := rfl
@[simp] theorem State.setDie_mailbox (d : Nat) (x : Die) : (s.setDie d x).mailbox = s.mailbox := rfl
@[simp] theorem State.setDie_records (d : Nat) (x : Die) : (s.setDie d x).records = s.records := rfl
@[simp] theorem State.setDie_stamp (d : Nat) (x : Die) : (s.setDie d x).stamp = s.stamp := rfl
@[simp] theorem State.setDie_turn (d : Nat) (x : Die) : (s.setDie d x).turn = s.turn := rfl
@[simp] theorem State.setDie_inputs (d : Nat) (x : Die) : (s.setDie d x).inputs = s.inputs := rfl
@[simp] theorem State.setDie_arg (d : Nat) (x : Die) : (s.setDie d x).arg = s.arg := rfl
@[simp] theorem State.setDie_fresh (d : Nat) (x : Die) : (s.setDie d x).fresh = s.fresh := rfl
@[simp] theorem State.setDie_reply (d : Nat) (x : Die) : (s.setDie d x).reply = s.reply := rfl

/-! ## setTask -/

@[simp] theorem State.setTask_tick (r : Nat) (t : Task) : (s.setTask r t).tick = s.tick := rfl
@[simp] theorem State.setTask_cycle (r : Nat) (t : Task) : (s.setTask r t).cycle = s.cycle := rfl
@[simp] theorem State.setTask_half (r : Nat) (t : Task) : (s.setTask r t).half = s.half := rfl
@[simp] theorem State.setTask_replay (r : Nat) (t : Task) : (s.setTask r t).replay = s.replay := rfl
@[simp] theorem State.setTask_held (r : Nat) (t : Task) : (s.setTask r t).held = s.held := rfl
@[simp] theorem State.setTask_late (r : Nat) (t : Task) : (s.setTask r t).late = s.late := rfl
@[simp] theorem State.setTask_mem (r : Nat) (t : Task) : (s.setTask r t).mem = s.mem := rfl
@[simp] theorem State.setTask_harts (r : Nat) (t : Task) : (s.setTask r t).harts = s.harts := rfl
@[simp] theorem State.setTask_cores (r : Nat) (t : Task) : (s.setTask r t).cores = s.cores := rfl
@[simp] theorem State.setTask_clusters (r : Nat) (t : Task) : (s.setTask r t).clusters = s.clusters := rfl
@[simp] theorem State.setTask_dies (r : Nat) (t : Task) : (s.setTask r t).dies = s.dies := rfl
@[simp] theorem State.setTask_ports (r : Nat) (t : Task) : (s.setTask r t).ports = s.ports := rfl
@[simp] theorem State.setTask_codes (r : Nat) (t : Task) : (s.setTask r t).codes = s.codes := rfl
@[simp] theorem State.setTask_codeMap (r : Nat) (t : Task) : (s.setTask r t).codeMap = s.codeMap := rfl
@[simp] theorem State.setTask_tlb (r : Nat) (t : Task) : (s.setTask r t).tlb = s.tlb := rfl
@[simp] theorem State.setTask_status (r : Nat) (t : Task) : (s.setTask r t).status = s.status := rfl
@[simp] theorem State.setTask_power (r : Nat) (t : Task) : (s.setTask r t).power = s.power := rfl
@[simp] theorem State.setTask_xlog (r : Nat) (t : Task) : (s.setTask r t).xlog = s.xlog := rfl
@[simp] theorem State.setTask_dev (r : Nat) (t : Task) : (s.setTask r t).dev = s.dev := rfl
@[simp] theorem State.setTask_spaces (r : Nat) (t : Task) : (s.setTask r t).spaces = s.spaces := rfl
@[simp] theorem State.setTask_mailbox (r : Nat) (t : Task) : (s.setTask r t).mailbox = s.mailbox := rfl
@[simp] theorem State.setTask_records (r : Nat) (t : Task) : (s.setTask r t).records = s.records := rfl
@[simp] theorem State.setTask_stamp (r : Nat) (t : Task) : (s.setTask r t).stamp = s.stamp := rfl
@[simp] theorem State.setTask_turn (r : Nat) (t : Task) : (s.setTask r t).turn = s.turn := rfl
@[simp] theorem State.setTask_inputs (r : Nat) (t : Task) : (s.setTask r t).inputs = s.inputs := rfl
@[simp] theorem State.setTask_arg (r : Nat) (t : Task) : (s.setTask r t).arg = s.arg := rfl
@[simp] theorem State.setTask_fresh (r : Nat) (t : Task) : (s.setTask r t).fresh = s.fresh := rfl
@[simp] theorem State.setTask_reply (r : Nat) (t : Task) : (s.setTask r t).reply = s.reply := rfl

/-! ## setHbm -/

@[simp] theorem State.setHbm_tick (a n v : Nat) : (s.setHbm a n v).tick = s.tick := rfl
@[simp] theorem State.setHbm_cycle (a n v : Nat) : (s.setHbm a n v).cycle = s.cycle := rfl
@[simp] theorem State.setHbm_half (a n v : Nat) : (s.setHbm a n v).half = s.half := rfl
@[simp] theorem State.setHbm_replay (a n v : Nat) : (s.setHbm a n v).replay = s.replay := rfl
@[simp] theorem State.setHbm_held (a n v : Nat) : (s.setHbm a n v).held = s.held := rfl
@[simp] theorem State.setHbm_late (a n v : Nat) : (s.setHbm a n v).late = s.late := rfl
@[simp] theorem State.setHbm_harts (a n v : Nat) : (s.setHbm a n v).harts = s.harts := rfl
@[simp] theorem State.setHbm_cores (a n v : Nat) : (s.setHbm a n v).cores = s.cores := rfl
@[simp] theorem State.setHbm_clusters (a n v : Nat) : (s.setHbm a n v).clusters = s.clusters := rfl
@[simp] theorem State.setHbm_dies (a n v : Nat) : (s.setHbm a n v).dies = s.dies := rfl
@[simp] theorem State.setHbm_ports (a n v : Nat) : (s.setHbm a n v).ports = s.ports := rfl
@[simp] theorem State.setHbm_tasks (a n v : Nat) : (s.setHbm a n v).tasks = s.tasks := rfl
@[simp] theorem State.setHbm_codes (a n v : Nat) : (s.setHbm a n v).codes = s.codes := rfl
@[simp] theorem State.setHbm_codeMap (a n v : Nat) : (s.setHbm a n v).codeMap = s.codeMap := rfl
@[simp] theorem State.setHbm_tlb (a n v : Nat) : (s.setHbm a n v).tlb = s.tlb := rfl
@[simp] theorem State.setHbm_status (a n v : Nat) : (s.setHbm a n v).status = s.status := rfl
@[simp] theorem State.setHbm_power (a n v : Nat) : (s.setHbm a n v).power = s.power := rfl
@[simp] theorem State.setHbm_xlog (a n v : Nat) : (s.setHbm a n v).xlog = s.xlog := rfl
@[simp] theorem State.setHbm_dev (a n v : Nat) : (s.setHbm a n v).dev = s.dev := rfl
@[simp] theorem State.setHbm_spaces (a n v : Nat) : (s.setHbm a n v).spaces = s.spaces := rfl
@[simp] theorem State.setHbm_mailbox (a n v : Nat) : (s.setHbm a n v).mailbox = s.mailbox := rfl
@[simp] theorem State.setHbm_records (a n v : Nat) : (s.setHbm a n v).records = s.records := rfl
@[simp] theorem State.setHbm_stamp (a n v : Nat) : (s.setHbm a n v).stamp = s.stamp := rfl
@[simp] theorem State.setHbm_turn (a n v : Nat) : (s.setHbm a n v).turn = s.turn := rfl
@[simp] theorem State.setHbm_inputs (a n v : Nat) : (s.setHbm a n v).inputs = s.inputs := rfl
@[simp] theorem State.setHbm_arg (a n v : Nat) : (s.setHbm a n v).arg = s.arg := rfl
@[simp] theorem State.setHbm_fresh (a n v : Nat) : (s.setHbm a n v).fresh = s.fresh := rfl
@[simp] theorem State.setHbm_reply (a n v : Nat) : (s.setHbm a n v).reply = s.reply := rfl

/-! ## elapse -/

@[simp] theorem State.elapse_harts (d : Nat) : (s.elapse d).harts = s.harts := by
  unfold State.elapse; split
  · rfl
  · split <;> rfl
@[simp] theorem State.elapse_replay (d : Nat) : (s.elapse d).replay = s.replay := by
  unfold State.elapse; split
  · rfl
  · split <;> rfl
@[simp] theorem State.elapse_held (d : Nat) : (s.elapse d).held = s.held := by
  unfold State.elapse; split
  · rfl
  · split <;> rfl
@[simp] theorem State.elapse_late (d : Nat) : (s.elapse d).late = s.late := by
  unfold State.elapse; split
  · rfl
  · split <;> rfl
@[simp] theorem State.elapse_mem (d : Nat) : (s.elapse d).mem = s.mem := by
  unfold State.elapse; split
  · rfl
  · split <;> rfl
@[simp] theorem State.elapse_cores (d : Nat) : (s.elapse d).cores = s.cores := by
  unfold State.elapse; split
  · rfl
  · split <;> rfl
@[simp] theorem State.elapse_clusters (d : Nat) : (s.elapse d).clusters = s.clusters := by
  unfold State.elapse; split
  · rfl
  · split <;> rfl
@[simp] theorem State.elapse_dies (d : Nat) : (s.elapse d).dies = s.dies := by
  unfold State.elapse; split
  · rfl
  · split <;> rfl
@[simp] theorem State.elapse_ports (d : Nat) : (s.elapse d).ports = s.ports := by
  unfold State.elapse; split
  · rfl
  · split <;> rfl
@[simp] theorem State.elapse_tasks (d : Nat) : (s.elapse d).tasks = s.tasks := by
  unfold State.elapse; split
  · rfl
  · split <;> rfl
@[simp] theorem State.elapse_codes (d : Nat) : (s.elapse d).codes = s.codes := by
  unfold State.elapse; split
  · rfl
  · split <;> rfl
@[simp] theorem State.elapse_codeMap (d : Nat) : (s.elapse d).codeMap = s.codeMap := by
  unfold State.elapse; split
  · rfl
  · split <;> rfl
@[simp] theorem State.elapse_tlb (d : Nat) : (s.elapse d).tlb = s.tlb := by
  unfold State.elapse; split
  · rfl
  · split <;> rfl
@[simp] theorem State.elapse_status (d : Nat) : (s.elapse d).status = s.status := by
  unfold State.elapse; split
  · rfl
  · split <;> rfl
@[simp] theorem State.elapse_power (d : Nat) : (s.elapse d).power = s.power := by
  unfold State.elapse; split
  · rfl
  · split <;> rfl
@[simp] theorem State.elapse_xlog (d : Nat) : (s.elapse d).xlog = s.xlog := by
  unfold State.elapse; split
  · rfl
  · split <;> rfl
@[simp] theorem State.elapse_dev (d : Nat) : (s.elapse d).dev = s.dev := by
  unfold State.elapse; split
  · rfl
  · split <;> rfl
@[simp] theorem State.elapse_spaces (d : Nat) : (s.elapse d).spaces = s.spaces := by
  unfold State.elapse; split
  · rfl
  · split <;> rfl
@[simp] theorem State.elapse_mailbox (d : Nat) : (s.elapse d).mailbox = s.mailbox := by
  unfold State.elapse; split
  · rfl
  · split <;> rfl
@[simp] theorem State.elapse_records (d : Nat) : (s.elapse d).records = s.records := by
  unfold State.elapse; split
  · rfl
  · split <;> rfl
@[simp] theorem State.elapse_stamp (d : Nat) : (s.elapse d).stamp = s.stamp := by
  unfold State.elapse; split
  · rfl
  · split <;> rfl
@[simp] theorem State.elapse_turn (d : Nat) : (s.elapse d).turn = s.turn := by
  unfold State.elapse; split
  · rfl
  · split <;> rfl
@[simp] theorem State.elapse_inputs (d : Nat) : (s.elapse d).inputs = s.inputs := by
  unfold State.elapse; split
  · rfl
  · split <;> rfl
@[simp] theorem State.elapse_arg (d : Nat) : (s.elapse d).arg = s.arg := by
  unfold State.elapse; split
  · rfl
  · split <;> rfl
@[simp] theorem State.elapse_fresh (d : Nat) : (s.elapse d).fresh = s.fresh := by
  unfold State.elapse; split
  · rfl
  · split <;> rfl
@[simp] theorem State.elapse_reply (d : Nat) : (s.elapse d).reply = s.reply := by
  unfold State.elapse; split
  · rfl
  · split <;> rfl

/-! ## nextStamp -/

@[simp] theorem State.nextStamp_mem : s.nextStamp.mem = s.mem := by simp [State.nextStamp]
@[simp] theorem State.nextStamp_harts : s.nextStamp.harts = s.harts := by simp [State.nextStamp]
@[simp] theorem State.nextStamp_cores : s.nextStamp.cores = s.cores := by simp [State.nextStamp]
@[simp] theorem State.nextStamp_clusters : s.nextStamp.clusters = s.clusters := by simp [State.nextStamp]
@[simp] theorem State.nextStamp_dies : s.nextStamp.dies = s.dies := by simp [State.nextStamp]
@[simp] theorem State.nextStamp_ports : s.nextStamp.ports = s.ports := by simp [State.nextStamp]
@[simp] theorem State.nextStamp_tasks : s.nextStamp.tasks = s.tasks := by simp [State.nextStamp]
@[simp] theorem State.nextStamp_codes : s.nextStamp.codes = s.codes := by simp [State.nextStamp]
@[simp] theorem State.nextStamp_codeMap : s.nextStamp.codeMap = s.codeMap := by simp [State.nextStamp]
@[simp] theorem State.nextStamp_tlb : s.nextStamp.tlb = s.tlb := by simp [State.nextStamp]
@[simp] theorem State.nextStamp_status : s.nextStamp.status = s.status := by simp [State.nextStamp]
@[simp] theorem State.nextStamp_power : s.nextStamp.power = s.power := by simp [State.nextStamp]
@[simp] theorem State.nextStamp_xlog : s.nextStamp.xlog = s.xlog := by simp [State.nextStamp]
@[simp] theorem State.nextStamp_dev : s.nextStamp.dev = s.dev := by simp [State.nextStamp]
@[simp] theorem State.nextStamp_spaces : s.nextStamp.spaces = s.spaces := by simp [State.nextStamp]
@[simp] theorem State.nextStamp_mailbox : s.nextStamp.mailbox = s.mailbox := by simp [State.nextStamp]
@[simp] theorem State.nextStamp_records : s.nextStamp.records = s.records := by simp [State.nextStamp]
@[simp] theorem State.nextStamp_turn : s.nextStamp.turn = s.turn := by simp [State.nextStamp]
@[simp] theorem State.nextStamp_inputs : s.nextStamp.inputs = s.inputs := by simp [State.nextStamp]
@[simp] theorem State.nextStamp_arg : s.nextStamp.arg = s.arg := by simp [State.nextStamp]
@[simp] theorem State.nextStamp_fresh : s.nextStamp.fresh = s.fresh := by simp [State.nextStamp]
@[simp] theorem State.nextStamp_reply : s.nextStamp.reply = s.reply := by simp [State.nextStamp]

/-! ## dirtyV -/

@[simp] theorem State.dirtyV_tick : s.dirtyV.tick = s.tick := rfl
@[simp] theorem State.dirtyV_cycle : s.dirtyV.cycle = s.cycle := rfl
@[simp] theorem State.dirtyV_half : s.dirtyV.half = s.half := rfl
@[simp] theorem State.dirtyV_replay : s.dirtyV.replay = s.replay := rfl
@[simp] theorem State.dirtyV_held : s.dirtyV.held = s.held := rfl
@[simp] theorem State.dirtyV_late : s.dirtyV.late = s.late := rfl
@[simp] theorem State.dirtyV_mem : s.dirtyV.mem = s.mem := rfl
@[simp] theorem State.dirtyV_cores : s.dirtyV.cores = s.cores := rfl
@[simp] theorem State.dirtyV_clusters : s.dirtyV.clusters = s.clusters := rfl
@[simp] theorem State.dirtyV_dies : s.dirtyV.dies = s.dies := rfl
@[simp] theorem State.dirtyV_ports : s.dirtyV.ports = s.ports := rfl
@[simp] theorem State.dirtyV_tasks : s.dirtyV.tasks = s.tasks := rfl
@[simp] theorem State.dirtyV_codes : s.dirtyV.codes = s.codes := rfl
@[simp] theorem State.dirtyV_codeMap : s.dirtyV.codeMap = s.codeMap := rfl
@[simp] theorem State.dirtyV_tlb : s.dirtyV.tlb = s.tlb := rfl
@[simp] theorem State.dirtyV_status : s.dirtyV.status = s.status := rfl
@[simp] theorem State.dirtyV_power : s.dirtyV.power = s.power := rfl
@[simp] theorem State.dirtyV_xlog : s.dirtyV.xlog = s.xlog := rfl
@[simp] theorem State.dirtyV_dev : s.dirtyV.dev = s.dev := rfl
@[simp] theorem State.dirtyV_spaces : s.dirtyV.spaces = s.spaces := rfl
@[simp] theorem State.dirtyV_mailbox : s.dirtyV.mailbox = s.mailbox := rfl
@[simp] theorem State.dirtyV_records : s.dirtyV.records = s.records := rfl
@[simp] theorem State.dirtyV_stamp : s.dirtyV.stamp = s.stamp := rfl
@[simp] theorem State.dirtyV_turn : s.dirtyV.turn = s.turn := rfl
@[simp] theorem State.dirtyV_inputs : s.dirtyV.inputs = s.inputs := rfl
@[simp] theorem State.dirtyV_arg : s.dirtyV.arg = s.arg := rfl
@[simp] theorem State.dirtyV_fresh : s.dirtyV.fresh = s.fresh := rfl
@[simp] theorem State.dirtyV_reply : s.dirtyV.reply = s.reply := rfl

/-! ## dirtyM -/

@[simp] theorem State.dirtyM_tick : s.dirtyM.tick = s.tick := rfl
@[simp] theorem State.dirtyM_cycle : s.dirtyM.cycle = s.cycle := rfl
@[simp] theorem State.dirtyM_half : s.dirtyM.half = s.half := rfl
@[simp] theorem State.dirtyM_replay : s.dirtyM.replay = s.replay := rfl
@[simp] theorem State.dirtyM_held : s.dirtyM.held = s.held := rfl
@[simp] theorem State.dirtyM_late : s.dirtyM.late = s.late := rfl
@[simp] theorem State.dirtyM_mem : s.dirtyM.mem = s.mem := rfl
@[simp] theorem State.dirtyM_cores : s.dirtyM.cores = s.cores := rfl
@[simp] theorem State.dirtyM_clusters : s.dirtyM.clusters = s.clusters := rfl
@[simp] theorem State.dirtyM_dies : s.dirtyM.dies = s.dies := rfl
@[simp] theorem State.dirtyM_ports : s.dirtyM.ports = s.ports := rfl
@[simp] theorem State.dirtyM_tasks : s.dirtyM.tasks = s.tasks := rfl
@[simp] theorem State.dirtyM_codes : s.dirtyM.codes = s.codes := rfl
@[simp] theorem State.dirtyM_codeMap : s.dirtyM.codeMap = s.codeMap := rfl
@[simp] theorem State.dirtyM_tlb : s.dirtyM.tlb = s.tlb := rfl
@[simp] theorem State.dirtyM_status : s.dirtyM.status = s.status := rfl
@[simp] theorem State.dirtyM_power : s.dirtyM.power = s.power := rfl
@[simp] theorem State.dirtyM_xlog : s.dirtyM.xlog = s.xlog := rfl
@[simp] theorem State.dirtyM_dev : s.dirtyM.dev = s.dev := rfl
@[simp] theorem State.dirtyM_spaces : s.dirtyM.spaces = s.spaces := rfl
@[simp] theorem State.dirtyM_mailbox : s.dirtyM.mailbox = s.mailbox := rfl
@[simp] theorem State.dirtyM_records : s.dirtyM.records = s.records := rfl
@[simp] theorem State.dirtyM_stamp : s.dirtyM.stamp = s.stamp := rfl
@[simp] theorem State.dirtyM_turn : s.dirtyM.turn = s.turn := rfl
@[simp] theorem State.dirtyM_inputs : s.dirtyM.inputs = s.inputs := rfl
@[simp] theorem State.dirtyM_arg : s.dirtyM.arg = s.arg := rfl
@[simp] theorem State.dirtyM_fresh : s.dirtyM.fresh = s.fresh := rfl
@[simp] theorem State.dirtyM_reply : s.dirtyM.reply = s.reply := rfl

/-! ## dirtyB -/

@[simp] theorem State.dirtyB_tick : s.dirtyB.tick = s.tick := rfl
@[simp] theorem State.dirtyB_cycle : s.dirtyB.cycle = s.cycle := rfl
@[simp] theorem State.dirtyB_half : s.dirtyB.half = s.half := rfl
@[simp] theorem State.dirtyB_replay : s.dirtyB.replay = s.replay := rfl
@[simp] theorem State.dirtyB_held : s.dirtyB.held = s.held := rfl
@[simp] theorem State.dirtyB_late : s.dirtyB.late = s.late := rfl
@[simp] theorem State.dirtyB_mem : s.dirtyB.mem = s.mem := rfl
@[simp] theorem State.dirtyB_cores : s.dirtyB.cores = s.cores := rfl
@[simp] theorem State.dirtyB_clusters : s.dirtyB.clusters = s.clusters := rfl
@[simp] theorem State.dirtyB_dies : s.dirtyB.dies = s.dies := rfl
@[simp] theorem State.dirtyB_ports : s.dirtyB.ports = s.ports := rfl
@[simp] theorem State.dirtyB_tasks : s.dirtyB.tasks = s.tasks := rfl
@[simp] theorem State.dirtyB_codes : s.dirtyB.codes = s.codes := rfl
@[simp] theorem State.dirtyB_codeMap : s.dirtyB.codeMap = s.codeMap := rfl
@[simp] theorem State.dirtyB_tlb : s.dirtyB.tlb = s.tlb := rfl
@[simp] theorem State.dirtyB_status : s.dirtyB.status = s.status := rfl
@[simp] theorem State.dirtyB_power : s.dirtyB.power = s.power := rfl
@[simp] theorem State.dirtyB_xlog : s.dirtyB.xlog = s.xlog := rfl
@[simp] theorem State.dirtyB_dev : s.dirtyB.dev = s.dev := rfl
@[simp] theorem State.dirtyB_spaces : s.dirtyB.spaces = s.spaces := rfl
@[simp] theorem State.dirtyB_mailbox : s.dirtyB.mailbox = s.mailbox := rfl
@[simp] theorem State.dirtyB_records : s.dirtyB.records = s.records := rfl
@[simp] theorem State.dirtyB_stamp : s.dirtyB.stamp = s.stamp := rfl
@[simp] theorem State.dirtyB_turn : s.dirtyB.turn = s.turn := rfl
@[simp] theorem State.dirtyB_inputs : s.dirtyB.inputs = s.inputs := rfl
@[simp] theorem State.dirtyB_arg : s.dirtyB.arg = s.arg := rfl
@[simp] theorem State.dirtyB_fresh : s.dirtyB.fresh = s.fresh := rfl
@[simp] theorem State.dirtyB_reply : s.dirtyB.reply = s.reply := rfl

/-! ## dirtyS -/

@[simp] theorem State.dirtyS_tick : s.dirtyS.tick = s.tick := rfl
@[simp] theorem State.dirtyS_cycle : s.dirtyS.cycle = s.cycle := rfl
@[simp] theorem State.dirtyS_half : s.dirtyS.half = s.half := rfl
@[simp] theorem State.dirtyS_replay : s.dirtyS.replay = s.replay := rfl
@[simp] theorem State.dirtyS_held : s.dirtyS.held = s.held := rfl
@[simp] theorem State.dirtyS_late : s.dirtyS.late = s.late := rfl
@[simp] theorem State.dirtyS_mem : s.dirtyS.mem = s.mem := rfl
@[simp] theorem State.dirtyS_cores : s.dirtyS.cores = s.cores := rfl
@[simp] theorem State.dirtyS_clusters : s.dirtyS.clusters = s.clusters := rfl
@[simp] theorem State.dirtyS_dies : s.dirtyS.dies = s.dies := rfl
@[simp] theorem State.dirtyS_ports : s.dirtyS.ports = s.ports := rfl
@[simp] theorem State.dirtyS_tasks : s.dirtyS.tasks = s.tasks := rfl
@[simp] theorem State.dirtyS_codes : s.dirtyS.codes = s.codes := rfl
@[simp] theorem State.dirtyS_codeMap : s.dirtyS.codeMap = s.codeMap := rfl
@[simp] theorem State.dirtyS_tlb : s.dirtyS.tlb = s.tlb := rfl
@[simp] theorem State.dirtyS_status : s.dirtyS.status = s.status := rfl
@[simp] theorem State.dirtyS_power : s.dirtyS.power = s.power := rfl
@[simp] theorem State.dirtyS_xlog : s.dirtyS.xlog = s.xlog := rfl
@[simp] theorem State.dirtyS_dev : s.dirtyS.dev = s.dev := rfl
@[simp] theorem State.dirtyS_spaces : s.dirtyS.spaces = s.spaces := rfl
@[simp] theorem State.dirtyS_mailbox : s.dirtyS.mailbox = s.mailbox := rfl
@[simp] theorem State.dirtyS_records : s.dirtyS.records = s.records := rfl
@[simp] theorem State.dirtyS_stamp : s.dirtyS.stamp = s.stamp := rfl
@[simp] theorem State.dirtyS_turn : s.dirtyS.turn = s.turn := rfl
@[simp] theorem State.dirtyS_inputs : s.dirtyS.inputs = s.inputs := rfl
@[simp] theorem State.dirtyS_arg : s.dirtyS.arg = s.arg := rfl
@[simp] theorem State.dirtyS_fresh : s.dirtyS.fresh = s.fresh := rfl
@[simp] theorem State.dirtyS_reply : s.dirtyS.reply = s.reply := rfl

/-! ## dirtyC -/

@[simp] theorem State.dirtyC_tick : s.dirtyC.tick = s.tick := rfl
@[simp] theorem State.dirtyC_cycle : s.dirtyC.cycle = s.cycle := rfl
@[simp] theorem State.dirtyC_half : s.dirtyC.half = s.half := rfl
@[simp] theorem State.dirtyC_replay : s.dirtyC.replay = s.replay := rfl
@[simp] theorem State.dirtyC_held : s.dirtyC.held = s.held := rfl
@[simp] theorem State.dirtyC_late : s.dirtyC.late = s.late := rfl
@[simp] theorem State.dirtyC_mem : s.dirtyC.mem = s.mem := rfl
@[simp] theorem State.dirtyC_cores : s.dirtyC.cores = s.cores := rfl
@[simp] theorem State.dirtyC_clusters : s.dirtyC.clusters = s.clusters := rfl
@[simp] theorem State.dirtyC_dies : s.dirtyC.dies = s.dies := rfl
@[simp] theorem State.dirtyC_ports : s.dirtyC.ports = s.ports := rfl
@[simp] theorem State.dirtyC_tasks : s.dirtyC.tasks = s.tasks := rfl
@[simp] theorem State.dirtyC_codes : s.dirtyC.codes = s.codes := rfl
@[simp] theorem State.dirtyC_codeMap : s.dirtyC.codeMap = s.codeMap := rfl
@[simp] theorem State.dirtyC_tlb : s.dirtyC.tlb = s.tlb := rfl
@[simp] theorem State.dirtyC_status : s.dirtyC.status = s.status := rfl
@[simp] theorem State.dirtyC_power : s.dirtyC.power = s.power := rfl
@[simp] theorem State.dirtyC_xlog : s.dirtyC.xlog = s.xlog := rfl
@[simp] theorem State.dirtyC_dev : s.dirtyC.dev = s.dev := rfl
@[simp] theorem State.dirtyC_spaces : s.dirtyC.spaces = s.spaces := rfl
@[simp] theorem State.dirtyC_mailbox : s.dirtyC.mailbox = s.mailbox := rfl
@[simp] theorem State.dirtyC_records : s.dirtyC.records = s.records := rfl
@[simp] theorem State.dirtyC_stamp : s.dirtyC.stamp = s.stamp := rfl
@[simp] theorem State.dirtyC_turn : s.dirtyC.turn = s.turn := rfl
@[simp] theorem State.dirtyC_inputs : s.dirtyC.inputs = s.inputs := rfl
@[simp] theorem State.dirtyC_arg : s.dirtyC.arg = s.arg := rfl
@[simp] theorem State.dirtyC_fresh : s.dirtyC.fresh = s.fresh := rfl
@[simp] theorem State.dirtyC_reply : s.dirtyC.reply = s.reply := rfl

/-! ## setEst -/

@[simp] theorem State.setEst_tick (e : Nat) : (s.setEst e).tick = s.tick := rfl
@[simp] theorem State.setEst_cycle (e : Nat) : (s.setEst e).cycle = s.cycle := rfl
@[simp] theorem State.setEst_half (e : Nat) : (s.setEst e).half = s.half := rfl
@[simp] theorem State.setEst_replay (e : Nat) : (s.setEst e).replay = s.replay := rfl
@[simp] theorem State.setEst_held (e : Nat) : (s.setEst e).held = s.held := rfl
@[simp] theorem State.setEst_late (e : Nat) : (s.setEst e).late = s.late := rfl
@[simp] theorem State.setEst_mem (e : Nat) : (s.setEst e).mem = s.mem := rfl
@[simp] theorem State.setEst_cores (e : Nat) : (s.setEst e).cores = s.cores := rfl
@[simp] theorem State.setEst_clusters (e : Nat) : (s.setEst e).clusters = s.clusters := rfl
@[simp] theorem State.setEst_dies (e : Nat) : (s.setEst e).dies = s.dies := rfl
@[simp] theorem State.setEst_ports (e : Nat) : (s.setEst e).ports = s.ports := rfl
@[simp] theorem State.setEst_tasks (e : Nat) : (s.setEst e).tasks = s.tasks := rfl
@[simp] theorem State.setEst_codes (e : Nat) : (s.setEst e).codes = s.codes := rfl
@[simp] theorem State.setEst_codeMap (e : Nat) : (s.setEst e).codeMap = s.codeMap := rfl
@[simp] theorem State.setEst_tlb (e : Nat) : (s.setEst e).tlb = s.tlb := rfl
@[simp] theorem State.setEst_status (e : Nat) : (s.setEst e).status = s.status := rfl
@[simp] theorem State.setEst_power (e : Nat) : (s.setEst e).power = s.power := rfl
@[simp] theorem State.setEst_xlog (e : Nat) : (s.setEst e).xlog = s.xlog := rfl
@[simp] theorem State.setEst_dev (e : Nat) : (s.setEst e).dev = s.dev := rfl
@[simp] theorem State.setEst_spaces (e : Nat) : (s.setEst e).spaces = s.spaces := rfl
@[simp] theorem State.setEst_mailbox (e : Nat) : (s.setEst e).mailbox = s.mailbox := rfl
@[simp] theorem State.setEst_records (e : Nat) : (s.setEst e).records = s.records := rfl
@[simp] theorem State.setEst_stamp (e : Nat) : (s.setEst e).stamp = s.stamp := rfl
@[simp] theorem State.setEst_turn (e : Nat) : (s.setEst e).turn = s.turn := rfl
@[simp] theorem State.setEst_inputs (e : Nat) : (s.setEst e).inputs = s.inputs := rfl
@[simp] theorem State.setEst_arg (e : Nat) : (s.setEst e).arg = s.arg := rfl
@[simp] theorem State.setEst_fresh (e : Nat) : (s.setEst e).fresh = s.fresh := rfl
@[simp] theorem State.setEst_reply (e : Nat) : (s.setEst e).reply = s.reply := rfl

/-! ## setEcm -/

@[simp] theorem State.setEcm_tick (e : Nat) : (s.setEcm e).tick = s.tick := rfl
@[simp] theorem State.setEcm_cycle (e : Nat) : (s.setEcm e).cycle = s.cycle := rfl
@[simp] theorem State.setEcm_half (e : Nat) : (s.setEcm e).half = s.half := rfl
@[simp] theorem State.setEcm_replay (e : Nat) : (s.setEcm e).replay = s.replay := rfl
@[simp] theorem State.setEcm_held (e : Nat) : (s.setEcm e).held = s.held := rfl
@[simp] theorem State.setEcm_late (e : Nat) : (s.setEcm e).late = s.late := rfl
@[simp] theorem State.setEcm_mem (e : Nat) : (s.setEcm e).mem = s.mem := rfl
@[simp] theorem State.setEcm_cores (e : Nat) : (s.setEcm e).cores = s.cores := rfl
@[simp] theorem State.setEcm_clusters (e : Nat) : (s.setEcm e).clusters = s.clusters := rfl
@[simp] theorem State.setEcm_dies (e : Nat) : (s.setEcm e).dies = s.dies := rfl
@[simp] theorem State.setEcm_ports (e : Nat) : (s.setEcm e).ports = s.ports := rfl
@[simp] theorem State.setEcm_tasks (e : Nat) : (s.setEcm e).tasks = s.tasks := rfl
@[simp] theorem State.setEcm_codes (e : Nat) : (s.setEcm e).codes = s.codes := rfl
@[simp] theorem State.setEcm_codeMap (e : Nat) : (s.setEcm e).codeMap = s.codeMap := rfl
@[simp] theorem State.setEcm_tlb (e : Nat) : (s.setEcm e).tlb = s.tlb := rfl
@[simp] theorem State.setEcm_status (e : Nat) : (s.setEcm e).status = s.status := rfl
@[simp] theorem State.setEcm_power (e : Nat) : (s.setEcm e).power = s.power := rfl
@[simp] theorem State.setEcm_xlog (e : Nat) : (s.setEcm e).xlog = s.xlog := rfl
@[simp] theorem State.setEcm_dev (e : Nat) : (s.setEcm e).dev = s.dev := rfl
@[simp] theorem State.setEcm_spaces (e : Nat) : (s.setEcm e).spaces = s.spaces := rfl
@[simp] theorem State.setEcm_mailbox (e : Nat) : (s.setEcm e).mailbox = s.mailbox := rfl
@[simp] theorem State.setEcm_records (e : Nat) : (s.setEcm e).records = s.records := rfl
@[simp] theorem State.setEcm_stamp (e : Nat) : (s.setEcm e).stamp = s.stamp := rfl
@[simp] theorem State.setEcm_turn (e : Nat) : (s.setEcm e).turn = s.turn := rfl
@[simp] theorem State.setEcm_inputs (e : Nat) : (s.setEcm e).inputs = s.inputs := rfl
@[simp] theorem State.setEcm_arg (e : Nat) : (s.setEcm e).arg = s.arg := rfl
@[simp] theorem State.setEcm_fresh (e : Nat) : (s.setEcm e).fresh = s.fresh := rfl
@[simp] theorem State.setEcm_reply (e : Nat) : (s.setEcm e).reply = s.reply := rfl

/-! ## count -/

@[simp] theorem State.count_tick (h : Nat) (f : Counters → Counters) : (s.count h f).tick = s.tick := rfl
@[simp] theorem State.count_cycle (h : Nat) (f : Counters → Counters) : (s.count h f).cycle = s.cycle := rfl
@[simp] theorem State.count_half (h : Nat) (f : Counters → Counters) : (s.count h f).half = s.half := rfl
@[simp] theorem State.count_replay (h : Nat) (f : Counters → Counters) : (s.count h f).replay = s.replay := rfl
@[simp] theorem State.count_held (h : Nat) (f : Counters → Counters) : (s.count h f).held = s.held := rfl
@[simp] theorem State.count_late (h : Nat) (f : Counters → Counters) : (s.count h f).late = s.late := rfl
@[simp] theorem State.count_mem (h : Nat) (f : Counters → Counters) : (s.count h f).mem = s.mem := rfl
@[simp] theorem State.count_harts (h : Nat) (f : Counters → Counters) : (s.count h f).harts = s.harts := rfl
@[simp] theorem State.count_cores (h : Nat) (f : Counters → Counters) : (s.count h f).cores = s.cores := rfl
@[simp] theorem State.count_dies (h : Nat) (f : Counters → Counters) : (s.count h f).dies = s.dies := rfl
@[simp] theorem State.count_ports (h : Nat) (f : Counters → Counters) : (s.count h f).ports = s.ports := rfl
@[simp] theorem State.count_tasks (h : Nat) (f : Counters → Counters) : (s.count h f).tasks = s.tasks := rfl
@[simp] theorem State.count_codes (h : Nat) (f : Counters → Counters) : (s.count h f).codes = s.codes := rfl
@[simp] theorem State.count_codeMap (h : Nat) (f : Counters → Counters) : (s.count h f).codeMap = s.codeMap := rfl
@[simp] theorem State.count_tlb (h : Nat) (f : Counters → Counters) : (s.count h f).tlb = s.tlb := rfl
@[simp] theorem State.count_status (h : Nat) (f : Counters → Counters) : (s.count h f).status = s.status := rfl
@[simp] theorem State.count_power (h : Nat) (f : Counters → Counters) : (s.count h f).power = s.power := rfl
@[simp] theorem State.count_xlog (h : Nat) (f : Counters → Counters) : (s.count h f).xlog = s.xlog := rfl
@[simp] theorem State.count_dev (h : Nat) (f : Counters → Counters) : (s.count h f).dev = s.dev := rfl
@[simp] theorem State.count_spaces (h : Nat) (f : Counters → Counters) : (s.count h f).spaces = s.spaces := rfl
@[simp] theorem State.count_mailbox (h : Nat) (f : Counters → Counters) : (s.count h f).mailbox = s.mailbox := rfl
@[simp] theorem State.count_records (h : Nat) (f : Counters → Counters) : (s.count h f).records = s.records := rfl
@[simp] theorem State.count_stamp (h : Nat) (f : Counters → Counters) : (s.count h f).stamp = s.stamp := rfl
@[simp] theorem State.count_turn (h : Nat) (f : Counters → Counters) : (s.count h f).turn = s.turn := rfl
@[simp] theorem State.count_inputs (h : Nat) (f : Counters → Counters) : (s.count h f).inputs = s.inputs := rfl
@[simp] theorem State.count_arg (h : Nat) (f : Counters → Counters) : (s.count h f).arg = s.arg := rfl
@[simp] theorem State.count_fresh (h : Nat) (f : Counters → Counters) : (s.count h f).fresh = s.fresh := rfl
@[simp] theorem State.count_reply (h : Nat) (f : Counters → Counters) : (s.count h f).reply = s.reply := rfl

/-! ## Harts -/

@[simp] theorem State.hartAt_setHart_self (h : Nat) (x : Hart) : (s.setHart h x).hartAt h = x :=
  tget_tset_self _ _ _ _

theorem State.hartAt_setHart_ne {h j : Nat} (x : Hart) (hj : j ≠ h) : (s.setHart h x).hartAt j = s.hartAt j :=
  tget_tset_ne _ _ _ hj

theorem State.hartAt_setHart (h j : Nat) (x : Hart) :
    (s.setHart h x).hartAt j = if j = h then x else s.hartAt j := tget_tset _ _ _ _ _

@[simp] theorem State.cur_setCur (x : Hart) : (s.setCur x).cur = x := tget_tset_self _ _ _ _

@[simp] theorem State.cur_setHart_turn (x : Hart) : (s.setHart s.turn x).cur = x := tget_tset_self _ _ _ _

@[simp] theorem State.hartAt_turn : s.hartAt s.turn = s.cur := rfl

@[simp] theorem State.hartAt_setCur_turn (x : Hart) : (s.setCur x).hartAt s.turn = x := tget_tset_self _ _ _ _

theorem State.hartAt_setCur_ne {j : Nat} (x : Hart) (hj : j ≠ s.turn) : (s.setCur x).hartAt j = s.hartAt j :=
  tget_tset_ne _ _ _ hj

@[simp] theorem State.hartAt_setCluster (c h : Nat) (x : Cluster) : (s.setCluster c x).hartAt h = s.hartAt h := rfl
@[simp] theorem State.hartAt_setCore (k h : Nat) (x : Core) : (s.setCore k x).hartAt h = s.hartAt h := rfl
@[simp] theorem State.hartAt_setDie (d h : Nat) (x : Die) : (s.setDie d x).hartAt h = s.hartAt h := rfl
@[simp] theorem State.hartAt_setTask (r h : Nat) (t : Task) : (s.setTask r t).hartAt h = s.hartAt h := rfl
@[simp] theorem State.hartAt_setHbm (a n v h : Nat) : (s.setHbm a n v).hartAt h = s.hartAt h := rfl
@[simp] theorem State.hartAt_nextStamp (h : Nat) : s.nextStamp.hartAt h = s.hartAt h := by
  simp [State.hartAt]
@[simp] theorem State.hartAt_count (h j : Nat) (f : Counters → Counters) : (s.count h f).hartAt j = s.hartAt j := rfl
@[simp] theorem State.cur_setCluster (c : Nat) (x : Cluster) : (s.setCluster c x).cur = s.cur := rfl
@[simp] theorem State.cur_setCore (k : Nat) (x : Core) : (s.setCore k x).cur = s.cur := rfl
@[simp] theorem State.cur_setDie (d : Nat) (x : Die) : (s.setDie d x).cur = s.cur := rfl
@[simp] theorem State.cur_setTask (r : Nat) (t : Task) : (s.setTask r t).cur = s.cur := rfl
@[simp] theorem State.cur_setHbm (a n v : Nat) : (s.setHbm a n v).cur = s.cur := rfl
@[simp] theorem State.cur_nextStamp : s.nextStamp.cur = s.cur := by
  rw [← State.hartAt_turn, ← State.hartAt_turn, State.nextStamp_turn, State.hartAt_nextStamp]
@[simp] theorem State.cur_count (h : Nat) (f : Counters → Counters) : (s.count h f).cur = s.cur := rfl

/-! ## Clusters, cores, dies, tasks -/

@[simp] theorem State.clusterAt_setCluster_self (c : Nat) (x : Cluster) : (s.setCluster c x).clusterAt c = x :=
  tget_tset_self _ _ _ _
theorem State.clusterAt_setCluster_ne {c d : Nat} (x : Cluster) (h : d ≠ c) :
    (s.setCluster c x).clusterAt d = s.clusterAt d := tget_tset_ne _ _ _ h
@[simp] theorem State.clusterAt_setHart (h c : Nat) (x : Hart) : (s.setHart h x).clusterAt c = s.clusterAt c := rfl
@[simp] theorem State.clusterAt_setCur (c : Nat) (x : Hart) : (s.setCur x).clusterAt c = s.clusterAt c := rfl
@[simp] theorem State.coreAt_setCore_self (k : Nat) (x : Core) : (s.setCore k x).coreAt k = x :=
  tget_tset_self _ _ _ _
theorem State.coreAt_setCore_ne {k j : Nat} (x : Core) (h : j ≠ k) : (s.setCore k x).coreAt j = s.coreAt j :=
  tget_tset_ne _ _ _ h
@[simp] theorem State.coreAt_setHart (h k : Nat) (x : Hart) : (s.setHart h x).coreAt k = s.coreAt k := rfl
@[simp] theorem State.coreAt_setCur (k : Nat) (x : Hart) : (s.setCur x).coreAt k = s.coreAt k := rfl
@[simp] theorem State.dieAt_setDie_self (d : Nat) (x : Die) : (s.setDie d x).dieAt d = x := tget_tset_self _ _ _ _
@[simp] theorem State.dieAt_setHart (h d : Nat) (x : Hart) : (s.setHart h x).dieAt d = s.dieAt d := rfl
@[simp] theorem State.task?_setHart (h r : Nat) (x : Hart) : (s.setHart h x).task? r = s.task? r := rfl
@[simp] theorem State.task?_setCur (r : Nat) (x : Hart) : (s.setCur x).task? r = s.task? r := rfl

/-! ## Registers (R83) -/

@[simp] theorem State.g_zero : s.g 0 = 0 := rfl

theorem State.setG_zero (v : Word) : s.setG 0 v = s := rfl

@[simp] theorem State.setG_turn (r : Reg) (v : Word) : (s.setG r v).turn = s.turn := by
  unfold State.setG; split <;> rfl

theorem State.cur_setG (r : Reg) (v : Word) :
    (s.setG r v).cur = if r = 0 then s.cur else { s.cur with g := s.cur.g.set r.toNat v } := by
  unfold State.setG; split <;> simp

theorem State.g_setG_self (r : Reg) (v : Word) (h : r ≠ 0) : (s.setG r v).g r = v := by
  rw [State.g, State.cur_setG, if_neg h, if_neg h]
  simp

theorem State.g_setG_ne {r q : Reg} (v : Word) (h : q ≠ r) : (s.setG r v).g q = s.g q := by
  by_cases hr : r = 0
  · simp [State.setG, hr]
  · have hn : r.toNat ≠ q.toNat := fun e => h (BitVec.eq_of_toNat_eq e.symm)
    rw [State.g, State.g, State.cur_setG, if_neg hr]
    simp [hn]

theorem State.hartAt_setG_ne {j : Nat} (r : Reg) (v : Word) (hj : j ≠ s.turn) : (s.setG r v).hartAt j = s.hartAt j := by
  unfold State.setG; split
  · rfl
  · exact State.hartAt_setCur_ne _ _ hj

@[simp] theorem State.setG_tick (r : Reg) (v : Word) : (s.setG r v).tick = s.tick := by
  unfold State.setG; split <;> rfl
@[simp] theorem State.setG_cycle (r : Reg) (v : Word) : (s.setG r v).cycle = s.cycle := by
  unfold State.setG; split <;> rfl
@[simp] theorem State.setG_half (r : Reg) (v : Word) : (s.setG r v).half = s.half := by
  unfold State.setG; split <;> rfl
@[simp] theorem State.setG_replay (r : Reg) (v : Word) : (s.setG r v).replay = s.replay := by
  unfold State.setG; split <;> rfl
@[simp] theorem State.setG_held (r : Reg) (v : Word) : (s.setG r v).held = s.held := by
  unfold State.setG; split <;> rfl
@[simp] theorem State.setG_late (r : Reg) (v : Word) : (s.setG r v).late = s.late := by
  unfold State.setG; split <;> rfl
@[simp] theorem State.setG_mem (r : Reg) (v : Word) : (s.setG r v).mem = s.mem := by
  unfold State.setG; split <;> rfl
@[simp] theorem State.setG_cores (r : Reg) (v : Word) : (s.setG r v).cores = s.cores := by
  unfold State.setG; split <;> rfl
@[simp] theorem State.setG_clusters (r : Reg) (v : Word) : (s.setG r v).clusters = s.clusters := by
  unfold State.setG; split <;> rfl
@[simp] theorem State.setG_dies (r : Reg) (v : Word) : (s.setG r v).dies = s.dies := by
  unfold State.setG; split <;> rfl
@[simp] theorem State.setG_ports (r : Reg) (v : Word) : (s.setG r v).ports = s.ports := by
  unfold State.setG; split <;> rfl
@[simp] theorem State.setG_tasks (r : Reg) (v : Word) : (s.setG r v).tasks = s.tasks := by
  unfold State.setG; split <;> rfl
@[simp] theorem State.setG_codes (r : Reg) (v : Word) : (s.setG r v).codes = s.codes := by
  unfold State.setG; split <;> rfl
@[simp] theorem State.setG_codeMap (r : Reg) (v : Word) : (s.setG r v).codeMap = s.codeMap := by
  unfold State.setG; split <;> rfl
@[simp] theorem State.setG_tlb (r : Reg) (v : Word) : (s.setG r v).tlb = s.tlb := by
  unfold State.setG; split <;> rfl
@[simp] theorem State.setG_status (r : Reg) (v : Word) : (s.setG r v).status = s.status := by
  unfold State.setG; split <;> rfl
@[simp] theorem State.setG_power (r : Reg) (v : Word) : (s.setG r v).power = s.power := by
  unfold State.setG; split <;> rfl
@[simp] theorem State.setG_xlog (r : Reg) (v : Word) : (s.setG r v).xlog = s.xlog := by
  unfold State.setG; split <;> rfl
@[simp] theorem State.setG_dev (r : Reg) (v : Word) : (s.setG r v).dev = s.dev := by
  unfold State.setG; split <;> rfl
@[simp] theorem State.setG_spaces (r : Reg) (v : Word) : (s.setG r v).spaces = s.spaces := by
  unfold State.setG; split <;> rfl
@[simp] theorem State.setG_mailbox (r : Reg) (v : Word) : (s.setG r v).mailbox = s.mailbox := by
  unfold State.setG; split <;> rfl
@[simp] theorem State.setG_records (r : Reg) (v : Word) : (s.setG r v).records = s.records := by
  unfold State.setG; split <;> rfl
@[simp] theorem State.setG_stamp (r : Reg) (v : Word) : (s.setG r v).stamp = s.stamp := by
  unfold State.setG; split <;> rfl
@[simp] theorem State.setG_inputs (r : Reg) (v : Word) : (s.setG r v).inputs = s.inputs := by
  unfold State.setG; split <;> rfl
@[simp] theorem State.setG_arg (r : Reg) (v : Word) : (s.setG r v).arg = s.arg := by
  unfold State.setG; split <;> rfl
@[simp] theorem State.setG_fresh (r : Reg) (v : Word) : (s.setG r v).fresh = s.fresh := by
  unfold State.setG; split <;> rfl
@[simp] theorem State.setG_reply (r : Reg) (v : Word) : (s.setG r v).reply = s.reply := by
  unfold State.setG; split <;> rfl

end Sys2Proof.Machine
end

