-- ==== Sys2Proof/Laws/Access.lean ====
section
/-!
SUPPORT. What an access can do: walks, stores handed over and performed, joins and loads. Each of them keeps memory's
canonical form and changes nothing but memory, clusters (Haze births and the trace of a release write), cached translations, time and stamps, and the hart's own queue and digest, with its registers where loads were to
perform late.
-/
namespace Sys2Proof.Machine

/-- `t` is `s` after accesses of hart `h`: memory, clusters, cached translations, time and stamps, and of the hart its queue and digest, with `g`, vector registers and the dirty bits where late loads performed. -/
structure Accessed (h : Nat) (s t : State) : Prop where
  only : ∃ m cs tl hs tk cy hf sp rp, t =
    { s with mem := m, clusters := cs, tlb := tl, harts := hs, tick := tk,
             cycle := cy, half := hf, stamp := sp, replay := rp }
  wf : memWf s.mem = true → memWf t.mem = true
  others : ∀ k, k ≠ h → t.hartAt k = s.hartAt k
  hart : ∃ q d g v k, t.hartAt h = { s.hartAt h with stores := q, digest := d, g := g, vec := v, dirty := k }
  /-- without a late load the hart's registers stay -/
  kept : (s.hartAt h).hasLate = false →
    ∃ q d, t.hartAt h = { s.hartAt h with stores := q, digest := d } ∧ (t.hartAt h).hasLate = false

variable {h : Nat} {s t u : State}

theorem Accessed.refl : Accessed h s s :=
  ⟨⟨_, _, _, _, _, _, _, _, _, rfl⟩, id, fun _ _ => rfl, ⟨_, _, _, _, _, rfl⟩, fun e => ⟨_, _, rfl, e⟩⟩

theorem Accessed.trans (a : Accessed h s t) (b : Accessed h t u) : Accessed h s u := by
  obtain ⟨⟨_, _, _, _, _, _, _, _, _, e1⟩, w1, o1, ⟨_, _, _, _, _, h1⟩, k1⟩ := a
  obtain ⟨⟨_, _, _, _, _, _, _, _, _, e2⟩, w2, o2, ⟨_, _, _, _, _, h2⟩, k2⟩ := b
  refine ⟨⟨_, _, _, _, _, _, _, _, _, by rw [e2, e1]⟩, fun w => w2 (w1 w), fun k hk => (o2 k hk).trans (o1 k hk),
    ⟨_, _, _, _, _, by rw [h2, h1]⟩, fun e => ?_⟩
  obtain ⟨_, _, f1, l1⟩ := k1 e
  obtain ⟨_, _, f2, l2⟩ := k2 l1
  exact ⟨_, _, by rw [f2, f1], l2⟩

/-- The general registers stay where no load was to perform late. -/
theorem Accessed.g_eq (a : Accessed h s t) (e : (s.hartAt h).hasLate = false) : (t.hartAt h).g = (s.hartAt h).g := by
  obtain ⟨_, _, f, _⟩ := a.kept e
  rw [f]

/-- Memory, clusters and translations replaced, the harts left alone. -/
theorem accessed_mem (m : List Host.Cell) (cs : Table Cluster) (tl : List TlbEntry)
    (w : memWf s.mem = true → memWf m = true) : Accessed h s { s with mem := m, clusters := cs, tlb := tl } :=
  ⟨⟨_, _, _, s.harts, s.tick, s.cycle, s.half, s.stamp, s.replay, rfl⟩, w, fun _ _ => rfl,
    ⟨_, _, _, _, _, rfl⟩, fun e => ⟨_, _, rfl, e⟩⟩

/-- A hart's queue and digest replaced, and its registers where one of its loads was to perform late. -/
theorem accessed_hart {x : Hart}
    (hx : ∃ q d g v k, x = { s.hartAt h with stores := q, digest := d, g := g, vec := v, dirty := k })
    (hk : (s.hartAt h).hasLate = false →
      ∃ q d, x = { s.hartAt h with stores := q, digest := d } ∧ x.hasLate = false) : Accessed h s (s.setHart h x) where
  only := ⟨s.mem, s.clusters, s.tlb, _, s.tick, s.cycle, s.half, s.stamp, s.replay, rfl⟩
  wf := id
  others := fun _ hk => State.hartAt_setHart_ne s _ hk
  hart := by rw [State.hartAt_setHart_self]; exact hx
  kept := by rw [State.hartAt_setHart_self]; exact hk

/-- Its queue and digest replaced, by no late load where there was none. -/
theorem accessed_queue (q : List QStore) (d : Table (BitVec 64 × Nat))
    (hq : (s.hartAt h).hasLate = false → (q.any fun r => r.ld.isSome) = false) :
    Accessed h s (s.setHart h { s.hartAt h with stores := q, digest := d }) :=
  accessed_hart ⟨q, d, _, _, _, rfl⟩ fun e => ⟨q, d, rfl, hq e⟩

theorem accessed_setBirth (cl tile : Nat) (b : Option Nat) : Accessed h s (s.setBirth cl tile b) :=
  accessed_mem s.mem _ s.tlb id

/-! ## Sync events -/

theorem accessed_elapse (d : Nat) : Accessed h s (s.elapse d) := by
  unfold State.elapse
  split
  · exact ⟨⟨s.mem, s.clusters, s.tlb, s.harts, _, s.cycle, s.half, s.stamp, s.replay, rfl⟩, id, fun _ _ => rfl, ⟨_, _, _, _, _, rfl⟩, fun e => ⟨_, _, rfl, e⟩⟩
  · split
    · exact ⟨⟨s.mem, s.clusters, s.tlb, s.harts, _, _, s.half, s.stamp, s.replay, rfl⟩, id, fun _ _ => rfl, ⟨_, _, _, _, _, rfl⟩, fun e => ⟨_, _, rfl, e⟩⟩
    · exact ⟨⟨s.mem, s.clusters, s.tlb, s.harts, _, _, _, s.stamp, s.replay, rfl⟩, id, fun _ _ => rfl, ⟨_, _, _, _, _, rfl⟩, fun e => ⟨_, _, rfl, e⟩⟩

theorem accessed_nextStamp : Accessed h s s.nextStamp := by
  unfold State.nextStamp
  refine Accessed.trans ?_ (accessed_elapse _)
  exact ⟨⟨s.mem, s.clusters, s.tlb, s.harts, s.tick, s.cycle, s.half, _, s.replay, rfl⟩, id, fun _ _ => rfl, ⟨_, _, _, _, _, rfl⟩, fun e => ⟨_, _, rfl, e⟩⟩

theorem accessed_putRecord (cl w0 w1 : Nat) : Accessed h s (s.putRecord cl w0 w1) := by
  unfold State.putRecord
  dsimp only
  split
  · exact accessed_mem s.mem _ s.tlb id
  · exact accessed_mem _ _ s.tlb (memWf_memWriteN _ _ _)

theorem accessed_record (k r sp w : Nat) : Accessed h s (s.record k r sp w) := by
  unfold State.record
  refine Accessed.trans ?_ (accessed_putRecord _ _ _)
  have hp := accessed_putRecord (h := h) (s := s) (clusterOf k) (7 + 16 * (k % 8)) s.tick
  generalize s.putRecord (clusterOf k) (7 + 16 * (k % 8)) s.tick = u at hp ⊢
  split
  · split
    · exact .refl
    · exact hp
  · exact hp

/-- A sync event moves time, the stamp, the replay list and the trace. -/
theorem accessed_sync (k kind : Nat) : Accessed h s (s.sync k kind) := by
  have h0 : Accessed h s ({ s with replay := dropFirst k s.replay } : State) :=
    ⟨⟨s.mem, s.clusters, s.tlb, s.harts, s.tick, s.cycle, s.half, s.stamp, _, rfl⟩, id, fun _ _ => rfl, ⟨_, _, _, _, _, rfl⟩, fun e => ⟨_, _, rfl, e⟩⟩
  have h1 := h0.trans accessed_nextStamp
  unfold State.sync
  generalize ({ s with replay := dropFirst k s.replay } : State).nextStamp = u at h1 ⊢
  dsimp only
  split
  · exact h1.trans (accessed_record _ _ _ _)
  · exact h1

/-! ## Walks -/

/-- A walk marks its leaf and caches it. -/
theorem accessed_noteLeaf (c : Ctx) (va : Nat) (w : Bool) (l : Option (Nat × Nat × Bool)) :
    Accessed h s (s.noteLeaf c va w l) := by
  unfold State.noteLeaf
  split
  · exact .refl
  · dsimp only
    generalize (if w then (0x60 : Byte) else 0x20) = v
    split <;> split <;>
      first
      | exact accessed_mem _ s.clusters _ (memWf_memWrite _ _ _)
      | exact accessed_mem s.mem s.clusters _ id

/-- No byte but the first of the leaf used changes. -/
theorem memRead_noteLeaf (c : Ctx) (va : Nat) (w : Bool) (l : Option (Nat × Nat × Bool)) (x : Nat)
    (hx : ∀ p, l = some p → x ≠ p.1) : memRead (s.noteLeaf c va w l).mem x = memRead s.mem x := by
  unfold State.noteLeaf
  split
  · rfl
  · rename_i a e b
    have hxa : x ≠ a := hx _ rfl
    dsimp only
    generalize (if w then (0x60 : Byte) else 0x20) = v
    split <;> split <;> first | exact memRead_memWrite_ne _ _ hxa | rfl

/-! ## Performing -/

/-- Bytes reach their place under the birth rules of Haze. -/
theorem accessed_writeT (tg : Target) (bs ks : List Byte) : Accessed h s (s.writeT tg bs ks) := by
  unfold State.writeT
  split
  · dsimp only
    split
    · exact accessed_mem _ s.clusters s.tlb (memWf_memWriteMasked _ _ _ _)
    · exact accessed_mem _ _ s.tlb fun w => memWf_memWriteMasked _ _ _ _ (memWf_memClear _ _ _ w)
  · exact accessed_mem _ s.clusters s.tlb (memWf_memWriteMasked _ _ _ _)

/-- What is taken from a queue stood in it. -/
theorem takeStore_mem {j : Nat} {l rest : List QStore} {q : QStore} (e : takeStore j l = some (q, rest)) :
    q ∈ l ∧ ∀ r ∈ rest, r ∈ l := by
  induction l generalizing rest with
  | nil => simp [takeStore] at e
  | cons a l ih =>
    simp only [takeStore] at e
    split at e
    · cases e; exact ⟨List.mem_cons_self .., fun r hr => List.mem_cons_of_mem _ hr⟩
    · split at e
      · rename_i r rs hr
        cases e
        obtain ⟨hq, hs⟩ := ih hr
        exact ⟨List.mem_cons_of_mem _ hq, fun x hx => (List.mem_cons.1 hx).elim (fun h => h ▸ List.mem_cons_self ..)
          fun h => List.mem_cons_of_mem _ (hs x h)⟩
      · cases e

theorem takeMerged_mem {j g w : Nat} {l rest : List QStore} {q : QStore} (e : s.takeMerged j g w l = some (q, rest)) :
    q ∈ l ∧ ∀ r ∈ rest, r ∈ l := by
  induction l generalizing rest with
  | nil => simp [State.takeMerged] at e
  | cons a l ih =>
    simp only [State.takeMerged] at e
    split at e
    · cases e; exact ⟨List.mem_cons_self .., fun r hr => List.mem_cons_of_mem _ hr⟩
    · split at e
      · rename_i r rs hr
        cases e
        obtain ⟨hq, hs⟩ := ih hr
        exact ⟨List.mem_cons_of_mem _ hq, fun x hx => (List.mem_cons.1 hx).elim (fun h => h ▸ List.mem_cons_self ..)
          fun h => List.mem_cons_of_mem _ (hs x h)⟩
      · cases e

/-- A queue without late loads holds none. -/
theorem hasLate_false {x : Hart} : x.hasLate = false ↔ ∀ q ∈ x.stores, q.ld = none := by
  simp [Hart.hasLate]

/-- A late load performs: registers take it. -/
theorem accessed_performLoad (q : QStore) (l : LateLoad) (rest : List QStore) (hl : (s.hartAt h).hasLate = true) :
    Accessed h s (s.performLoad h q l rest) := by
  unfold State.performLoad
  refine accessed_hart ?_ fun e => by rw [hl] at e; cases e
  dsimp only
  generalize (if !s.expired q.tgt then bytesNat (s.readT q.tgt l.n) >>> l.sh % 2 ^ l.width else 0) = v
  obtain ⟨g, w, k, e⟩ : ∃ g w k, ({ s.hartAt h with stores := rest } : Hart).putLate l v =
      { s.hartAt h with stores := rest, g := g, vec := w, dirty := k } := by
    unfold Hart.putLate
    split
    · split
      · split <;> exact ⟨_, _, _, rfl⟩
      · exact ⟨_, _, _, rfl⟩
    · exact ⟨_, _, _, rfl⟩
    · split <;> exact ⟨_, _, _, rfl⟩
  rw [e]
  unfold Hart.putBit
  split
  · split <;> exact ⟨_, _, _, _, _, rfl⟩
  · exact ⟨_, _, _, _, _, rfl⟩

/-- A tile's birth, once it is written whole. -/
theorem accessed_birthWhole (q : QStore) (rest : List QStore) : Accessed h s (s.birthWhole q rest) := by
  unfold State.birthWhole
  split
  · split
    · exact .refl
    · exact accessed_setBirth _ _ _
  · exact .refl

/-- A store's or an addition's bytes written, the hart's queue is the rest. -/
theorem accessed_rest {v : State} (a : Accessed h s v) (rest : List QStore) (d : Table (BitVec 64 × Nat))
    (hr : (s.hartAt h).hasLate = false → ∀ r ∈ rest, r.ld = none) :
    Accessed h s (v.setHart h { v.hartAt h with stores := rest, digest := d }) := by
  cases e : (s.hartAt h).hasLate with
  | false => exact a.trans (accessed_queue _ _ fun _ => by simpa using hr e)
  | true =>
    obtain ⟨⟨_, _, _, _, _, _, _, _, _, e2⟩, w2, o2, ⟨_, _, _, _, _, k2⟩, _⟩ := a
    exact ⟨⟨_, _, _, _, _, _, _, _, _, by rw [e2]; rfl⟩, w2, fun k hk => (State.hartAt_setHart_ne v _ hk).trans (o2 k hk),
      ⟨_, _, _, _, _, by rw [State.hartAt_setHart_self, k2]⟩, fun f => by rw [e] at f; cases f⟩

/-- A store performs. -/
theorem accessed_performStore (q : QStore) (rest : List QStore) (hr : (s.hartAt h).hasLate = false → ∀ r ∈ rest, r.ld = none) :
    Accessed h s (s.performStore h q rest) := by
  have h1 : Accessed h s (if q.rel then s.sync h 1 else s) := by
    split
    · exact accessed_sync _ _
    · exact .refl
  unfold State.performStore
  generalize (if q.rel then s.sync h 1 else s) = u at h1 ⊢
  dsimp only
  have h2 := h1.trans (accessed_writeT q.tgt (u.merged q).1 (u.merged q).2)
  generalize u.writeT q.tgt (u.merged q).1 (u.merged q).2 = v at h2 ⊢
  exact (accessed_rest h2 rest _ hr).trans (accessed_birthWhole _ _)

/-- An addition performs. -/
theorem accessed_performAdd (q : QStore) (f : AddFmt) (rest : List QStore)
    (hr : (s.hartAt h).hasLate = false → ∀ r ∈ rest, r.ld = none) : Accessed h s (s.performAdd h q f rest) := by
  unfold State.performAdd
  dsimp only
  have h2 := accessed_writeT (h := h) (s := s) q.tgt
    (natBytes q.bytes.length (f.sum (bytesNat (s.readT q.tgt q.bytes.length)) (bytesNat q.bytes))) []
  generalize s.writeT q.tgt (natBytes q.bytes.length (f.sum (bytesNat (s.readT q.tgt q.bytes.length)) (bytesNat q.bytes))) []
    = v at h2 ⊢
  refine Accessed.trans ?_ (accessed_birthWhole _ _)
  split
  · exact accessed_rest h2 rest _ hr
  · exact (accessed_rest h2 rest _ hr).trans (accessed_sync _ _)

/-- One access of the queue performs; it and what stays stood in the queue. -/
theorem accessed_perform (q : QStore) (rest : List QStore) (hq : q ∈ (s.hartAt h).stores)
    (hr : ∀ r ∈ rest, r ∈ (s.hartAt h).stores) : Accessed h s (s.perform h q rest) := by
  unfold State.perform
  split
  · rename_i l hl
    exact accessed_performLoad _ _ _ (by
      cases e : (s.hartAt h).hasLate with
      | true => rfl
      | false => rw [hasLate_false.1 e q hq] at hl; cases hl)
  · exact accessed_performAdd _ _ _ fun e r hm => hasLate_false.1 e r (hr r hm)
  · exact accessed_performStore _ _ fun e r hm => hasLate_false.1 e r (hr r hm)

theorem accessed_mergeWord (j g w n : Nat) : Accessed h s (s.mergeWord h j g w n) := by
  induction n generalizing s with
  | zero => exact .refl
  | succ n ih =>
    unfold State.mergeWord
    split
    · rename_i q rest e
      obtain ⟨hq, hr⟩ := takeMerged_mem e
      exact (accessed_perform _ _ hq hr).trans ih
    · exact .refl

/-- The oldest access of a slice performs, and those that merge with it. -/
theorem accessed_performOne (j : Nat) : Accessed h s (s.performOne h j) := by
  unfold State.performOne
  split
  · rename_i q rest e
    obtain ⟨hq, hr⟩ := takeStore_mem e
    dsimp only
    split
    · exact accessed_perform _ _ hq hr
    · exact (accessed_perform _ _ hq hr).trans (accessed_mergeWord _ _ _ _)
  · exact .refl

theorem accessed_drainSliceN (j n : Nat) : Accessed h s (s.drainSliceN h j n) := by
  induction n generalizing s with
  | zero => exact .refl
  | succ n ih => exact (accessed_performOne j).trans ih

/-- A slice's stores perform. -/
theorem accessed_drainSlice (j : Nat) : Accessed h s (s.drainSlice h j) := accessed_drainSliceN _ _

theorem accessed_drainN (n : Nat) : Accessed h s (s.drainN h n) := by
  induction n generalizing s with
  | zero => exact .refl
  | succ n ih => exact (accessed_performOne _).trans ih

/-- A join: every access of the hart performs. -/
theorem accessed_drain : Accessed h s (s.drain h) := accessed_drainN _

/-- Every late load of the hart performs. -/
theorem accessed_joinLate : Accessed h s (s.joinLate h) := by
  unfold State.joinLate
  generalize (s.hartAt h).stores.length = n
  induction n generalizing s with
  | zero => exact .refl
  | succ n ih =>
    unfold State.joinLateN
    split
    · exact (accessed_performOne _).trans ih
    · exact .refl

/-! ## Accesses -/

/-- A read, whatever state resolved its address and whatever it answers. -/
theorem accessed_loadVia (s0 : State) (va n : Nat) : Accessed h s (s.loadVia s0 h va n).1 := by
  unfold State.loadVia
  dsimp only
  split
  · exact .refl
  · split
    · exact .refl
    · split
      · exact .refl
      · exact accessed_noteLeaf _ _ _ _

/-- A load, whatever it answers. -/
theorem accessed_load (slice va n : Nat) : Accessed h s (s.load h slice va n).1 :=
  (accessed_drainSlice slice).trans (accessed_loadVia _ _ _)

/-- A store, whatever it answers. -/
theorem accessed_storeIn (slice group : Nat) (rel : Bool) (need : Need) (va : Nat) (bs ks : List Byte) (w : Option Nat) :
    Accessed h s (s.storeIn h slice group rel need va bs ks w).1 := by
  unfold State.storeIn
  dsimp only
  split
  · exact .refl
  · split
    · exact .refl
    · refine (accessed_noteLeaf _ _ _ _).trans (accessed_queue _ _ fun e => ?_)
      simpa [Hart.hasLate] using e

/-- A refused store changes nothing. -/
theorem storeIn_refused {slice group : Nat} {rel : Bool} {need : Need} {va : Nat} {bs ks : List Byte} {w : Option Nat}
    {k : Nat} (e : (s.storeIn h slice group rel need va bs ks w).2 = some k) :
    (s.storeIn h slice group rel need va bs ks w).1 = s := by
  unfold State.storeIn at e ⊢
  dsimp only at e ⊢
  cases hr : s.resolve (s.ctxOf h) need va with
  | error k => rfl
  | ok p =>
    rw [hr] at e
    dsimp only at e ⊢
    split at e
    · rename_i hb; rw [if_pos hb]
    · cases e

theorem accessed_store (slice : Nat) (need : Need) (va : Nat) (bs ks : List Byte) (w : Option Nat) :
    Accessed h s (s.store h slice need va bs ks w).1 := accessed_storeIn _ _ _ _ _ _ _ _

theorem store_refused {slice : Nat} {need : Need} {va : Nat} {bs ks : List Byte} {w : Option Nat} {k : Nat}
    (e : (s.store h slice need va bs ks w).2 = some k) : (s.store h slice need va bs ks w).1 = s := storeIn_refused e

/-- A refused store of the running hart changes nothing. -/
theorem storeNext_refused {slice group va : Nat} {bs ks : List Byte} {k : Nat}
    (e : (s.storeNext slice group va bs ks).2 = some k) : (s.storeNext slice group va bs ks).1 = s := by
  have hr := storeIn_refused (s := s) (h := s.turn) (slice := slice) (group := group) (rel := s.cur.relFence)
    (need := .store) (va := va) (bs := bs) (ks := ks) (w := none) (k := k)
  unfold State.storeNext at e ⊢
  generalize s.storeIn s.turn slice group s.cur.relFence .store va bs ks none = r at e hr ⊢
  obtain ⟨u, o⟩ := r
  cases o with
  | none => cases e
  | some j => exact hr e

end Sys2Proof.Machine
end

