-- ==== Sys2Proof/Laws/Held.lean ====
section
/-!
SUPPORT. A step where nothing is held back: what the machine runs is the plain instruction.
-/
namespace Sys2Proof.Machine

variable {s : State}

@[simp] theorem State.tryAll_nil : s.tryAll [] = some s := rfl

/-- A hart that holds nothing has nothing to release. -/
theorem State.release_none {h : Nat} (e : s.held = []) : s.release h = s := by simp [State.release, e]

/-- Only a step whose mask names the scalar slice holds an instruction. -/
theorem State.hold_none (e : nbit s.late 0 = false) (i : Instr) : s.hold i = none := by
  unfold State.hold
  cases heldLen i <;> simp [e]

/-- Before an instruction of a hart that holds nothing, late loads perform that it could depend on. -/
theorem State.beforeNext_plain (e : s.held = []) (i : Instr) :
    s.beforeNext i = if isEvent i then s else s.joinFor i := by
  unfold State.beforeNext
  split
  · rfl
  · split
    · rfl
    · rw [State.release_none e]

/-- With nothing held and no slice late, an instruction runs once the late loads it could depend on have performed. -/
theorem State.runNext_plain (e : s.held = []) (l : nbit s.late 0 = false) (i : Instr) :
    s.runNext i = exec i (if isEvent i then s else s.joinFor i) := by
  unfold State.runNext
  rw [State.hold_none l, State.beforeNext_plain e]

/-- A step that overtakes nothing is what its plan gives. -/
theorem State.oneStep_of_stays {t : State} (e : s.attempt = .next t) (h : s.stays t = true) : s.oneStep = .next t := by
  unfold State.oneStep
  rw [e]
  simp [h]

end Sys2Proof.Machine
end

