-- ==== Sys2Proof/Machine/KolletText.lean ====
section
/-!
DEFINITION. Kollet source text: tokens, names and the grammar (R32-R34).
DEDUCED (readings): log 43.
-/
namespace Sys2Proof.Kollet

/-! ## Diagnostics (R43) -/

/-- What the assembler reports, by the condition of R43 or of the rule named. -/
inductive Diag where
  | text                -- R32: not ASCII, no token, or a literal of more than 64 bits
  | grammar             -- R34: the line matches no production
  | unknownName         -- unknown mnemonic, directive or register; no form matches the operands
  | range               -- an immediate, offset or field value out of its range; an odd branch or `jal` distance
  | target              -- a branch or `jal` target in a data section, or undefined
  | symbol              -- a symbol defined twice or undefined, `.equ` referring forward, a register name as a symbol
  | value               -- R35-R37: overflow, division by zero, a shift count, an operation the value's kind lacks
  | absentRegister      -- a register that every accepted declaration lacks
  | compactRegister     -- a compact form naming a register above `v15`, or a mask other than `m0`
  | scaleIndex          -- a scale-file index of 256 or more
  | undeclaredProfile   -- an instruction of an undeclared profile
  | convoy              -- a convoy that breaks R40
  | frame               -- `.frame` outside a function or given twice; `frame(f)` where f has no frame
  | loneLo              -- `lo(x)` without its `hi(x)`
  | codedRange          -- a coded value out of range
  | data                -- data in a code section, a nonzero value in a `zero` section, code outside a code section
  | dwordCode           -- a `.dword` naming a code label in a file with a `frame(f)` relocation (R25)
  | tooMany             -- more than 255 sections; `.haze` above 1,024 or given twice
  | function            -- R39: a nested or unclosed `.fn`, a `.fnend` alone, `vset` outside every function
  | directive           -- R38, R42: operands a directive does not take, or no section open
  | mayBeAbsent         -- the one warning: a register that only some accepted declarations lack
  deriving DecidableEq, Repr

/-- Warnings do not stop assembly (R43). -/
def Diag.isError : Diag → Bool
  | .mayBeAbsent => false
  | _ => true

/-! ## Tokens (R32) -/

inductive Tok where
  | ident (s : String)
  | dir (s : String)      -- a directive name, in lower case, without its `.`
  | num (n : Int)         -- a 64-bit two's-complement value
  | sym (c : Char)        -- one of . , : [ ] ( ) + - * / % ~ & | ^
  | shl | shr
  deriving DecidableEq, Repr

def isLetter (c : Char) : Bool := ('a' ≤ c && c ≤ 'z') || ('A' ≤ c && c ≤ 'Z')
def isDigit (c : Char) : Bool := '0' ≤ c && c ≤ '9'

/-- A character of an identifier after its first (R32). -/
def isIdent (c : Char) : Bool := isLetter c || isDigit c || c == '_' || c == '.'

/-- An ASCII letter in lower case. -/
def lowerChar (c : Char) : Char := if 'A' ≤ c && c ≤ 'Z' then Char.ofNat (c.toNat + 32) else c

def lower (s : String) : String := String.ofList (s.toList.map lowerChar)

/-- The value of a digit in a base, if it is one. -/
def digitVal (base : Nat) (c : Char) : Option Nat :=
  let n := c.toNat
  let v := if isDigit c then n - 48 else if 'a' ≤ c && c ≤ 'f' then n - 87 else if 'A' ≤ c && c ≤ 'F' then n - 55 else base
  if v < base then some v else none

/-- The digits of a number; a run of `_` stands between two digits. `wantDigit`: a digit must come next. -/
def digits (base : Nat) : List Char → Bool → Nat → Option Nat
  | [], true, _ => none
  | [], false, acc => some acc
  | '_' :: cs, _, acc => digits base cs true acc
  | c :: cs, _, acc =>
    match digitVal base c with
    | some v => digits base cs false (base * acc + v)
    | none => none

/-- A number's text: decimal, `0x` or `0b` (R32). -/
def numText (cs : List Char) : Option Nat :=
  match cs with
  | '0' :: 'x' :: c :: r => if c == '_' then none else digits 16 (c :: r) true 0
  | '0' :: 'b' :: c :: r => if c == '_' then none else digits 2 (c :: r) true 0
  | c :: r => if c == '_' then none else digits 10 (c :: r) true 0
  | [] => none

/-- A 64-bit pattern as the signed value it denotes. -/
def signed64 (n : Nat) : Int := if n < 2 ^ 63 then n else (n : Int) - 2 ^ 64

/-- A character literal after its opening quote: the byte value and what follows the closing quote. -/
def charLit : List Char → Option (Nat × List Char)
  | '\\' :: 'n' :: '\'' :: r => some (10, r)
  | '\\' :: 't' :: '\'' :: r => some (9, r)
  | '\\' :: '0' :: '\'' :: r => some (0, r)
  | '\\' :: '\\' :: '\'' :: r => some (92, r)
  | '\\' :: '\'' :: '\'' :: r => some (39, r)
  | c :: '\'' :: r => if c == '\\' || c == '\'' then none else some (c.toNat, r)
  | _ => none

/-- The tokens of a line without its newline. `fuel` bounds the number of tokens and blanks. DESIGN CHOICE (log 47): the
`string` that R34's `dopnd` admits has no token form in R32, and no directive takes one; a quotation mark is an error. -/
def tokens : Nat → List Char → Option (List Tok)
  | 0, _ => none
  | _ + 1, [] => some []
  | fuel + 1, c :: cs =>
    if 128 ≤ c.toNat then none
    else if c == ' ' || c == '\t' then tokens fuel cs
    else if c == ';' then some []
    else if isLetter c || c == '_' then
      let w := (c :: cs).takeWhile isIdent
      (tokens fuel ((c :: cs).dropWhile isIdent)).map (.ident (String.ofList w) :: ·)
    else if isDigit c then
      let w := (c :: cs).takeWhile isIdent
      match numText w with
      | some n => if n < 2 ^ 64 then (tokens fuel ((c :: cs).dropWhile isIdent)).map (.num (signed64 n) :: ·) else none
      | none => none
    else if c == '\'' then
      match charLit cs with
      | some (n, r) => (tokens fuel r).map (.num n :: ·)
      | none => none
    else match c, cs with
      | '/', '/' :: _ => some []
      | '<', '<' :: r => (tokens fuel r).map (.shl :: ·)
      | '>', '>' :: r => (tokens fuel r).map (.shr :: ·)
      | '.', d :: r =>
        if isLetter d then
          let al := fun x => isLetter x || isDigit x
          let w := (d :: r).takeWhile al
          (tokens fuel ((d :: r).dropWhile al)).map (.dir (lower (String.ofList w)) :: ·)
        else (tokens fuel cs).map (.sym c :: ·)
      | _, _ =>
        if [',', ':', '[', ']', '(', ')', '+', '-', '*', '/', '%', '~', '&', '|', '^', '.'].contains c then
          (tokens fuel cs).map (.sym c :: ·)
        else none

/-- A text's lines (R32). DESIGN CHOICE (log 47): the last line may lack its `newline`, which R34 writes at a line's end. -/
def linesOf : List Char → List (List Char)
  | [] => [[]]
  | c :: cs =>
    if c == '\n' then [] :: linesOf cs
    else match linesOf cs with
      | l :: ls => (c :: l) :: ls
      | [] => [[c]]

/-! ## Register names (R33) -/

inductive RName where
  | g (n : Reg)
  | v (s : VSpec)      -- `v`, `o`, `l` and `vq` by their 6-bit specifier
  | m (n : BitVec 3)
  | sq (n : BitVec 2)
  | bq
  deriving DecidableEq, Repr

/-- A register's number: a decimal number below `n` without a leading zero. -/
def regNum (n : Nat) (cs : List Char) : Option Nat :=
  match cs with
  | ['0'] => some 0
  | c :: r => if c == '0' || (c :: r).any (fun x => !isDigit x) then none else
      match digits 10 (c :: r) true 0 with
      | some k => if k < n then some k else none
      | none => none
  | [] => none

/-- The register an identifier names (R33). -/
def regName (s : String) : Option RName :=
  match (lower s).toList with
  | ['b', 'q'] => some .bq
  | 's' :: 'q' :: r => (regNum 4 r).map fun k => .sq (BitVec.ofNat 2 k)
  | 'v' :: 'q' :: r => (regNum 4 r).map fun k => .v (BitVec.ofNat 6 (48 + k))
  | 'g' :: r => (regNum 32 r).map fun k => .g (BitVec.ofNat 5 k)
  | 'v' :: r => (regNum 32 r).map fun k => .v (BitVec.ofNat 6 k)
  | 'o' :: r => (regNum 8 r).map fun k => .v (BitVec.ofNat 6 (32 + k))
  | 'l' :: r => (regNum 2 r).map fun k => .v (BitVec.ofNat 6 (40 + k))
  | 'm' :: r => (regNum 8 r).map fun k => .m (BitVec.ofNat 3 k)
  | _ => none

/-- The names of the state registers and of the fields of R278 and R295, with the number of the whole register (R33,
R101, R278, R295). -/
def stateNames : List (String × Nat) :=
  [("tick", 0x000), ("hartid", 0x001), ("coreid", 0x002), ("clusterid", 0x003), ("profiles", 0x004),
   ("vtype", 0x010), ("vl", 0x011), ("vlb", 0x012), ("vlmax", 0x013), ("vbits", 0x014), ("lanes", 0x015),
   ("vdecl", 0x016), ("vtags", 0x017), ("est", 0x018), ("ecm", 0x019), ("fmode", 0x01A), ("fflags", 0x01B),
   ("gcnt", 0x020), ("gsa", 0x021), ("gsb", 0x022), ("gsd", 0x023), ("zseed", 0x024), ("mxg", 0x030), ("mxcfg", 0x031)] ++
  [("bbacur", 0x040), ("bbaidx", 0x041), ("bbaend", 0x042), ("bbafmt", 0x042), ("bbastr", 0x042), ("bbav", 0x042),
   ("bbalast", 0x043), ("bbbcur", 0x044), ("bbbidx", 0x045), ("bbbend", 0x046), ("bbbfmt", 0x046), ("bbbstr", 0x046),
   ("bbbv", 0x046), ("bbblast", 0x047)] ++
  [("sgpbase", 0x050), ("sgplim", 0x051), ("sgpnext", 0x052), ("sglimit", 0x053), ("sgmin", 0x054), ("sgpos", 0x055),
   ("sgprobe", 0x055), ("sggo", 0x055), ("sgext", 0x056), ("sgseg", 0x056), ("sgqsig", 0x057), ("sgqh", 0x057),
   ("sgqp", 0x057), ("sgdir0", 0x058), ("sgdir1", 0x059), ("sgdir2", 0x05A), ("sgdir3", 0x05B), ("sgdir4", 0x05C),
   ("sgdir5", 0x05D), ("sgdir6", 0x05E), ("sgdir7", 0x05F)] ++
  [("hzlife", 0x060), ("dirty", 0x070), ("xcause", 0x071), ("xpc", 0x072), ("xval", 0x073), ("xvec", 0x074),
   ("xstat", 0x075), ("xsave", 0x076), ("strip", 0x080), ("stripaddr", 0x081), ("retcnt", 0x082), ("vshare", 0x090),
   ("lanepart", 0x091), ("vskew", 0x092), ("budget", 0x0A0)]

/-- The number a state register's name stands for. -/
def stateNum (s : String) : Option Nat := (stateNames.find? fun p => p.1 == lower s).map (·.2)

/-- A name R33 keeps from being a symbol. -/
def isRegName (s : String) : Bool := (regName s).isSome || (stateNum s).isSome

/-- A register size, which no name may be (R37). -/
def isSizeName (s : String) : Bool := s == "vreg" || s == "mreg"

/-! ## Expressions (R34) -/

inductive Un where
  | neg | not | plus
  deriving DecidableEq, Repr

inductive Bin where
  | or | xor | and | shl | shr | add | sub | mul | div | mod
  deriving DecidableEq, Repr

inductive Expr where
  | num (n : Int)
  | sym (s : String)
  | dot
  | un (o : Un) (e : Expr)
  | bin (o : Bin) (a b : Expr)
  | bits (s : String)
  | vreg
  | mreg
  deriving DecidableEq, Repr

/-- The operator a token is at a level of the grammar: 0 `orx` to 5 `mulx`. -/
def opAt (level : Nat) (t : Tok) : Option Bin :=
  match level, t with
  | 0, .sym '|' => some .or
  | 1, .sym '^' => some .xor
  | 2, .sym '&' => some .and
  | 3, .shl => some .shl
  | 3, .shr => some .shr
  | 4, .sym '+' => some .add
  | 4, .sym '-' => some .sub
  | 5, .sym '*' => some .mul
  | 5, .sym '/' => some .div
  | 5, .sym '%' => some .mod
  | _, _ => none

/-- What the expression parser reads next: an expression of a level (6 is `unary`), or the rest of one whose left part
is known. -/
inductive Want where
  | level (n : Nat)
  | rest (n : Nat) (left : Expr)
  deriving DecidableEq, Repr

/-- Reads an expression; operators of equal precedence group left to right (R34). -/
def parseExpr : Nat → Want → List Tok → Option (Expr × List Tok)
  | 0, _, _ => none
  | fuel + 1, .rest n a, ts =>
    match ts with
    | t :: r =>
      match opAt n t with
      | some o =>
        match parseExpr fuel (.level (n + 1)) r with
        | some (b, r') => parseExpr fuel (.rest n (.bin o a b)) r'
        | none => none
      | none => some (a, ts)
    | [] => some (a, [])
  | fuel + 1, .level n, ts =>
    if n < 6 then
      match parseExpr fuel (.level (n + 1)) ts with
      | some (a, r) => parseExpr fuel (.rest n a) r
      | none => none
    else match ts with
      | .sym '-' :: r => (parseExpr fuel (.level 6) r).map fun p => (.un .neg p.1, p.2)
      | .sym '~' :: r => (parseExpr fuel (.level 6) r).map fun p => (.un .not p.1, p.2)
      | .sym '+' :: r => (parseExpr fuel (.level 6) r).map fun p => (.un .plus p.1, p.2)
      | .num k :: r => some (.num k, r)
      | .sym '.' :: r => some (.dot, r)
      | .sym '(' :: r =>
        match parseExpr fuel (.level 0) r with
        | some (e, .sym ')' :: r') => some (e, r')
        | _ => none
      | .ident s :: r =>
        if s == "bits" then
          match r with
          | .sym '(' :: .ident l :: .sym ')' :: r' => some (.bits l, r')
          | .sym '(' :: _ => none
          | _ => some (.sym s, r)
        else if s == "vreg" then some (.vreg, r)
        else if s == "mreg" then some (.mreg, r)
        else if (regName s).isSome then none
        else some (.sym s, r)
      | _ => none

/-- A whole token list as one expression. -/
def exprOf (ts : List Tok) : Option Expr :=
  match parseExpr (16 * ts.length + 16) (.level 0) ts with
  | some (e, []) => some e
  | _ => none

/-! ## Operands and lines (R34) -/

inductive Opnd where
  | reg (r : RName)
  | mem (base : Reg) (off : Option Expr)
  | mem2 (base idx : Reg)
  | expr (name : Option String) (e : Option Expr)   -- `name`: the operand is one identifier
  | hi (e : Expr)
  | lo (e : Expr)
  | frame (neg : Bool) (a : Option Expr) (f : String)
  deriving DecidableEq, Repr

/-- The register base of a memory operand. -/
def gName (s : String) : Option Reg :=
  match regName s with
  | some (.g n) => some n
  | _ => none

/-- The last of a list and what stands before it. -/
def splitLast : List Tok → List Tok × Option Tok
  | [] => ([], none)
  | [t] => ([], some t)
  | t :: ts => (t :: (splitLast ts).1, (splitLast ts).2)

/-- A `frame(f)` operand: an optional expression and a sign before it. -/
def frameOf (ts : List Tok) : Option Opnd :=
  match ts.reverse with
  | .sym ')' :: .ident f :: .sym '(' :: .ident "frame" :: pre =>
    match pre with
    | [] => some (.frame false none f)
    | .sym '+' :: p => if p.isEmpty then some (.frame false none f) else (exprOf p.reverse).map fun e => .frame false (some e) f
    | .sym '-' :: p => if p.isEmpty then some (.frame true none f) else (exprOf p.reverse).map fun e => .frame true (some e) f
    | _ => none
  | _ => none

/-- A plain expression, or an identifier that may be a keyword or a state register's name. -/
def exprOpnd (ts : List Tok) : Option Opnd :=
  match ts with
  | [.ident s] => some (.expr (some s) (exprOf ts))
  | _ => (exprOf ts).map fun e => .expr none (some e)

/-- One operand (R34). -/
def operandOf (ts : List Tok) : Option Opnd :=
  match frameOf ts with
  | some o => some o
  | none =>
    match ts with
    | [.ident s] =>
      match regName s with
      | some r => some (.reg r)
      | none => exprOpnd ts
    | .sym '[' :: .ident a :: r =>
      match gName a, splitLast r with
      | some g, (mid, some (.sym ']')) =>
        match mid with
        | [] => some (.mem g none)
        | [.sym ',', .ident b] => (gName b).map fun h => .mem2 g h
        | .sym '+' :: e => (exprOf e).map fun x => .mem g (some x)
        | .sym '-' :: e => (exprOf e).map fun x => .mem g (some (.un .neg x))
        | _ => none
      | _, _ => none
    | .ident s :: .sym '(' :: r =>
      if s == "hi" || s == "lo" then
        match splitLast r with
        | (mid, some (.sym ')')) => (exprOf mid).map fun e => if s == "hi" then .hi e else .lo e
        | _ => none
      else exprOpnd ts
    | _ => exprOpnd ts

/-- Token lists between the commas that stand outside brackets. -/
def splitCommas : List Tok → Nat → List Tok → List (List Tok)
  | [], _, acc => [acc.reverse]
  | t :: ts, depth, acc =>
    match t with
    | .sym ',' => if depth = 0 then acc.reverse :: splitCommas ts 0 [] else splitCommas ts depth (t :: acc)
    | .sym '[' => splitCommas ts (depth + 1) (t :: acc)
    | .sym ']' => splitCommas ts (depth - 1) (t :: acc)
    | _ => splitCommas ts depth (t :: acc)

/-- The operands of a statement. -/
def operandsOf (ts : List Tok) : Option (List Opnd) :=
  if ts.isEmpty then some [] else (splitCommas ts 0 []).mapM operandOf

inductive Stmt where
  | instr (mn : String) (ops : List Opnd)
  | dir (name : String) (ops : List Opnd)
  deriving DecidableEq, Repr

/-- A line: its number from 1, its label and its statement. -/
structure Line where
  no : Nat
  label : Option String
  stmt : Option Stmt
  deriving DecidableEq, Repr

/-- The statement of a line. A mnemonic begins with a letter and has no `_` (R34). -/
def stmtOf (ts : List Tok) : Option (Option Stmt) :=
  match ts with
  | [] => some none
  | .ident s :: r =>
    if s.toList.contains '_' then none else (operandsOf r).map fun o => some (.instr (lower s) o)
  | .dir s :: r => (operandsOf r).map fun o => some (.dir s o)
  | _ => none

/-- One line of text (R32, R34). -/
def lineOf (no : Nat) (cs : List Char) : Except Diag Line :=
  match (if cs.all fun c => c.toNat < 128 then tokens (cs.length + 1) cs else none) with
  | none => .error .text
  | some ts =>
    let (lab, rest) : Option String × List Tok :=
      match ts with
      | .ident s :: .sym ':' :: r => (some s, r)
      | _ => (none, ts)
    match stmtOf rest with
    | some st => .ok { no := no, label := lab, stmt := st }
    | none => .error .grammar

end Sys2Proof.Kollet
end

