-- ==== Sys2Proof/Machine/KolletForms.lean ====
section
/-!
DEFINITION. Kollet instruction forms: from a mnemonic and its operands, their expressions evaluated, to the instruction
and the relocations of its word (R34, R36, R43 and the syntax of each instruction's entry).
DEDUCED (readings): log 43.
-/
namespace Sys2Proof.Kollet

/-! ## Evaluated operands -/

/-- A relocatable value: a label (its name, section and offset) plus an addend (R35). `.` is a label without a name. -/
structure Place where
  name : String
  sect : Nat
  off : Nat
  addend : Int
  deriving DecidableEq, Repr

/-- The value of an expression (R35, R37). -/
inductive Val where
  | abs (n : Int)
  | rel (p : Place)
  | size (c nv nm : Int)
  deriving DecidableEq, Repr

/-- An operand whose expressions have been evaluated. -/
inductive Arg where
  | reg (r : RName)
  | mem (base : Reg) (off : Option (Except Diag Val))
  | mem2 (base idx : Reg)
  | val (name : Option String) (v : Except Diag Val)
  | hi (v : Except Diag Val)
  | lo (v : Except Diag Val)
  | frame (neg : Bool) (a : Except Diag Int) (f : String)

/-- What a word still needs once its instruction is known (R36). -/
inductive Need where
  | none
  | branch (p : Place)     -- `br16` or a distance in parcels
  | jump (p : Place)       -- `jal21` or a distance in parcels
  | hi (p : Place)
  | lo (p : Place)
  | frame (neg : Bool) (a : Int) (f : String)
  deriving DecidableEq, Repr

/-- An instruction as written, with its hint operand where it is a hint (R50). -/
structure Built where
  instr : Instr
  need : Need
  hint : Nat
  deriving DecidableEq, Repr

/-- A form's result: every condition of R43 its operands meet, and the instruction where they meet none. -/
abbrev Res := List Diag × Option Built

def ok (i : Instr) : Res := ([], some { instr := i, need := .none, hint := 0 })
def okNeed (i : Instr) (n : Need) : Res := ([], some { instr := i, need := n, hint := 0 })
def fail (d : Diag) : Res := ([d], none)

/-- One condition more. -/
def also (d : Diag) (r : Res) : Res := (d :: r.1, none)

/-- No form of the mnemonic matches the operands (R43). -/
def noForm : Res := fail .unknownName

/-! ## Fields -/

/-- An absolute value in a range, else an error (R43). -/
def inRange (lo hi : Int) (v : Except Diag Val) : Except Diag Int :=
  match v with
  | .ok (.abs n) => if lo ≤ n ∧ n ≤ hi then .ok n else .error .range
  | .ok _ => .error .value
  | .error d => .error d

/-- A field of `w` bits holding an absolute value between `lo` and `hi`; the other operands are looked at in any case. -/
def field (w : Nat) (lo hi : Int) (v : Except Diag Val) (k : BitVec w → Res) : Res :=
  match inRange lo hi v with
  | .ok n => k (BitVec.ofInt w n)
  | .error d => also d (k 0)

/-- A signed immediate field: an absolute value, `lo(x)`, or a frame term (R36). -/
def immArg (w : Nat) (lo hi : Int) (a : Arg) (k : BitVec w → Instr) : Res :=
  match a with
  | .val _ v => field w lo hi v fun n => ok (k n)
  | .lo (.ok (.rel p)) => okNeed (k 0) (.lo p)
  | .lo (.ok _) => fail .value
  | .lo (.error d) => fail d
  | .frame neg (.ok c) f => okNeed (k 0) (.frame neg c f)
  | .frame _ (.error d) _ => fail d
  | _ => noForm

/-- The offset of `[ga+imm]`, absent as zero. -/
def offArg (w : Nat) (lo hi : Int) (off : Option (Except Diag Val)) (k : BitVec w → Instr) : Res :=
  match off with
  | none => ok (k 0)
  | some v => field w lo hi v fun n => ok (k n)

/-- A keyword of a list, in the mnemonic's context (R34). -/
def keyword (tab : List (String × Nat)) (a : Arg) : Option Nat :=
  match a with
  | .val (some s) _ => (tab.find? fun p => p.1 == s).map (·.2)
  | _ => none

/-- A field given by a keyword only. -/
def kw (w : Nat) (tab : List (String × Nat)) (a : Arg) (k : BitVec w → Res) : Res :=
  match keyword tab a with
  | some n => k (BitVec.ofNat w n)
  | none => noForm

/-- One of a list of absolute values, each with its code. -/
def oneOf (w : Nat) (tab : List (Int × Nat)) (a : Arg) (k : BitVec w → Res) : Res :=
  match a with
  | .val _ (.ok (.abs n)) =>
    match tab.find? fun p => p.1 == n with
    | some p => k (BitVec.ofNat w p.2)
    | none => also .range (k 0)
  | .val _ (.error d) => also d (k 0)
  | .val _ _ => also .value (k 0)
  | _ => noForm

/-- An unsigned field of absolute value. -/
def nat (w : Nat) (lo hi : Int) (a : Arg) (k : BitVec w → Res) : Res :=
  match a with
  | .val _ v => field w lo hi v k
  | _ => noForm

/-- A trailing mask operand (R34). -/
def maskOf : List Arg → Option VMask
  | [] => some none
  | [.reg (.m k)] => some (some k)
  | _ => none

/-- The operands of a form without a mask, and those after them as an optional mask. -/
def withMask (rest : List Arg) (k : VMask → Res) : Res :=
  match maskOf rest with
  | some m => k m
  | none => noForm

/-! ## Shapes of forms -/

def r3 (k : Reg → Reg → Reg → Instr) : List Arg → Res
  | [.reg (.g d), .reg (.g a), .reg (.g b)] => ok (k d a b)
  | _ => noForm

def r2 (k : Reg → Reg → Instr) : List Arg → Res
  | [.reg (.g d), .reg (.g a)] => ok (k d a)
  | _ => noForm

/-- A short immediate (R86): imm12, signed. -/
def i12 (k : Reg → Reg → BitVec 12 → Instr) : List Arg → Res
  | [.reg (.g d), .reg (.g a), x] => immArg 12 (-2048) 2047 x (k d a)
  | _ => noForm

/-- A shift by an immediate (R86): 0 to 63. -/
def ish (k : Reg → Reg → BitVec 6 → Instr) : List Arg → Res
  | [.reg (.g d), .reg (.g a), x] => immArg 6 0 63 x (k d a)
  | _ => noForm

/-- `op gd, ga, imm` with imm16 (R86, R89). -/
def i16 (k : Reg → Reg → BitVec 16 → Instr) : List Arg → Res
  | [.reg (.g d), .reg (.g a), x] => immArg 16 (-32768) 32767 x (k d a)
  | _ => noForm

/-- A scalar load or store (R90, R91). -/
def ldst (k : Reg → Reg → BitVec 13 → Instr) : List Arg → Res
  | [.reg (.g d), .mem a off] => offArg 13 (-4096) 4095 off (k d a)
  | _ => noForm

/-- The target of a branch or jump: a label (R36). -/
def targetArg (a : Arg) (k : Place → Res) : Res :=
  match a with
  | .val _ (.ok (.rel p)) => k p
  | .val _ (.ok _) => fail .target
  | .val _ (.error .symbol) => fail .target
  | .val _ (.error d) => fail d
  | _ => noForm

/-- A conditional branch (R88). -/
def br (k : Reg → Reg → BitVec 13 → Instr) : List Arg → Res
  | [.reg (.g a), .reg (.g b), t] => targetArg t fun p => okNeed (k a b 0) (.branch p)
  | _ => noForm

/-- `bqz` and `bqnz` (R98). -/
def brq (k : BitVec 13 → Instr) : List Arg → Res
  | [t] => targetArg t fun p => okNeed (k 0) (.branch p)
  | _ => noForm

/-- A constant of imm21 (R87). -/
def i21 (k : Reg → BitVec 21 → Instr) : List Arg → Res
  | [.reg (.g d), .val _ v] => field 21 (-1048576) 1048575 v fun n => ok (k d n)
  | _ => noForm

def pcrelForm : List Arg → Res
  | [.reg (.g d), .hi (.ok (.rel p))] => okNeed (.pcrel d 0) (.hi p)
  | [.reg (.g _), .hi (.ok _)] => fail .value
  | [.reg (.g _), .hi (.error e)] => fail e
  | as => i21 .pcrel as

/-- `fcvt` to or from a fixed point of f fraction bits (R95). -/
def fx (k : Reg → Reg → BitVec 5 → Instr) : List Arg → Res
  | [.reg (.g d), .reg (.g a), f] => nat 5 0 31 f fun n => ok (k d a n)
  | _ => noForm

def orderKw : List (String × Nat) := [("rlx", 0), ("acq", 1), ("rel", 2), ("ar", 3)]
def scopeKw : List (String × Nat) := [("core", 0), ("cluster", 1), ("device", 2), ("system", 3)]

/-- An atomic (R311): n defaults to 8, the order to `rlx`. -/
def amo (k : Bool → BitVec 2 → Reg → Reg → Reg → Instr) : List Arg → Res
  | [.reg (.g d), .mem a none, .reg (.g b)] => ok (k true 0 d a b)
  | [.reg (.g d), .mem a none, .reg (.g b), n] =>
    oneOf 1 [(4, 0), (8, 1)] n fun z => ok (k (z = 1) 0 d a b)
  | [.reg (.g d), .mem a none, .reg (.g b), n, o] =>
    oneOf 1 [(4, 0), (8, 1)] n fun z => kw 2 orderKw o fun r => ok (k (z = 1) r d a b)
  | _ => noForm

def amoq : List Arg → Res
  | [.reg (.g d), .mem a none, .reg (.g b)] => ok (.amoAddq 0 d a b)
  | [.reg (.g d), .mem a none, .reg (.g b), o] => kw 2 orderKw o fun r => ok (.amoAddq r d a b)
  | _ => noForm

/-- A state register operand: its name or its number (R33). -/
def sreg (a : Arg) (k : BitVec 12 → Res) : Res :=
  match a with
  | .val (some s) v =>
    match stateNum s with
    | some n => k (BitVec.ofNat 12 n)
    | none => field 12 0 0xFFF v k
  | .val none v => field 12 0 0xFFF v k
  | _ => noForm

def sgetForm : List Arg → Res
  | [.reg (.g d), n] => sreg n fun k => ok (.sget d k)
  | _ => noForm

def ssetForm : List Arg → Res
  | [n, .reg (.g a)] => sreg n fun k => ok (.sset k a)
  | _ => noForm

def sswapForm : List Arg → Res
  | [.reg (.g d), n, .reg (.g a)] => sreg n fun k => ok (.sswap d k a)
  | _ => noForm

def trapKw : List (String × Nat) := [("fwd", 0), ("yld", 1), ("rerun", 2), ("dispose", 3)]

/-- `trap` (R339): a number, or one of the four names. -/
def trapForm : List Arg → Res
  | [x] =>
    match keyword trapKw x with
    | some 0 => ok .trapFwd
    | some 1 => ok .trapYld
    | _ => nat 10 0 1023 x fun n => ok (.trap n)
  | [x, .reg (.g d), .reg (.g a)] =>
    match keyword trapKw x with
    | some 2 => ok (.trapRerun d a)
    | some 3 => ok (.trapDispose d a)
    | _ => noForm
  | _ => noForm

def tretForm : List Arg → Res
  | [] => ok .tret
  | as => r2 .tretTask as

/-- An instruction without operands. -/
def none0 (i : Instr) : List Arg → Res
  | [] => ok i
  | _ => noForm

/-- One number. -/
def n1 (w : Nat) (lo hi : Int) (k : BitVec w → Instr) : List Arg → Res
  | [n] => nat w lo hi n fun x => ok (k x)
  | _ => noForm

def hintForm : List Arg → Res
  | [n] => nat 10 0 1023 n fun x => ([], some { instr := .hint, need := .none, hint := x.toNat })
  | _ => noForm

def qsendForm : List Arg → Res
  | [.reg (.sq q), .reg (.g a)] => ok (.qsend q a)
  | _ => noForm

def qrecvForm : List Arg → Res
  | [.reg (.g d), .reg (.sq q)] => ok (.qrecv d q)
  | _ => noForm

def g1 (k : Reg → Instr) : List Arg → Res
  | [.reg (.g a)] => ok (k a)
  | _ => noForm

/-- `fence kind, scope` (R309). -/
def fenceForm : List Arg → Res
  | [k, s] =>
    match keyword [("acquire", 0), ("release", 1), ("full", 2)] k, keyword scopeKw s with
    | some 0, some c => ok (ofScope (BitVec.ofNat 2 c) .fenceAcquireCore .fenceAcquireCluster .fenceAcquireDevice .fenceAcquireSystem)
    | some 1, some c => ok (ofScope (BitVec.ofNat 2 c) .fenceReleaseCore .fenceReleaseCluster .fenceReleaseDevice .fenceReleaseSystem)
    | some _, some c => ok (ofScope (BitVec.ofNat 2 c) .fenceFullCore .fenceFullCluster .fenceFullDevice .fenceFullSystem)
    | _, _ => noForm
  | _ => noForm

/-- `bar id, ga [, scope]` (R313). -/
def barForm : List Arg → Res
  | [i, .reg (.g a)] => nat 3 0 7 i fun n => ok (.bar n false a)
  | [i, .reg (.g a), s] =>
    nat 3 0 7 i fun n => kw 1 [("cluster", 0), ("device", 1)] s fun c => ok (.bar n (c = 1) a)
  | _ => noForm

def sizes4 : List (Int × Nat) := [(1, 0), (2, 1), (4, 2), (8, 3)]

/-- `ld.acq` and `st.rel` (R310). -/
def acqRel (k : BitVec 2 → BitVec 2 → Reg → Reg → Instr) : List Arg → Res
  | [.reg (.g d), .mem a none, n, s] => oneOf 2 sizes4 n fun z => kw 2 scopeKw s fun c => ok (k z c d a)
  | _ => noForm

/-- `wmon gd, [ga], n, scope, t` (R315): n is 4 or 8. -/
def wmonForm : List Arg → Res
  | [.reg (.g d), .mem a none, n, s, t] =>
    oneOf 2 [(4, 2), (8, 3)] n fun z => kw 2 scopeKw s fun c => nat 5 0 31 t fun x => ok (.wmon z c x d a)
  | _ => noForm

/-- `op gd, ga, n` of the copy commands (R249, R250). -/
def copyForm (hi : Int) (k : Reg → Reg → BitVec 5 → Instr) : List Arg → Res
  | [.reg (.g d), .reg (.g a), n] => nat 5 0 hi n fun x => ok (k d a x)
  | _ => noForm

/-- `cstat gd, n, w` (R251): a holds w and b holds n, as the worked word has them. -/
def cstatForm : List Arg → Res
  | [.reg (.g d), n, w] => nat 5 0 3 n fun x => nat 5 0 2 w fun y => ok (.cstat d y x)
  | _ => noForm

def ccanForm : List Arg → Res
  | [.reg (.g d), n] => nat 5 0 3 n fun x => ok (.ccan d x)
  | _ => noForm

/-! ## Compact and wide shapes -/

/-- A compact register: `v0` to `v15` (R55). -/
def low (s : VSpec) : Bool := s.toNat < 16

/-- A compact form (R55): `c.op vd, vb [, m0]`. -/
def compact (k : BitVec 4 → BitVec 4 → Bool → Instr) : List Arg → Res
  | .reg (.v d) :: .reg (.v b) :: rest =>
    withMask rest fun m =>
      if low d && low b then
        match m with
        | none => ok (k (d.setWidth 4) (b.setWidth 4) false)
        | some x => if x = 0 then ok (k (d.setWidth 4) (b.setWidth 4) true) else fail .compactRegister
      else fail .compactRegister
  | _ => noForm

/-- The immediate of a VI form: −32,768 to 65,535, the low 16 bits kept (R43). -/
def viImm (v : Except Diag Val) (k : BitVec 16 → Res) : Res := field 16 (-32768) 65535 v k

/-- A second source in a form the member accepts (R51, R153). -/
def src2 (vv vs vi : Bool) (a : Arg) (k : VSrc → Res) : Res :=
  match a with
  | .reg (.v r) => if vv then k (.vv r) else noForm
  | .reg (.g r) => if vs then k (.vs r) else noForm
  | .val _ v => if vi then viImm v fun n => k (.vi n) else noForm
  | _ => noForm

/-- `op vd, va, b [, mk]` (R153, R160, R161, R164). -/
def bin (vv vs vi : Bool) (k : VSpec → VSpec → VSrc → VMask → Instr) : List Arg → Res
  | .reg (.v d) :: .reg (.v a) :: b :: rest => src2 vv vs vi b fun s => withMask rest fun m => ok (k d a s m)
  | _ => noForm

/-- `op vd, va [, mk]`. -/
def un (k : VSpec → VSpec → VMask → Instr) : List Arg → Res
  | .reg (.v d) :: .reg (.v a) :: rest => withMask rest fun m => ok (k d a m)
  | _ => noForm

/-- `op vd, va, vb [, mk]`. -/
def v3m (k : VSpec → VSpec → VSpec → VMask → Instr) : List Arg → Res
  | .reg (.v d) :: .reg (.v a) :: .reg (.v b) :: rest => withMask rest fun m => ok (k d a b m)
  | _ => noForm

def vclampForm : List Arg → Res
  | .reg (.v d) :: .reg (.v a) :: .reg (.v b) :: .reg (.v c) :: rest =>
    withMask rest fun m => ok (.vclamp d a (.vv b) c m)
  | .reg (.v d) :: .reg (.v a) :: .reg (.g b) :: .reg (.g c) :: rest =>
    withMask rest fun m => ok (.vclamp d a (.vs b) (0#1 ++ c) m)
  | _ => noForm

/-- The source types of `vcvt` (R155): `ew` code in [2:0], kind in [6:3] (R105, R136). -/
def stypeKw : List (String × Nat) :=
  [("int4", 4 + 8 * 9), ("int8", 0), ("int16", 1), ("int32", 2), ("int64", 3),
   ("uint8", 0 + 8 * 1), ("uint16", 1 + 8 * 1), ("uint32", 2 + 8 * 1), ("uint64", 3 + 8 * 1),
   ("f16", 1 + 8 * 2), ("f32", 2 + 8 * 2), ("f64", 3 + 8 * 2), ("bf16", 1 + 8 * 3),
   ("fp8e4m3", 0 + 8 * 4), ("fp8e5m2", 0 + 8 * 5), ("fp6e2m3", 0 + 8 * 6), ("fp6e3m2", 0 + 8 * 7),
   ("fp4e2m1", 4 + 8 * 8)]

def vcvtForm : List Arg → Res
  | .reg (.v d) :: .reg (.v a) :: t :: rest => kw 7 stypeKw t fun st => withMask rest fun m => ok (.vcvt d a st m)
  | _ => noForm

/-- `vcvt.sb vd, va, stype, gb [, mk]` (R156); a mask is illegal operand when it runs. -/
def vcvtSbForm : List Arg → Res
  | .reg (.v d) :: .reg (.v a) :: t :: .reg (.g b) :: rest =>
    kw 7 stypeKw t fun st => withMask rest fun m => ok (.vcvtSb d a st b m)
  | _ => noForm

def condKw : List (String × Nat) :=
  [("eq", 0), ("ne", 1), ("lt", 2), ("le", 3), ("gt", 4), ("ge", 5), ("un", 6), ("or", 7)]

/-- `vcmp md, va, b, cond [, mk]` (R158). -/
def vcmpForm : List Arg → Res
  | .reg (.m d) :: .reg (.v a) :: b :: c :: rest =>
    src2 true true true b fun s => kw 4 condKw c fun x => withMask rest fun m => ok (.vcmp d a s x m)
  | _ => noForm

def vselForm : List Arg → Res
  | [.reg (.v d), .reg (.v a), .reg (.v b), .reg (.m k)] => ok (.vsel d a b k)
  | _ => noForm

def vdupForm : List Arg → Res
  | .reg (.v d) :: b :: rest => src2 false true true b fun s => withMask rest fun m => ok (.vdup d s m)
  | _ => noForm

def vidForm : List Arg → Res
  | .reg (.v d) :: rest => withMask rest fun m => ok (.vid d m)
  | _ => noForm

/-- A vector access at `[ga+imm]` with an optional mask (R218). -/
def vmem (k : VSpec → Reg → BitVec 16 → VMask → Instr) : List Arg → Res
  | .reg (.v d) :: .mem a off :: rest => withMask rest fun m => offArg 16 (-32768) 32767 off fun i => k d a i m
  | _ => noForm

/-- The same without a mask. -/
def vreg (k : VSpec → Reg → BitVec 16 → Instr) : List Arg → Res
  | [.reg (.v d), .mem a off] => offArg 16 (-32768) 32767 off (k d a)
  | _ => noForm

/-- A strided access (R218). -/
def vstride (k : VSpec → Reg → Reg → BitVec 16 → VMask → Instr) : List Arg → Res
  | .reg (.v d) :: .mem a off :: .reg (.g b) :: rest =>
    withMask rest fun m => offArg 16 (-32768) 32767 off fun i => k d a b i m
  | _ => noForm

/-- An indexed access (R218): `op v, [ga], vb [, n] [, mk]`, n = 1, 2, 4 or 8 as sc = log2 n. -/
def vindex (iw : Bool) (k : VSpec → Reg → VSpec → Bool → BitVec 2 → VMask → Instr) : List Arg → Res
  | .reg (.v d) :: .mem a none :: .reg (.v b) :: rest =>
    match rest with
    | .val x v :: rest' => oneOf 2 sizes4 (.val x v) fun sc => withMask rest' fun m => ok (k d a b iw sc m)
    | _ => withMask rest fun m => ok (k d a b iw 0 m)
  | _ => noForm

/-- A scale-file entry (R43). -/
def scaleArg (a : Arg) (k : BitVec 8 → Res) : Res :=
  match a with
  | .val _ (.ok (.abs n)) => if 256 ≤ n then also .scaleIndex (k 0) else field 8 0 255 (.ok (.abs n)) k
  | .val _ v => field 8 0 255 v k
  | _ => noForm

/-- `vlsc` and `vssc` (R224, R226). -/
def scales (k : BitVec 8 → Reg → Reg → Reg → Instr) : List Arg → Res
  | [f, .mem a none, .reg (.g b), .reg (.g c)] => scaleArg f fun x => ok (k x a b c)
  | _ => noForm

/-- `pref target, [ga+imm], gb` (R228). -/
def prefForm : List Arg → Res
  | [t, .mem a off, .reg (.g b)] =>
    kw 2 [("icache", 0), ("spad", 1), ("buffer", 2)] t fun x => offArg 16 (-32768) 32767 off fun i => .pref x a b i
  | _ => noForm

/-- `op vd, va, mk`, the mask required (R166). -/
def vmk (k : VSpec → VSpec → BitVec 3 → Instr) : List Arg → Res
  | [.reg (.v d), .reg (.v a), .reg (.m x)] => ok (k d a x)
  | _ => noForm

def viotaForm : List Arg → Res
  | .reg (.v d) :: .reg (.m s) :: rest => withMask rest fun m => ok (.viota d s m)
  | _ => noForm

def k3 (k : BitVec 3 → BitVec 3 → BitVec 3 → Instr) : List Arg → Res
  | [.reg (.m d), .reg (.m a), .reg (.m b)] => ok (k d a b)
  | _ => noForm

def k2 (k : BitVec 3 → BitVec 3 → Instr) : List Arg → Res
  | [.reg (.m d), .reg (.m a)] => ok (k d a)
  | _ => noForm

def k2m (k : BitVec 3 → BitVec 3 → VMask → Instr) : List Arg → Res
  | .reg (.m d) :: .reg (.m a) :: rest => withMask rest fun m => ok (k d a m)
  | _ => noForm

def kg (k : Reg → BitVec 3 → VMask → Instr) : List Arg → Res
  | .reg (.g d) :: .reg (.m a) :: rest => withMask rest fun m => ok (k d a m)
  | _ => noForm

def ksetForm : List Arg → Res
  | [.reg (.m d), .reg (.g a), n] => nat 10 0 1023 n fun x => ok (.kset d a x)
  | _ => noForm

def kgetForm : List Arg → Res
  | [.reg (.g d), .reg (.m a), n] => nat 10 0 1023 n fun x => ok (.kget d a x)
  | _ => noForm

/-- `zld` and `zst` (R182, R183): `op v, [ga, gc], gb`. -/
def zmem (k : VSpec → Reg → Reg → Reg → Instr) : List Arg → Res
  | [.reg (.v d), .mem2 a c, .reg (.g b)] => ok (k d a b c)
  | _ => noForm

def zbin (k : VSpec → VSpec → VSrc → Instr) : List Arg → Res
  | [.reg (.v d), .reg (.v a), b] => src2 true true false b fun s => ok (k d a s)
  | _ => noForm

def v2 (k : VSpec → VSpec → Instr) : List Arg → Res
  | [.reg (.v d), .reg (.v a)] => ok (k d a)
  | _ => noForm

def v3 (k : VSpec → VSpec → VSpec → Instr) : List Arg → Res
  | [.reg (.v d), .reg (.v a), .reg (.v b)] => ok (k d a b)
  | _ => noForm

def zcntForm : List Arg → Res
  | [.reg (.g d), .reg (.v a)] => ok (.zcnt d a)
  | _ => noForm

def zspliceForm : List Arg → Res
  | [.reg (.v d), .reg (.v a), .reg (.v b), .reg (.g c)] => ok (.zsplice d a b c)
  | _ => noForm

/-! ## Matrix, Bobbin, signatures, Haze, publication, configuration -/

/-- The format keywords of `mxfmt` (R256, R263). -/
def mxKw : List (String × Nat) :=
  [("fp4", 0), ("f4s8", 1), ("mxfp4", 2), ("fp6e2m3", 3), ("fp6e3m2", 4), ("mxfp6e2m3", 5), ("mxfp6e3m2", 6),
   ("fp8e4m3", 7), ("fp8e5m2", 8), ("mxfp8e4m3", 9), ("mxfp8e5m2", 10), ("mxint8", 11), ("int8", 12), ("int4", 13),
   ("bf16", 14), ("fp16", 15)]

/-- A format by its keyword or its code. -/
def mxArg (a : Arg) (k : BitVec 4 → Res) : Res :=
  match keyword mxKw a with
  | some n => k (BitVec.ofNat 4 n)
  | none => nat 4 0 15 a k

def mxfmtForm : List Arg → Res
  | [x, y] => mxArg x fun a => mxArg y fun b => ok (.mxfmt a b)
  | _ => noForm

/-- The drain format keywords (R239, R263). -/
def drainKw : List (String × Nat) :=
  [("raw32", 0x02), ("int8", 0x10), ("uint8", 0x11), ("int16", 0x12), ("uint16", 0x13), ("int32", 0x14), ("uint32", 0x15),
   ("f16", 0x20), ("f32", 0x21), ("f64", 0x22), ("bf16", 0x23), ("e4m3", 0x24), ("e5m2", 0x25), ("e2m3", 0x26),
   ("e3m2", 0x27)]

/-- The codes of R239. -/
def drainCodes : List (Int × Nat) :=
  [(0x00, 0x00), (0x01, 0x01), (0x02, 0x02), (0x03, 0x03), (0x10, 0x10), (0x11, 0x11), (0x12, 0x12), (0x13, 0x13),
   (0x14, 0x14), (0x15, 0x15), (0x16, 0x16), (0x20, 0x20), (0x21, 0x21), (0x22, 0x22), (0x23, 0x23), (0x24, 0x24),
   (0x25, 0x25), (0x26, 0x26), (0x27, 0x27), (0x28, 0x28), (0x29, 0x29), (0x2A, 0x2A)]

def drainArg (a : Arg) (k : BitVec 8 → Res) : Res :=
  match keyword drainKw a with
  | some n => k (BitVec.ofNat 8 n)
  | none => oneOf 8 drainCodes a k

def mxloadForm : List Arg → Res
  | [t, .mem a none, .reg (.g b), .reg (.g c)] => nat 2 0 3 t fun x => ok (.mxload x a b c)
  | _ => noForm

/-- The optional first scale entry. -/
def s0Of (rest : List Arg) (k : BitVec 8 → Res) : Res :=
  match rest with
  | [] => k 0
  | [x] => scaleArg x k
  | _ => noForm

def mxmulForm (z : Bool) : List Arg → Res
  | t :: acc :: .reg (.v a) :: .reg (.g b) :: rest =>
    nat 2 0 3 t fun x => nat 6 0 63 acc fun y => s0Of rest fun s => ok (.mxmul z x y s a b)
  | _ => noForm

def mxgrpForm (z : Bool) : List Arg → Res
  | acc :: .reg (.v a) :: .reg (.g b) :: rest => nat 6 0 63 acc fun y => s0Of rest fun s => ok (.mxgrp z y s a b)
  | _ => noForm

def mxdrainForm : List Arg → Res
  | t :: r0 :: .mem a none :: .reg (.g b) :: .reg (.g c) :: f :: rest =>
    nat 2 0 3 t fun x => nat 6 0 63 r0 fun y => drainArg f fun z => withMask rest fun m => ok (.mxdrain x y z a b c m)
  | _ => noForm

def mxdrainXForm : List Arg → Res
  | t :: r0 :: .mem a none :: .reg (.v b) :: .reg (.g c) :: f :: rest =>
    nat 2 0 3 t fun x => nat 6 0 63 r0 fun y => drainArg f fun z => withMask rest fun m => ok (.mxdrainX x y z a b c m)
  | _ => noForm

/-- `op [ga]`. -/
def m1 (k : Reg → Instr) : List Arg → Res
  | [.mem a none] => ok (k a)
  | _ => noForm

def streamKw : List (String × Nat) := [("a", 0), ("b", 1)]

/-- `bbset` (R282). -/
def bbsetForm (strict : Bool) : List Arg → Res
  | [s, f, .reg (.g a), .reg (.g b), .reg (.g c)] =>
    kw 1 streamKw s fun x => kw 2 [("s32", 0), ("s64", 1), ("dz4", 2), ("dz8", 3)] f fun y =>
      ok (.bbset (x = 1) y strict a b c)
  | _ => noForm

def bbgetForm : List Arg → Res
  | [.reg (.g d), s] => kw 1 streamKw s fun x => ok (.bbget d (x = 1))
  | _ => noForm

def bbmergeForm : List Arg → Res
  | [.reg (.v d), .reg (.v a), .reg (.v b), .reg (.m x), .reg (.m y)] => ok (.bbmerge d a b x y)
  | _ => noForm

/-- `sgproj h, b, d, [ga], gb` (R296): b 4 to 16, d 1 to 256. -/
def sgprojForm : List Arg → Res
  | [h, b, d, .mem a none, .reg (.g g)] =>
    nat 3 0 7 h fun x => nat 5 4 16 b fun y =>
      match d with
      | .val _ v =>
        match inRange 1 256 v with
        | .ok n => ok (.sgproj x y (BitVec.ofInt 8 (n - 1)) a g)
        | .error e => fail e
      | _ => noForm
  | _ => noForm

def sgkeyForm : List Arg → Res
  | [.reg (.g d), h, .reg (.v a), .reg (.g b), .reg (.g c)] => nat 3 0 7 h fun x => ok (.sgkey d x a b c)
  | _ => noForm

def sgsigForm : List Arg → Res
  | [.reg (.g d), h, .reg (.v a)] => nat 3 0 7 h fun x => ok (.sgsig d x a)
  | _ => noForm

def sggatherForm : List Arg → Res
  | [.reg (.v d), h, .reg (.v a), .reg (.g b)] => nat 3 0 7 h fun x => ok (.sggather d x a b)
  | _ => noForm

def sgclrForm : List Arg → Res
  | [h] =>
    nat 3 0 7 h fun x =>
      match x.toNat with
      | 0 => ok .sgclr0 | 1 => ok .sgclr1 | 2 => ok .sgclr2 | 3 => ok .sgclr3
      | 4 => ok .sgclr4 | 5 => ok .sgclr5 | 6 => ok .sgclr6 | _ => ok .sgclr7
  | _ => noForm

/-- `hzld vd, md, [ga+imm] [, mk]` (R229). -/
def hzldForm : List Arg → Res
  | .reg (.v d) :: .reg (.m x) :: .mem a off :: rest =>
    withMask rest fun m => offArg 16 (-32768) 32767 off fun i => .hzld d x a i m
  | _ => noForm

def hzrenewForm : List Arg → Res
  | [.reg (.g d), .mem a none, .reg (.g b)] => ok (.hzrenew d a b)
  | _ => noForm

def hzageForm : List Arg → Res
  | [.reg (.g d), .mem a off] => offArg 16 (-32768) 32767 off fun i => .hzage d a i
  | _ => noForm

def hzdropForm : List Arg → Res
  | [.mem a none, .reg (.g b)] => ok (.hzdrop a b)
  | _ => noForm

def r4 (k : Reg → Reg → Reg → Reg → Instr) : List Arg → Res
  | [.reg (.g d), .reg (.g a), .reg (.g b), .reg (.g c)] => ok (k d a b c)
  | _ => noForm

/-- `vdecl n` (R140): n is 32, 16 or 8. -/
def vdeclForm : List Arg → Res
  | [n] =>
    oneOf 2 [(32, 0), (16, 1), (8, 2)] n fun x =>
      match x.toNat with | 0 => ok .vdecl1 | 1 => ok .vdecl2 | _ => ok .vdecl4
  | _ => noForm

/-! ## The mnemonics -/

/-- A mnemonic: its name and its forms. -/
abbrev Row := String × (List Arg → Res)

def aluRows : List Row :=
  [("add", r3 .add), ("sub", r3 .sub), ("and", r3 .and), ("or", r3 .or), ("xor", r3 .xor), ("andn", r3 .andn),
   ("orn", r3 .orn), ("shl", r3 .shl), ("shr", r3 .shr), ("sar", r3 .sar), ("rotl", r3 .rotl), ("clt", r3 .clt),
   ("cltu", r3 .cltu), ("ceq", r3 .ceq), ("mul", r3 .mul), ("mulh", r3 .mulh), ("mulhu", r3 .mulhu), ("div", r3 .div),
   ("divu", r3 .divu), ("mod", r3 .mod), ("modu", r3 .modu), ("min", r3 .min), ("max", r3 .max), ("minu", r3 .minu),
   ("maxu", r3 .maxu), ("clz", r2 .clz), ("ctz", r2 .ctz), ("pop", r2 .pop), ("sext8", r2 .sext8),
   ("sext16", r2 .sext16), ("sext32", r2 .sext32), ("zext32", r2 .zext32), ("andi", i12 .andi), ("ori", i12 .ori),
   ("xori", i12 .xori), ("clti", i12 .clti), ("shli", ish .shli), ("shri", ish .shri), ("sari", ish .sari)]

/-- Immediates, loads and stores, control, with the aliases of R49: `call`, `ret`, `nop`. -/
def scalarRows : List Row :=
  [("addi", i16 .addi), ("ldb", ldst .ldb), ("ldbu", ldst .ldbu), ("ldh", ldst .ldh), ("ldhu", ldst .ldhu),
   ("ldw", ldst .ldw), ("ldwu", ldst .ldwu), ("ldd", ldst .ldd), ("stb", ldst .stb), ("sth", ldst .sth),
   ("stw", ldst .stw), ("std", ldst .std), ("beq", br .beq), ("bne", br .bne), ("blt", br .blt), ("bge", br .bge),
   ("bltu", br .bltu), ("bgeu", br .bgeu), ("jr", i16 .jr), ("lih", i21 .lih), ("pcrel", pcrelForm),
   ("ret", none0 (.jr 0 31 0)), ("nop", none0 (.addi 0 0 0)), ("hint", hintForm)] ++
  [("jal", fun as => match as with
      | [.reg (.g d), t] => targetArg t fun p => okNeed (.jal d 0) (.jump p)
      | _ => noForm),
   ("call", fun as => match as with
      | [t] => targetArg t fun p => okNeed (.jal 31 0) (.jump p)
      | _ => noForm)]

def floatRows : List Row :=
  [("fadd.s", r3 (.fadd false)), ("fadd.d", r3 (.fadd true)), ("fsub.s", r3 (.fsub false)), ("fsub.d", r3 (.fsub true)),
   ("fmul.s", r3 (.fmul false)), ("fmul.d", r3 (.fmul true)), ("fdiv.s", r3 (.fdiv false)), ("fdiv.d", r3 (.fdiv true)),
   ("fsqrt.s", r2 (.fsqrt false)), ("fsqrt.d", r2 (.fsqrt true)), ("fma.s", r3 (.fma false)), ("fma.d", r3 (.fma true)),
   ("fmin.s", r3 (.fmin false)), ("fmin.d", r3 (.fmin true)), ("fmax.s", r3 (.fmax false)), ("fmax.d", r3 (.fmax true)),
   ("fceq.s", r3 (.fceq false)), ("fceq.d", r3 (.fceq true)), ("fclt.s", r3 (.fclt false)), ("fclt.d", r3 (.fclt true)),
   ("fcle.s", r3 (.fcle false)), ("fcle.d", r3 (.fcle true)), ("fclass.s", r2 (.fclass false)),
   ("fclass.d", r2 (.fclass true))] ++
  [("fcvt.ds", r2 (.fcvtSize false)), ("fcvt.sd", r2 (.fcvtSize true)), ("fcvt.xs", fx (.fcvtToFixed false)),
   ("fcvt.xd", fx (.fcvtToFixed true)), ("fcvt.sx", fx (.fcvtFromSigned false)), ("fcvt.dx", fx (.fcvtFromSigned true)),
   ("fcvt.su", fx (.fcvtFromUnsigned false)), ("fcvt.du", fx (.fcvtFromUnsigned true))]

def systemRows : List Row :=
  [("amo.swap", amo .amoSwap), ("amo.add", amo .amoAdd), ("amo.and", amo .amoAnd), ("amo.or", amo .amoOr),
   ("amo.xor", amo .amoXor), ("amo.min", amo .amoMin), ("amo.max", amo .amoMax), ("amo.minu", amo .amoMinu),
   ("amo.maxu", amo .amoMaxu), ("amo.cas", amo .amoCas), ("amo.addq", amoq), ("sget", sgetForm), ("sset", ssetForm),
   ("sswap", sswapForm), ("trap", trapForm), ("tret", tretForm), ("brkpt", n1 12 0 4095 .brkpt), ("idle", none0 .idle)] ++
  [("qsend", qsendForm), ("qrecv", qrecvForm), ("qflag", g1 .qflag), ("bqz", brq .bqz), ("bqnz", brq .bqnz),
   ("spawn", r2 .spawn), ("yield", g1 .yield), ("fence", fenceForm), ("lsync", none0 .lsync), ("bar", barForm),
   ("ld.acq", acqRel .ldAcq), ("st.rel", acqRel .stRel), ("wmon", wmonForm)]

def copyRows : List Row :=
  [("cpy", copyForm 3 .cpy), ("cwait", copyForm 5 .cwait), ("cstat", cstatForm), ("ccan", ccanForm)]

def compactRows : List Row :=
  [("c.add", compact .cAdd), ("c.sub", compact .cSub), ("c.mul", compact .cMul), ("c.fma", compact .cFma),
   ("c.min", compact .cMin), ("c.max", compact .cMax), ("c.and", compact .cAnd), ("c.xor", compact .cXor),
   ("c.exp2", compact .cExp2), ("c.mv", compact .cMv)]

def unit0Rows : List Row :=
  [("vadd", bin true true true .vadd), ("vsub", bin true true true .vsub), ("vrsb", bin true true true .vrsb),
   ("vmin", bin true true true .vmin), ("vmax", bin true true true .vmax), ("vand", bin true true true .vand),
   ("vor", bin true true true .vor), ("vxor", bin true true true .vxor), ("vandn", bin true true true .vandn),
   ("vshl", bin true true true .vshl), ("vshr", bin true true true .vshr), ("vsar", bin true true true .vsar),
   ("vabs", un .vabs), ("vneg", un .vneg), ("vclamp", vclampForm), ("vcvt", vcvtForm), ("vcvt.sb", vcvtSbForm),
   ("vscl", bin false true true .vscl), ("vcmp", vcmpForm), ("vsel", vselForm), ("vmv", un .vmv), ("vdup", vdupForm),
   ("vid", vidForm)]

def unit1Rows : List Row :=
  [("vmul", bin true true true .vmul), ("vmulh", bin true true false .vmulh), ("vfma", bin true true false .vfma),
   ("vfms", bin true true false .vfms), ("vfnma", bin true true false .vfnma)]

def unit2Rows : List Row :=
  [("vdiv", bin true true false .vdiv), ("vmod", bin true true false .vmod), ("vsqrt", un .vsqrt), ("vexp2", un .vexp2),
   ("vlog2", un .vlog2), ("vrcp", un .vrcp), ("vrsq", un .vrsq), ("vsinpi", un .vsinpi), ("vcospi", un .vcospi),
   ("vtanh", un .vtanh), ("vsigm", un .vsigm), ("vgelu", un .vgelu), ("vsilu", un .vsilu)]

def unit3Rows : List Row :=
  [("vld", vmem .vld), ("vlds", vstride .vlds), ("vldx", vindex false .vldx), ("vldx.d", vindex true .vldx),
   ("vldx.c", un .vldxC), ("vldff", vmem .vldff), ("vlsc", scales (.vlsc false)), ("vlsc.b", scales (.vlsc true)),
   ("vldreg", vreg .vldreg), ("pref", prefForm)]

def unit4Rows : List Row :=
  [("vst", vmem .vst), ("vsts", vstride .vsts), ("vstx", vindex false .vstx), ("vstx.d", vindex true .vstx),
   ("vstx.c", un .vstxC), ("vsadd", vindex false .vsadd), ("vsadd.d", vindex true .vsadd), ("vstreg", vreg .vstreg),
   ("vssc", scales (.vssc false)), ("vssc.b", scales (.vssc true))]

def unit5Rows : List Row :=
  [("vslup", bin false true true .vslup), ("vsldn", bin false true true .vsldn), ("vperm", v3m .vperm),
   ("vcomp", vmk .vcomp), ("vexpand", vmk .vexpand), ("viota", viotaForm), ("vsum", v3m .vsum), ("vmaxv", v3m .vmaxv),
   ("vminv", v3m .vminv), ("vandv", v3m .vandv), ("vorv", v3m .vorv), ("vxorv", v3m .vxorv), ("kand", k3 .kand),
   ("kor", k3 .kor), ("kxor", k3 .kxor), ("knot", k2 .knot), ("kpop", kg .kpop), ("kfirst", kg .kfirst),
   ("ksbf", k2m .ksbf), ("ksif", k2m .ksif), ("kset", ksetForm), ("kget", kgetForm)]

def unit6Rows : List Row :=
  [("zld", zmem .zld), ("zst", zmem .zst), ("zadd", zbin .zadd), ("zsub", zbin .zsub), ("zmul", zbin .zmul),
   ("zmin", zbin .zmin), ("zmax", zbin .zmax), ("zdec", v2 .zdec), ("zdec.f", v2 .zdecF), ("zenc", v2 .zenc),
   ("zenc.f", v2 .zencF), ("zscan", v2 .zscan), ("zcnt", zcntForm), ("zsplice", zspliceForm)]

def unit7Rows : List Row :=
  [("mxattach", r2 .mxattach), ("mxdetach", n1 4 0 15 .mxdetach), ("mxfmt", mxfmtForm), ("mxload", mxloadForm),
   ("mxmul", mxmulForm false), ("mxmul.z", mxmulForm true), ("mxgrp", mxgrpForm false), ("mxgrp.z", mxgrpForm true),
   ("mxzero", n1 4 0 15 .mxzero), ("mxwait", n1 4 0 15 .mxwait), ("mxdrain", mxdrainForm), ("mxdrain.x", mxdrainXForm),
   ("mxsave", m1 .mxsave), ("mxrest", m1 .mxrest)]

def unit8Rows : List Row :=
  [("bbset", bbsetForm false), ("bbset.s", bbsetForm true), ("bbget", bbgetForm), ("bbisect", v3 .bbisect),
   ("bbmerge", bbmergeForm), ("bbwalk", v2 .bbwalk)]

def unit9Rows : List Row :=
  [("sgproj", sgprojForm), ("sgkey", sgkeyForm), ("sgsig", sgsigForm), ("sggather", sggatherForm), ("sgclr", sgclrForm)]

def unit10Rows : List Row :=
  [("hzld", hzldForm), ("hzrenew", hzrenewForm), ("hzage", hzageForm), ("hzdrop", hzdropForm)]

def unit11Rows : List Row := [("pub", r2 .pub), ("shsync", r4 .shsync)]

def unit12Rows : List Row := [("vset", r2 .vset), ("vsetb", r2 .vsetb), ("vdecl", vdeclForm), ("vcfg", r2 .vcfg)]

/-- Mnemonics of one length, unit and profile (R44, R53, R54). `unit` is 16 where a word has none. -/
structure Group where
  len : Nat
  unit : Nat
  profile : Nat
  rows : List Row

/-- The opcode map as its mnemonics (R49, R53, R54, R55). -/
def groups : List Group :=
  [⟨4, 16, 0, aluRows⟩, ⟨4, 16, 0, scalarRows⟩, ⟨4, 16, 0, floatRows⟩, ⟨4, 16, 0, systemRows⟩, ⟨4, 16, 6, copyRows⟩,
   ⟨2, 16, 1, compactRows⟩, ⟨8, 0, 1, unit0Rows⟩, ⟨8, 1, 1, unit1Rows⟩, ⟨8, 2, 1, unit2Rows⟩, ⟨8, 3, 1, unit3Rows⟩,
   ⟨8, 4, 1, unit4Rows⟩, ⟨8, 5, 1, unit5Rows⟩, ⟨8, 6, 2, unit6Rows⟩, ⟨8, 7, 3, unit7Rows⟩, ⟨8, 8, 4, unit8Rows⟩,
   ⟨8, 9, 4, unit9Rows⟩, ⟨8, 10, 5, unit10Rows⟩, ⟨8, 11, 6, unit11Rows⟩, ⟨8, 12, 1, unit12Rows⟩]

/-- A mnemonic's group and row. -/
def findRow (mn : String) : List Group → Option (Group × Row)
  | [] => none
  | g :: gs =>
    match g.rows.find? fun r => r.1 == mn with
    | some r => some (g, r)
    | none => findRow mn gs

/-- The instruction of a mnemonic and its operands, every field at a value its entry allows (R34, R43). Where no form
matches, that alone is reported. -/
def build (mn : String) (as : List Arg) : Res :=
  match findRow mn groups with
  | none => noForm
  | some (_, r) =>
    match r.2 as with
    | ([], some b) => if b.instr.wf then ([], some b) else fail .range
    | (ds, _) => if ds.contains .unknownName then noForm else (ds, none)

end Sys2Proof.Kollet
end

