-- ==== Sys2Proof/Machine/Kollet.lean ====
section
/-!
DEFINITION. The kollet assembler: one source file to one FXO code object (R18-R23, R35-R43). It is no part of the device;
its output is the file the loader reads (R24).
DEDUCED (readings): log 43. DESIGN CHOICE: log 45 (the order of the tables and sections in the file).
-/
namespace Sys2Proof.Kollet

/-! ## Expressions (R35, R37) -/

/-- What an expression can name: symbols, coded bit lengths, and `.`. -/
structure Env where
  syms : List (String × Val)
  bitLens : List (String × Nat)
  here : Option Place

def lookup {α : Type} (n : String) (l : List (String × α)) : Option α := (l.find? fun p => p.1 == n).map (·.2)

/-- An absolute value, an error beyond signed 64 bits. -/
def absVal (n : Int) : Except Diag Val := if -2 ^ 63 ≤ n ∧ n < 2 ^ 63 then .ok (.abs n) else .error .value

/-- A bitwise operation on signed 64-bit values. -/
def bits64 (f : BitVec 64 → BitVec 64 → BitVec 64) (a b : Int) : Except Diag Val :=
  absVal (f (BitVec.ofInt 64 a) (BitVec.ofInt 64 b)).toInt

/-- An operator on absolute values. -/
def absBin (o : Bin) (a b : Int) : Except Diag Val :=
  match o with
  | .or => bits64 (· ||| ·) a b
  | .xor => bits64 (· ^^^ ·) a b
  | .and => bits64 (· &&& ·) a b
  | .shl => if 0 ≤ b ∧ b ≤ 63 then absVal (a * 2 ^ b.toNat) else .error .value
  | .shr => if 0 ≤ b ∧ b ≤ 63 then absVal (a / 2 ^ b.toNat) else .error .value
  | .add => absVal (a + b)
  | .sub => absVal (a - b)
  | .mul => absVal (a * b)
  | .div => if b = 0 then .error .value else absVal (a.tdiv b)
  | .mod => if b = 0 then .error .value else absVal (a.tmod b)

/-- A label plus an absolute addend. -/
def relVal (p : Place) (a : Int) : Except Diag Val :=
  if -2 ^ 63 ≤ a ∧ a < 2 ^ 63 then .ok (.rel { p with addend := a }) else .error .value

/-- A size of registers, each of its three numbers in signed 64 bits. -/
def sizeVal (c v m : Int) : Except Diag Val :=
  if [c, v, m].all fun n => -2 ^ 63 ≤ n && n < 2 ^ 63 then .ok (.size c v m) else .error .value

/-- An operator on any two values. DESIGN CHOICE (log 47): a size of registers (R37) is built with `+`, `-` and a product
with an absolute value; no other operator reduces to one. -/
def binVal (o : Bin) (a b : Val) : Except Diag Val :=
  match a, b with
  | .abs x, .abs y => absBin o x y
  | .rel p, .abs y =>
    match o with
    | .add => relVal p (p.addend + y)
    | .sub => relVal p (p.addend - y)
    | _ => .error .value
  | .abs x, .rel p =>
    match o with
    | .add => relVal p (x + p.addend)
    | _ => .error .value
  | .rel p, .rel q =>
    if o = .sub ∧ p.sect = q.sect then absVal ((p.off + p.addend) - (q.off + q.addend)) else .error .value
  | .size c v m, .abs y =>
    match o with
    | .add => sizeVal (c + y) v m
    | .sub => sizeVal (c - y) v m
    | .mul => sizeVal (c * y) (v * y) (m * y)
    | _ => .error .value
  | .abs x, .size c v m =>
    match o with
    | .add => sizeVal (x + c) v m
    | .sub => sizeVal (x - c) (-v) (-m)
    | .mul => sizeVal (x * c) (x * v) (x * m)
    | _ => .error .value
  | .size c v m, .size c' v' m' =>
    match o with
    | .add => sizeVal (c + c') (v + v') (m + m')
    | .sub => sizeVal (c - c') (v - v') (m - m')
    | _ => .error .value
  | _, _ => .error .value

def unVal (o : Un) (a : Val) : Except Diag Val :=
  match o, a with
  | .neg, .abs x => absVal (-x)
  | .not, .abs x => absVal (-x - 1)
  | .plus, .abs x => .ok (.abs x)
  | .neg, .size c v m => sizeVal (-c) (-v) (-m)
  | .plus, .size c v m => .ok (.size c v m)
  | _, _ => .error .value

/-- The value of an expression. -/
def eval (env : Env) : Expr → Except Diag Val
  | .num n => .ok (.abs n)
  | .sym s => match lookup s env.syms with | some v => .ok v | none => .error .symbol
  | .dot => match env.here with | some p => .ok (.rel p) | none => .error .directive
  | .un o e => match eval env e with | .ok v => unVal o v | .error d => .error d
  | .bin o a b =>
    match eval env a, eval env b with
    | .ok x, .ok y => binVal o x y
    | .error d, _ => .error d
    | _, .error d => .error d
  | .bits s => match lookup s env.bitLens with | some n => .ok (.abs n) | none => .error .symbol
  | .vreg => .ok (.size 0 1 0)
  | .mreg => .ok (.size 0 0 1)

/-- An absolute value in a range (R43). -/
def evalIn (env : Env) (lo hi : Int) (e : Expr) : Except Diag Int := inRange lo hi (eval env e)

/-- An operand evaluated. -/
def argOf (env : Env) : Opnd → Arg
  | .reg r => .reg r
  | .mem b e => .mem b (e.map (eval env))
  | .mem2 b i => .mem2 b i
  | .expr n (some e) => .val n (eval env e)
  | .expr n none => .val n (.error .symbol)
  | .hi e => .hi (eval env e)
  | .lo e => .lo (eval env e)
  | .frame neg none f => .frame neg (.ok 0) f
  | .frame neg (some e) f => .frame neg (match eval env e with | .ok (.abs n) => .ok n | .ok _ => .error .value | .error d => .error d) f

/-! ## The first pass: sections, symbols and places -/

/-- An open section (R20, R38): its kind, the largest alignment as log2, and its size so far. -/
structure Sect where
  name : String
  kind : Nat
  align : Nat
  size : Nat
  deriving DecidableEq, Repr

/-- A function (R21, R39). -/
structure Fn where
  name : String
  line : Nat
  sect : Nat
  start : Nat
  size : Nat
  frame : Option Nat
  deriving DecidableEq, Repr

/-- What a line puts into its section. -/
inductive Body where
  | instr (mn : String) (ops : List Opnd)
  | raw (bs : List Byte)
  | data (n : Nat) (es : List Expr)
  | frame (ops : List Opnd)
  deriving DecidableEq, Repr

/-- A line's body at its place. `marks` counts the `.fn` and `.fnend` lines before it. -/
structure Placed where
  line : Nat
  sect : Nat
  off : Nat
  fn : Option Nat
  marks : Nat
  body : Body
  deriving DecidableEq, Repr

/-- The header fields of `.accept` (R42), absent ones unset. -/
structure Accept where
  modes : Option Nat
  decls : Option Nat
  lanes : Option (Nat × Nat)
  vbits : Option (Nat × Nat)
  ident : Option Nat
  deriving DecidableEq, Repr

/-- The first pass's state. `known` and `knownBits` are what an earlier run of the pass has defined, for the names that a
directive may use before their definition. -/
structure Pass where
  known : List (String × Val)
  knownBits : List (String × Nat)
  sects : List Sect
  cur : Option Nat
  syms : List (String × Val)
  bitLens : List (String × Nat)
  fns : List Fn
  openFn : Option Nat
  frames : Nat
  marks : Nat
  out : List Placed            -- latest first
  profs : List (Nat × Nat)
  uses : List (Nat × Nat)      -- line and profile of each instruction, latest first
  accept : Accept
  haze : Option Nat
  diags : List (Nat × Diag)    -- latest first
  deriving DecidableEq, Repr

def Pass.init : Pass :=
  { known := [], knownBits := [], sects := [], cur := none, syms := [], bitLens := [], fns := [], openFn := none, frames := 0, marks := 0, out := [],
    profs := [], uses := [], accept := { modes := none, decls := none, lanes := none, vbits := none, ident := none },
    haze := none, diags := [] }

def Pass.err (p : Pass) (line : Nat) (d : Diag) : Pass := { p with diags := (line, d) :: p.diags }

/-- The open section and its number. -/
def Pass.sect (p : Pass) : Option (Nat × Sect) :=
  match p.cur with
  | some i => (p.sects[i]?).map fun s => (i, s)
  | none => none

/-- The place of the next byte. -/
def Pass.here (p : Pass) : Option Place :=
  p.sect.map fun s => { name := "", sect := s.1, off := s.2.size, addend := 0 }

def Pass.env (p : Pass) : Env := { syms := p.syms ++ p.known, bitLens := p.bitLens ++ p.knownBits, here := p.here }

/-- What `.equ` may name: no forward reference (R38). -/
def Pass.backward (p : Pass) : Env := { syms := p.syms, bitLens := p.bitLens, here := p.here }

/-- The conditions of several values, each reported. -/
def Pass.errs (p : Pass) (line : Nat) (ds : List (Except Diag Int)) : Pass :=
  ds.foldl (fun p d => match d with | .error e => p.err line e | .ok _ => p) p

/-- A symbol defined once, and no register's or register size's name (R33, R37, R43). -/
def Pass.define (p : Pass) (line : Nat) (n : String) (v : Val) : Pass :=
  if isRegName n || isSizeName n || (lookup n p.syms).isSome then p.err line .symbol else { p with syms := (n, v) :: p.syms }

/-- A label at the next byte of the section (R35). -/
def Pass.label (p : Pass) (line : Nat) (n : Option String) : Pass :=
  match n, p.here with
  | none, _ => p
  | some n, some h => p.define line n (.rel { h with name := n })
  | some _, none => p.err line .directive

/-- The function the current place is in: the open one, in its own section. DESIGN CHOICE (log 47): what is written while
another section is current is outside it, a `.frame` too. -/
def Pass.inFn (p : Pass) : Option Nat :=
  match p.openFn, p.cur with
  | some f, some c => if (p.fns[f]?).any (fun x => x.sect == c) then some f else none
  | _, _ => none

/-- The number under which what stands before any section is kept, so that the second pass reads it (R43). -/
def noSect : Nat := 65536

/-- A body of `n` bytes at the next byte; before any section it is an error, and its values are read all the same. -/
def Pass.emit (p : Pass) (line n : Nat) (b : Body) : Pass :=
  match p.sect with
  | some (i, s) =>
    { p with
      out := { line := line, sect := i, off := s.size, fn := p.inFn, marks := p.marks, body := b } :: p.out,
      sects := p.sects.set i { s with size := s.size + n } }
  | none =>
    { p.err line .directive with
      out := { line := line, sect := noSect, off := 0, fn := none, marks := p.marks, body := b } :: p.out }

/-- Opens a section or resumes the one of that name (R38). -/
def Pass.enter (p : Pass) (line kind : Nat) (n : String) : Pass :=
  match p.sects.findIdx? fun s => s.name == n with
  | some i => if (p.sects[i]?).any (fun s => s.kind == kind) then { p with cur := some i } else p.err line .directive
  | none =>
    let p := if 255 ≤ p.sects.length then p.err line .tooMany else p
    { p with sects := p.sects ++ [{ name := n, kind := kind, align := 3, size := 0 }], cur := some p.sects.length }

/-- Identifiers written as operands. -/
def nameOf : Opnd → Option String
  | .expr (some n) _ => some n
  | _ => none

/-- The expressions of operands. -/
def exprsOf (ops : List Opnd) : Option (List Expr) :=
  ops.mapM fun o => match o with | .expr _ (some e) => some e | _ => none

/-- `.code` and `.data` (R38). A register size names no section (R37). DESIGN CHOICE (log 47): nor does a register of the
table of R33, `g5` or `v1`, though a state register's name does. -/
def openSect (p : Pass) (line : Nat) (dir : String) (ops : List Opnd) : Pass :=
  let p := if ops.any fun o => (nameOf o).any isSizeName then p.err line .symbol else p
  match dir, ops.mapM nameOf with
  | "code", some [] => p.enter line 1 "code"
  | "code", some [n] => p.enter line 1 n
  | "data", some [] => p.enter line 3 "data"
  | "data", some ["ro"] => p.enter line 2 "rodata"
  | "data", some ["zero"] => p.enter line 4 "bss"
  | "data", some [n] => p.enter line 3 n
  | "data", some ["ro", n] => p.enter line 2 n
  | "data", some ["zero", n] => p.enter line 4 n
  | _, _ => p.err line .directive

/-- The profiles by number (R19). -/
def profNames : List (String × Nat) :=
  [("fsb", 0), ("fvx", 1), ("fcx", 2), ("fmx", 3), ("fsx", 4), ("fhx", 5), ("fex", 6)]

def dirProfile (p : Pass) (line : Nat) (ops : List Opnd) : Pass :=
  match ops with
  | [.expr (some n) _, .expr _ (some e)] =>
    match lookup n profNames, evalIn p.env 0 255 e with
    | some k, .ok v => { p with profs := p.profs ++ [(k, v.toNat)] }
    | some _, .error d => p.err line d
    | none, v => (p.err line .directive).errs line [v]
  | _ => p.err line .directive

/-- The bit set of distinct values, each with its bit. -/
def bitSet (l : List (Option Nat)) : Option Nat :=
  l.foldl (fun acc x =>
    match acc, x with
    | some a, some b => if (a / 2 ^ b) % 2 = 1 then none else some (a + 2 ^ b)
    | _, _ => none) (some 0)

/-- The values of an `.accept` keyword (R42), once each. -/
def dirAccept (p : Pass) (line : Nat) (ops : List Opnd) : Pass :=
  let a := p.accept
  let once := fun (given : Bool) => if given then p.err line .directive else p
  match ops with
  | [] => p.err line .directive
  | k :: vals =>
    match nameOf k with
    | some "modes" =>
      let p := once a.modes.isSome
      match bitSet (vals.map fun o => match nameOf o with
          | some "joined" => some 0 | some "split" => some 1 | _ => none) with
      | some m => if m = 0 then p.err line .directive else { p with accept := { a with modes := some m } }
      | none => p.err line .directive
    | some "ident" =>
      let p := once a.ident.isSome
      match exprsOf vals with
      | some [e] =>
        match evalIn p.env (-2 ^ 63) (2 ^ 63 - 1) e with
        | .ok n => { p with accept := { a with ident := some (BitVec.ofInt 64 n).toNat } }
        | .error d => p.err line d
      | _ => p.err line .directive
    | some "decls" =>
      let p := once a.decls.isSome
      match exprsOf vals with
      | some es =>
        match bitSet (es.map fun e => match eval p.env e with
            | .ok (.abs 32) => some 0 | .ok (.abs 16) => some 1 | .ok (.abs 8) => some 2 | _ => none) with
        | some m => if m = 0 then p.err line .directive else { p with accept := { a with decls := some m } }
        | none => p.err line .directive
      | none => p.err line .directive
    | some "lanegroups" =>
      let p := once a.lanes.isSome
      match exprsOf vals with
      | some [lo, hi] =>
        match evalIn p.env 0 8 lo, evalIn p.env 0 8 hi with
        | .ok l, .ok h => if l ≤ h then { p with accept := { a with lanes := some (l.toNat, h.toNat) } } else p.err line .range
        | l, h => p.errs line [l, h]
      | _ => p.err line .directive
    | some "vbits" =>
      let p := once a.vbits.isSome
      match exprsOf vals with
      | some [lo, hi] =>
        match evalIn p.env 0 (2 ^ 32 - 1) lo, evalIn p.env 0 (2 ^ 32 - 1) hi with
        | .ok l, .ok h => { p with accept := { a with vbits := some (l.toNat, h.toNat) } }
        | l, h => p.errs line [l, h]
      | _ => p.err line .directive
    | _ => p.err line .directive

/-- `.haze` (R38); one that is wrong counts as given. -/
def dirHaze (p : Pass) (line : Nat) (ops : List Opnd) : Pass :=
  let p := { (if p.haze.isSome then p.err line .tooMany else p) with haze := some 0 }
  match exprsOf ops with
  | some [e] =>
    match eval p.env e with
    | .ok (.abs n) => if n < 0 then p.err line .range else if 1024 < n then p.err line .tooMany else { p with haze := some n.toNat }
    | .ok _ => p.err line .value
    | .error d => p.err line d
  | _ => p.err line .directive

/-- `.fn` and `.fnend` (R39). -/
def dirFn (p : Pass) (line : Nat) (ops : List Opnd) : Pass :=
  match ops.mapM nameOf with
  | some [n] =>
    let p := p.label line (some n)
    match p.openFn, p.sect with
    | none, some (i, s) =>
      if s.kind = 1 then
        { p with
          fns := p.fns ++ [{ name := n, line := line, sect := i, start := s.size, size := 0, frame := none }],
          openFn := some p.fns.length, marks := p.marks + 1 }
      else p.err line .data
    | some _, _ => p.err line .function
    | none, none => p
  | _ => p.err line .directive

def dirFnend (p : Pass) (line : Nat) (ops : List Opnd) : Pass :=
  match ops, p.inFn, p.sect with
  | [], some f, some (_, s) =>
    { p with fns := p.fns.modify f fun x => { x with size := s.size - x.start }, openFn := none, marks := p.marks + 1 }
  | [], none, _ => p.err line .function
  | _, _, _ => p.err line .directive

/-- `.frame` (R38, R39): at most once inside a function; its operands are read in the second pass, those of one too many
too. -/
def dirFrame (p : Pass) (line : Nat) (ops : List Opnd) : Pass :=
  let q := p.emit line 0 (.frame ops)
  match p.inFn with
  | some f =>
    if (p.fns[f]?).any (fun x => x.frame.isSome) then q.err line .frame
    else { q with fns := q.fns.modify f fun x => { x with frame := some q.frames }, frames := q.frames + 1 }
  | none => q.err line .frame

def dirEqu (p : Pass) (line : Nat) (ops : List Opnd) : Pass :=
  match ops with
  | [.reg _, .expr _ (some e)] =>
    match eval p.backward e with
    | .error d => (p.err line .symbol).err line d
    | .ok _ => p.err line .symbol
  | [.reg _, _] => p.err line .symbol
  | [.expr (some n) _, .expr _ (some e)] =>
    match eval p.backward e with
    | .ok (.size ..) => (p.define line n (.abs 0)).err line .value
    | .ok v => p.define line n v
    | .error d => (p.define line n (.abs 0)).err line d
  | _ => p.err line .directive

/-- `.align n` (R38): zero bytes up to a multiple of n. -/
def dirAlign (p : Pass) (line : Nat) (ops : List Opnd) : Pass :=
  match exprsOf ops with
  | some [e] =>
    let p := if p.sect.isNone then p.err line .directive else p
    match evalIn p.env 1 65536 e with
    | .ok n =>
      let n := n.toNat
      if 2 ^ n.log2 = n then
        match p.sect with
        | some (i, s) =>
          let pad := (n - s.size % n) % n
          let p := p.emit line pad (.raw (List.replicate pad 0))
          { p with sects := p.sects.modify i fun s => { s with align := max s.align n.log2 } }
        | none => p
      else p.err line .range
    | .error d => p.err line d
  | _ => p.err line .directive

/-- A data directive's section: no code section (R38, R43). -/
def Pass.dataHere (p : Pass) (line : Nat) : Pass := if p.sect.any fun s => s.2.kind == 1 then p.err line .data else p

/-- `.byte`, `.half`, `.word`, `.dword`; the values are read in the second pass. -/
def dirData (p : Pass) (line n : Nat) (ops : List Opnd) : Pass :=
  let p := p.dataHere line
  match exprsOf ops with
  | some (e :: es) => p.emit line (n * (e :: es).length) (.data n (e :: es))
  | _ => p.err line .directive

/-- The u of each value of a coded directive (R41). -/
def codedUs (kind : String) : Int → List Int → Option (List Nat)
  | _, [] => some []
  | prev, v :: vs =>
    let d := v - prev
    let u : Option Nat :=
      if kind == "ezu" then some (BitVec.ofInt 64 v).toNat
      else if kind == "ezi" then some (Machine.zigzag v)
      else if -2 ^ 63 ≤ d ∧ d < 2 ^ 63 then some (Machine.zigzag d) else none
    match u, codedUs kind v vs with
    | some x, some xs => some (x :: xs)
    | _, _ => none

/-- Codes one after another: their bits as a number, and how many there are. -/
def packCodes (ez8 : Bool) : List Nat → Nat × Nat
  | [] => (0, 0)
  | u :: us =>
    let c := Machine.encodeCode ez8 u
    let r := packCodes ez8 us
    (c.1 + r.1 * 2 ^ c.2, c.2 + r.2)

/-- Absolute values. -/
def absList (env : Env) (es : List Expr) : Except Diag (List Int) :=
  es.mapM fun e => evalIn env (-2 ^ 63) (2 ^ 63 - 1) e

/-- `.ez4` and `.ez8` (R41), with the bit length for `bits` of the line's label. -/
def dirCoded (p : Pass) (line : Nat) (label : Option String) (ez8 : Bool) (ops : List Opnd) : Pass :=
  let p := p.dataHere line
  let zero := p.sect.any fun s => s.2.kind == 4
  match ops with
  | k :: rest =>
    match nameOf k, (exprsOf rest).map (absList p.env) with
    | some kind, some (.ok vals) =>
      let p := if zero && vals.any (· != 0) then p.err line .data else p
      if !(["ezu", "ezi", "ezd"].contains kind) then p.err line .directive
      else
        let (seed, vs) : Int × List Int :=
          if kind == "ezd" then (match vals with | sd :: r => (sd, r) | [] => (0, [])) else (0, vals)
        if vs.isEmpty then p.err line .directive
        else match codedUs kind seed vs with
          | none => p.err line .codedRange
          | some us =>
            let (b, n) := packCodes ez8 us
            let len := (n + 7) / 8
            let p := if zero && b != 0 && vals.all (· == 0) then p.err line .data else p
            let p := p.emit line len (.raw (leBytes len b))
            match label with
            | some l => { p with bitLens := (l, n) :: p.bitLens }
            | none => p
    | _, some (.error d) => p.err line d
    | _, _ => p.err line .directive
  | _ => p.err line .directive

/-- The unit of a member of a convoy: an unlabelled 64-bit word of unit 0 to 6 (R40). -/
def memberUnit (l : Line) : Option Nat :=
  match l.label, l.stmt with
  | none, some (.instr mn _) =>
    match findRow mn groups with
    | some (g, _) => if g.len = 8 ∧ g.unit ≤ 6 then some g.unit else none
    | none => none
  | _, _ => none

/-- The units of the n members of a convoy. -/
def memberUnits (n : Int) (rest : List Line) : Option (List Nat) :=
  if 2 ≤ n ∧ n ≤ 6 ∧ n.toNat ≤ rest.length then (rest.take n.toNat).mapM memberUnit else none

/-- The header word before the lines `rest`, or what is wrong with it (R40, R56). -/
def convoyWord (env : Env) (ops : List Opnd) (rest : List Line) : Except (List Diag) Nat :=
  match exprsOf ops with
  | some (c :: ch) =>
    let chain : Except Diag Int := match ch with | [] => .ok 0 | [e] => evalIn env 0 31 e | _ => .error .directive
    let chainErrs := match chain with | .ok _ => [] | .error .range => [.convoy] | .error d => [d]
    match eval env c with
    | .ok (.abs n) =>
      match memberUnits n rest, chain with
      | some us, .ok x =>
        let u := fun i => BitVec.ofNat 3 (us.getD i 0)
        match encode (.cvh (BitVec.ofInt 3 (n - 2)) (BitVec.ofInt 5 x) (u 1) (u 2) (u 3) (u 4) (u 5)) with
        | some e => if x < 2 ^ (n.toNat - 1) then .ok e.word.toNat else .error [.convoy]
        | none => .error [.convoy]
      | some _, .error _ => .error chainErrs
      | none, _ => .error (.convoy :: chainErrs)
    | .ok _ => .error (.value :: chainErrs)
    | .error d => .error (d :: chainErrs)
  | _ => .error [.directive]

/-- Words stand in a code section (R38, R43). -/
def Pass.codeHere (p : Pass) (line : Nat) : Pass := if p.sect.any fun s => s.2.kind != 1 then p.err line .data else p

/-- A convoy header before the lines `rest`, an instruction of FVX (R42). -/
def dirConvoy (p : Pass) (line : Nat) (ops : List Opnd) (rest : List Line) : Pass :=
  let p := { p.codeHere line with uses := (line, 1) :: p.uses }
  match convoyWord p.env ops rest with
  | .ok w => p.emit line 4 (.raw (leBytes 4 w))
  | .error ds => ds.foldl (fun p d => p.err line d) (p.emit line 4 (.raw (leBytes 4 0)))

/-- An instruction: 2, 4 or 8 bytes by its mnemonic, in a code section; `vset` and `vsetb` inside a function (R39). Its
operands are read in the second pass wherever it stands (R43). -/
def placeInstr (p : Pass) (line : Nat) (mn : String) (ops : List Opnd) (rest : List Line) : Pass :=
  if mn == "cvh" then dirConvoy p line ops rest
  else match findRow mn groups with
    | some (g, _) =>
      let p := p.codeHere line
      let p := if (mn == "vset" || mn == "vsetb") && p.inFn.isNone then p.err line .function else p
      { p.emit line g.len (.instr mn ops) with uses := (line, g.profile) :: p.uses }
    | none => p.err line .unknownName

/-- One line of the first pass; `rest` are the lines after it. DESIGN CHOICE (log 47): `.equ`, `.profile`, `.accept` and
`.haze`, which put nothing into a section, may stand while a zero section is current (R38 lists `.align` and data
directives alone). -/
def passLine (p : Pass) (l : Line) (rest : List Line) : Pass :=
  match l.stmt with
  | none => p.label l.no l.label
  | some (.instr mn ops) => placeInstr (p.label l.no l.label) l.no mn ops rest
  | some (.dir d ops) =>
    if d == "code" || d == "data" then (openSect p l.no d ops).label l.no l.label
    else
      let p := p.label l.no l.label
      match d with
      | "profile" => dirProfile p l.no ops
      | "accept" => dirAccept p l.no ops
      | "haze" => dirHaze p l.no ops
      | "fn" => dirFn p l.no ops
      | "fnend" => dirFnend p l.no ops
      | "frame" => dirFrame p l.no ops
      | "convoy" => dirConvoy p l.no ops rest
      | "equ" => dirEqu p l.no ops
      | "align" => dirAlign p l.no ops
      | "byte" => dirData p l.no 1 ops
      | "half" => dirData p l.no 2 ops
      | "word" => dirData p l.no 4 ops
      | "dword" => dirData p l.no 8 ops
      | "ez4" => dirCoded p l.no l.label false ops
      | "ez8" => dirCoded p l.no l.label true ops
      | _ => p.err l.no .unknownName

def passLines : Pass → List Line → Pass
  | p, [] => p
  | p, l :: ls => passLines (passLine p l ls) ls

/-- The first pass run until it finds the values it was given, of the names used before their definition: R38 bars such a
name in `.equ` only. Values that never settle refer to themselves. -/
def settlePass (ls : List Line) : Nat → Pass → Pass
  | 0, p => p.err 0 .symbol
  | n + 1, p =>
    let q := passLines { Pass.init with known := p.syms, knownBits := p.bitLens } ls
    if q.syms = p.syms ∧ q.bitLens = p.bitLens then q else settlePass ls n q

/-! ## The second pass: words, data and relocations -/

/-- A relocation entry (R23) with what orders it (R36): the label's name and marks of a `hi`, and the place of the `hi`
that a `lo` pairs with. -/
structure Rel where
  place : Nat
  sect : Nat
  kind : Nat
  target : Nat
  toff : Nat
  addend : Int
  name : String
  marks : Nat
  pair : Option Nat
  deriving DecidableEq, Repr

/-- The second pass's state; every list has its latest entry first. -/
structure Out where
  pieces : List (Nat × List Byte)
  rels : List Rel
  frames : List (Nat × Nat × Nat × Nat)     -- c, nv, nm, log2 of the alignment
  strips : List (Nat × Nat × Nat)           -- offset, function, section
  codeWords : List Nat                      -- lines of a `.dword` naming a code label
  diags : List (Nat × Diag)
  deriving DecidableEq, Repr

def Out.err (o : Out) (line : Nat) (d : Diag) : Out := { o with diags := (line, d) :: o.diags }
def Out.put (o : Out) (sect : Nat) (bs : List Byte) : Out := { o with pieces := (sect, bs) :: o.pieces }

/-- A distance in parcels written into a branch or a jump. -/
def withOff (i : Instr) (n : Int) : Instr :=
  match i with
  | .beq a b _ => .beq a b (BitVec.ofInt 13 n)
  | .bne a b _ => .bne a b (BitVec.ofInt 13 n)
  | .blt a b _ => .blt a b (BitVec.ofInt 13 n)
  | .bge a b _ => .bge a b (BitVec.ofInt 13 n)
  | .bltu a b _ => .bltu a b (BitVec.ofInt 13 n)
  | .bgeu a b _ => .bgeu a b (BitVec.ofInt 13 n)
  | .bqz _ => .bqz (BitVec.ofInt 13 n)
  | .bqnz _ => .bqnz (BitVec.ofInt 13 n)
  | .jal d _ => .jal d (BitVec.ofInt 21 n)
  | i => i

/-- The range of a word's immediate field (R48). -/
def immRange (i : Instr) : Int × Int :=
  match i with
  | .addi .. | .jr .. => (-32768, 32767)
  | .shli .. | .shri .. | .sari .. => (0, 63)
  | _ => (-2048, 2047)

/-- The bytes of an instruction; a hint carries its number in the function field (R50). -/
def bytesOf (b : Built) : List Byte :=
  match b.instr, encode b.instr with
  | .hint, _ => leBytes 4 ((0x400 + b.hint) * 2 ^ 16 + 0xF)
  | _, some e => leBytes e.len e.word.toNat
  | _, none => []

/-- A relocation's addend is a signed 32-bit number (R23). -/
def addendOk (a : Int) : Bool := -2 ^ 31 ≤ a && a < 2 ^ 31

/-- Whether the declaration with code `d` (0: 32, 1: 16, 2: 8) lacks a vector register (R129, R43). -/
def lacks (d : Nat) (r : VSpec) : Bool :=
  let n := r.toNat
  if d = 0 then false
  else if d = 1 then (16 ≤ n && n < 32) || (36 ≤ n && n < 40)
  else (8 ≤ n && n < 32) || (34 ≤ n && n < 40)

/-- The vector registers an operand list names. -/
def vregsOf (ops : List Opnd) : List VSpec :=
  ops.filterMap fun o => match o with | .reg (.v r) => some r | _ => none

/-- The accepted declarations' codes. -/
def declCodes (decls : Nat) : List Nat := (List.range 3).filter fun d => (decls / 2 ^ d) % 2 = 1

/-- Registers absent under all, or only some, of the accepted declarations (R43). -/
def checkRegs (decls : Nat) (ops : List Opnd) (o : Out) (line : Nat) : Out :=
  let ds := declCodes decls
  let gone := fun r => ds.all fun d => lacks d r
  let rs := vregsOf ops
  let o := if rs.any gone then o.err line .absentRegister else o
  if rs.any fun r => !gone r && ds.any fun d => lacks d r then o.err line .mayBeAbsent else o

/-- The kind of a section by its number. -/
def kindOf (p : Pass) (i : Nat) : Nat := match p.sects[i]? with | some s => s.kind | none => 0

/-- A branch or jump to `t`: placed in its own section, relocated in another code section (R36). -/
def reach (p : Pass) (pl : Placed) (b : Built) (t : Place) (kind : Nat) (lim : Int) (o : Out) : Out :=
  let d : Int := (t.off : Int) + t.addend - pl.off
  if kindOf p t.sect ≠ 1 then o.err pl.line .target
  else if d % 2 ≠ 0 then o.err pl.line .range
  else if t.sect = pl.sect then
    if -lim ≤ d / 2 ∧ d / 2 < lim then o.put pl.sect (bytesOf { b with instr := withOff b.instr (d / 2) })
    else o.err pl.line .range
  else if addendOk t.addend then
    { o.put pl.sect (bytesOf b) with
      rels := { place := pl.off, sect := pl.sect, kind := kind, target := t.sect, toff := t.off, addend := t.addend,
                name := "", marks := 0, pair := none } :: o.rels }
  else o.err pl.line .range

/-- A built instruction into its section, with its relocation (R36). -/
def placeBuilt (p : Pass) (pl : Placed) (b : Built) (o : Out) : Out :=
  match b.need with
  | .none => o.put pl.sect (bytesOf b)
  | .branch t => reach p pl b t 4 (2 ^ 12) o
  | .jump t => reach p pl b t 5 (2 ^ 20) o
  | .hi t =>
    if addendOk t.addend then
      { o.put pl.sect (bytesOf b) with
        rels := { place := pl.off, sect := pl.sect, kind := 2, target := t.sect, toff := t.off, addend := t.addend,
                  name := t.name, marks := pl.marks, pair := none } :: o.rels }
    else o.err pl.line .range
  | .lo t =>
    match o.rels.find? fun r => r.kind = 2 ∧ r.sect = pl.sect ∧ r.name = t.name ∧ r.marks = pl.marks ∧
        r.target = t.sect ∧ r.toff = t.off with
    | some h =>
      let (lo, hi) := immRange b.instr
      let d := t.addend - h.addend
      if lo ≤ -2048 + d ∧ 2047 + d ≤ hi ∧ addendOk t.addend then
        { o.put pl.sect (bytesOf b) with
          rels := { place := pl.off, sect := pl.sect, kind := 3, target := t.sect, toff := t.off, addend := t.addend,
                    name := "", marks := 0, pair := some h.place } :: o.rels }
      else o.err pl.line .range
    | none => o.err pl.line .loneLo
  | .frame neg a f =>
    match (p.fns.find? fun x => x.name == f).bind (·.frame) with
    | some k =>
      if addendOk a then
        { o.put pl.sect (bytesOf b) with
          rels := { place := pl.off, sect := pl.sect, kind := if neg then 7 else 6, target := 0, toff := k, addend := a,
                    name := "", marks := 0, pair := none } :: o.rels }
      else o.err pl.line .range
    | none => o.err pl.line .frame

/-- An instruction of the second pass. -/
def outInstr (p : Pass) (decls : Nat) (env : Env) (pl : Placed) (mn : String) (ops : List Opnd) (o : Out) : Out :=
  let o := checkRegs decls ops o pl.line
  let o := if mn == "vset" || mn == "vsetb" then { o with strips := (pl.off, pl.fn.getD 0, pl.sect) :: o.strips } else o
  let r := build mn (ops.map (argOf env))
  let o := r.1.foldl (fun o d => o.err pl.line d) o
  match r.2 with
  | some b => placeBuilt p pl b o
  | none => o

/-- The values of a data directive (R38, R43); a relocatable one only in a `.dword` (R36). -/
def outData (p : Pass) (env : Env) (pl : Placed) (n : Nat) : Nat → List Expr → Out → Out
  | _, [], o => o
  | off, e :: es, o =>
    let zero := decide (kindOf p pl.sect = 4)
    let o :=
      match eval env e with
      | .ok (.abs v) =>
        let o := if zero && v != 0 then o.err pl.line .data else o
        if n = 8 ∨ (-2 ^ (8 * n - 1) ≤ v ∧ v < 2 ^ (8 * n)) then
          o.put pl.sect (leBytes n (BitVec.ofInt (8 * n) v).toNat)
        else o.err pl.line .range
      | .ok (.rel t) =>
        let o := if zero then o.err pl.line .data else o
        if n ≠ 8 then o.err pl.line .value
        else if !addendOk t.addend then o.err pl.line .range
        else
          { o.put pl.sect (leBytes 8 0) with
            rels := { place := off, sect := pl.sect, kind := 1, target := t.sect, toff := t.off, addend := t.addend,
                      name := "", marks := 0, pair := none } :: o.rels,
            codeWords := if kindOf p t.sect = 1 then pl.line :: o.codeWords else o.codeWords }
      | .ok (.size ..) => o.err pl.line .value
      | .error d => o.err pl.line d
    outData p env pl n (off + n) es o

/-- A frame descriptor (R37, R38). -/
def outFrame (env : Env) (pl : Placed) (ops : List Opnd) (o : Out) : Out :=
  match exprsOf ops with
  | some [sz, al] =>
    let t : Except Diag (Int × Int × Int) :=
      match eval env sz with
      | .ok (.abs c) => .ok (c, 0, 0)
      | .ok (.size c v m) => .ok (c, v, m)
      | .ok (.rel _) => .error .value
      | .error d => .error d
    let t : Except Diag (Int × Int × Int) := match t with
      | .ok (c, v, m) => if 0 ≤ c ∧ c < 2 ^ 32 ∧ 0 ≤ v ∧ v < 65536 ∧ 0 ≤ m ∧ m < 65536 then .ok (c, v, m) else .error .range
      | .error d => .error d
    let a : Except Diag Nat := match evalIn env 8 4096 al with
      | .ok a => if 2 ^ a.toNat.log2 = a.toNat then .ok a.toNat else .error .range
      | .error d => .error d
    match t, a with
    | .ok (c, v, m), .ok a => { o with frames := (c.toNat, v.toNat, m.toNat, a.log2) :: o.frames }
    | t, a =>
      let o := match t with | .error d => o.err pl.line d | .ok _ => o
      match a with | .error d => o.err pl.line d | .ok _ => o
  | _ => o.err pl.line .directive

/-- A placed body of the second pass; every symbol is known. -/
def outPlaced (p : Pass) (decls : Nat) (o : Out) (pl : Placed) : Out :=
  let env : Env :=
    { syms := p.syms, bitLens := p.bitLens, here := some { name := "", sect := pl.sect, off := pl.off, addend := 0 } }
  match pl.body with
  | .raw bs => o.put pl.sect bs
  | .instr mn ops => outInstr p decls env pl mn ops o
  | .data n es => outData p env pl n pl.off es o
  | .frame ops => outFrame env pl ops o

/-! ## The code object (R18-R23, R36, R42) -/

/-- A section's entries in ascending place, each `pclo16` after the `pchi21` it pairs with (R36). -/
def orderRels (rels : List Rel) (i : Nat) : List Rel :=
  let mine := rels.filter fun r => r.sect == i
  (mine.filter fun r => r.pair.isNone).flatMap fun r =>
    r :: (if r.kind = 2 then mine.filter fun x => x.pair == some r.place else [])

/-- The relocation table: the code sections' entries, then the data sections' (R36). -/
def relTable (p : Pass) (rels : List Rel) : List Rel :=
  let idx := List.range p.sects.length
  ((idx.filter fun i => kindOf p i == 1) ++ (idx.filter fun i => kindOf p i != 1)).flatMap (orderRels rels)

/-- A section's bytes in the file; a `zero` section has none. -/
def sectContent (p : Pass) (pieces : List (Nat × List Byte)) (i : Nat) : List Byte :=
  if kindOf p i = 4 then [] else (pieces.filter fun x => x.1 == i).flatMap (·.2)

/-- The declared profiles: FSB 1 first where no `.profile fsb` is written (R42). -/
def profTable (p : Pass) : List (Nat × Nat) := if p.profs.any (fun x => x.1 == 0) then p.profs else (0, 1) :: p.profs

/-- The header values (R42), defaults filled in: modes, decls, the lane groups, the register sizes. -/
def headDecls (p : Pass) : Nat := p.accept.decls.getD 7

def headLanes (p : Pass) : Nat × Nat := p.accept.lanes.getD (1, 8)

/-- 8,192 × g × 32 / d. -/
def regBits (g d : Nat) : Nat := 8192 * g * 2 ^ d

def headVbits (p : Pass) : Nat × Nat :=
  let ds := declCodes (headDecls p)
  p.accept.vbits.getD (regBits (headLanes p).1 (ds.headD 0), regBits (headLanes p).2 (ds.getLastD 0))

/-- The file: header, the six tables in the header's order, then the sections' contents in theirs. -/
def fileOf (p : Pass) (o : Out) : List Byte :=
  let profs := profTable p
  let rels := relTable p o.rels.reverse
  let frames := o.frames.reverse
  let strips := o.strips.reverse
  let pieces := o.pieces.reverse
  let contents := (List.range p.sects.length).map (sectContent p pieces)
  let tProf := 80
  let tSect := tProf + 4 * profs.length
  let tFn := tSect + 32 * p.sects.length
  let tFrame := tFn + 16 * p.fns.length
  let tStrip := tFrame + 16 * frames.length
  let tRel := tStrip + 8 * strips.length
  let start := tRel + 16 * rels.length
  let tab := fun (off n : Nat) => leBytes 4 off ++ leBytes 4 n
  let offs := contents.foldl (fun (acc : List Nat × Nat) c => (acc.1 ++ [acc.2], acc.2 + c.length)) ([], start)
  leBytes 4 0x004F5846 ++ leBytes 2 1 ++ leBytes 2 (p.accept.modes.getD 1) ++ leBytes 8 (p.accept.ident.getD 0) ++
  leBytes 1 (headDecls p) ++ leBytes 1 (headLanes p).1 ++ leBytes 1 (headLanes p).2 ++ leBytes 1 0 ++
  leBytes 4 (headVbits p).1 ++ leBytes 4 (headVbits p).2 ++ leBytes 2 (p.haze.getD 0) ++ leBytes 2 0 ++
  tab tProf profs.length ++ tab tSect p.sects.length ++ tab tFn p.fns.length ++ tab tFrame frames.length ++
  tab tStrip strips.length ++ tab tRel rels.length ++
  (profs.flatMap fun x => leBytes 1 x.1 ++ leBytes 1 x.2 ++ leBytes 2 0) ++
  ((p.sects.zip offs.1).flatMap fun x =>
    leBytes 1 x.1.kind ++ leBytes 1 x.1.align ++ leBytes 6 0 ++ leBytes 8 (if x.1.kind = 4 then 0 else x.2) ++
      leBytes 8 x.1.size ++ leBytes 8 0) ++
  (p.fns.flatMap fun f =>
    leBytes 2 f.sect ++ leBytes 2 0 ++ leBytes 4 f.start ++ leBytes 4 f.size ++ leBytes 4 (f.frame.getD 0xFFFFFFFF)) ++
  (frames.flatMap fun f => leBytes 4 f.1 ++ leBytes 2 f.2.1 ++ leBytes 2 f.2.2.1 ++ leBytes 1 f.2.2.2 ++ leBytes 7 0) ++
  (strips.flatMap fun s => leBytes 4 s.1 ++ leBytes 2 s.2.1 ++ leBytes 1 s.2.2 ++ leBytes 1 0) ++
  (rels.flatMap fun r =>
    leBytes 4 r.place ++ leBytes 1 r.sect ++ leBytes 1 r.kind ++ leBytes 1 r.target ++ leBytes 1 0 ++
      leBytes 4 r.toff ++ leBytes 4 (BitVec.ofInt 32 r.addend).toNat) ++
  contents.flatten

/-- Lines read; a line that matches no production counts as empty and is reported. -/
def readLines : Nat → List (List Char) → List Line × List (Nat × Diag)
  | _, [] => ([], [])
  | n, cs :: rest =>
    let r := readLines (n + 1) rest
    match lineOf n cs with
    | .ok l => (l :: r.1, r.2)
    | .error d => ({ no := n, label := none, stmt := none } :: r.1, (n, d) :: r.2)

/-- An instruction of a profile the file does not declare (R42, R43). -/
def undeclared (p : Pass) : List (Nat × Diag) :=
  (p.uses.filter fun u => !(profTable p).any (fun x => x.1 == u.2)).map fun u => (u.1, .undeclaredProfile)

/-- A function left open (R39). -/
def unclosed (p : Pass) : List (Nat × Diag) :=
  match p.openFn with
  | some f => match p.fns[f]? with | some x => [(x.line, .function)] | none => []
  | none => []

/-- Code words in a file with a frame relocation (R25, R43). -/
def dwordCodes (o : Out) : List (Nat × Diag) :=
  if o.rels.any (fun r => r.kind = 6 ∨ r.kind = 7) then o.codeWords.map fun l => (l, .dwordCode) else []

/-- What the assembler makes of a source file. -/
structure Assembly where
  errors : List (Nat × Diag)       -- line and condition
  warnings : List (Nat × Diag)
  file : Option (List Byte)        -- none with any error (R43)
  deriving DecidableEq, Repr

/-- Kollet (R32-R43), on a source file's characters. -/
def assembleText (cs : List Char) : Assembly :=
  let r := readLines 1 (linesOf cs)
  let p := settlePass r.1 (r.1.length + 2) Pass.init
  let o := p.out.reverse.foldl (outPlaced p (headDecls p))
    { pieces := [], rels := [], frames := [], strips := [], codeWords := [], diags := [] }
  let all := r.2 ++ p.diags.reverse ++ unclosed p ++ undeclared p ++ o.diags.reverse ++ dwordCodes o
  let errs := all.filter fun d => d.2.isError
  { errors := errs, warnings := all.filter fun d => !d.2.isError,
    file := if errs.isEmpty then some (fileOf p o) else none }

/-- Kollet on a source file. -/
def assemble (src : String) : Assembly := assembleText src.toList

/-- Kollet on a source file given line by line. -/
def assembleLines (ls : List String) : Assembly := assembleText (ls.flatMap fun l => l.toList ++ ['\n'])

end Sys2Proof.Kollet
end

