-- ==== Sys2Proof/Laws/Kollet.lean ====
section
/-!
SUPPORT. Kollet: with any error there is no code object, and warnings do not stop assembly (R43).
-/
namespace Sys2Proof.Kollet

/-- A file with any error produces no code object, and one without produces it (R43). -/
theorem assembleText_file (cs : List Char) : (assembleText cs).file.isSome = (assembleText cs).errors.isEmpty := by
  simp only [assembleText]
  split
  · next h => rw [h]; rfl
  · next h => rw [Bool.eq_false_of_not_eq_true h]; rfl

/-- What is reported as an error is one, and a warning is none (R43). -/
theorem assembleText_severity (cs : List Char) :
    (∀ d ∈ (assembleText cs).errors, d.2.isError) ∧ ∀ d ∈ (assembleText cs).warnings, ¬ d.2.isError := by
  constructor <;> intro d h <;> simp only [assembleText, List.mem_filter] at h
  · exact h.2
  · simpa using h.2

end Sys2Proof.Kollet
end

