-- ==== Sys2Proof/Laws/Ops.lean ====
section
/-!
SUPPORT. The shared operations: retirement, exception entry, and how an effect becomes an outcome.
-/
namespace Sys2Proof.Machine

variable (s : State)

/-! ## Outcomes of effects -/

@[simp] theorem commit_done (i : Instr) (len : Nat) (t : State) :
    commit i len (.done t) = .next (t.finish t.turn (t.cur.pc + w64 len)) := rfl
@[simp] theorem commit_jump (i : Instr) (len : Nat) (t : State) (pc : Word) :
    commit i len (.jump t pc) = .next (t.finish t.turn pc) := rfl
@[simp] theorem commit_trap (i : Instr) (len : Nat) (t : State) (c : Nat) (v : Word) :
    commit i len (.trap t c v) = .next (t.takeTrap t.turn c v t.cur.pc true) := rfl
@[simp] theorem commit_out (i : Instr) (len : Nat) (t : State) : commit i len (.out t) = .next t := rfl

/-! ## Records -/

theorem Alone.refl : Alone s s := ⟨rfl, fun _ _ => rfl, fun _ => rfl⟩

theorem Alone.trans {a b c : State} (h : Alone a b) (k : Alone b c) : Alone a c := by
  have ht : b.turn = a.turn := by have := congrArg State.turn h.rest; exact this
  exact ⟨k.rest.trans h.rest, fun j hj => (k.others j (ht ▸ hj)).trans (h.others j hj),
    fun c => (k.clusters c).trans (h.clusters c)⟩

theorem alone_setCur (x : Hart) : Alone s (s.setCur x) :=
  ⟨rfl, fun _ hj => State.hartAt_setCur_ne s x hj, fun _ => rfl⟩

/-- A cluster whose counters or trace alone change. -/
theorem alone_setCluster (c : Nat) (x : Cluster) (h : x.still = (s.clusterAt c).still) : Alone s (s.setCluster c x) := by
  refine ⟨rfl, fun _ _ => rfl, fun d => ?_⟩
  by_cases hd : d = c
  · subst hd; simpa using h
  · rw [State.clusterAt_setCluster_ne s x hd]

theorem alone_count (h : Nat) (f : Counters → Counters) : Alone s (s.count h f) := alone_setCluster _ _ _ rfl

theorem alone_mem (m : List Host.Cell) : Alone s { s with mem := m } := ⟨rfl, fun _ _ => rfl, fun _ => rfl⟩

/-- A trace record touches the trace and memory alone. -/
theorem putRecord_alone (cl w0 w1 : Nat) :
    Alone s (s.putRecord cl w0 w1) ∧ (s.putRecord cl w0 w1).cur = s.cur := by
  unfold State.putRecord
  dsimp only
  split
  · exact ⟨alone_setCluster _ _ _ rfl, rfl⟩
  · exact ⟨(alone_mem s _).trans (alone_setCluster _ _ _ rfl), rfl⟩

/-- A time base is a record at most. -/
theorem timeBase_state (h : Nat) :
    (s.timeBase h).1 = s ∨ (s.timeBase h).1 = s.putRecord (clusterOf h) (7 + 16 * (h % 8)) s.tick := by
  unfold State.timeBase
  generalize s.putRecord (clusterOf h) (7 + 16 * (h % 8)) s.tick = u
  split
  · split
    · exact .inl rfl
    · exact .inr rfl
  · exact .inr rfl

theorem timeBase_alone (h : Nat) : Alone s (s.timeBase h).1 ∧ (s.timeBase h).1.cur = s.cur := by
  rcases timeBase_state s h with e | e <;> rw [e]
  · exact ⟨Alone.refl s, rfl⟩
  · exact putRecord_alone s _ _ _

theorem record_alone (h r sp w : Nat) : Alone s (s.record h r sp w) ∧ (s.record h r sp w).cur = s.cur := by
  have h1 := timeBase_alone s h
  unfold State.record
  have h2 := putRecord_alone (s.timeBase h).1 (clusterOf h) (recordHead h r (s.timeBase h).2 sp) w
  exact ⟨h1.1.trans h2.1, h2.2.trans h1.2⟩

theorem recordPair_alone (h r sp w f : Nat) :
    Alone s (s.recordPair h r sp w f) ∧ (s.recordPair h r sp w f).cur = s.cur := by
  have h1 := timeBase_alone s h
  unfold State.recordPair
  dsimp only
  generalize (s.timeBase h).1 = u at *
  generalize (s.timeBase h).2 = d
  split
  · exact ⟨h1.1.trans (alone_setCluster u _ _ rfl), h1.2⟩
  · have h2 := putRecord_alone u (clusterOf h) (recordHead h r d sp) w
    have h3 := putRecord_alone (u.putRecord (clusterOf h) (recordHead h r d sp) w) (clusterOf h) (recordHead h 15 0 0) f
    exact ⟨(h1.1.trans h2.1).trans h3.1, (h3.2.trans h2.2).trans h1.2⟩

/-- A hash record clears the hart's digest and writes the trace; nothing without hash records. -/
theorem hashRecord_alone : Alone s (s.hashRecord s.turn) ∧
    (s.hashRecord s.turn).cur.arch = s.cur.arch ∧ (s.hashRecord s.turn).cur.pc = s.cur.pc ∧
    (s.hashRecord s.turn).cur.run = s.cur.run ∧ (s.hashRecord s.turn).cur.tr = s.cur.tr ∧
    (s.hashOff → s.hashRecord s.turn = s) := by
  unfold State.hashRecord State.hashOff
  dsimp only
  split
  · rename_i h
    have h1 := recordPair_alone (s.setHart s.turn { s.hartAt s.turn with digest := [] }) s.turn 6 0
    refine ⟨(alone_setCur s _).trans (h1 _ _).1, ?_, ?_, ?_, ?_, ?_⟩
    · simp only [(h1 _ _).2]; simp [Hart.arch]
    · simp only [(h1 _ _).2]; simp
    · simp only [(h1 _ _).2]; simp
    · simp only [(h1 _ _).2]; simp
    · intro h0
      simp [h0] at h
  · exact ⟨Alone.refl s, rfl, rfl, rfl, rfl, fun _ => rfl⟩

/-! ## Retirement -/

/-- What a completed instruction leaves: `Retired`. -/
theorem retired_finish (npc : Word) : Retired s (s.finish s.turn npc) npc := by
  unfold State.finish State.retire
  simp only [State.hartAt_turn]
  generalize hx : ({ s.cur with pc := npc, run := Run.running, resuming := false, lim := none } : Hart) = x
  have hcur : (s.setHart s.turn x).hartAt s.turn = x := by simp
  rw [hcur]
  generalize hy : ({ x with
    tr := { x.tr with retcnt := x.tr.retcnt + 1 }, suspects := 0, lastAt := (s.setHart s.turn x).cycle,
    stepArm := x.stepArm && !(x.stepArm && !x.tr.hl),
    pending := { x.pending with step := x.pending.step || (x.stepArm && !x.tr.hl) } } : Hart) = y
  generalize hu : ((s.setHart s.turn x).setHart s.turn y).count s.turn (fun k => { k with kret := k.kret + 1 }) = u
  have ht : u.turn = s.turn := by rw [← hu]; rfl
  have hc : u.cur = y := by rw [← hu]; exact tget_tset_self _ _ _ _
  have ha : Alone s u := by
    rw [← hu]
    exact ((alone_setCur s x).trans (alone_setCur _ y)).trans (alone_count _ _ _)
  have hk := hashRecord_alone u
  rw [ht] at hk
  obtain ⟨k1, k2, k3, k4, k5, k6⟩ := hk
  refine ⟨ha.trans k1, ?_, ?_, ?_, ?_, ?_⟩
  · rw [k3, hc, ← hy, ← hx]
  · rw [k4, hc, ← hy, ← hx]
  · rw [k5, hc, ← hy, ← hx]
  · rw [k2, hc, ← hy, ← hx]; rfl
  · intro h0
    have h1 : u.hashOff := by
      unfold State.hashOff at h0 ⊢
      rw [ht, ← hu]
      have : ((((s.setHart s.turn x).setHart s.turn y).count s.turn fun k => { k with kret := k.kret + 1 }).clusterAt
          (clusterOf s.turn)).trace = (s.clusterAt (clusterOf s.turn)).trace := by
        simp [State.count]
      rw [this]; exact h0
    rw [k6 h1, ← hu]; rfl

/-- An effect that is done completes. -/
theorem completes_done {i : Instr} {len : Nat} {e : Eff} {u : State} (he : e = .done u)
    (hi : exec i s = commit i len e) : Completes i s u (u.cur.pc + w64 len) :=
  ⟨_, by rw [hi, he]; rfl, retired_finish u _⟩

theorem completes_jump {i : Instr} {len : Nat} {e : Eff} {u : State} {pc : Word} (he : e = .jump u pc)
    (hi : exec i s = commit i len e) : Completes i s u pc :=
  ⟨_, by rw [hi, he]; rfl, retired_finish u _⟩

/-! ## Exception entry (R325) -/

theorem withdraw_running (h : (s.cur).run = .running) : s.withdraw s.turn = s := by
  unfold State.withdraw State.shsyncPart
  simp only [State.hartAt_turn, h]

/-- Entering the handler from a running hart at task level. -/
theorem entered_takeTrap (c : Nat) (v r : Word) (hr : s.cur.run = .running) (ht : s.trapsHere)
    (hc : c ≠ 15 ∧ c ≠ 25 ∧ c ≠ 27) (b : Bool) : Entered s (s.takeTrap s.turn c v r b) c v r := by
  obtain ⟨hl, hv⟩ := ht
  obtain ⟨c1, c2, c3⟩ := hc
  unfold State.takeTrap
  simp only [withdraw_running s hr, State.hartAt_turn]
  have hcur : (s.setHart s.turn { s.cur with run := Run.running, lim := none }).hartAt s.turn =
      { s.cur with run := Run.running, lim := none } := by simp
  rw [hcur]
  simp only [hl, Bool.false_and, c1, c2, c3, hv, decide_false, Bool.or_self, Bool.false_eq_true, if_false]
  refine ⟨(alone_setCur s _).trans (alone_setCur (s.setCur _) _), rfl, ?_, ?_, ?_⟩
  · exact congrArg Hart.run (tget_tset_self _ _ _ _)
  · exact congrArg Hart.pc (tget_tset_self _ _ _ _)
  · exact (congrArg Hart.arch (tget_tset_self _ _ _ _)).trans rfl

theorem takes_trap {i : Instr} {len : Nat} {e : Eff} {u : State} {c : Nat} {v : Word} (he : e = .trap u c v)
    (hi : exec i s = commit i len e) (hr : u.cur.run = .running) (ht : u.trapsHere)
    (hc : c ≠ 15 ∧ c ≠ 25 ∧ c ≠ 27) : Takes i s u c v u.cur.pc :=
  ⟨_, by rw [hi, he]; rfl, entered_takeTrap u c v _ hr ht hc true⟩

end Sys2Proof.Machine
end

