-- ==== Sys2Proof/Tests/Slice0.lean ====
section
/-!
SUPPORT. The model's own tests: words the spec spells out and words laid out by hand from its field tables, an ill-formed
term for each check of WellFormed, single steps on small states, and for each statement states that meet its hypotheses.
-/
namespace Sys2Proof.Tests
open Sys2Proof Sys2Proof.Machine

set_option Elab.async false

/-! ## Small states -/

/-- A task on core 0 with every segment of its core, one Haze tile and priority 0. -/
def eff0 : EffVals :=
  { split := false, prio := 0, decl := 0, lgreq := 0, fdom := 0, fzen := true, fzidx := 0, fhandler := 0, ptroot := 0, code := 0,
    entry := 0, entry2 := 0, arg := 0, segs := 0xFF, preSegs := 0, segimg := 0, done := 0, chain := [], limits := [] }
def task0 : Task := { Task.queued eff0 0 0 with phase := .running, segs := 0xFF, hzTiles := 1 }

/-- `g` with some registers set. -/
def regs (l : List (Nat × Word)) : Vector Word 32 := Vector.ofFn fun i => tget 0 l i.val

/-- A running hart with a handler. -/
def hart0 : Hart := { Hart.init with run := .running, rcb := 0x100, pc := 0x40000000000000, tr := { TrapRegs.init with xvec := 0x40000000001000 } }

/-- The device with one running task, seen from its hart 0; `f` changes the hart. -/
def on (f : Hart → Hart) : State := { State.reset with harts := [(0, f hart0)], tasks := [(0x100, task0)] }
def s0 : State := on id
def withG (l : List (Nat × Word)) : State := on fun x => { x with g := regs l }

/-- The same task in split mode, seen from hart h. -/
def split (h : Nat) (f : Hart → Hart) : State :=
  { State.reset with harts := [(0, f hart0), (1, f hart0)], tasks := [(0x100, { task0 with eff := { eff0 with split := true } })], turn := h }

/-- At handler level. -/
def handler (x : Hart) : Hart := { x with tr := { x.tr with hl := true } }

/-- A byte-element vector state with `vl` = 2. -/
def vec0 : VecState := { VecState.init with vl := 2 }
def sv : State := on fun x => { x with vec := vec0 }

/-- Page tables of a root at 0, their leaves accessed and dirty and cached: the first page of the code range, executable, from
0x30000, and `page`, writable, from 0x20000. -/
def page : Word := 0x40000000010000
def tables : List Host.Cell := [(0, 0x37), (2, 3), (8, 0x7F), (10, 2), (0x8000, 1), (0x8002, 1), (0x10000, 1)]
def mapped (s : State) : State := { s with mem := tables, tlb := [⟨0, 0, 2 ^ 38, false, 0, 0x30017⟩, ⟨0, 0, 2 ^ 38 + 1, false, 8, 0x2001F⟩] }

/-- Another task, whose block lies at 0x20000, stopped in the domain of the running one. -/
def stopped0 (p : Phase) (im : Table (Nat × Nat)) : Task :=
  { task0 with phase := p, image := im, core := 1, segs := 0, hzTiles := 0, eff := { eff0 with fzen := false, fhandler := 0x100 } }
def withStopped (p : Phase) (im : Table (Nat × Nat)) : State :=
  { mapped (withG [(4, page)]) with tasks := [(0x100, task0), (0x20000, stopped0 p im)] }

/-- Page tables at 0x100000: page 1 of the address space is class `cls`, from 0x50000, with every permission. -/
def paged (cls : Nat) (s : State) : State :=
  { s with
    tasks := [(0x100, { task0 with eff := { eff0 with ptroot := 0x100000 } })]
    dev := { s.dev with hostlim := 0x1000000, cxlBytes := 0x1000000 }
    mem := [(0x100000, 1), (0x100002, 0x11), (0x110000, 1), (0x110002, 0x12),
      (0x120008, BitVec.ofNat 8 (0x1F + 128 * cls)), (0x120009, BitVec.ofNat 8 (cls / 2)), (0x12000A, 5)] }

/-- Handle 0 valid, 256 bytes, its backings at 0x30000 and 0x40000. -/
def handled (s : State) : State := { s with mem := [(2, 3), (10, 4), (17, 1), (23, 2)] }

/-- `vl` = 2 under a type, in a hart changed by `f`. -/
def typed (ty : Word) (f : Hart → Hart) : State := on fun x => f { x with vec := { vec0 with vtype := ty } }
/-- First use pending for both classes. -/
def noVec : State := on fun x => { x with dirty := { x.dirty with von := false, mon := false } }
/-- Core 0 without lanes. -/
def laneless : State := { s0 with clusters := [(0, { Cluster.init with asg := 0 })] }

theorem pair_eq {α β : Type} {x : α × β} {b : β} (h : x.2 = b) : x = (x.1, b) := by rw [← h]
theorem pair_some {α β : Type} {x : α × Option β} (h : x.2.isSome = true) : ∃ u b, x = (u, some b) := by
  obtain ⟨u, o⟩ := x
  cases o with
  | some b => exact ⟨u, b, rfl⟩
  | none => cases h
theorem ok_of {ε α : Type} {x : Except ε α} (h : x.toOption.isSome = true) : ∃ a, x = .ok a := by
  cases x with
  | ok a => exact ⟨a, rfl⟩
  | error e => cases h

/-! ## Decoding: words of the spec -/

/-- The worked words of R50, R49 and R86. -/
theorem test_decode_scalar :
    decode (.p32 0x18000A40#32) = some (.add 5 4 3) ∧ decode (.p32 0x00860A42#32) = some (.ldd 5 4 16) ∧
    decode (.p32 0x0405000F#32) = some .hint ∧ decode (.p32 0xFC701290#32) = some (.andi 9 9 0xFF0) ∧
    decode (.p32 0x00400A44#32) = some (.beq 4 5 8) ∧ decode (.p32 0x00001327#32) = some (.lih 9 0x12) ∧
    decode (.p32 0x41050C79#32) = some (.fma true 6 7 8) := by decide +kernel

/-- By hand: [31:16] 0x1234, d 3, a 2, major 1; [31:19] −1, [18:16] 6, data 3, base 2, major 3; imm21 −1 in two parts, d 31,
major 5; imm16 0, d 0, a 31, major 6; imm21 1 is [4:0] at [8:4], d 1, major 8 (R48, R49). -/
theorem test_decode_layouts :
    decode (.p32 0x12340621#32) = some (.addi 3 2 0x1234) ∧ decode (.p32 0xFFFE0623#32) = some (.std 3 2 (-1)) ∧
    decode (.p32 0xFFFF3FF5#32) = some (.jal 31 (-1)) ∧ decode (.p32 0x000001F6#32) = some (.jr 0 31 0) ∧
    decode (.p32 0x00000218#32) = some (.pcrel 1 1) := by decide +kernel

/-- R98, R309, R310, R315, R249, and by hand an 8-byte `amo.cas` with order `ar`: b 7, [26:25] 3, [24] 1, [23:16] 9, d 5, a 4,
major 10. -/
theorem test_decode_sync :
    decode (.p32 0x0008007C#32) = some (.qsend 1 7) ∧ decode (.p32 0x0050000D#32) = some .fenceFullDevice ∧
    decode (.p32 0x0001000D#32) = some .lsync ∧ decode (.p32 0x005B0A4D#32) = some (.ldAcq 3 2 5 4) ∧
    decode (.p32 0x005C0C4D#32) = some (.stRel 3 2 6 4) ∧ decode (.p32 0x0A5D0A4D#32) = some (.wmon 3 2 20 5 4) ∧
    decode (.p32 0x0800144E#32) = some (.cpy 10 4 1) ∧ decode (.p32 0x3F090A4A#32) = some (.amoCas true 3 5 4 7) := by
  decide +kernel

/-- State and system words: `sset` est, `tret`, `trap fwd`; by hand `sget g5, tick` and `trap 5` (R101, R339). -/
theorem test_decode_system :
    decode (.p32 0x1018000B#32) = some (.sset 0x018 0) ∧ decode (.p32 0x9000000B#32) = some .tret ∧
    decode (.p32 0x8001000B#32) = some .trapFwd ∧ decode (.p32 0x00000A0B#32) = some (.sget 5 0) := by decide +kernel

/-- R55's compact word and R60's convoy header. -/
theorem test_decode_compact_and_header :
    decode (.p16 0x406B#16) = some (.cAdd 3 5 true) ∧ decode (.p32 0x0020C230#32) = some (.cvh 1 3 0 4 0 0 0) := by decide +kernel

/-- R53, R218 and R140's worked words, and the reduction of R167. -/
theorem test_decode_vector :
    decode (.p64 0x000000000C008204#64) = some (.vadd 2 1 (.vv 3) none) ∧
    decode (.p64 0x500600001C008518#64) = some (.vsum 5 6 7 none) ∧
    decode (.p64 0x3000000000008113#64) = some (.vld 1 4 0 none) ∧
    decode (.p64 0x4001000000008113#64) = some (.vsts 1 4 0 0 none) ∧
    decode (.p64 0x3402000020008613#64) = some (.vldx 6 4 8 false 2 none) ∧
    decode (.p64 0x3003000020008603#64) = some (.vldxC 6 8 none) ∧
    decode (.p64 0x4004000010008317#64) = some (.vsadd 3 5 4 false 0 none) ∧
    decode (.p64 0xA00000400020850B#64) = some (.hzld 5 2 2 64 none) ∧
    decode (.p64 0xC000000000008A05#64) = some (.vset 10 1) ∧ decode (.p64 0xC002000100008002#64) = some .vdecl2 := by
  decide +kernel

/-- By hand in R51's fields: unit 1 op 2 form VS with mask m3; unit 2 op 0; unit 5 op 0x14 form VI, chunk 5 (R160, R161, R172). -/
theorem test_decode_units :
    decode (.p64 0x10020000140B8209#64) = some (.vfma 2 2 (.vs 5) (some 3)) ∧
    decode (.p64 0x200000000C008204#64) = some (.vdiv 2 1 (.vv 3) none) ∧
    decode (.p64 0x5014000500008212#64) = some (.kset 2 4 5) := by decide +kernel

/-- The worked words of R181, R263, R282, R296 and R316. -/
theorem test_decode_engines :
    decode (.p64 0x6000000014608113#64) = some (.zld 1 4 5 6) ∧ decode (.p64 0x6002000008008304#64) = some (.zadd 3 1 (.vv 2)) ∧
    decode (.p64 0x7000000000008511#64) = some (.mxattach 5 4) ∧ decode (.p64 0x7003000014608013#64) = some (.mxload 0 4 5 6) ∧
    decode (.p64 0x700400091C008021#64) = some (.mxmul false 1 2 0 8 7) ∧ decode (.p64 0x7007000100008002#64) = some (.mxwait 1) ∧
    decode (.p64 0x7008230028B08027#64) = some (.mxdrain 0 0 0x23 9 10 11 none) ∧
    decode (.p64 0x8000000514608013#64) = some (.bbset true 2 false 4 5 6) ∧
    decode (.p64 0x800300000EC0810B#64) = some (.bbmerge 1 2 3 4 5) ∧
    decode (.p64 0x90000F2014008013#64) = some (.sgproj 0 4 15 4 5) ∧
    decode (.p64 0x9001000018708507#64) = some (.sgkey 5 0 1 6 7) ∧ decode (.p64 0x9004000000008003#64) = some .sgclr0 ∧
    decode (.p64 0xB000000000008513#64) = some (.pub 5 4) ∧ decode (.p64 0xB001000018708513#64) = some (.shsync 5 4 6 7) := by
  decide +kernel

/-- Reserved encodings are refused: an unlisted ALU code, major 15 with [26] 0, a `g` field of 32, a set `mod`, `mreg` without
`me`, `l0` as a destination, header kind 01, unit 13 (R46, R49, R51, R52, R53). -/
theorem test_decode_refuses :
    decode (.p32 0x000E0000#32) = none ∧ decode (.p32 0x0000000F#32) = none ∧ decode (.p64 0x3000000000008183#64) = none ∧
    decode (.p64 0x010000000C008204#64) = none ∧ decode (.p64 0x000000000C018204#64) = none ∧
    decode (.p64 0x000000000C00A804#64) = none ∧ decode (.p32 0x0000D000#32) = none ∧ decode (.p64 0xD000000000008000#64) = none := by
  decide +kernel

/-! ## WellFormed: an ill-formed term for each check -/

theorem test_wf_refuses_scalar : (Instr.tretTask 1 0).wf = false ∧ (Instr.cpy 1 2 4).wf = false ∧ (Instr.cwait 1 2 6).wf = false ∧
    (Instr.cstat 1 3 0).wf = false ∧ (Instr.cstat 1 0 4).wf = false ∧ (Instr.ccan 1 4).wf = false ∧
    (Instr.cvh 5 0 0 0 0 0 0).wf = false ∧ Instr.lwpush.wf = false ∧ Instr.hostHold.wf = false := by decide +kernel

theorem test_wf_refuses_vector : (Instr.vadd 40 1 (.vv 2) none).wf = false ∧ (Instr.vadd 1 42 (.vv 2) none).wf = false ∧
    (Instr.vadd 1 2 (.vv 52) none).wf = false ∧ (Instr.vmulh 1 2 (.vi 0) none).wf = false ∧ (Instr.vabs 42 1 none).wf = false ∧
    (Instr.vclamp 1 2 (.vs 3) 32 none).wf = false ∧ (Instr.vclamp 1 2 (.vv 3) 42 none).wf = false ∧
    (Instr.vscl 1 2 (.vv 3) none).wf = false ∧ (Instr.vcmp 1 2 (.vv 3) 8 none).wf = false ∧ (Instr.vsel 1 2 60 0).wf = false ∧
    (Instr.vdup 1 (.vv 2) none).wf = false ∧ (Instr.vid 41 none).wf = false := by decide +kernel

theorem test_wf_refuses_memory : (Instr.vld 41 1 0 none).wf = false ∧ (Instr.vldx 1 1 47 false 0 none).wf = false ∧
    (Instr.vldreg 42 1 0).wf = false ∧ (Instr.pref 3 1 2 0).wf = false ∧ (Instr.vst 63 1 0 none).wf = false ∧
    (Instr.vslup 1 2 (.vv 3) none).wf = false ∧ (Instr.vsum 1 2 42 none).wf = false ∧ (Instr.hzld 40 0 1 0 none).wf = false := by
  decide +kernel

theorem test_wf_refuses_engines : (Instr.zld 41 1 2 3).wf = false ∧ (Instr.zst 42 1 2 3).wf = false ∧
    (Instr.zadd 1 2 (.vi 0)).wf = false ∧ (Instr.zcnt 1 60).wf = false ∧ (Instr.zsplice 1 2 42 3).wf = false ∧
    (Instr.mxmul false 0 0 0 42 1).wf = false ∧ (Instr.mxdrainX 0 0 0 1 52 2 none).wf = false ∧ (Instr.bbisect 42 1 2).wf = false ∧
    (Instr.bbwalk 1 52).wf = false ∧ (Instr.sgproj 0 3 0 1 2).wf = false ∧ (Instr.sgproj 0 17 0 1 2).wf = false ∧
    (Instr.sgsig 1 0 42).wf = false ∧ (Instr.sggather 41 0 1 2).wf = false := by decide +kernel

/-! ## Witnesses: fetch and step -/

/-- DecodeOfEncode, DecodedWordsAreWellFormed. -/
theorem witness_encode : (Instr.vadd 39 51 (.vv 41) (some 7)).wf = true ∧ (Instr.cstat 31 2 3).wf = true ∧
    decode (.p32 0x18000A40#32) = some (.add 5 4 3) ∧ Instr.add 5 4 3 ≠ .hint := by decide +kernel

/-- StepRunsDecoded: a fetched word, a waiting hart named by the agenda, an event. -/
def fetching : State := { mapped s0 with mem := tables ++ [(0x30000, 0x40), (0x30001, 0x0A), (0x30003, 0x18)] }
def waiting0 (w : WaitRec) : State := { on (fun x => { x with run := .waiting w }) with inputs := [.hart 0] }
theorem witness_step_word : fetching.inputs = [] ∧ fetching.power.powered = true ∧ fetching.failed = false ∧ fetching.cur.run = .running ∧
    fetching.passTime.powerDue = none ∧ fetching.power.stalled = false ∧ fetching.replay = [] ∧
    fetching.passTime.asyncDue 0 = none ∧ fetching.passTime.fetchWord.2 = .ok (.p32 0x18000A40#32) ∧
    decode (.p32 0x18000A40#32) = some (.add 5 4 3) ∧ fetching.passTime.fetchWord.1.cur.resuming = false :=
  ⟨rfl, rfl, rfl, rfl, rfl, rfl, rfl, rfl, by decide +kernel, by decide +kernel, by decide +kernel⟩
theorem witness_step_wait : let s := waiting0 ⟨.qrecv 1 0, 0, some 0, 0⟩
    s.inputs = [.hart s.turn] ∧ s.cur.run = .waiting ⟨.qrecv 1 0, 0, some 0, 0⟩ ∧
      ({ s.passTime with inputs := [], turn := 0 } : State).asyncDue 0 = none := ⟨rfl, rfl, rfl⟩
theorem witness_step_named : let u : State := { fetching.passTime with inputs := [], turn := 0 }
    ({ fetching with inputs := [.hart 0] } : State).inputs = .hart 0 :: [] ∧ u.asyncDue 0 = none ∧ u.cur.run = .running ∧
      u.fetchWord.2 = .ok (.p32 0x18000A40#32) := ⟨rfl, rfl, rfl, by decide +kernel⟩
/-- A turn that lets the scalar slice's loads perform late; a hart with such a load. -/
def lateHart (x : Hart) : Hart := { x with stores := [⟨0, 0, false, .spad 8, 0, [], [], none, some ⟨.g 5 false, 1, 0, 8, none⟩, [], 0, none⟩] }
theorem witness_step_late : let u : State := { fetching.passTime with inputs := [], turn := 0, late := 1 }
    ({ fetching with inputs := [.late 0 1] } : State).inputs = .late 0 1 :: [] ∧ u.asyncDue 0 = none ∧ u.cur.run = .running ∧
      u.fetchWord.2 = .ok (.p32 0x18000A40#32) ∧ u.cur.hasLate = false ∧ (on lateHart).cur.hasLate = true :=
  ⟨rfl, rfl, rfl, by decide +kernel, rfl, rfl⟩
/-- StepRunsDecoded where the instruction is held, `hzdrop g4, 0` at the PC: its step stands past it, the next one runs it. -/
def holding : State := { on (fun x => { x with g := regs [(4, 0xF200000000000000)] }) with turn := 0, late := 1 }
theorem witness_hold : heldLen (.hzdrop 4 0) = some 8 ∧ (holding.hold (.hzdrop 4 0)).isSome = true ∧ nbit s0.late 0 = false ∧
    holding.held = [] ∧ (∀ x ∈ holding.harts, ∀ q ∈ x.2.stores, q.ld = none ∧ q.add = none) := by decide +kernel
/-- Held, it leaves the PC past it and one entry; an instruction that it could depend on runs after it (R233, R381, log 4). -/
theorem test_hold : (match holding.runNext (.hzdrop 4 0) with
    | .next t => (t.cur.pc, t.held.length, t.cur.tr.retcnt, (t.beforeNext (.ldd 6 4 0)).held.length, (t.beforeNext (.ldd 6 4 0)).cur.tr.retcnt,
        (t.beforeNext (.add 1 2 3)).held.length)
    | _ => (0, 0, 0, 0, 0, 0)) = (0x40000000000008, 1, 0, 0, 1, 1) := by decide +kernel
theorem witness_step_event : let s : State := { s0 with inputs := [.event .htlkWrite {}] }
    isEvent .htlkWrite = true ∧ s.power.powered = true ∧ s.failed = false ∧ s.inputs = [.event .htlkWrite {}] := ⟨rfl, rfl, rfl, rfl⟩

/-- FetchReadsTheWord, with the word in the last four bytes of its page. -/
def fetchEnd : State := { mapped (on (fun x => { x with pc := 0x4000000000FFFC })) with
  mem := tables ++ [(0x3FFFC, 0x40), (0x3FFFD, 0x0A), (0x3FFFF, 0x18)] }
theorem witness_fetch : isCvh (.add 5 4 3) = false ∧ memWf fetchEnd.mem = true ∧ fetchEnd.cur.pc.toNat + 4 ≤ 2 ^ 55 ∧
    fetchEnd.cur.pc.toNat % 65536 + 4 ≤ 65536 ∧
    fetchEnd.walk (fetchEnd.ctxOf fetchEnd.turn).root fetchEnd.cur.pc.toNat = some (0, 0x30037, false) ∧
    (fetchEnd.cached (fetchEnd.ctxOf fetchEnd.turn) fetchEnd.cur.pc.toNat).all (·.isLeaf (some (0, 0x30037, false))) = true ∧
    nbit 0x30037 4 = true ∧ 0x30037 / 2 ^ 7 % 4 = 0 ∧ 0x3FFFC + 4 ≤ hbmBytes ∧ 0 < 0x3FFFC ∧
    memReadN fetchEnd.mem 0x3FFFC 4 = natBytes 4 0x18000A40 := by decide +kernel
/-- A fetch marks its leaf accessed, and its word is read through it (R207, R208). -/
theorem test_fetch_marks : (match ({ fetching with tlb := [], mem := (0, 0x17) :: fetching.mem.drop 1 } : State).fetchWord with
    | (t, .ok w) => (w.word, memRead t.mem 0) | _ => (0, 0)) = (0x18000A40, 0x37) := by decide +kernel

/-- IntegerResults, DivisionResults (each clause), BranchesAndJumps. -/
theorem witness_integer : Claims.intResult s0 (.add 31 4 0) = some (31, 0) ∧
    Claims.divResult (withG [(4, 7)]) (.div 5 4 3) = some (5, 3, -1) ∧ (withG [(4, 7)]).g 3 = 0 ∧
    (withG [(4, 7)]).cur.tr.fmode.getLsbD 8 = false := ⟨rfl, rfl, rfl, rfl⟩
theorem witness_division_trap : let s := on fun x => { x with tr := { x.tr with fmode := 0x100 } }
    Claims.divResult s (.mod 5 4 3) = some (5, 3, 0) ∧ s.g 3 = 0 ∧ s.cur.tr.fmode.getLsbD 8 = true ∧ s.cur.run = .running ∧ s.trapsHere :=
  ⟨rfl, rfl, rfl, rfl, rfl, by decide⟩
theorem witness_division_overflow : let s := withG [(4, BitVec.ofInt 64 (-2 ^ 63)), (3, BitVec.ofInt 64 (-1))]
    s.g 4 = BitVec.ofInt 64 (-2 ^ 63) ∧ s.g 3 = BitVec.ofInt 64 (-1) ∧ Claims.divResult s (.div 5 4 3) = some (5, 3, s.g 4) ∧
      Claims.divResult s (.mod 5 4 3) = some (5, 3, 0) := ⟨rfl, rfl, by rw [Claims.divResult]; decide +kernel, by rw [Claims.divResult]; decide +kernel⟩
theorem witness_jumps : Claims.branch s0 (.beq 0 0 (-1)) = some (true, -1) ∧ Claims.branch s0 (.bne 0 0 4095) = some (false, 4095) ∧
    Claims.jump s0 (.jal 0 1) = some (0, 0x40000000000002) ∧ Claims.jump (withG [(4, 3)]) (.jr 1 4 0) = some (1, 3) ∧
    s0.cur.run = .running ∧ s0.trapsHere := ⟨rfl, rfl, rfl, rfl, rfl, rfl, by decide⟩

/-- The result of R85's corner cases is computed, not chosen. -/
theorem test_div_overflow : (match exec (.div 5 4 3) (withG [(4, 0x8000000000000000), (3, 0xFFFFFFFFFFFFFFFF)]) with
    | .next t => t.g 5 | _ => 0) = 0x8000000000000000 := by decide +kernel
theorem test_mod_by_zero : (match exec (.mod 5 4 3) (withG [(4, 7)]) with | .next t => t.g 5 | _ => 0) = 7 := by decide +kernel
/-- A destination that is a source: `sub g4, g4, g4`. -/
theorem test_sub_same : (match exec (.sub 4 4 4) (withG [(4, 7)]) with | .next t => t.g 4 | _ => 1) = 0 := by decide +kernel
theorem test_mulhu : (match exec (.mulhu 5 4 4) (withG [(4, 0xFFFFFFFFFFFFFFFF)]) with | .next t => t.g 5 | _ => 0) =
    0xFFFFFFFFFFFFFFFE := by decide +kernel
/-- R89: the target of `jr g31, g31, 0` is computed before the link is written. -/
theorem test_jr_links_itself : (match exec (.jr 31 31 0) (withG [(31, 0x40000000000100)]) with | .next t => (t.cur.pc, t.g 31) | _ => (0, 0)) =
    (0x40000000000100, 0x40000000000004) := by decide +kernel

/-! ## Witnesses: scalar memory -/

def spadAt : Word := 0xF000000000000FF8
def sm : State := withG [(4, spadAt), (5, 0x1122334455667788)]

theorem witness_scalar_load : Claims.scalarLoad (.ldd 6 4 0) = some (6, 4, 0, 8, BitVec.ofNat 64) ∧ sm.isExec 0 = false ∧
    (Claims.address sm 4 0).toNat % 8 = 0 ∧
    (let w := sm.drainSlice 0 0
     w.resolve (w.ctxOf 0) .load (Claims.address sm 4 0).toNat = .ok (.spad 0xFF8, none) ∧ w.beyond (.spad 0xFF8) 8 = false ∧
       w.expired (.spad 0xFF8) = false) ∧ (Claims.address sm 4 0).toNat / 2 ^ 19 = 0xF000000000000000 / 2 ^ 19 ∧
    sm.segAllowed (sm.ctxOf 0) (coreOf 0) (nbits (Claims.address sm 4 0).toNat 16 3) = true :=
  ⟨rfl, rfl, rfl, ⟨rfl, rfl, rfl⟩, rfl, rfl⟩
/-- ScalarLoads where the load performs late. -/
theorem witness_scalar_load_late : let s := { sm with late := 1 }
    nbit s.late 0 = true ∧ s.isExec 0 = false ∧ (Claims.address s 4 0).toNat % 8 = 0 ∧
    s.resolve (s.ctxOf 0) .load (Claims.address s 4 0).toNat = .ok (.spad 0xFF8, none) ∧ s.beyond (.spad 0xFF8) 8 = false ∧
    s.expired (.spad 0xFF8) = false ∧ (s.clusterAt 0).trace.on 11 = false := ⟨rfl, rfl, rfl, rfl, rfl, rfl, rfl⟩
/-- A late load is the slice's youngest entry, and g[6] takes the bytes when it performs (R381, log 4). -/
theorem test_late_load : (match exec (.ldd 6 4 0) { sm with late := 1, mem := [(spadKey 0xFF8, 7)] } with
    | .next t => (t.g 6, t.cur.stores.length, (t.drain 0).g 6) | _ => (1, 0, 0)) = (0, 1, 7) := by decide +kernel
theorem witness_scalar_store : Claims.scalarStore (.stb 5 4 7) = some (5, 4, 7, 1) ∧ (Claims.address sm 4 7).toNat % 1 = 0 ∧
    sm.resolve (sm.ctxOf 0) .store (Claims.address sm 4 7).toNat = .ok (.spad 0xFFF, none) ∧ sm.beyond (.spad 0xFFF) 1 = false ∧
    (Claims.address sm 4 7).toNat / 2 ^ 19 = 0xF000000000000000 / 2 ^ 19 ∧
    sm.segAllowed (sm.ctxOf 0) (coreOf 0) (nbits (Claims.address sm 4 7).toNat 16 3) = true := ⟨rfl, rfl, rfl, rfl, rfl, rfl⟩

/-- One store of the scalar slice queued. -/
def queued : State := on fun x => { x with stores := [⟨0, 0, false, .spad 8, 0, [1], [], none, none, [], 0, none⟩] }
theorem witness_store_clauses :
    (∃ u c, sm.storeIn 0 0 7 true .store 0 [1] [] none = (u, some c)) ∧
    (∃ u, sm.storeIn 0 0 7 true .store spadAt.toNat [1] [] none = (u, none)) ∧
    (queued.hartAt 0).stores = [] ++ ⟨0, 0, false, .spad 8, 0, [1], [], none, none, [], 0, none⟩ :: [] ∧ queued.expired (.spad 8) = false ∧
    (let s := on fun x => { x with stores := [⟨1, 7, false, .spad 8, 0, [1], [], none, none, [], 0, none⟩, ⟨1, 7, false, .spad 15, 0, [2], [], none, none, [], 0, none⟩] }
     s.key (.spad 8) / 8 = s.key (.spad 15) / 8) ∧
    (let s := on fun x => { x with stores := [⟨0, 0, true, .haze 8, 0, [1], [], none, none, [], 0, none⟩] }; (s.sync 0 1).expired (.spad 8) = false) :=
  ⟨⟨_, _, rfl⟩, ⟨_, rfl⟩, rfl, rfl, rfl, rfl⟩
/-- The elements of an access group in one word perform together, the later last; the next word's stays queued (R197). -/
theorem test_store_merge : (match exec .resultConfirmation { on (fun x => { x with stores := [⟨1, 7, false, .spad 8, 0, [1], [], none, none, [], 0, none⟩,
      ⟨1, 7, false, .spad 8, 0, [2], [], none, none, [], 0, none⟩, ⟨1, 7, false, .spad 16, 0, [3], [], none, none, [], 0, none⟩] }) with arg := { index := 1 } } with
    | .next t => (t.cur.stores.map (·.bytes), memRead t.mem (spadKey 8)) | _ => ([], 0)) = ([[3]], 2) := by decide +kernel
theorem witness_load_returns : sm.cur.relFence = false ∧ sm.cur.stores = [] ∧ sm.late = 0 ∧
    (Claims.address sm 4 0).toNat / 2 ^ 19 = 0xF000000000000000 / 2 ^ 19 ∧
    sm.segAllowed (sm.ctxOf 0) (coreOf 0) (nbits (Claims.address sm 4 0).toNat 16 3) = true ∧ ∃ t, exec (.std 5 4 0) sm = .next t :=
  ⟨rfl, rfl, rfl, rfl, rfl, _, rfl⟩
/-- ScalarAccessTraps: the execute hart, a misaligned address, a refused place (null page, an absent window, an expired tile). -/
theorem witness_access_traps : (split 1 id).isExec 1 = true ∧ (split 1 id).trapsHere ∧
    (Claims.address (withG [(4, 1)]) 4 0).toNat % 2 ≠ 0 ∧
    s0.load 0 0 (Claims.address s0 4 0).toNat 8 = (s0, .error 4) ∧
    (let s := withG [(4, 0xF300000000000000)]; s.storeNext 0 0 (Claims.address s 4 0).toNat (natBytes 8 0) [] = (s, some 5)) ∧
    (let s := withG [(4, 0xF200000000000000)]; s.load 0 0 (Claims.address s 4 0).toNat 8 = (s, .error 6)) :=
  ⟨rfl, ⟨rfl, by decide⟩, by decide, rfl, rfl, rfl⟩

/-- R92's byte order: the second byte of a stored word. -/
theorem test_store_then_byte : (match exec (.std 5 4 0) sm with
    | .next t => (match exec (.ldbu 6 4 1) t with | .next v => v.g 6 | _ => 0) | _ => 0) = 0x77 := by decide +kernel
theorem test_ldb_signs : (match exec (.std 5 4 0) sm with
    | .next t => (match exec (.ldb 6 4 0) t with | .next v => v.g 6 | _ => 0) | _ => 0) = 0xFFFFFFFFFFFFFF88 := by decide +kernel
theorem test_load_null_page : (match exec (.ldd 6 0 0) s0 with | .next t => (t.cur.tr.xcause, t.cur.pc) | _ => (0, 0)) =
    (4, 0x40000000001000) := by decide +kernel

/-! ## Witnesses: floats, state registers, queues, traps -/

/-- 1 + 2^-60 is inexact and 1 / 0 divides by zero; with `fmode` enabling DZ the second traps (R96). -/
def floats (m : BitVec 9) : State :=
  on fun x => { x with g := regs [(4, 0x3FF0000000000000), (5, 0)], tr := { x.tr with fmode := m } }
theorem witness_float :
    (∃ d v fl, Claims.floatResult (floats 0) (.fdiv true 6 4 5) = some (d, v, fl) ∧ fl &&& (floats 0).cur.tr.fmode.toNat / 8 % 32 = 0) ∧
    (∃ d v fl, Claims.floatResult (floats 0x1F8) (.fdiv true 6 4 5) = some (d, v, fl) ∧
      fl &&& (floats 0x1F8).cur.tr.fmode.toNat / 8 % 32 ≠ 0) ∧ (floats 0x1F8).cur.run = .running ∧ (floats 0x1F8).trapsHere :=
  ⟨⟨_, _, _, rfl, by decide +kernel⟩, ⟨_, _, _, rfl, by decide +kernel⟩, rfl, rfl, by decide⟩
/-- 1 + 1 = 2 in binary64, and 1 / 0 is +∞ with DZ (bit 1 of R96's order NV, DZ, OF, UF, NX). -/
theorem test_fadd : (match exec (.fadd true 6 4 4) (floats 0) with | .next t => t.g 6 | _ => 0) = 0x4000000000000000 := by decide +kernel
theorem test_fdiv_zero : (match exec (.fdiv true 6 4 5) (floats 0) with | .next t => (t.g 6, t.cur.tr.fflags) | _ => (0, 0)) =
    (0x7FF0000000000000, 2) := by decide +kernel

theorem witness_state_reads : Claims.firstUse s0 0x0A0 = none ∧ Claims.register s0 0x0A0 = some (2 ^ 63) ∧
    Claims.firstUse s0 0x0FF = none ∧ Claims.register s0 0x0FF = none ∧ Claims.firstUse noVec 0x017 = some 17 ∧
    Claims.firstUse noVec 0x031 = some 18 ∧ s0.cur.run = .running ∧ s0.trapsHere ∧ noVec.trapsHere := by
  refine ⟨?_, ?_, ?_, ?_, ?_, ?_, rfl, ⟨rfl, by decide⟩, ⟨rfl, by decide⟩⟩ <;> decide +kernel
theorem witness_state_writes : let s := withG [(4, 0x1FC)]
    Claims.firstUse s 0x01A = none ∧ Claims.writable s 0x01A (s.g 4).toNat = true ∧ Claims.writable s 0x000 (s.g 4).toNat = false ∧
      Claims.writable s 0x016 2 = true ∧ Claims.writable s 0x016 3 = false ∧ Claims.writable s 0x050 64 = true ∧
      Claims.writable s 0x01A 0x1FD = false ∧ Claims.writable (on handler) 0x017 0 = true := by decide +kernel
/-- A write of `vtags` that sets the tags of window 1, and the class bit of a vector register in `dirty` (R135, R328). -/
theorem test_vtags : (match exec (.sset 0x017 4) (on fun x => handler { x with g := regs [(4, 5 + 2 ^ 3 * 3)] }) with
    | .next t => ((t.cur.vec.tag 20).toNat, (t.cur.vec.tag 0).toNat, t.cur.vec.sel.toNat, t.cur.dirty.dv) | _ => (0, 1, 0, false)) = (3, 0, 1, true) := by
  decide +kernel

/-- R97's queues: room, full, data, empty, and both wrong directions. -/
def queueing (h : Nat) (c : Core) : State := { split h (fun x => { x with g := regs [(4, 9)] }) with cores := [(0, c)] }
theorem witness_queue_write : Claims.queueFor (queueing 0 Core.init) 1 true = true ∧
    Claims.queueFor (queueing 1 Core.init) 2 true = true ∧
    16 ≤ ((queueing 0 { Core.init with sq := Vector.replicate 4 (List.replicate 16 0) }).coreAt 0).sq[0].length ∧
    Claims.queueFor (queueing 0 Core.init) 0 true = true ∧
    64 ≤ ((queueing 0 { Core.init with bq := List.replicate 64 true }).coreAt 0).bq.length := by decide +kernel
theorem witness_queue_read : Claims.queueFor (queueing 1 Core.init) 0 false = true ∧ Claims.queueFor (queueing 0 Core.init) 3 false = true ∧
    ((queueing 1 { Core.init with sq := Vector.replicate 4 [7] }).coreAt 0).sq[0] = [7] ∧ ((queueing 1 Core.init).coreAt 0).sq[0] = [] ∧
    ((queueing 1 { Core.init with bq := [true] }).coreAt 0).bq = [true] ∧ ((queueing 1 Core.init).coreAt 0).bq = [] := by decide +kernel
theorem witness_queue_trap : Claims.queueFor s0 0 true = false ∧ Claims.queueFor s0 0 false = false ∧ s0.cur.run = .running ∧ s0.trapsHere :=
  ⟨rfl, rfl, rfl, rfl, by decide⟩
/-- First in, first out: the oldest of two entries (R98). -/
theorem test_qrecv_oldest : (match exec (.qrecv 6 0) (queueing 1 { Core.init with sq := Vector.replicate 4 [7, 8] }) with
    | .next t => (t.g 6, (t.coreAt 0).sq[0]) | _ => (0, [])) = (7, [8]) := by decide +kernel

theorem witness_trap : (∃ k : BitVec 10, Instr.trap 1023 = .trap k ∧ 24 = 24 ∧ 1023 = k.toNat) ∧ s0.cur.run = .running ∧ s0.trapsHere :=
  ⟨⟨1023, rfl, rfl, rfl⟩, rfl, rfl, by decide⟩
theorem witness_double_trap : (on handler).cur.run = .running ∧ (on handler).cur.tr.hl = true ∧
    (on fun x => { x with tr := { x.tr with xvec := 0 } }).cur.tr.xvec = 0 ∧ (on handler).task? (on handler).cur.rcb = some task0 ∧
    task0.phase ≠ .orphaned := ⟨rfl, rfl, rfl, rfl, by decide⟩
theorem witness_returns : (on handler).cur.tr.hl = true ∧ (on handler).cur.tr.xpc.toNat % 2 = 0 ∧ s0.task? s0.cur.rcb = some task0 ∧
    (on fun x => handler { x with tr := { x.tr with xpc := 7 } }).cur.tr.xpc.toNat % 2 = 1 := ⟨rfl, rfl, rfl, rfl⟩
/-- R325: an environment call saves the next word and enters at `xvec`. -/
theorem test_trap : (match exec (.trap 5) s0 with | .next t => (t.cur.pc, t.cur.tr.xpc, t.cur.tr.xval, t.cur.tr.hl) | _ => (0, 0, 0, false)) =
    (0x40000000001000, 0x40000000000004, 5, true) := by decide +kernel
theorem test_tret : (match exec .tret (on fun x => handler { x with tr := { x.tr with xpc := 0x40000000000100, ss := true } }) with
    | .next t => (t.cur.pc, t.cur.tr.hl, t.cur.stepArm) | _ => (0, true, false)) = (0x40000000000100, false, true) := by decide +kernel

/-- YieldAndForwardStop: an image page at `xsave`. -/
def saving : State := mapped (on fun x => handler { x with tr := { x.tr with xsave := page } })
theorem witness_image : saving.cur.tr.hl = true ∧ saving.task? saving.cur.rcb = some task0 ∧
    ∃ v, ((saving.drain 0).finish 0 (saving.cur.pc + 4)).writeImage 0 (saving.cur.pc + 4) false = some v :=
  ⟨rfl, rfl, Option.isSome_iff_exists.mp (by decide +kernel)⟩

theorem witness_task_control : (withG [(4, 1)]).rcbOf ((withG [(4, 1)]).g 4).toNat = none ∧
    (mapped (withG [(4, page)])).rcbOf page.toNat = some 0x20000 ∧ (mapped (withG [(4, page)])).stoppedFor 0x20000 = none ∧
    (withStopped .forwarded []).stoppedFor 0x20000 = some (stopped0 .forwarded []) ∧ (withStopped .forwarded []).cur.rcb ≠ 0x20000 ∧
    (withStopped .orphaned []).stoppedFor 0x20000 = some (stopped0 .orphaned []) ∧
    (withStopped .forwarded [(0, 0, 0)]).stoppedFor 0x20000 = some (stopped0 .forwarded [(0, 0, 0)]) ∧
    (∃ p ∈ (stopped0 .forwarded [(0, 0, 0)]).image, p.2.2 = 0) ∧ (∀ p ∈ (stopped0 .forwarded [(0, 0x1000, 1)]).image, p.2.2 ≠ 0) ∧
    (∀ p ∈ (withStopped .forwarded []).tasks, p.2.core = 1 → p.2.phase ≠ .rerun) :=
  ⟨rfl, rfl, rfl, rfl, by decide, rfl, rfl, by decide, by decide, by decide⟩
/-- A task that names its own block. -/
def ownBlock : State := { mapped (on fun x => { x with rcb := 0x20000, g := regs [(4, page)] }) with tasks := [(0x20000, task0)] }
theorem witness_own_block : ownBlock.rcbOf (ownBlock.g 4).toNat = some ownBlock.cur.rcb ∧ ownBlock.task? ownBlock.cur.rcb = some task0 ∧
    ownBlock.turn ∈ task0.harts ∧ ownBlock.cur.run = .running := by decide +kernel
/-- An image at `page` with an even resume PC, and one with PC 7. -/
def imaged (l : List Host.Cell) : State := { withStopped .forwarded [(0, page.toNat, 2)] with mem := tables ++ l }
theorem witness_odd_resume : (((imaged []).drain 0).oddResume 0x20000 (stopped0 .forwarded [(0, page.toNat, 2)])).2 = none ∧
    (((imaged [(0x20000, 7)]).drain 0).oddResume 0x20000 (stopped0 .forwarded [(0, page.toNat, 2)])).2 = some (0, 7) ∧
    (imaged []).stoppedFor 0x20000 = some (stopped0 .forwarded [(0, page.toNat, 2)]) := by decide +kernel

/-! ## Witnesses: synchronisation and work requests -/

theorem witness_atomic : Claims.atomic (.amoAdd true 2 6 4 5) = some ⟨8, true, 6, 4, 5, true, fun old x _ => some ((old + x) % 256 ^ 8)⟩ ∧
    sm.isExec 0 = false ∧ (sm.g 4).toNat % 8 = 0 ∧ Claims.joined sm true = sm ∧
    sm.resolve (sm.ctxOf 0) .both (sm.g 4).toNat = .ok (.spad 0xFF8, none) ∧ sm.beyond (.spad 0xFF8) 8 = false ∧
    (∀ pa, Target.spad 0xFF8 = .phys 2 pa → true = true) ∧ sm.expired (.spad 0xFF8) = false ∧ sm.cur.run = .running ∧ sm.trapsHere :=
  ⟨rfl, rfl, rfl, rfl, rfl, rfl, fun _ h => (nomatch h), rfl, rfl, rfl, by decide⟩
/-- A page of host class resolves where the host does not refuse it, which is free (log 46). -/
theorem host_leaf : let s := paged 2 (withG [(4, 0x10000)])
    (Config.hostRefuses (s.fresh + 0x50000) = false → ∃ leaf, s.resolve (s.ctxOf 0) .both 0x10000 = .ok (.phys 2 0x50000, leaf)) ∧
    (Config.hostRefuses (s.fresh + 0x50000) = true → s.resolve (s.ctxOf 0) .both 0x10000 = .error 5) := by
  intro s
  have h : s.leafFor (s.ctxOf 0) 0x10000 = some (0x120008, 0x5011F, false) := by decide +kernel
  have p : s.populated 2 0x50000 = true := by decide +kernel
  have q : (State.leafPlace s 0x10000 0x5011F false) = if Config.hostRefuses (s.fresh + 0x50000) then .error 5 else .ok (.phys 2 0x50000) := by
    unfold State.leafPlace
    simp [p, nbits]
  constructor <;> intro r <;> simp [State.resolve, h, q, r, leafGrants, nbit]
/-- The traps of R311 and R205: misaligned, page fault, host class for `amo.min`, an expired tile. -/
theorem witness_atomic_traps : ((withG [(4, 4)]).g 4).toNat % 8 ≠ 0 ∧
    (let s := withG [(4, 8)]; s.resolve (s.ctxOf 0) .both 8 = .error 4) ∧
    (let s := paged 2 (withG [(4, 0x10000)])
     (Config.hostRefuses (s.fresh + 0x50000) = false → ∃ leaf, s.resolve (s.ctxOf 0) .both 0x10000 = .ok (.phys 2 0x50000, leaf)) ∧
       (Config.hostRefuses (s.fresh + 0x50000) = true → s.resolve (s.ctxOf 0) .both 0x10000 = .error 5) ∧
       (Claims.atomic (.amoMin true 0 6 4 5)).map (·.host) = some false) ∧
    (let s := withG [(4, 0xF200000000000000)]
     s.resolve (s.ctxOf 0) .both 0xF200000000000000 = .ok (.haze 0, none) ∧ s.expired (.haze 0) = true ∧ s.beyond (.haze 0) 8 = false) :=
  ⟨by decide, rfl, ⟨host_leaf.1, host_leaf.2, rfl⟩, rfl, rfl, rfl⟩
theorem witness_atomic_quad : (30 : Reg).toNat % 2 = 0 ∧ (0 : Reg).toNat % 2 = 0 ∧
    (let s := withG [(4, 0xF000000000000FF0)]
     (s.g 4).toNat % 16 = 0 ∧ s.resolve (s.ctxOf 0) .both (s.g 4).toNat = .ok (.spad 0xFF0, none) ∧ s.beyond (.spad 0xFF0) 16 = false ∧
       (∀ pa, Target.spad 0xFF0 ≠ .phys 2 pa) ∧ s.expired (.spad 0xFF0) = false) ∧ (31 : Reg).toNat % 2 = 1 ∧
    ((withG [(4, 8)]).g 4).toNat % 16 ≠ 0 := ⟨rfl, rfl, ⟨rfl, rfl, rfl, fun _ h => (nomatch h), rfl⟩, rfl, by decide⟩
/-- The traps of `amo.addq`: page fault, host class, an expired tile. -/
theorem witness_atomic_quad_traps : (let s := withG [(4, 16)]; s.resolve (s.ctxOf 0) .both 16 = .error 4) ∧
    (let s := paged 2 (withG [(4, 0x10000)])
     (s.g 4).toNat % 16 = 0 ∧
     (Config.hostRefuses (s.fresh + 0x50000) = false → ∃ leaf, s.resolve (s.ctxOf 0) .both 0x10000 = .ok (.phys 2 0x50000, leaf)) ∧
       (Config.hostRefuses (s.fresh + 0x50000) = true → s.resolve (s.ctxOf 0) .both 0x10000 = .error 5)) ∧
    (let s := withG [(4, 0xF200000000000000)]
     s.resolve (s.ctxOf 0) .both 0xF200000000000000 = .ok (.haze 0, none) ∧ s.expired (.haze 0) = true ∧ s.beyond (.haze 0) 16 = false) :=
  ⟨rfl, ⟨rfl, host_leaf.1, host_leaf.2⟩, rfl, rfl, rfl⟩
/-- The old 4 bytes come back sign-extended and the compare takes the low bytes of g[d] (R311). -/
theorem test_cas : (match exec (.amoCas false 0 6 4 5) { withG [(4, spadAt), (5, 1), (6, 0x1FFFFFFFF)] with
      mem := [(spadKey 0xFF8, 0xFF), (spadKey 0xFF9, 0xFF), (spadKey 0xFFA, 0xFF), (spadKey 0xFFB, 0xFF)] } with
    | .next t => (t.g 6, memReadN t.mem (spadKey 0xFF8) 4) | _ => (0, [])) = (0xFFFFFFFFFFFFFFFF, [1, 0, 0, 0]) := by decide +kernel

theorem witness_fence : Claims.fence .lsync = some false ∧ Claims.fence .fenceFullSystem = some true := ⟨rfl, rfl⟩
/-- A release fence empties the queue and marks the next write. -/
theorem test_fence : (match exec .fenceReleaseDevice queued with
    | .next t => (t.cur.stores.length, t.cur.relFence, memRead t.mem (spadKey 8)) | _ => (9, false, 0)) = (0, true, 1) := by decide +kernel

/-- AcquireAndRelease: loads, stores, the two outcomes of `wmon` (time limits 31 and passed), the size and the alignment. -/
def monitoring (w : WaitRec) : State := on fun x => { x with g := regs [(4, spadAt)], run := .waiting w }
theorem witness_acquire : sm.isExec 0 = false ∧ (sm.g 4).toNat % 2 ^ (3 : BitVec 2).toNat = 0 ∧
    Claims.reads (sm.drain 0) (sm.g 4).toNat 8 sm (List.replicate 8 0) ∧
    ((sm.drain 0).resolve ((sm.drain 0).ctxOf 0) .store (sm.g 4).toNat = .ok (.spad 0xFF8, none) ∧
      (sm.drain 0).beyond (.spad 0xFF8) 8 = false) ∧
    bytesNat (List.replicate 8 0) ≠ (sm.g 5).toNat % 256 ^ 8 ∧ bytesNat (List.replicate 8 0) = (sm.g 0).toNat % 256 ^ 8 ∧
    2 ≤ (2 : BitVec 2).toNat ∧ (1 : BitVec 2).toNat < 2 ∧ sm.cur.run = .running ∧ sm.trapsHere ∧ ((withG [(4, 1)]).g 4).toNat % 2 ≠ 0 :=
  ⟨rfl, rfl, ⟨_, _, rfl, rfl, rfl, rfl, rfl⟩, ⟨rfl, rfl⟩, by decide, rfl, by decide, by decide, rfl, ⟨rfl, by decide⟩, by decide⟩
theorem witness_wmon_limit : let s := monitoring ⟨.wmon 3 2 20 6 4, 0, none, 1⟩
    s.cur.run = .waiting ⟨.wmon 3 2 20 6 4, 0, none, 1⟩ ∧ (1 ≠ 0 ∧ 1 ≤ s.tick + 1) ∧
      (let t := monitoring ⟨.wmon 3 2 20 6 4, 0, none, 2⟩; t.tick + 1 < 2) := ⟨rfl, by decide, by decide⟩

/-- BarrierReleases: the last of one, the first of two, the ninth, a wrong count. -/
theorem witness_barrier : (s0.clusterAt 0).bars[7].count = 0 ∧ ((withG [(4, 1)]).g 4).toNat = 1 ∧ ((withG [(4, 8)]).g 4).toNat = 8 ∧
    8 < ((withG [(4, 9)]).g 4).toNat ∧ (s0.g 4).toNat < 1 ∧ s0.cur.run = .running ∧ s0.trapsHere ∧
    (let s := { withG [(4, 2)] with clusters := [(0, { Cluster.init with bars := Vector.replicate 8 ⟨1, 2, 0⟩ })] }
     (s.clusterAt 0).bars[7].target = (s.g 4).toNat ∧ (s.clusterAt 0).bars[7].count + 1 = (s.g 4).toNat) ∧
    (let s := { withG [(4, 3)] with clusters := [(0, { Cluster.init with bars := Vector.replicate 8 ⟨1, 2, 0⟩ })] }
     (s.clusterAt 0).bars[7].count ≠ 0 ∧ (s.clusterAt 0).bars[7].target ≠ (s.g 4).toNat) := by
  refine ⟨rfl, rfl, rfl, ?_, ?_, rfl, ⟨rfl, ?_⟩, ⟨rfl, rfl⟩, ?_, ?_⟩ <;> decide

/-- PublicationResults: a valid entry, an absent one, a reserved bit; `shsync` at its end, beyond it, with no length, waiting. -/
def sh (n off : Word) : State := handled (withG [(5, n), (6, off), (7, 2 ^ 36), (8, 1)])
theorem witness_pub : (handled s0).isExec 0 = false ∧ ((handled s0).drain 0) = handled s0 ∧ ((handled s0).handle 0).hvalid = true ∧
    ((handled s0).handle 0).gen = 0 ∧ ((sh 0 0).handle ((sh 0 0).g 8).toNat).hvalid = false ∧ 2 ^ 36 ≤ ((sh 0 0).g 7).toNat :=
  ⟨rfl, rfl, rfl, rfl, rfl, by decide⟩
theorem witness_shsync : (sh 256 0).cur.run = .running ∧ ((sh 256 0).handle 0).size = 256 ∧ (sh 256 0).engineLoad 0 < 16 ∧
    0 < ((sh 256 0).g 5).toNat ∧ ((sh 0 0).g 5).toNat = 0 ∧ ((sh 1 256).handle 0).size < ((sh 1 256).g 6).toNat + ((sh 1 256).g 5).toNat ∧
    524288 < ((sh 524289 0).g 5).toNat ∧ (sh 1 0).trapsHere ∧
    (let s := handled (on fun x => { x with g := regs [(5, 256)], run := .waiting ⟨.shsync 9 0 5 0, 0, none, 1⟩ })
     s.cur.run = .waiting ⟨.shsync 9 0 5 0, 0, none, (if false then 2 else 1) + if false then 2 else 0⟩ ∧
       ((s.hartAt 0).reg 0).toNat % 2 ^ 20 = 0) := by
  refine ⟨rfl, rfl, ?_, ?_, rfl, ?_, ?_, ⟨rfl, ?_⟩, rfl, rfl⟩ <;> decide
/-- The links behind both ranges of an `shsync` are up. -/
theorem witness_shsync_links : (handled s0).backingRun (0, 0x30000) 0 256 = 256 ∧ (handled s0).backingRun (0, 0x40000) 0 256 = 256 := by
  decide +kernel
/-- `pub` answers the new phase and flips it (R317). -/
theorem test_pub : (match exec (.pub 5 0) (handled s0) with | .next t => (t.g 5, (t.handle 0).phase, (t.handle 0).size) | _ => (0, false, 0)) =
    (1, true, 256) := by decide +kernel

/-- SpawnAndYield: no block, a block, the execute hart, no head, a head that could take the core. -/
def yielding : State := { on (fun x => { x with tr := { x.tr with xsave := 0x1000 } }) with
  tasks := [(0x100, task0), (0x300, Task.queued { eff0 with segs := 0 } 0 0)], status := { s0.status with dclus := BitVec.allOnes 128 }
  dies := [(0, { Die.init with queues := Vector.replicate 16 [QEntry.fresh 0x300] })] }
theorem witness_work : ((withG [(4, 1)]).drain 0).rcbOf 1 = none ∧
    ((mapped (withG [(4, page)])).drain 0).rcbOf page.toNat = some 0x20000 ∧ (split 1 id).isExec 1 = true ∧
    (∀ k, s0.task? s0.cur.rcb = some k → s0.yieldHead s0.cur.rcb k = false) ∧ yielding.task? yielding.cur.rcb = some task0 ∧
    task0.phase = .running ∧ yielding.turn ∈ task0.harts ∧ (∀ p ∈ yielding.tasks, p.1 = yielding.cur.rcb → p.2 = task0) :=
  ⟨rfl, rfl, rfl, fun k h => (by cases h; rfl), rfl, rfl, by decide, by decide⟩
theorem witness_yield_head : yielding.yieldHead yielding.cur.rcb task0 = true := by decide +kernel

/-! ## Witnesses: copies and vector lengths -/

/-- The block at `page`: one raw byte from 0x1000 to 0x2000; its operation byte changed. -/
def blockAt (op : Byte) (f : Hart → Hart) : State :=
  { mapped (on fun x => f { x with g := regs [(4, page)] }) with
    mem := tables ++ (if op = 0 then [] else [(0x20000, op)]) ++
      [(0x20009, 0x10), (0x20011, 0x20), (0x20018, 1), (0x2001A, 1), (0x2001C, 1)] }
def block1 (op : Byte) : List Byte := memReadN (blockAt op id).mem 0x20000 64
def slotRunning (x : Hart) : Hart := { x with slots := Vector.replicate 4 { CopySlot.init with status := 1 } }

theorem block_reads (op : Byte)
    (h : ((blockAt op id).drainSlice 0 0).resolve (((blockAt op id).drainSlice 0 0).ctxOf 0) .load page.toNat = .ok (.phys 0 0x20000, some (8, 0x2007F, false)))
    (n : blockAt op id = ((blockAt op id).drainSlice 0 0).noteLeaf (((blockAt op id).drainSlice 0 0).ctxOf 0) page.toNat false
      (some (8, 0x2007F, false))) :
    Claims.reads ((blockAt op id).drainSlice 0 0) page.toNat 64 (blockAt op id) (block1 op) :=
  ⟨_, _, h, rfl, rfl, n, rfl⟩
theorem witness_copy_block : (blockAt 0 id).isExec 0 = false ∧ (blockAt 0 id).cur.hasLate = false ∧ page.toNat % 64 = 0 ∧
    Claims.reads ((blockAt 0 id).drainSlice 0 0) page.toNat 64 (blockAt 0 id) (block1 0) ∧ (3 : BitVec 5).toNat < 4 ∧
    Claims.reads ((blockAt 4 id).drainSlice 0 0) page.toNat 64 (blockAt 4 id) (block1 4) ∧ (split 1 id).isExec 1 = true ∧ (blockAt 4 id).trapsHere :=
  ⟨rfl, rfl, rfl, block_reads 0 (by decide +kernel) (by decide +kernel), by decide, block_reads 4 (by decide +kernel) (by decide +kernel), rfl, rfl, by decide⟩
theorem witness_copy_checks : blkRefused (Claims.block (block1 4)) ≠ [] ∧ blkRefused (Claims.block (block1 0)) = [] ∧
    blkCount (Claims.block (block1 0)) = 1 ∧ (blockAt 0 id).handleCheck (Claims.block (block1 0)) (blkW (Claims.block (block1 0)) 1) none = none ∧
    opHandle (blkW (Claims.block (block1 0)) 1) = false ∧ opHandle (blkW (Claims.block (block1 0)) 2) = false ∧
    ((blockAt 0 id).slotAt 0 3).running = false ∧ (blockAt 0 id).engineLoad 0 < 16 ∧ ((blockAt 0 slotRunning).slotAt 0 3).running = true := by
  decide +kernel

/-- CopyQueries: idle and running slots, limits 0 and none, a wait for any of four and its limit. -/
theorem witness_copy_queries : (s0.slotAt 0 (slotOfImm 3)).state ≠ 1 ∧ ((on slotRunning).slotAt 0 (slotOfImm 3)).state = 1 ∧
    ((on slotRunning).g 4).toNat ≠ 2 ^ 64 - 1 ∧ ((on slotRunning).g 4).toNat ≤ (on slotRunning).tick ∧
    ((on fun x => slotRunning { x with g := regs [(4, -1)] }).g 4).toNat = 2 ^ 64 - 1 ∧ (∀ j : Fin 4, (s0.slotAt 0 j).state ≠ 1) ∧
    (let s := on fun x => { x with run := .waiting ⟨.cwait 5 4 4, 0, none, 8⟩ }
     s.cur.run = .waiting ⟨.cwait 5 4 4, 0, none, 8⟩ ∧ nbit 8 3 = true ∧ (s.slotAt 0 3).state ≠ 1 ∧
       ∀ k : Fin 4, k < 3 → nbit 8 k.val = true → (s.slotAt 0 k).state = 1) ∧ s0.isExec 0 = false := by
  refine ⟨?_, ?_, ?_, ?_, ?_, ?_, ⟨rfl, ?_, ?_, ?_⟩, rfl⟩ <;> decide +kernel
/-- A wait for any of four ends although the partner has started another command in the slot that stopped (R250). -/
theorem test_cwait_reused :
    let c : CopyCmd :=
      { block := [0, 0, 0, 1], size := 0, src := none, dst := none, index := 0, gen := 0, phase := false, rcb := 0x100, core := 0,
        bytes := 1, seq := 3, pos := 0, pend := [], fills := [] }
    let s := on fun x => { x with
      run := .waiting ⟨.cwait 5 4 4, 0, none, 1 + 16 * 2⟩
      slots := Vector.replicate 4 { CopySlot.init with status := 1, cmd := some c } }
    (match exec (.cwait 5 4 4) s with | .next t => t.cur.run | _ => .empty) = .running := by decide +kernel
/-- R251: a cancelled running command is in state 3. -/
theorem test_ccan : (match exec (.ccan 5 0) (on slotRunning) with | .next t => (t.slotAt 0 0).state | _ => 0) = 3 := by decide +kernel

theorem witness_lengths : s0.laneGroups 0 ≠ 0 ∧ s0.cur.dirty.von = true ∧ s0.isExec 0 = false ∧ s0.stripStop = false ∧
    vtypeLegal ((withG [(4, 0x12)]).g 4).toNat = true ∧ vtypeLegal ((withG [(4, 0x119)]).g 4).toNat = true ∧
    vtypeLegal ((withG [(4, 0x40000)]).g 4).toNat = false ∧ ((split 0 id).isSplit 0 && decide ((split 0 id).turn % 2 = 0)) = true ∧
    (split 0 id).trapsHere ∧ laneless.laneGroups 0 = 0 ∧ laneless.cur.run = .running ∧ noVec.cur.dirty.von = false := by
  refine ⟨?_, rfl, rfl, ?_, ?_, ?_, ?_, rfl, ⟨rfl, by decide⟩, ?_, rfl, rfl⟩ <;> decide +kernel
/-- R140's example: at 2 lane groups and binary32, `vset` of 1,000 grants 512. -/
theorem test_vset : (match exec (.vset 10 4) (on fun x => { x with g := regs [(4, 1000)], vec := { vec0 with vtype := 0x12 } }) with
    | .next t => (t.g 10, t.cur.vec.vl, t.cur.vec.strip, t.cur.pc) | _ => (0, 0, 0, 0)) = (512, 512, 1, 0x40000000000008) := by decide +kernel
/-- R131: `vset` after `vdecl 16` doubles the registers. -/
theorem test_vset_declares : (match exec (.vset 10 4) (on fun x => { x with
      g := regs [(4, 2000)], vec := { vec0 with vtype := 0x12, pend := 1, regs := Vector.replicate 42 1 } }) with
    | .next t => (t.g 10, t.vbits 0, t.cur.vec.reg 5) | _ => (0, 0, 1)) = (1024, 32768, 0) := by decide +kernel

/-! ## Witnesses: element-wise instructions -/

theorem issues_sv (ty : Word) (srcs : List VRead) (dst : Option (VSpec × Nat)) (h : (typed ty id).specsOk srcs dst = true)
    (q : (typed ty id).queueWait srcs (dst.map (·.1)) = none) : Claims.Issues (typed ty id) srcs dst :=
  ⟨by show s0.laneGroups 0 ≠ 0; decide +kernel, .inr rfl, h, q⟩

/-- `vadd v2, v1, v3` on bytes. -/
def addW : Claims.Ew := Claims.binary (typed 0 id) 0 2 1 (.vv 3) none (· + ·) fun rm x y => x.add rm y
theorem witness_elementwise : Claims.elementwise (typed 0 id) (.vadd 2 1 (.vv 3) none) = some addW ∧
    Claims.Issues (typed 0 id) addW.srcs (some (addW.vd, 1)) ∧ addW.bad = false ∧ (typed 0 id).cur.lim = none ∧
    Claims.active ((typed 0 id).readied addW.srcs) addW.mask = [0, 1] ∧
    ∀ e ∈ Claims.active ((typed 0 id).readied addW.srcs) addW.mask, addW.op ((typed 0 id).readied addW.srcs) e = .val 0 0 ∧
      ((typed 0 id).readied addW.srcs).flagTraps 0 = false :=
  ⟨rfl, issues_sv _ _ _ (by decide +kernel) (by decide +kernel), rfl, rfl, by decide +kernel, by decide +kernel⟩
/-- A compact form, which reads `l0` and a mask. -/
theorem witness_compact : ∃ w, Claims.elementwise (typed 0 id) (.cAdd 3 5 true) = some w ∧ w.bad = false ∧ w.len = 2 ∧ w.mask = some 0 ∧
    Claims.Issues (typed 0 id) w.srcs (some (w.vd, 1)) :=
  ⟨_, rfl, rfl, rfl, rfl, issues_sv _ _ _ (by decide +kernel) (by decide +kernel)⟩

/-- ElementwiseTraps: no lanes, no permission, an integer operation on floats, a queue in joined mode, division by zero with
`eid`, 0 / 0 with NV enabled. -/
theorem witness_elementwise_traps : laneless.laneGroups 0 = 0 ∧ laneless.trapsHere ∧ laneless.cur.run = .running ∧
    noVec.cur.dirty.von = false ∧
    (Claims.bitwise (typed 0x12 id) 2 1 (.vv 3) none (· &&& ·)).bad = true ∧
    (typed 0 id).specsOk [⟨48, 1, 0⟩] (some (2, 1)) = false := by
  refine ⟨?_, ⟨rfl, ?_⟩, rfl, rfl, ?_, ?_⟩ <;> decide +kernel
def eid (x : Hart) : Hart := { x with tr := { x.tr with fmode := 0x100 } }
def nv (x : Hart) : Hart := { x with tr := { x.tr with fmode := 0x0F8 } }
theorem witness_division_element : let s := typed 0 eid
    let w := Claims.divide s 2 1 (.vv 3) none false
    Claims.elementwise s (.vdiv 2 1 (.vv 3) none) = some w ∧ w.bad = false ∧ s.specsOk w.srcs (some (w.vd, 1)) = true ∧
      0 ∈ Claims.active (s.readied w.srcs) none ∧ w.op (s.readied w.srcs) 0 = .trap 14 0 := by
  refine ⟨rfl, ?_, ?_, ?_, ?_⟩ <;> decide +kernel
theorem witness_flag_element : let s := typed 0x12 nv
    let w := Claims.divide s 2 1 (.vv 3) none false
    w.bad = false ∧ s.specsOk w.srcs (some (w.vd, 1)) = true ∧ 0 ∈ Claims.active (s.readied w.srcs) none ∧
      (match w.op (s.readied w.srcs) 0 with | .val _ fl => (s.readied w.srcs).flagTraps fl | _ => false) = true := by
  refine ⟨?_, ?_, ?_, ?_⟩ <;> decide +kernel

/-- Two bytes a register holds. -/
def bytesIn (l : List (Nat × VReg)) (f : VecState → VecState) : State :=
  on fun x => { x with vec := f { vec0 with regs := Vector.ofFn fun i => tget 0 l i.val } }
def reg (o : Host.Outcome State Fault Refusal) (r : Nat) : Nat :=
  match o with | .next t => (t.cur.vec.reg r).toNat | _ => 0
/-- Bytes wrap each on its own: 0xFF + 1 = 0 and 1 + 1 = 2 (R107, R143). -/
theorem test_vadd_wraps : reg (exec (.vadd 2 1 (.vv 3) none) (bytesIn [(1, 0x01FF), (3, 0x0101)] id)) 2 = 0x0200 := by decide +kernel
/-- An inactive element keeps its old value without `mpol`, and so do the bits above `vl` without `tail` (R137). -/
theorem test_vadd_masked : reg (exec (.vadd 2 1 (.vv 3) (some 0)) (bytesIn [(1, 0x0505), (2, 0xAABBCC), (3, 0x0101)]
    fun v => { v with masks := Vector.replicate 8 2 })) 2 = 0xAA06CC := by decide +kernel
/-- The result file takes the result (R141). -/
theorem test_vmv_shifts_l : reg (exec (.vmv 2 1 none) (bytesIn [(1, 0x0807)] id)) 40 = 0x0807 := by decide +kernel
theorem test_vfma_accumulates : reg (exec (.vfma 2 1 (.vv 3) none) (bytesIn [(1, 0x0202), (2, 0x0100), (3, 0x0303)] id)) 2 = 0x0706 := by
  decide +kernel
theorem test_vclamp : reg (exec (.vclamp 2 1 (.vv 3) 4 none) (bytesIn [(1, 0x0902), (3, 0x0303), (4, 0x0505)] id)) 2 = 0x0503 := by
  decide +kernel
/-- R62's compact add: `l0` + v5. -/
theorem test_cadd : reg (exec (.cAdd 3 5 false) (bytesIn [(40, 0x0102), (5, 0x0304)] id)) 3 = 0x0406 := by decide +kernel
theorem test_vid : reg (exec (.vid 2 none) (bytesIn [] id)) 2 = 0x0100 := by decide +kernel

/-! ## Witnesses: masks, movements, reductions, block conversion -/

theorem witness_mask : let s := typed 0 id
    (∃ w, Claims.maskwise s (.vcmp 1 1 (.vv 3) 5 none) = some w ∧ w.bad = false ∧
      Claims.Issues s w.srcs none) ∧ Claims.Issues s [] none ∧ s.moveBad = false ∧
    (∃ w, Claims.maskwise s (.knot 1 2) = some w ∧ w.bad = false ∧
      ∀ e ∈ Claims.active (s.readied w.srcs) w.mask, (s.readied w.srcs).flagTraps (w.op (s.readied w.srcs) e).2 = false) :=
  ⟨⟨_, rfl, by decide +kernel, issues_sv _ _ _ (by decide +kernel) (by decide +kernel)⟩,
    issues_sv _ _ _ (by decide +kernel) (by decide +kernel), by decide +kernel, ⟨_, rfl, by decide +kernel, by decide +kernel⟩⟩
theorem witness_movement : let s := typed 0 id
    (∃ w, Claims.movement s (.vslup 2 1 (.vi 1) none) = some w ∧ w.bad = false ∧ Claims.Issues s w.srcs (some (w.vd, 1))) ∧
    Claims.Issues s [s.vt.read 1] (some (2, 1)) ∧ s.moveBad = false :=
  ⟨⟨_, rfl, by decide +kernel, issues_sv _ _ _ (by decide +kernel) (by decide +kernel)⟩,
    issues_sv _ _ _ (by decide +kernel) (by decide +kernel), by decide +kernel⟩
theorem witness_reduction : let s := typed 0 id
    (∃ w, Claims.reduction (.vsum 2 1 3 none) = some w ∧ Claims.Issues s [s.vt.read w.va, s.vt.read w.vb] (some (w.vd, 1)) ∧
      (s.vt.isF = true → w.fl = true)) ∧ s.vt.skind = 0 ∧ s.overlapBad s.flagRule 2 [s.vt.read 1, s.vt.read 3] = false ∧
    (s.readied [s.vt.read 1, s.vt.read 3]).flagTraps 0 = false ∧ s.vt.isI = true ∧ s.vt.sat = false ∧ 0 < s.vt.ew :=
  ⟨⟨_, rfl, issues_sv _ _ _ (by decide +kernel) (by decide +kernel), fun h => absurd h (by decide +kernel)⟩, by decide +kernel,
    by decide +kernel, by decide +kernel, by decide +kernel, by decide +kernel, by decide +kernel⟩
/-- E4M3 elements in blocks of one, from binary32. -/
theorem witness_block_conversion : let s := typed 0x4020 id
    let v := srcType s.vt 0x12
    Claims.Issues s [⟨4, srcGroup s.vt v, v.ewCode⟩] (some (2, s.vt.grp)) ∧ s.kindBad true true = false ∧ srcLegal 0x12 = true ∧
      srcGroup s.vt v ≤ 8 ∧ sbLegal s.vt 0 = true ∧ s.overlapBad s.anyEnable 2 [⟨4, srcGroup s.vt v, v.ewCode⟩] = false ∧
      ((s.readied [⟨4, srcGroup s.vt v, v.ewCode⟩]).flagTraps 0) = false :=
  ⟨issues_sv _ _ _ (by decide +kernel) (by decide +kernel), by decide +kernel, by decide +kernel, by decide +kernel, by decide +kernel,
    by decide +kernel, by decide +kernel⟩

theorem witness_block_masked : (typed 0x4020 id).laneGroups 0 ≠ 0 ∧ (typed 0x4020 id).cur.dirty.von = true ∧ (typed 0x4020 id).trapsHere := by
  refine ⟨?_, rfl, rfl, ?_⟩ <;> decide +kernel
/-- A quiet NaN with a pattern of its own passes `vcvt` between equal types as it is (spec/08's borderline uses). -/
theorem test_vcvt_quiet : (typed 0x12 id).convert (typed 0x12 id).vt 0 0x7FC00001 = .val 0x7FC00001 0 := by decide +kernel
theorem test_vcmp_lt : (match exec (.vcmp 1 1 (.vv 3) 2 none) (bytesIn [(1, 0x0180), (3, 0x0101)] id) with
    | .next t => t.mask 1 | _ => 0) = 1 := by decide +kernel
theorem test_kfirst : (match exec (.kfirst 6 1 none) (bytesIn [] fun v => { v with masks := Vector.replicate 8 2 }) with
    | .next t => t.g 6 | _ => 0) = 1 := by decide +kernel
theorem test_kset_chunk : (match exec (.kset 1 4 1) (on fun x => { x with g := regs [(4, 5)], vec := vec0 }) with
    | .next t => t.mask 1 | _ => 0) = 5 * 2 ^ 64 := by decide +kernel
theorem test_vslup : reg (exec (.vslup 2 1 (.vi 1) none) (bytesIn [(1, 0x0807), (2, 0x0102)] id)) 2 = 0x0702 := by decide +kernel
theorem test_vperm_beyond : reg (exec (.vperm 2 1 3 none) (bytesIn [(1, 0x0807), (3, 0xFF01)] id)) 2 = 0x0008 := by decide +kernel
theorem test_vcomp : reg (exec (.vcomp 2 1 1) (bytesIn [(1, 0x0807)] fun v => { v with masks := Vector.replicate 8 2 })) 2 = 0x0008 := by
  decide +kernel
/-- init + both elements, modulo 256 (R121). -/
theorem test_vsum : reg (exec (.vsum 2 1 3 none) (bytesIn [(1, 0xF005), (3, 0x10)] id)) 2 = 0x0005 := by decide +kernel

/-! ## Witnesses: vector memory -/

theorem chain_const {es : List Nat} {u : State} {acc : State → Nat → State → Prop} (h : ∀ e ∈ es, acc u e u) :
    Claims.Chain es es.length (fun _ => u) acc := fun _ _ _ he => h _ (List.mem_of_getElem? he)
/-- First `u`, then `q`. -/
def thenAfter (u q : State) (k : Nat) : State := if k = 0 then u else q
theorem chain_one {u q : State} {e : Nat} {acc : State → Nat → State → Prop} (h : acc u e q) :
    Claims.Chain [e] 1 (thenAfter u q) acc := by
  intro k hk x hx
  obtain rfl : k = 0 := by omega
  cases hx
  exact h
theorem chain_none {es : List Nat} {σ : Nat → State} {acc : State → Nat → State → Prop} : Claims.Chain es 0 σ acc :=
  fun k hk => absurd hk (by omega)

/-- Two byte elements at g4. -/
def vmem (va : Word) (f : Hart → Hart) : State := on fun x => f { x with g := regs [(4, va), (7, 1)], vec := vec0 }

def loadW (s : State) : Claims.Va := ⟨2, [], s.isExec s.turn, none, Claims.unitAt s 4 0⟩
/-- Two bytes at the start of the scratchpad window are read; the address of the second of two at its end is refused, and
so is the first at the null page. -/
theorem witness_vector_load : let s := vmem 0xF000000000000000 id
    let w := loadW s
    Claims.loadOf s (.vld 2 4 0 none) = some w ∧ Claims.Issues s w.srcs (some (w.r, s.vt.grp)) ∧ w.bad = false ∧ s.cur.lim = none ∧
      Claims.Chain [0, 1] 2 (fun _ => s.readied w.srcs) fun p e q => ∃ va, w.addr (s.readied w.srcs) e = .ok va ∧
        va % Claims.ebytes s = 0 ∧ Claims.element s (s.readied w.srcs) (.vld 2 4 0 none) p e va (Claims.ebytes s) = (q, .ok [0]) := by
  refine ⟨rfl, ⟨by decide +kernel, .inr rfl, by decide +kernel, by decide +kernel⟩, rfl, rfl, chain_const ?_⟩
  intro e he
  obtain rfl | rfl : e = 0 ∨ e = 1 := by simpa using he
  · exact ⟨_, rfl, rfl, rfl⟩
  · exact ⟨_, rfl, rfl, rfl⟩
theorem witness_vector_load_es : let s := vmem 0xF000000000000000 id
    Claims.active (s.readied (loadW s).srcs) (loadW s).mask = [0, 1] ∧
    (let s := vmem 0xF00000000007FFFF id; Claims.active (s.readied (loadW s).srcs) (loadW s).mask = [0, 1]) := by decide +kernel
theorem witness_vector_load_fails : (let s := vmem 0 id
    ∃ q, (s.readied []).load 0 (Claims.slice s 0) 0 1 = (q, .error 4)) ∧
    (let s := vmem 0xF00000000007FFFF id
     Claims.firstFault (.vldff 2 4 0 none) = true ∧ (∃ j < 1, nbit ((s.readied []).maskBits none) j = true) ∧
       (∃ q, Claims.element s (s.readied []) (.vldff 2 4 0 none) (s.readied []) 1 0xF000000000080000 1 = (q, .error 5)) ∧ s.trapsHere) ∧
    (let s := on fun x => { x with vec := { vec0 with regs := Vector.replicate 42 (2 ^ 21) } }
     Claims.spanAt s 8 s 0 = .error (5, 2 ^ 21)) ∧
    (let s := on fun x => { x with g := regs [(4, 1)], vec := { vec0 with vtype := 2 } }
     ∃ va, Claims.unitAt s 4 0 s 0 = .ok va ∧ va % Claims.ebytes s ≠ 0) :=
  ⟨⟨_, rfl⟩, ⟨rfl, ⟨0, by decide, by decide +kernel⟩, ⟨_, rfl⟩, ⟨rfl, by decide⟩⟩, by decide +kernel, ⟨_, rfl, by decide +kernel⟩⟩

/-- One byte element. -/
def vone (va : Word) (f : Hart → Hart) : State :=
  on fun x => f { x with g := regs [(4, va), (7, 1)], vec := { VecState.init with vl := 1 } }
theorem issues_vone (va : Word) (f : Hart → Hart) (srcs : List VRead) (dst : Option (VSpec × Nat))
    (l : (vone va f).laneGroups (vone va f).turn ≠ 0) (d : (vone va f).cur.dirty.von = true)
    (h : (vone va f).specsOk srcs dst = true) (q : (vone va f).queueWait srcs (dst.map (·.1)) = none) :
    Claims.Issues (vone va f) srcs dst := ⟨l, .inr d, h, q⟩
/-- An element whose load performs late. -/
theorem witness_vector_load_late : let s := { vone 0xF000000000000000 id with late := 2 ^ 32 - 1 }
    Claims.active (s.readied []) none = [0] ∧ ∃ q, Claims.Chain [0] 1 (thenAfter (s.readied []) q) fun p e q =>
      ∃ va, Claims.unitAt s 4 0 (s.readied []) e = .ok va ∧ va % 1 = 0 ∧ vqOf 2 = none ∧
        Claims.stays s (s.readied []) [0] (Claims.unitAt s 4 0 (s.readied [])) e 1 ∧
        Claims.Joins s (s.readied []) p va 1 (Claims.lateEntry s 2 e va 1) q :=
  ⟨by decide +kernel, _, chain_one ⟨_, rfl, rfl, by decide +kernel, ⟨by decide +kernel, fun k hk _ => by
    cases List.mem_singleton.mp hk; exact ⟨_, rfl, rfl, by decide +kernel⟩⟩, _, _, rfl, rfl⟩⟩
theorem witness_vector_store : let s := vone 0xF000000000000000 id
    ∃ w, Claims.storeOf s (.vst 1 4 0 none) = some w ∧ Claims.Issues s (s.vt.read w.r :: w.srcs) none ∧ w.bad = false ∧
      let u := s.readied (s.vt.read w.r :: w.srcs)
      Claims.active u w.mask = [0] ∧ ∃ q, Claims.Chain [0] 1 (thenAfter u q) fun p e q => ∃ va, w.addr u e = .ok va ∧
        va % 1 = 0 ∧ p.storeNext (Claims.slice s e) (Claims.group s e) va [0] [] = (q, none) :=
  ⟨_, rfl, issues_vone _ _ _ _ (by decide +kernel) rfl (by decide +kernel) (by decide +kernel), rfl, by decide +kernel, _,
    chain_one ⟨_, rfl, rfl, rfl⟩⟩
theorem witness_vector_store_fails : let s := vone 0 id
    ∃ q, (s.readied [s.vt.read 1]).storeNext (Claims.slice s 0) (Claims.group s 0) 0 [0] [] = (q, some 4) := ⟨_, rfl⟩
theorem witness_vsadd : let s := on fun x => { x with g := regs [(4, 0xF000000000000000)], vec := { VecState.init with vl := 1, vtype := 2 } }
    s.isExec 0 = false ∧ s.vt.skind = 0 ∧ s.vt.kind ≤ 3 ∧ (Claims.indexRead s 8 false).n ≤ 8 ∧ s.cur.lim = none ∧
      (let u := s.readied [s.vt.read 1, Claims.indexRead s 8 false]
       Claims.active u none = [0] ∧ Claims.indexAt s 4 8 false 3 u 0 = .ok 0xF000000000000000 ∧
         (u.drainSlice 0 1).atomicPlace 0 0xF000000000000000 4 false = .ok (.spad 0, none)) ∧
      (let t := on fun x => { x with g := regs [(4, 0)], vec := { VecState.init with vl := 1, vtype := 2 } }
       let u := t.readied [t.vt.read 1, Claims.indexRead t 8 false]
       Claims.indexAt t 4 8 false 3 u 0 = .ok 0 ∧ (u.drainSlice 0 1).atomicPlace 0 0 4 false = .error 4 ∧ t.trapsHere) := by
  refine ⟨rfl, ?_, ?_, ?_, rfl, ?_, ?_, ?_, rfl, ?_⟩ <;> decide +kernel

/-- One element of a late slice; an entry's place that has not expired. -/
theorem witness_vsadd_late : let s := { on (fun x => { x with
      g := regs [(4, 0xF000000000000000)], vec := { VecState.init with vl := 1, vtype := 2 } }) with late := 2 }
    let u := s.readied [s.vt.read 1, Claims.indexRead s 8 false]
    nbit s.late (Claims.slice s 0) = true ∧ s.cur.relFence = false ∧ (s.clusterAt 0).trace.on 11 = false ∧ u.est = 0 ∧
      Claims.active u none = [0] ∧ Claims.indexAt s 4 8 false 3 u 0 = .ok 0xF000000000000000 ∧
      ((u.drainSlice 0 1).atomicPlace 0 0xF000000000000000 4 false).toOption = some (.spad 0, none) ∧
      s.expired (.spad 0) = false := by refine ⟨?_, ?_, ?_, ?_, ?_, ?_, ?_, ?_⟩ <;> decide +kernel
/-- 5 added late to 7: memory takes the sum when the slice is joined (R223, log 4). -/
theorem test_vsadd_late : (match exec (.vsadd 1 4 8 false 0 none) { on (fun x => { x with
      g := regs [(4, 0xF000000000000000)]
      vec := { VecState.init with vl := 1, vtype := 2, regs := (Vector.replicate 42 0).set 1 5 } }) with mem := [(spadKey 0, 7)], late := 2 } with
    | .next t => (memRead t.mem (spadKey 0), memRead (t.drain 0).mem (spadKey 0)) | _ => (0, 0)) = (7, 12) := by decide +kernel
/-- Two elements at distinct places. -/
theorem witness_vsadd_two : let s := on fun x => { x with
      g := regs [(4, 0xF000000000000000)], vec := { VecState.init with vl := 2, vtype := 2, regs := (Vector.replicate 42 0).set 8 (2 ^ 32) } }
    let u := s.readied [s.vt.read 1, Claims.indexRead s 8 false]
    let v := u.drainSlice 0 1
    let place (e : Nat) : Target := .spad (8 * e)
    u.est = 0 ∧ Claims.active u none = [0, 1] ∧
      (∀ e ∈ [0, 1], Claims.indexAt s 4 8 false 3 u e = .ok (0xF000000000000000 + 8 * e) ∧
        v.atomicPlace 0 (0xF000000000000000 + 8 * e) 4 false = .ok (place e, none)) ∧
      ∀ e ∈ [0, 1], ∀ k ∈ [0, 1], e ≠ k → v.key (place e) + 4 ≤ v.key (place k) ∨ v.key (place k) + 4 ≤ v.key (place e) := by
  refine ⟨?_, ?_, ?_, ?_⟩ <;> decide +kernel
/-- ScaleAndRegisterMoves: the last entry of the file; the last word of a register, resumed there. -/
def last (x : Hart) : Hart := { x with tr := { x.tr with est := 255 } }
theorem witness_scale : let s := vone 0xF000000000000000 id
    Claims.Issues s [] none ∧ s.isExec 0 = false ∧ (255 : BitVec 8).toNat + (s.g 7).toNat ≤ 256 ∧
      (let u := s.readied []
       (List.range (s.g 7).toNat).filter (u.est ≤ ·) = [0] ∧
       (∃ q, Claims.Chain [0] 1 (thenAfter u q) fun p k q => ¬ (nbit s.late (Claims.slice s k) = true) ∧ ∃ w bs,
         p.load 0 (Claims.slice s k) 0xF000000000000000 1 = (w, .ok bs) ∧ q = w.setScale 0 (255 + k) (bytesNat bs)) ∧
       (let t := { s with late := 2 }
        nbit t.late (Claims.slice t 0) = true ∧ (t.latePlace 0 0xF000000000000000 1).isSome = true ∧ t.isSplit 0 = false) ∧
       ∃ q, Claims.Chain [0] 1 (thenAfter u q) fun p k q =>
         p.storeNext (Claims.slice s k) (Claims.group s k) 0xF000000000000000 (natBytes 1 0) [] = (q, none)) :=
  ⟨issues_vone _ _ _ _ (by decide +kernel) rfl (by decide +kernel) (by decide +kernel), rfl, by decide +kernel, by decide +kernel,
    ⟨_, chain_one ⟨by decide +kernel, _, _, rfl, rfl⟩⟩, by decide +kernel, ⟨_, chain_one rfl⟩⟩
theorem witness_register_moves : let s := vone 0xF000000000000000 last
    Claims.Issues s [] none ∧ s.regBad 41 = false ∧ (List.range (s.vbits 0 / 64)).filter ((s.readied []).est ≤ ·) = [255] ∧
      (Claims.Chain [255] 1 (fun _ => s.readied []) fun p k q => p.load 0 (Claims.slice s k) 0xF0000000000007F8 8 = (q, .ok (List.replicate 8 0))) ∧
      ¬ ((41 : VSpec).toNat < 40) ∧ (∃ q, Claims.Chain [255] 1 (thenAfter (s.readied []) q) fun p k q =>
        p.storeNext (Claims.slice s k) (Claims.group s k) 0xF0000000000007F8 (natBytes 8 0) [] = (q, none)) ∧
      (let t := { s with late := 2 ^ 32 - 1 }
       (3 : VSpec).toNat < 40 ∧ Claims.stays t (t.readied []) [255] (fun k => .ok ((0xF000000000000000 + 8 * k) % 2 ^ 64)) 255 8) :=
  ⟨issues_vone _ _ _ _ (by decide +kernel) rfl (by decide +kernel) (by decide +kernel), by decide +kernel, by decide +kernel,
    chain_const (es := [255]) fun e he => (by cases List.mem_singleton.mp he; rfl), by decide, ⟨_, chain_one rfl⟩,
    by decide, by decide +kernel, fun k hk _ => by cases List.mem_singleton.mp hk; exact ⟨_, rfl, rfl, by decide +kernel⟩⟩

/-- HazeOperations: the task's one tile, and the one after it, refused. -/
def hazy : State := on fun x => { x with g := regs [(4, 0xF200000000000000), (5, 4096), (6, 0xF200000000001000)], vec := vec0 }
theorem witness_haze : hazy.isExec 0 = false ∧ (hazy.drainSlice 0 0).hzRange (hazy.g 4).toNat (hazy.g 5).toNat = .ok [0] ∧
    (hazy.drainSlice 0 0).hzRange (hazy.g 4).toNat 1 = .ok [0] ∧
    (∃ va, (hazy.drainSlice 0 0).hzRange (hazy.g 6).toNat (hazy.g 5).toNat = .error va) ∧ hazy.trapsHere :=
  ⟨rfl, rfl, rfl, ⟨_, rfl⟩, rfl, by decide⟩
theorem witness_hzld : Claims.Issues hazy [] (some (2, hazy.vt.grp)) ∧ hazy.vt.ew ≠ 4 ∧ (none : VMask) ≠ some 1 ∧ hazy.cur.lim = none ∧
    Claims.active (hazy.readied []) none = [0, 1] ∧
    Claims.Chain [0, 1] 2 (fun _ => hazy.readied []) fun p e q => ∃ va, Claims.unitAt hazy 4 0 (hazy.readied []) e = .ok va ∧ va % 1 = 0 ∧
      va / 2 ^ 22 = 0xF200000000000000 / 2 ^ 22 ∧ p.load 0 (Claims.slice hazy e) va 1 = (q, .error 6) := by
  refine ⟨⟨by decide +kernel, .inr rfl, by decide +kernel, by decide +kernel⟩, by decide +kernel, by decide, rfl, by decide +kernel,
    chain_const ?_⟩
  intro e he
  obtain rfl | rfl : e = 0 ∨ e = 1 := by simpa using he
  · exact ⟨_, rfl, rfl, rfl, rfl⟩
  · exact ⟨_, rfl, rfl, rfl, rfl⟩

/-- Elements of `hzld` that perform late. -/
theorem witness_hzld_late : let s := { hazy with late := 2 }
    let u := s.readied []
    vqOf 2 = none ∧ s.late ≠ 0 ∧ Claims.active u none = [0, 1] ∧ ∀ e ∈ [0, 1], nbit s.late (Claims.slice s e) = true ∧
      (match Claims.unitAt s 4 0 u e with
        | .ok va => decide (va / 2 ^ 22 = 0xF200000000000000 / 2 ^ 22) && (u.latePlaceOf true 0 va 1).any (·.2.isNone)
        | .error _ => false) = true := by refine ⟨?_, ?_, ?_, ?_⟩ <;> decide +kernel
/-- The tile that a late `hzld` finds expired when it performs gives zeros with mask bits 0, a live one its bytes (R229, R233). -/
theorem test_hzld_late : (match exec (.hzld 2 1 4 0 none) { hazy with late := 2, tick := 5, mem := [(hazeKey 0, 7)] } with
    | .next t => ((t.drain 0).mask 1, ((t.setBirth 0 0 (some 5)).drain 0).mask 1, (((t.setBirth 0 0 (some 5)).drain 0).cur.vec.reg 2).toNat)
    | _ => (9, 9, 9)) = (0, 3, 7) := by decide +kernel
/-- Bytes at consecutive addresses become consecutive elements. -/
theorem test_vld : reg (exec (.vld 2 4 0 none) { vmem 0xF000000000000000 id with mem := [(spadKey 0, 7), (spadKey 1, 8)] }) 2 = 0x0807 := by
  decide +kernel
/-- Two bytes loaded late: the register takes them when the slice is joined (R381, log 4). -/
theorem test_vld_late : (match exec (.vld 2 4 0 none) { vmem 0xF000000000000000 id with
      mem := [(spadKey 0, 7), (spadKey 1, 8)], late := 2 } with
    | .next t => ((t.cur.vec.reg 2).toNat, ((t.drain 0).cur.vec.reg 2).toNat) | _ => (1, 1)) = (0, 0x0807) := by decide +kernel
/-- A store is queued on its lane group's slice and performs at a fence. -/
theorem test_vst : (match exec (.vst 1 4 0 none) (on fun x => { x with
      g := regs [(4, 0xF000000000000000)], vec := { vec0 with regs := Vector.replicate 42 0x0807 } }) with
    | .next t => (t.cur.stores.map (·.slice), memRead (t.drain 0).mem (spadKey 1)) | _ => ([], 0)) = ([1, 1], 8) := by decide +kernel
/-- hzld of an expired tile gives zero elements with mask bits 0, and no trap (R229). -/
theorem test_hzld : (match exec (.hzld 2 1 4 0 none) hazy with | .next t => (t.cur.pc, t.mask 1) | _ => (0, 9)) = (0x40000000000008, 0) := by
  decide +kernel

/-! ## Witnesses: coded streams -/

theorem witness_codes : (2 ^ 64 - 1 : Nat) < 2 ^ 64 ∧ (1 : Nat) < 2 ^ 1 ∧ (encodeCode false (2 ^ 64 - 1)).2 = 88 ∧
    (encodeCode true 0).2 = 8 := by decide +kernel

/-- 32-bit codes of kind 10 in a 128-bit stream `bits` of v1, two values. -/
def coded (bits : VReg) (f : Hart → Hart) : State :=
  on fun x => f { x with
    g := regs [(4, 0xF000000000000000), (5, 16), (6, 3)]
    vec := { vec0 with vtype := 0x52, vlb := 128, regs := Vector.ofFn fun i => tget 0 [(1, bits), (3, 0)] i.val } }
theorem issues_coded (bits : VReg) (srcs : List VRead) (dst : Option (VSpec × Nat)) (l : (coded bits id).laneGroups 0 ≠ 0)
    (h : (coded bits id).specsOk srcs dst = true) (q : (coded bits id).queueWait srcs (dst.map (·.1)) = none) :
    Claims.Issues (coded bits id) srcs dst := ⟨l, .inr rfl, h, q⟩
/-- `zadd` of two well-formed streams, and of one that does not end within 64 value bits. -/
theorem witness_coded_sum : let s := coded 0 id
    s.vt.coded = true ∧ s.vt.grp = 1 ∧ (∃ w, Claims.codedOp s (.zadd 2 1 (.vv 3)) = some w ∧ w.bad = false) ∧ s.vt.kind ≠ 12 ∧
    s.scaleOver s.vt = false ∧ Claims.Issues s [⟨1, 1, 0⟩, ⟨3, 1, 0⟩] (some (2, 1)) ∧
    (let u := s.readied [⟨1, 1, 0⟩, ⟨3, 1, 0⟩]
     (zLoop s.vt (u.groupBits 1 1) s.vlb (u.zSrc s.vt (.vv 3)) (fun x y => s.vt.fit64 (x + y)) 2 ⟨0, 0, 0, 0, 0⟩).bad = none) ∧
    (let t := coded (2 ^ 128 - 1) id
     let u := t.readied [⟨1, 1, 0⟩, ⟨3, 1, 0⟩]
     (zLoop t.vt (u.groupBits 1 1) t.vlb (u.zSrc t.vt (.vv 3)) (fun x y => t.vt.fit64 (x + y)) 2 ⟨0, 0, 0, 0, 0⟩).bad = some (0, 0)) := by
  refine ⟨?_, ?_, ⟨_, rfl, rfl⟩, ?_, ?_, issues_coded 0 _ _ ?_ ?_ ?_, ?_, ?_⟩ <;> decide +kernel
theorem witness_decode_encode : let s := coded 0 id
    Claims.Issues s [⟨1, 1, 0⟩] (some (2, 1)) ∧ Claims.Issues s [s.vt.read 1] (some (2, 1)) ∧
    (codesFrom s.vt.gran ((s.readied [⟨1, 1, 0⟩]).groupBits 1 1) s.vlb 2 0).2 = none ∧ (s.readied [⟨1, 1, 0⟩]).flagTraps 0 = false ∧
    (codesFrom s.vt.gran ((s.readied [⟨1, 1, 0⟩]).groupBits 1 1) s.vlb (s.vlb / 4) 0).2 = none ∧
    (let t := coded (2 ^ 128 - 1) id
     (codesFrom t.vt.gran ((t.readied [⟨1, 1, 0⟩]).groupBits 1 1) t.vlb 2 0).2 = some 0) ∧
    Claims.Issues s [⟨1, 1, 0⟩] none ∧ Claims.Issues s [⟨1, 1, 0⟩, ⟨3, 1, 0⟩] (some (2, 1)) ∧ (s.g 5).toNat ≤ s.vlb := by
  refine ⟨issues_coded 0 _ _ ?_ ?_ ?_, issues_coded 0 _ _ ?_ ?_ ?_, ?_, ?_, ?_, ?_, issues_coded 0 _ _ ?_ ?_ ?_,
    issues_coded 0 _ _ ?_ ?_ ?_, ?_⟩ <;> decide +kernel
/-- The kind `ezd` (12). -/
theorem witness_ezd : let s := typed 0x62 id
    s.vt.coded = true ∧ s.vt.grp = 1 ∧ s.vt.kind = 12 ∧ (∃ w, Claims.codedOp s (.zadd 2 1 (.vv 3)) = some w) ∧ s.vecIssue = none ∧ s.trapsHere :=
  ⟨by decide +kernel, by decide +kernel, by decide +kernel, ⟨_, rfl⟩, by decide +kernel, rfl, by decide⟩
/-- Malformed code for `zscan` and `zcnt`; a stream whose byte is read late. -/
theorem witness_malformed : let t := coded (2 ^ 128 - 1) id
    Claims.Issues t [⟨1, 1, 0⟩] (some (2, 1)) ∧ Claims.Issues t [⟨1, 1, 0⟩] none ∧ t.cur.run = .running ∧ t.trapsHere ∧
    (codesFrom t.vt.gran ((t.readied [⟨1, 1, 0⟩]).groupBits 1 1) t.vlb 2 0).2 = some 0 ∧
    (codesFrom t.vt.gran ((t.readied [⟨1, 1, 0⟩]).groupBits 1 1) t.vlb (t.vlb / 4) 0).2 = some 0 := by
  refine ⟨issues_coded _ _ _ ?_ ?_ ?_, issues_coded _ _ _ ?_ ?_ ?_, rfl, ⟨rfl, ?_⟩, ?_, ?_⟩ <;> decide +kernel
theorem witness_stream_late : let s := { coded 0 id with late := 2 }
    s.isExec 0 = false ∧ (s.readied []).zldLate 2 (streamBytes (8 * (s.g 4).toNat + (s.g 6).toNat) (min (s.g 5).toNat s.vlb)) = true := by
  refine ⟨rfl, ?_⟩; decide +kernel
/-- Streams of one bit at bit 3 of the scratchpad: one byte moves. -/
theorem witness_streams : let s := on fun x => { x with
      g := regs [(4, 0xF000000000000000), (5, 1), (6, 3)], vec := { vec0 with vtype := 0x52, vlb := 64 } }
    Claims.Issues s [] (some (2, 1)) ∧ Claims.Issues s [⟨1, 1, 0⟩] none ∧ s.isExec 0 = false ∧ (s.g 5).toNat ≤ s.vbits 0 ∧
    streamBytes (8 * (s.g 4).toNat + (s.g 6).toNat) (min (s.g 5).toNat s.vlb) = [0xF000000000000000] ∧
    (s.readied []).zldLate 2 [0xF000000000000000] = false ∧
    ((s.readied []).drainSlice 0 1).streamFail .load [0xF000000000000000] = none ∧
    (s.readied [⟨1, 1, 0⟩]).zstFail (8 * (s.g 4).toNat + (s.g 6).toNat) (s.g 5).toNat = none ∧
    (((s.readied []).drainSlice 0 1).load 0 1 0xF000000000000000 1).2 = .ok [0] ∧
    ((s.readied [⟨1, 1, 0⟩]).storeNext 1 0 0xF000000000000000 (natBytes 1 0) (natBytes 1 8)).2 = none := by
  refine ⟨⟨?_, .inr rfl, ?_, ?_⟩, ⟨?_, .inr rfl, ?_, ?_⟩, rfl, ?_, ?_, ?_, ?_, ?_, ?_, ?_⟩ <;> decide +kernel

/-- R177's sum of 1 and 2 codes: EZ4 codes of one granule add to one granule. -/
theorem test_zadd : (match exec (.zadd 2 1 (.vv 3)) (on fun x => { x with vec := { vec0 with
      vtype := 0x52, vl := 1, vlb := 64, regs := Vector.ofFn fun i => tget 0 [(1, 1), (3, 2)] i.val } }) with
    | .next t => ((t.cur.vec.reg 2).toNat % 16, t.cur.gcnt, t.cur.gsa, t.cur.gsb, t.cur.gsd) | _ => (0, 0, 0, 0, 0)) = (3, 1, 4, 4, 4) := by
  decide +kernel

/-! ## Witnesses: the matrix unit -/

/-- Tile row 0 of cluster 0 held by the task, with n zeroing commands of hart h; BF16 on both sides, in reduced service. -/
def tiled (n h : Nat) (f : Hart → Hart) : State :=
  { on (fun x => f { x with mxcfg := 0xEE, g := regs [(4, 0xF000000000000000), (7, 1)] }) with
    clusters := [(0, { Cluster.init with rows := Vector.ofFn fun t =>
      if t.val = 0 then { TileRow.init with holder := some 0x100, cmds := List.replicate n ⟨h, .zero, [], false⟩ } else TileRow.init })] }

theorem witness_attach : s0.mxIssue = none ∧ (s0.g 4).toNat / 8 % 2 = 0 ∧ (s0.g 4).toNat < 256 ∧ ((withG [(4, 0xF4)]).g 4).toNat % 8 = 4 ∧
    ((withG [(4, 0xF4)]).g 4).toNat < 256 ∧ noVec.cur.dirty.mon = false ∧ noVec.trapsHere := ⟨rfl, rfl, by decide, rfl, by decide, rfl, ⟨rfl, by decide⟩⟩
theorem witness_rows : (tiled 0 0 id).mxIssue = none ∧ (1 : BitVec 4).toNat &&& (15 - (tiled 0 0 id).heldRows) = 0 ∧
    (tiled 1 0 id).rowsFull 1 = false ∧ (tiled 2 0 id).rowsFull 1 = true ∧
    (∃ t : Fin 4, nbit 1 t.val = true ∧ ∃ c ∈ ((tiled 1 0 id).rowAt 0 t).cmds, c.hart = 0) ∧
    (∀ t : Fin 4, nbit (tiled 1 1 id).heldRows t.val = true → ∀ c ∈ ((tiled 1 1 id).rowAt 0 t).cmds,
      ¬ (c.hart = 0 ∨ (c.hart = partnerOf 0 ∧ c.seen = true))) ∧
    ¬ ((2 : BitVec 4).toNat &&& (15 - (tiled 0 0 id).heldRows) = 0) ∧ (tiled 0 0 id).trapsHere := by
  refine ⟨rfl, ?_, ?_, ?_, ?_, ?_, ?_, ⟨rfl, ?_⟩⟩ <;> decide +kernel
/-- The last column of a panel, resumed there. -/
def at511 (x : Hart) : Hart := { x with tr := { x.tr with est := 511 } }
theorem witness_mxload : let s := tiled 0 0 at511
    s.mxIssue = none ∧ s.isExec 0 = false ∧ (s.reduced = true → s.bfmt = 14) ∧ s.rowsFull 1 = false ∧
    (List.range 512).filter (s.est ≤ ·) = [511] ∧ ∃ q c, Claims.Chain [511] 1 (thenAfter s q) fun p n q =>
      Claims.ReadsColumn ⟨s.g 4, s.g 0, s.g 0, s.bfmt⟩ p n q c :=
  ⟨rfl, rfl, fun _ => by decide +kernel, by decide +kernel, by decide +kernel, _, (_, none), chain_one
    ⟨by decide +kernel, _, _, List.replicate 512 0, [], pair_eq (by decide +kernel), pair_eq (by decide +kernel), rfl,
      (by rw [if_neg (by decide +kernel)]; exact ⟨rfl, rfl⟩)⟩⟩
theorem witness_mxload_fails : let s := tiled 0 0 at511
    ∃ q, s.readColumn ⟨1, 0, 0, s.bfmt⟩ 511 = (q, .error (3, 1)) := ⟨_, pair_eq (by decide +kernel)⟩
theorem witness_mxmul : let s := tiled 1 0 id
    s.mxIssue = none ∧ s.vecIssue = none ∧ (s.reduced = true → s.afmt = 14) ∧ (s.g 7).toNat = 1 ∧ (63 : BitVec 6).toNat + 1 ≤ 64 ∧
      s.aBad (mxFmt s.afmt) 1 1 255 = false ∧ s.rowRefuses (mxFmt s.afmt) 0 = false ∧ s.rowsFull 1 = false ∧ (tiled 2 0 id).rowsFull 1 = true ∧
      s.heldRows ≠ 0 ∧ (s.g 7).toNat < 2 ^ 32 ∧ (s.rowAt 0 0).cmds.length < 2 ∧ 2 ≤ ((tiled 2 0 id).rowAt 0 0).cmds.length := by
  refine ⟨rfl, ?_, fun _ => ?_, ?_, ?_, ?_, ?_, ?_, ?_, ?_, ?_, ?_, ?_⟩ <;> decide +kernel

/-- Row 1, which the task does not hold; no row held; first use. -/
theorem witness_not_held : let s := tiled 0 0 id
    let z := on fun x => { x with mxcfg := 0xEE, g := regs [(7, 1)] }
    let f := on fun x => { x with dirty := { x.dirty with mon := false } }
    ¬ (2 ^ 1 &&& (15 - s.heldRows) = 0) ∧ (s.reduced = true → s.bfmt = 14) ∧ s.vecIssue = none ∧ (s.reduced = true → s.afmt = 14) ∧
    (s.g 7).toNat = 1 ∧ s.aBad (mxFmt s.afmt) 1 1 255 = false ∧ s.rowRefuses (mxFmt s.afmt) 1 = false ∧
    z.mxIssue = none ∧ z.vecIssue = none ∧ (z.reduced = true → z.afmt = 14) ∧ (z.g 7).toNat < 2 ^ 32 ∧
    z.aBad (mxFmt z.afmt) 1 1 255 = false ∧ z.heldRows = 0 ∧ z.trapsHere ∧ f.cur.dirty.mon = false ∧ f.vecIssue = none ∧ f.trapsHere := by
  refine ⟨?_, fun _ => ?_, ?_, fun _ => ?_, ?_, ?_, ?_, rfl, ?_, fun _ => ?_, ?_, ?_, ?_, ⟨rfl, ?_⟩, rfl, ?_, ⟨rfl, ?_⟩⟩ <;> decide +kernel
/-- One element of the last column and row, as BF16. -/
def draining (n : Nat) : State := tiled n 0 fun x => { x with
  g := regs [(4, 0xF000000000000000), (6, 0x1FF0001)], vec := { VecState.init with vl := 1 } }
theorem witness_drain : let s := draining 0
    ∃ w, Claims.drainOf s (.mxdrain 0 63 0x23 4 5 6 none) = some w ∧ Claims.Issues s w.srcs none ∧ s.isExec 0 = false ∧
      nbits (s.g 6).toNat 10 6 = 0 ∧ (s.g 6).toNat < 2 ^ 25 ∧ 1 ≤ (s.g 6).toNat % 1024 ∧
      nbits (s.g 6).toNat 16 9 + (s.g 6).toNat % 1024 ≤ 512 ∧ s.cur.vec.vl.toNat ≤ (64 - w.r0) * ((s.g 6).toNat % 1024) ∧
      drainFmtOk w.fmt = true ∧ 2 ^ w.t.toNat &&& (15 - s.heldRows) = 0 ∧ s.rowsPend 1 = false ∧ (draining 1).rowsPend 1 = true ∧
      Claims.active (s.readied w.srcs) w.mask = [0] ∧
      (∀ e, e < s.cur.vec.vl.toNat → nbit ((s.readied w.srcs).maskBits w.mask) e = true) := by
  refine ⟨_, rfl, ⟨?_, .inr rfl, ?_, ?_⟩, rfl, ?_, ?_, ?_, ?_, ?_, ?_, ?_, ?_, ?_, ?_, ?_⟩ <;> decide +kernel
theorem witness_drain_not_held : let s := draining 0
    ∃ w, Claims.drainOf s (.mxdrain 1 63 0x23 4 5 6 none) = some w ∧ 2 ^ w.t.toNat &&& (15 - s.heldRows) ≠ 0 ∧ s.trapsHere :=
  ⟨_, rfl, by decide +kernel, rfl, by decide⟩
theorem witness_drain_chain : let s := draining 0
    ∃ q, Claims.Chain [0] 1 (thenAfter (s.readied []) q) fun p _ q => ∃ v,
      let y := (p.rowAt 0 0).drainValue 63 511 0x23 p.rm p.vt.sat
      p.storeNext (Claims.slice s 0) (Claims.group s 0) 0xF000000000000000 (natBytes 2 y.1) [] = (v, none) ∧ q = v.addMflags 0x100 0 y.2 :=
  ⟨_, chain_one ⟨_, pair_eq (by decide +kernel), rfl⟩⟩
/-- An image of no rows, saved from its last word on. -/
theorem witness_images : let s := on fun x => { x with g := regs [(4, 0xF000000000000000)], tr := { x.tr with est := 31 } }
    s.mxIssue = none ∧ s.isExec 0 = false ∧ (s.g 4).toNat % 256 = 0 ∧ (List.range (32 + 16384 * 0)).filter (s.est ≤ ·) = [31] ∧
    ∃ q, Claims.Chain [31] 1 (thenAfter s q) fun p w q => p.storeNext 0 0 0xF0000000000000F8 (natBytes 8 (s.saveWord w)) [] = (q, none) :=
  ⟨rfl, rfl, rfl, by decide +kernel, _, chain_one (pair_eq (by decide +kernel))⟩
/-- An image of no rows put back from its first word and, its words kept, from its panels on; one that names a row not held. -/
theorem witness_image_reads : let s := withG [(4, 0xF000000000000000)]
    let r := on fun x => { x with g := regs [(4, 0xF000000000000000)], tr := { x.tr with est := 32 }, rest := List.replicate 32 0 }
    let t := { s with mem := [(spadKey 8, 1)] }
    s.mxIssue = none ∧ s.isExec 0 = false ∧ (List.range 1).filter (s.est ≤ ·) = [0] ∧
    Claims.Chain [0] 1 (fun _ => s) (fun p w q => p.load 0 0 0xF000000000000000 8 = (q, .ok (List.replicate 8 0)) ∧
      (w < 32 → headBad w (bytesNat (List.replicate 8 0)) = false)) ∧
    (let u := (s.restUpTo (s.g 4).toNat 32).1
     s.restUpTo (s.g 4).toNat 32 = (u, .ok (List.replicate 32 0)) ∧ 0 &&& (15 - s.heldRows) = 0 ∧ s.est < 32 ∧
       u.restUpTo (s.g 4).toNat 32 = ((u.restUpTo (s.g 4).toNat 32).1, .ok (List.replicate 32 0))) ∧
    (r.restUpTo (r.g 4).toNat 32 = ((r.restUpTo (r.g 4).toNat 32).1, .ok (List.replicate 32 0)) ∧ 32 ≤ r.est ∧
      (r.restUpTo (r.g 4).toNat 32).1.reload 32 0 32 [] = ((r.restUpTo (r.g 4).toNat 32).1, none)) ∧
    (t.restUpTo (t.g 4).toNat 32).2 = .ok (0 :: 1 :: List.replicate 30 0) ∧ 1 &&& (15 - t.heldRows) ≠ 0 ∧ t.trapsHere :=
  ⟨rfl, rfl, by decide +kernel, chain_const (es := [0]) fun e he => (by cases List.mem_singleton.mp he; exact ⟨rfl, fun _ => by decide +kernel⟩),
    ⟨pair_eq (by decide +kernel), by decide, by decide +kernel, pair_eq (by decide +kernel)⟩,
    ⟨pair_eq (by decide +kernel), by decide +kernel, rfl⟩, by decide +kernel, by decide +kernel, rfl, by decide⟩

theorem test_mxattach : (match exec (.mxattach 5 4) (withG [(4, 0xC2)]) with
    | .next t => (t.g 5, (t.rowAt 0 2).holder, (t.rowAt 0 0).holder) | _ => (0, none, none)) = (2, some 0x100, none) := by decide +kernel
/-- The command a landing product is: row acc0 of an INT8 row gains the product of 2 and 3 in column 0 (R262). -/
theorem test_mx_product :
    let r : TileRow := { TileRow.init with holder := some 0x100, landed := 12, panel := [(0, ([3], []))], cmds := [⟨0, .mul true 5 [(0, [2], [])] 12 12, [], false⟩] }
    (match exec .matrixCommandDone { s0 with clusters := [(0, { Cluster.init with rows := Vector.replicate 4 r })] } with
    | .next t => (tget [] (t.rowAt 0 0).acc 5).getD 0 9 | _ => 9) = 6 := by decide +kernel

/-! ## Witnesses: Bobbin, signatures, convoys -/

/-- 32-bit integer elements, both streams set. -/
def bob (f : State → State) : State := f (on fun x => { x with g := regs [(5, 2 ^ 48 - 1)], vec := { vec0 with vtype := 2 } })
def streamA : Cursor := ⟨8 * 0xF00000000000000, 0, 1, 0, false, false, 0⟩
theorem witness_bobbin : (bob id).isExec 0 = false ∧ ((bob id).g 5).toNat < 2 ^ 48 ∧ (bob id).vecIssue = none ∧ (bob id).vt.kind ≤ 1 ∧
    (bob id).vt.ew = 32 ∧ (bob id).vt.skind = 0 ∧
    (∀ d ∈ ([1, 2, 3] : List VSpec), (bob id).vspecOk d 1 true = true ∧ (bob id).queueWait [] (some d) = none) ∧
    ([1, 2, 3] : List VSpec).Pairwise (fun a b => groupsMeet a b 1 = false) ∧ (bob id).cur.lim = none ∧
    (∃ w, Claims.bobOf (bob id) (.bbmerge 1 2 3 0 1) = some w ∧ ∀ x y, w.ks = some (x, y) → x ≠ y) := by
  refine ⟨rfl, ?_, ?_, ?_, ?_, ?_, ?_, ?_, rfl, ⟨_, rfl, fun x y h => ?_⟩⟩
  all_goals first | decide +kernel | (cases h; decide)
/-- Peeks: exhausted, a value of the scratchpad, a page fault, a coordinate out of order. -/
theorem witness_peeks : (bob id).peek false = (bob id, .exhausted) ∧
    (let s := bob (·.setCursor false { streamA with cur := 0 }); ∃ q, s.peek false = (q, .fail 4 0)) ∧
    (let s := bob (·.setCursor false { streamA with cur := 8 * 0xF00000000000000 })
     (s.cursor false).idx < (s.cursor false).end_ ∧ (s.cursor false).fmt < 2 ∧ (s.cursor false).cur % 32 = 0) ∧
    (let s := bob (·.setCursor true { streamA with cur := 0, v := true, last := 1 }); (s.cursor true).v = true ∧ 0 < (s.cursor true).last) :=
  ⟨pair_eq (by decide +kernel), ⟨_, pair_eq (by decide +kernel)⟩, by decide +kernel, by decide +kernel⟩
/-- No turn of `bbisect`, whose stream A is exhausted, and one turn of `bbwalk`, which then reaches the end. -/
def walking : State := bob (·.setCursor true { streamA with end_ := 1 } |>.setCursor false { streamA with v := true, last := 5 })
def walked : State := walking.setCursor true { walking.cursor true with idx := ((walking.cursor true).idx + 1) % 2 ^ 64 }
def walkedOut : Emit := (⟨0, 0, 0, 0, 0, 0, 0⟩ : Emit).put (Claims.bobOf.ew walking) (wrapN 64 (((walking.cursor false).idx : Int) - 1))
  (walking.cursor true).idx 0 false false 1
theorem witness_turns : (∃ w, Claims.bobOf (bob id) (.bbisect 1 2 3) = some w ∧ ∃ q, w.ends (bob id, ⟨0, 0, 0, 0, 0, 0, 0⟩) q) ∧
    (∃ w, Claims.bobOf walking (.bbwalk 1 2) = some w ∧ w.turn (walking, ⟨0, 0, 0, 0, 0, 0, 0⟩) (walked, walkedOut) ∧
      w.ends (walked, walkedOut) walked) ∧ walkedOut.n = 1 := by
  refine ⟨⟨_, rfl, _, .inl (pair_eq (by decide +kernel))⟩, ⟨_, rfl, ⟨by decide +kernel, ?_⟩, .inl ⟨by decide +kernel, rfl⟩⟩, rfl⟩
  rw [if_neg (by decide +kernel)]
  rfl

/-- A loaded projection of 4 rows of one element in slot 7 and the bucket registers: the pool at the window's base, one free
segment, each directory 4 KiB on. -/
def sigging (ty : Word) (f : Hart → Hart) : State :=
  { on (fun x => f { x with
      g := regs [(4, 0xF000000000000000), (6, 7), (8, 4)], vec := { vec0 with vtype := ty }
      sig := Vector.ofFn fun i => if i.val = 0 then 0xF000000000000000 else if i.val = 1 then 2 else if i.val = 2 then 1
        else if 8 ≤ i.val then 0xF000000000001000 else 0 }) with
    cores := [(0, { Core.init with proj := Vector.replicate 8 ⟨true, 4, 1, 0, 0, [[0], [0], [0], [0]]⟩ })] }
theorem witness_sgproj : let s := sigging 0x12 id
    s.isExec 0 = false ∧ ∃ u, (s.drainSlice 0 0).readProj ((s.drainSlice 0 0).ctxOf 0) (s.g 4).toNat (s.g 0).toInt 16 1 =
      (u, .ok (List.replicate 16 [0])) := ⟨rfl, _, pair_eq (by decide +kernel)⟩
theorem witness_sgkey : let s := sigging 0x12 id
    s.vt.kind = 2 ∧ s.vt.ew = 32 ∧ s.vt.grp = 1 ∧ s.vt.skind = 0 ∧ (s.projAt 7).loaded = true ∧
    s.specsOk [s.vt.read 1] none = true ∧ (s.g 6).toNat < 2 ^ 32 ∧ 1 ≤ s.sgpnext ∧ s.sgpnext < s.sgplim ∧
    (let u := (s.readied [s.vt.read 1]).drainSlice 0 0
     u.storeFail 0xF000000000000000 4 = none ∧ u.entryFail ((s.sgdir 7 + 16 * 15) % 2 ^ 64) = none ∧ u.storeFail (s.segAt 1) 64 = none ∧
       (∃ q, u.storeNext 0 0 0xF000000000000000 (natBytes 4 0) [] = (q, none) ∧
         ∃ v, (q.drain 0).linkStep ((s.sgdir 7 + 16 * 15) % 2 ^ 64) 7 = .ok v)) := by
  refine ⟨?_, ?_, ?_, ?_, ?_, ?_, ?_, ?_, ?_, ?_, ?_, ?_, _, pair_eq ?_, ok_of ?_⟩ <;> decide +kernel
/-- A first and a continuing gather. -/
theorem witness_gather : let s := sigging 0x02 id
    let t := sigging 0x02 fun x => { x with sig := x.sig.set 5 (2 ^ 63) }
    s.vt.kind ≤ 1 ∧ s.vt.ew = 32 ∧ s.vt.skind = 0 ∧ s.vt.grp = 1 ∧ s.gather.go = false ∧ t.gather.go = true ∧
    (s.g 8).toNat ≤ (s.projAt 7).b ∧ s.specsOk [s.vt.read 3] (some (2, 1)) = true ∧ t.vspecOk 3 1 false = true ∧
    (∃ z, (s.gatherStart 7 3 4).2 = .ok z) ∧ (∃ z, (gatherLoop 2 8192 t t.gather 0).2 = .ok z) := by
  refine ⟨?_, ?_, ?_, ?_, ?_, ?_, ?_, ?_, ?_, ok_of ?_, ok_of ?_⟩ <;> decide +kernel
/-- The last bucket of slot 7; an entry that fails. -/
def lastBucket (x : Hart) : Hart := { x with tr := { x.tr with est := 15 } }
theorem witness_sgclr : let s := sigging 0x12 lastBucket
    (s.projAt 7).loaded = true ∧ (List.range (2 ^ (s.projAt 7).b)).filter (s.est ≤ ·) = [15] ∧
    (∃ q, Claims.Chain [15] 1 (thenAfter s q) fun p w q =>
      p.storeNext 0 0 ((s.sgdir 7 + 16 * w) % 2 ^ 64) (List.replicate 16 0) [] = (q, none)) ∧
    (let t := sigging 0x12 fun x => lastBucket { x with sig := x.sig.set 15 0 }
     ∃ q, t.storeNext 0 0 ((t.sgdir 7 + 16 * 15) % 2 ^ 64) (List.replicate 16 0) [] = (q, some 4)) :=
  ⟨by decide +kernel, by decide +kernel, ⟨_, chain_one (pair_eq (by decide +kernel))⟩, ⟨_, pair_eq (by decide +kernel)⟩⟩
/-- All dot products of a zero projection are zero, so every bit of the signature is 1 (R291). -/
theorem test_sgsig : (match exec (.sgsig 9 7 1) (sigging 0x12 id) with | .next t => t.g 9 | _ => 0) = 15 := by decide +kernel

/-- Two unchained members: `vadd v2, v1, v3` twice; then one whose unit code the header does not name. -/
def convoy : State := { mapped (typed 0 id) with
  mem := tables ++ [(0x30001, 0xC0), (0x30004, 0x04), (0x30005, 0x82), (0x30007, 0x0C), (0x3000C, 0x04), (0x3000D, 0x82), (0x3000F, 0x0C)] }
def members : List Member := [⟨1, .vadd 2 1 (.vv 3) none, false, false, some 2⟩, ⟨2, .vadd 2 1 (.vv 3) none, false, false, some 2⟩]
def effState : Eff → State | .done s => s | _ => s0
def isDone : Eff → Bool | .done _ => true | _ => false
theorem done_of {e : Eff} (h : isDone e = true) : e = .done (effState e) := by cases e <;> first | rfl | cases h
def started (n k : Nat) (p : State) : State := let p := (p.setEcm n).setEst k; p.setCur { p.cur with lim := none }
theorem witness_convoy : (memberInfo (typed 0 id).vt (.vadd 2 1 (.vv 3) none)).isSome = true ∧ headerOk 2 0 [0, 0, 0, 0, 0] = true ∧
    (convoy.fetchParcels (convoy.cur.pc.toNat + 4) 4).2 = .ok 0x0C008204 ∧ (convoy.fetchParcels (convoy.cur.pc.toNat + 12) 4).2 = .ok 0x0C008204 ∧
    checkMembers convoy.vt 2 0 [0, 0, 0, 0, 0] [] 1 [0x0C008204, 0x0C008204] = .ok members ∧ convoy.cur.tr.ecm.toNat ≤ 2 ∧
    convoy.cur.lim = none := by
  refine ⟨?_, ?_, ?_, ?_, ?_, ?_, rfl⟩ <;> decide +kernel
theorem witness_convoy_members : ∃ q r, memberEff (.vadd 2 1 (.vv 3) none) (started 1 0 convoy) = .done q ∧
    memberEff (.vadd 2 1 (.vv 3) none) (started 2 0 q) = .done r :=
  ⟨_, _, done_of (by decide +kernel), done_of (by decide +kernel)⟩
theorem witness_convoy_refused : headerOk 2 1 [0, 0, 0, 0, 0] = true ∧ headerOk 2 2 [0, 0, 0, 0, 0] = false ∧
    checkMembers convoy.vt 2 0 [4, 0, 0, 0, 0] [] 1 [0x0C008204, 0x0C008204] = .error 2 ∧ convoy.cur.run = .running ∧ convoy.trapsHere := by
  refine ⟨?_, ?_, ?_, rfl, ⟨rfl, ?_⟩⟩ <;> decide +kernel

/-! ## Witnesses: launches and code objects -/

/-- A file of profile 0 with one code section of eight bytes (R18-R24). -/
def file : List Byte :=
  [0x46, 0x58, 0x4F, 0, 1, 0, 1, 0] ++ List.replicate 8 0 ++ [1, 0, 8, 0, 0, 0, 0, 0, 0, 0, 4, 0, 0, 0, 0, 0] ++
  natBytes 8 (0x50 + 2 ^ 32) ++ natBytes 8 (0x54 + 2 ^ 32) ++ List.replicate 32 0 ++ [0, 1, 0, 0] ++
  [1, 3, 0, 0, 0, 0, 0, 0] ++ natBytes 8 0x74 ++ natBytes 8 8 ++ List.replicate 8 0 ++ List.replicate 8 0
def object0 : CodeObj := { CodeObj.init with loaded := true, fxo := file }
/-- A root block of a task at 0x30000, its code object loaded, every cluster passed. -/
def launching : State := { State.reset with
  mem := [(0x30000, 1), (0x30001, 1)], codes := [(0, object0)], status := { Status.init with bstate := 4, dclus := BitVec.allOnes 128 } }
theorem test_file_is_legal : fxoOk file = true := by decide +kernel

theorem witness_lwpush : launching.status.bstate ≠ 15 ∧
    (launching.logInput 2 0 0x10000 (natBytes 8 0x30000) |>.enqueue 0 0x30000).2 = 0 ∧ (launching.enqueue 0 0x40000).2 ≠ 0 := by
  decide +kernel
def eff1 : EffVals := launching.effVals [0x30000]
def head0 : Vector (List QEntry) 16 := (Vector.replicate 16 []).set 0 [QEntry.fresh 0x30000]
def placing : State := { launching with tasks := [(0x30000, Task.queued eff1 0 0)], dies := [(0, { Die.init with queues := head0 })] }
theorem witness_placement : placing.dispatching = true ∧ (∀ q ∈ placing.tasks, q.2.phase ≠ .preloaded ∧ q.2.phase ≠ .rerun) ∧
    (∀ q, 0 < q → q < 16 → placing.headOf 0 q = none) ∧ placing.headOf 0 0 = some 0x30000 ∧
    placing.task? 0x30000 = some (Task.queued eff1 0 0) ∧ (Task.queued eff1 0 0).phase = .queued ∧
    placing.chainOf 0x30000 8 = ([0x30000], true) ∧ placing.effVals [0x30000] = eff1 ∧ placing.launchReason [0x30000] true = 0 := by
  refine ⟨?_, ?_, fun q h0 h1 => ?_, ?_, rfl, rfl, ?_, rfl, ?_⟩
  · decide +kernel
  · decide +kernel
  · interval_cases q <;> rfl
  · decide +kernel
  · decide +kernel
  · decide +kernel
theorem witness_placement_core : ∃ c, placing.pickCore 0 0x30000 eff1 none = some c ∧ placing.replayHolds (2 * c) = false ∧
    (placing.settle 0x30000 (Task.queued eff1 0 0) eff1 c { addrs := [(2 ^ 54, 0x40000)], tables := [(0x8000, 0x50001), (0x50000, 0x60001), (0x60000, 0x40017)] }).isSome = true :=
  ⟨0, by decide +kernel, rfl, by decide +kernel⟩
def preloading : State := { placing with tasks := [(0x100, task0), (0x30000, Task.queued eff1 0 0)] }
theorem witness_preload : preloading.headOf 0 0 = some 0x30000 ∧ preloading.task? 0x30000 = some (Task.queued eff1 0 0) ∧
    preloading.blocked 0 0 = false ∧ preloading.canPreload 0 0 0x30000 eff1 = true := by
  refine ⟨?_, rfl, ?_, ?_⟩ <;> decide +kernel

/-- A preloaded task whose segment 0 is still to copy from `page`. -/
def copying (segimg : Nat) : State := { mapped State.reset with
  tasks := [(0x300, { task0 with phase := .preloaded, segs := 1, toCopy := 1, eff := { eff0 with segimg := segimg } })]
  tick := 1200001, arg := { addr := 0x300 } }
theorem witness_segment_copy : (∃ k, (copying page.toNat).task? 0x300 = some k ∧ k.phase = .preloaded ∧ nbit k.toCopy 0 = true ∧
      (copying page.toNat).segBusy 0x300 k 0 = false ∧ k.eff.segimg % 65536 = 0 ∧
      (∀ q ∈ (copying page.toNat).tasks, q.2.phase = .rerun → q.2.core ≠ k.core) ∧
      (∃ u bs, (copying page.toNat).imagePieces (k.ctx 0x300) (k.eff.segimg + 65536 * 0) 16 = (u, some bs)) ∧
      1200000 < (copying page.toNat).tick - k.preAt) ∧
    (∃ k, (copying 0).task? 0x300 = some k ∧ ∃ u, (copying 0).imagePieces (k.ctx 0x300) (k.eff.segimg + 65536 * 0) 16 = (u, none)) ∧
    (∃ k, (copying 0x1000).task? 0x300 = some k ∧ k.eff.segimg % 65536 ≠ 0) := by
  refine ⟨⟨_, rfl, rfl, by decide +kernel, by decide +kernel, by decide, by decide, pair_some ?_, by decide +kernel⟩,
    ⟨_, rfl, _, pair_eq ?_⟩, ⟨_, rfl, by decide⟩⟩
  · decide +kernel
  · decide +kernel
/-- A bound task with a partial image at `page`. -/
def bound : State := { mapped State.reset with
  tasks := [(0x300, { task0 with phase := .bound, image := [(0, page.toNat, 1)] })]
  status := { Status.init with dclus := BitVec.allOnes 128 }, arg := { addr := 0x300 } }
theorem witness_resume : ∃ k, bound.task? 0x300 = some k ∧ k.phase = .bound ∧ bound.canResume 0x300 k = true ∧
    (bound.oddResume 0x300 k).2 = none ∧ (({ bound with mem := tables ++ [(0x20000, 7)] } : State).oddResume 0x300 k).2 = some (0, 7) ∧
    ∃ c, bound.giveGroups k.core k.eff.lgreq 0x300 = some c :=
  ⟨_, rfl, rfl, by decide +kernel, by decide +kernel, by decide +kernel, Option.isSome_iff_exists.mp (by decide +kernel)⟩
theorem witness_resume_image : ∃ k, bound.task? 0x300 = some k ∧
    (let k' := { k with phase := .running, since := bound.cycle, image := [], saved := [], held := [], rest := [], mflags := [], lower := false }
     ((((bound.setCluster (k.core / 4) (bound.clusterAt 0)).setTask 0x300 k').reloadProjs 0x300 k).keepEnded 0x300 k).resumeAll 0x300 k
       k.image.reverse).isSome = true := ⟨_, rfl, by decide +kernel⟩

def ended0 : State := { on (fun x => { x with run := .ended }) with arg := { addr := 0x100 } }
/-- A budget of 0 cycles. -/
def overrun : State := { s0 with
  tasks := [(0x100, { task0 with eff := { eff0 with chain := [0x30000], limits := [(0, 0)] } })], arg := { addr := 0x100 } }
theorem witness_completion : ended0.task? 0x100 = some task0 ∧ ended0.allEnded 0x100 task0 = true ∧ ended0.engineHolds 0x100 task0 = false ∧
    s0.allEnded 0x100 task0 = false ∧ task0.phase = .running ∧ task0.dying = false := by refine ⟨rfl, ?_, ?_, ?_, ?_, rfl⟩ <;> decide +kernel
theorem witness_overrun : ∃ k, overrun.task? 0x100 = some k ∧ k.phase = .running ∧ overrun.activeHart 0x100 k = some 0 ∧
    overrun.overBudget 0 = some 0 := ⟨_, rfl, rfl, by decide +kernel, by decide +kernel⟩
theorem witness_head_blocking : let s : State := { s0 with dies := [(0, { Die.init with queues := Vector.replicate 16 [⟨0x300, some 0, false⟩] })] }
    (s.headState 0 15).passed = some 0 ∧ s.headOf 0 15 = some 0x300 ∧ s.tick < 0 + 65536 ∧ ({ s with tick := 65536 } : State).tick = 0 + 65536 :=
  ⟨rfl, rfl, by decide, rfl⟩
/-- No core is eligible for the head: one cluster has passed, and its cores run. -/
def stuck : State := { placing with
  tasks := (0x30000, Task.queued eff1 0 0) :: (List.range 4).map fun k => (0x100 * (k + 1), { task0 with core := k })
  status := { launching.status with dclus := 1 }
  dies := [(0, { Die.init with queues := head0.set 0 [⟨0x30000, some 0, false⟩] })], tick := 65536 }
theorem witness_head_stuck : (stuck.headState 0 0).passed = some 0 ∧ stuck.headOf 0 0 = some 0x30000 ∧ 0 + 65536 ≤ stuck.tick ∧
    (match stuck.tryPlace 0 0x30000 {} with | .noCore => true | _ => false) = true ∧
    (match placing.tryPlace 0 0x30000 {} with | .noCore => true | _ => false) = false := by
  refine ⟨?_, ?_, ?_, ?_, ?_⟩ <;> decide +kernel

/-- LaunchEvents where nothing is done: the dispatcher not at work, no head, a blocked head, a core that takes none, a segment
copied or busy, a task neither preloaded nor stopped, one that may not resume, an orphan its domain knows of, no hart issuing. -/
def idleTask (p : Phase) (f : Task → Task) : State := { s0 with tasks := [(0x300, f { task0 with phase := p, toCopy := 1, segs := 1 })] }
theorem witness_nothing : State.reset.dispatching = false ∧ launching.dispatching = true ∧ (∀ p, p < 16 → launching.headOf 0 p = none) ∧
    (∀ q ∈ launching.tasks, q.2.phase ≠ .preloaded) ∧
    (let b : State := { placing with dies := [(0, { Die.init with queues := head0.set 5 [⟨0x400, some 0, true⟩] })] }
     b.headOf 0 0 = some 0x30000 ∧ b.blocked 0 0 = true) ∧ placing.canPreload 0 0 0x30000 eff1 = false ∧
    (let k := { task0 with phase := .preloaded, toCopy := 1, segs := 1 }
     (idleTask .preloaded id).task? 0x300 = some k ∧ nbit k.toCopy 1 = false ∧
       ({ idleTask .preloaded id with tasks := [(0x300, k), (0x100, task0)] } : State).segBusy 0x300 k 0 = true ∧
       (idleTask .preloaded id).tick - k.preAt ≤ 1200000 ∧ k.phase ≠ .bound ∧ k.phase ≠ .orphaned) ∧
    (let k := { task0 with phase := .bound, toCopy := 1, segs := 1 }
     (idleTask .bound id).task? 0x300 = some k ∧ (idleTask .bound id).canResume 0x300 k = false) ∧
    ({ task0 with phase := .orphaned, notified := true } : Task).notified = true ∧ ({ task0 with dying := true } : Task).dying = true ∧
    ended0.activeHart 0x100 task0 = none ∧ s0.activeHart 0x100 task0 = some 0 ∧ s0.overBudget 0 = none := by
  refine ⟨?_, ?_, ?_, ?_, ⟨?_, ?_⟩, ?_, ⟨rfl, ?_, ?_, ?_, ?_, ?_⟩, ⟨rfl, ?_⟩, rfl, rfl, ?_, ?_, ?_⟩ <;> decide +kernel

theorem witness_code_load : let s : State := { State.reset with arg := { index := 2 ^ 20 - 1, bytes := file, addrs := [(0, 0), (2 ^ 54, 0x40000)] } }
    (s.codeAt (2 ^ 20 - 1)).loaded = false ∧ s.arg.index < 2 ^ 20 ∧ fxoOk s.arg.bytes = true ∧
    (s.placeData s.arg.bytes (s.arg.addrs.take (sectCount s.arg.bytes)) (s.arg.addrs.drop (sectCount s.arg.bytes))).any
      (·.sharedOk s.arg.bytes (s.arg.addrs.take (sectCount s.arg.bytes)) (s.arg.addrs.drop (sectCount s.arg.bytes))) = true ∧
    s.offKept s.arg.bytes (s.arg.addrs.take (sectCount s.arg.bytes)) false = true ∧ hasFrameReloc s.arg.bytes = false := by
  decide +kernel
/-- The load with no region to map in, and with one whose tables the runtime has, and has not, written. -/
theorem witness_code_mapped : let a := fun ts : List (Nat × Nat) => ({ index := 7, bytes := file, addrs := [(0, 0), (2 ^ 54, 0x40000)], tables := ts } : EventArg)
    let kept := fun s : State => ({ s with codeMap := [(2 ^ 38 + 1, { pa := 0x20000, write := true, exec := true })] } : State)
    let done := fun s : State => (s.loadObject.codeAt 7).loaded
    done { State.reset with arg := a [] } = true ∧ done { kept s0 with arg := a [] } = false ∧
    done { kept s0 with arg := a [(0x8000, 0x10001), (0x10000, 1), (8, 0x2001F)] } = true := by decide +kernel
/-- An object with and without a hold, and one whose instantiation holds the running hart's PC. -/
def held (o : CodeObj) : State := { s0 with codes := [(5, o)] }
theorem witness_unload : (held object0).refCount 5 = 0 ∧ (held { object0 with holds := 1 }).refCount 5 ≠ 0 ∧ object0.unloading = false ∧
    object0.gen < 65536 ∧ (∀ p ∈ (held object0).harts, (held object0).hartIn 5 0 p.1 = false ∧ (held object0).unloadWaits 5 0 p.1 = false) ∧
    (let o := { object0 with insts := [⟨0, [(2 ^ 54, 0x40000)], 0⟩] }
     ∀ p ∈ (held o).harts, ((held o).hartAt p.1).run.active = true ∧ o.covers ((held o).hartAt p.1).pc.toNat = true) := by
  decide +kernel

/-- A launch with an unset low byte is refused with reason 4, counted and recorded (R61). -/
theorem test_lwpush_refuses : (match exec .lwpush { launching with arg := { w0 := 0x30004 } } with
    | .next t => ((t.dieAt 0).lwreject, (t.dieAt 0).lwlast) | _ => (0, 0)) = (1, 0x30004) := by decide +kernel
theorem test_lwpush_accepts : (match exec .lwpush { launching with arg := { w0 := 0x30000 } } with
    | .next t => ((t.dieAt 0).lwcount, (t.headOf 0 0)) | _ => (0, none)) = (1, some 0x30000) := by decide +kernel

/-! ## Witnesses: events of waits, engines and traps -/

def waitOn (i : Instr) (q : Option Nat) : State := { on (fun x => { x with run := .waiting ⟨i, 0, q, 0⟩ }) with arg := { hart := 0 } }
theorem witness_wake : Claims.wakes .queueWake = some (fun w => w.queue.isSome) ∧ Claims.wakes .cpyAccept = some (fun w => isCpy w.instr) ∧
    ((waitOn (.qrecv 1 0) (some 0)).hartAt 0).run = .waiting ⟨.qrecv 1 0, 0, some 0, 0⟩ ∧ isCpy (.cpy 1 4 0) = true ∧
    Claims.mayWait (waitOn (.qrecv 1 0) (some 0)).vt (.qrecv 1 0) = true ∧ isCpy (.qrecv 1 0) = false ∧
    (waitOn (.qrecv 1 0) (some 0)).power.stalled = false ∧ (waitOn (.qrecv 1 0) (some 0)).segWait 0 = none ∧
    (waitOn (.qrecv 1 0) (some 0)).asyncFirst 0 = none ∧ ((on fun x => { x with dues := [(1, 0x100)] }).asyncFirst 0).isSome = true ∧
    ({ s0 with power := { Power.init with move := .switchUp } } : State).power.stalled = true ∧
    ({ s0 with tasks := [(0x100, { task0 with phase := .placed, toCopy := 1 })] } : State).segWait 0 = some (0x100, 0) :=
  ⟨rfl, rfl, rfl, rfl, by decide +kernel, rfl, rfl, by decide +kernel, by decide +kernel, by decide +kernel, rfl, by decide +kernel⟩
/-- A split task's harts both waiting since tick 0; `e` its ended bits. -/
def stalled (e : BitVec 2) : State := { split 0 (fun x => { x with run := .waiting ⟨.qrecv 1 0, 0, some 0, 0⟩ }) with
  tasks := [(0x100, { task0 with eff := { eff0 with split := true }, ended := e })], tick := 2 ^ 20 }
/-- Its access hart waits on full queue 0, its execute hart for a branch bit. -/
def sending (e : BitVec 2) : State := { stalled e with
  harts := [(0, { hart0 with run := .waiting ⟨.qsend 0 1, 0, some 16, 0⟩ }), (1, { hart0 with run := .waiting ⟨.bqz 4, 0, some 8, 0⟩ })]
  cores := [(0, { Core.init with sq := Vector.replicate 4 (List.replicate 16 0) })] }
theorem witness_stall : (stalled 2).queueOf 0 = some (0, 0) ∧ (stalled 2).partnerEnded 0 = true ∧ (stalled 0).partnerEnded 0 = false ∧
    (stalled 0).isSplit 0 = true ∧ (stalled 0).queueOf 1 = some (0, 0) ∧ 0 + 2 ^ 20 ≤ (stalled 0).tick ∧
    ((stalled 0).hartAt 0).tr.hl = false ∧ ((stalled 0).hartAt 1).tr.xvec ≠ 0 ∧
    (waitOn (.qrecv 1 0) (some 0)).partnerEnded 0 = false ∧ (waitOn (.qrecv 1 0) (some 0)).isSplit 0 = false ∧
    (stalled 2).waitsOn 1 = some 0 ∧ (stalled 0).waitsOn 1 = some 0 ∧ (sending 0).waitsOn 0 = some 16 ∧ (sending 0).waitsOn 1 = some 8 ∧
    ({ stalled 2 with cores := [(0, { Core.init with sq := Vector.replicate 4 [7] })] } : State).waitsOn 1 = none := by
  refine ⟨rfl, ?_, ?_, rfl, rfl, ?_, rfl, ?_, ?_, rfl, ?_, ?_, ?_, ?_, ?_⟩ <;> decide +kernel

/-- A running command whose one element has moved (operation 0, sources a drive or memory), and one that has not begun. -/
def cmdOf (src : Word) (pos : Nat) : CopyCmd :=
  { block := [0, src, 0xF000000000000000, 0x100010001], size := 0, src := none, dst := none, index := 0, gen := 0, phase := false, rcb := 0x100,
    core := 0, bytes := 1, seq := 0, pos := pos, pend := [], fills := [] }
def engine (c : CopyCmd) : State :=
  { on (fun x => { x with slots := Vector.replicate 4 { CopySlot.init with status := 1, cmd := some c } }) with arg := { hart := 0, index := 3 } }
theorem witness_engine : (s0.slotAt 0 (slotIdx 3)).cmd = none ∧ ((engine (cmdOf 0 0)).slotAt 0 (slotIdx 3)).cmd = some (cmdOf 0 0) ∧
    blkCount (cmdOf 0 0).block = 1 ∧
    (((engine (cmdOf 0 0)).copySteps 0 (slotIdx 3) (blkCount (cmdOf 0 0).block - 0)).slotAt 0 (slotIdx 3)).cmd = none := by
  refine ⟨rfl, rfl, ?_, ?_⟩ <;> decide +kernel
/-- A command that has nothing issued has nothing to perform. -/
theorem flush_nothing {s : State} {h : Nat} {n : Fin 4} {c : CopyCmd} (e : (s.slotAt h n).cmd = some c) (p : c.pend = []) (k : Nat) :
    s.copyFlushN h n k = s := by
  cases k with
  | zero => rfl
  | succ k => simp [State.copyFlushN, e, p, takeFree]
theorem engine_advance : (engine (cmdOf (9 <<< 60) 1)).copyAdvance 0 = engine (cmdOf (9 <<< 60) 1) := by
  unfold State.copyAdvance
  apply List.foldl_fixed'
  intro i
  dsimp only
  by_cases h : i / 4 = 0
  · have hc : ((engine (cmdOf (9 <<< 60) 1)).slotAt (8 * 0 + i / 4) ⟨i % 4, Nat.mod_lt _ (by decide)⟩).cmd = some (cmdOf (9 <<< 60) 1) := by
      rw [h]
      simp [State.slotAt, State.hartAt, engine, on, tget]
    rw [hc]
    show State.copyFlushN (State.copySteps _ _ _ (min (blkCount (cmdOf (9 <<< 60) 1).block - 1) _)) _ _ (min 1 _) = _
    rw [show blkCount (cmdOf (9 <<< 60) 1).block - 1 = 0 by decide +kernel, Nat.zero_min]
    exact flush_nothing hc rfl _
  · have hc : ((engine (cmdOf (9 <<< 60) 1)).slotAt (8 * 0 + i / 4) ⟨i % 4, Nat.mod_lt _ (by decide)⟩).cmd = none := by
      have h0 : ¬ (0 = i / 4) := by omega
      simp [State.slotAt, State.hartAt, engine, on, tget, h0, Hart.init, CopySlot.init]
    rw [hc]
theorem witness_storage : (((engine (cmdOf (9 <<< 60) 1)).copyAdvance 0).slotAt 0 (slotIdx 3)).cmd = some (cmdOf (9 <<< 60) 1) ∧
    blkOp (cmdOf (9 <<< 60) 1).block ≠ 2 ∧ opStore (blkW (cmdOf (9 <<< 60) 1).block 1) = true := by
  rw [engine_advance]
  refine ⟨rfl, ?_, ?_⟩ <;> decide +kernel
theorem witness_promise : let sl := (engine (cmdOf 0 0)).slotAt 0 (slotIdx 3)
    sl.cmd = some (cmdOf 0 0) ∧ (engine (cmdOf 0 0)).overrun 0 = false ∧ ((engine (cmdOf 0 0)).hartAt 0).atBarrier = false ∧
      ((engine (cmdOf 0 0)).hartAt 0).copying = false ∧
      (cmdOf 0 0).rcb = ((engine (cmdOf 0 0)).hartAt 0).rcb ∧ (engine (cmdOf 0 0)).replay = [] ∧ (engine (cmdOf 0 0)).copyMoves (cmdOf 0 0) = true ∧ sl.running = true ∧ sl.promise ≤ (engine (cmdOf 0 0)).tick ∧ sl.exempt = false ∧ nbit sl.status.toNat 22 = false ∧
      ((engine (cmdOf 0 0)).hartAt 0).run.active = true ∧ ((engine (cmdOf 0 0)).hartAt 0).tr.hl = false ∧
      ((engine (cmdOf 0 0)).hartAt 0).tr.ppend = false ∧ ((engine (cmdOf 0 0)).hartAt 0).tr.xvec ≠ 0 ∧
      (3, ((engine (cmdOf 0 0)).hartAt 0).rcb) ∉ ((engine (cmdOf 0 0)).hartAt 0).dues ∧
      (let e := (engine (cmdOf 0 0)).setHart 0 (handler ((engine (cmdOf 0 0)).hartAt 0))
       (e.hartAt 0).tr.hl = true ∧ (e.slotAt 0 (slotIdx 3)).cmd = some (cmdOf 0 0) ∧ (e.hartAt 0).dues = []) ∧
      (s0.hartAt 0).dues = [] ∧ ∀ i : Fin 4, (s0.slotAt 0 i).cmd = none := by decide +kernel
theorem witness_landing : (s0.rowAt 0 (slotIdx 0)).cmds = [] ∧ ((tiled 1 0 id).rowAt 0 (slotIdx 0)).cmds = ⟨0, .zero, [], false⟩ :: [] ∧
    (tiled 1 0 id).landHeld ((tiled 1 0 id).rowAt 0 (slotIdx 0)) = false ∧
    (let s := tiled 1 0 fun x => { x with pending := { x.pending with step := true } }; s.landHeld (s.rowAt 0 (slotIdx 0)) = true) := by
  refine ⟨rfl, ?_, ?_, ?_⟩ <;> decide +kernel
/-- A tile at the last tick of its life, and past it. -/
def aged (tick : Nat) : State := { s0 with tick := tick, clusters := [(0, { Cluster.init with births := [(5, some 0)] })] }
theorem witness_expiry : (aged hzlife).birth 0 5 = some 0 ∧ 0 + hzlife ≤ (aged hzlife).tick ∧ (aged (hzlife - 1)).tick < 0 + hzlife := by
  decide +kernel
theorem witness_confirmation : takeStore 0 (queued.hartAt 0).stores = some (⟨0, 0, false, .spad 8, 0, [1], [], none, none, [], 0, none⟩, []) ∧ ∀ q ∈ (queued.hartAt 0).stores, q.slice ≠ 1 := by decide +kernel

/-- TrapEvents. -/
def pend (p : Pending) (a : EventArg) : State := { on (fun x => { x with pending := p }) with arg := a }
theorem witness_calm : let s := pend ⟨true, none, false⟩ {}
    let x := s.hartAt 0
    x.run.active = true ∧ x.tr.hl = false ∧ x.tr.xvec ≠ 0 ∧ x.tr.ppend = false ∧ s.overrun 0 = false ∧ x.dueSlot = none ∧ x.atBarrier = false ∧ x.copying = false ∧
      x.pending.step = true ∧ x.ptaken = false ∧ ((pend ⟨false, some 7, false⟩ {}).hartAt 0).pending.throttle = some 7 ∧
      ((pend ⟨false, none, true⟩ {}).hartAt 0).pending.debug = true ∧ ((pend Pending.init { flag := true }).arg.flag = true) ∧
      (pend Pending.init { flag := true, n := 5 * 2 ^ 32 + 128 }).arg.n ≠ 0 := by decide +kernel
/-- A hart about to fetch an illegal word, one that cannot fetch, one at a barrier, one whose word is legal. -/
theorem witness_fetch_faults : let s : State := { fetching with mem := tables ++ [(0x30002, 0x0E)] }
    s.fetching 0 = true ∧ (match s.fetchNext with | (_, .ok (w, none)) => w.word | _ => 1) = 0x000E0000 ∧
    s0.fetching 0 = true ∧ (match s0.fetchNext with | (_, .error (c, p)) => (c, p) | _ => (0, 0)) = (4, 0x40000000000000) ∧
    (waitOn (.bar 0 false 4) none).fetching 0 = false ∧
    (match fetching.fetchNext with | (_, .ok (_, some _)) => true | _ => false) = true := by
  refine ⟨?_, ?_, ?_, ?_, ?_, ?_⟩ <;> decide +kernel
/-- The events of those faults: the first two trap, a hart at a barrier is left alone (R45, R46, R313). -/
theorem test_fetch_faults : let cause := fun (r : Host.Outcome State Fault Refusal) => match r with | .next t => t.cur.tr.xcause | _ => 99
    cause (exec .illegalInstruction { fetching with mem := tables ++ [(0x30002, 0x0E)] }) = 1 ∧ cause (exec .instructionFetchFault s0) = 4 ∧
    cause (exec .instructionFetchFault (waitOn (.bar 0 false 4) none)) = 0 := by decide +kernel
theorem witness_throttle : let s := { on (fun x => handler { x with tr := { x.tr with tne := true } }) with tick := 1024, arg := { flag := true } }
    let x := s.hartAt 0
    s.arg.flag = true ∧ x.run.active = true ∧ x.tr.tne = true ∧ x.tr.hl = true ∧ s.arg.n + 1024 ≤ s.tick ∧ x.pending.throttle = none ∧
      x.lastNotice = none := ⟨rfl, rfl, rfl, rfl, by decide, rfl, rfl⟩
theorem witness_records : let s : State := { s0 with records := [⟨0x500, 0x600, []⟩] }
    s.dueRecord s.records = some (⟨0x500, 0x600, []⟩, []) ∧ s0.dueRecord s0.records = none := ⟨rfl, rfl⟩
/-- A hart marked a third time, one marked first, one that has ended, one that waits with its last result confirmed. -/
theorem witness_suspect : let s := on fun x => { x with suspects := 2, suspectAt := (x.pc.toNat, 0) }
    let x := s.hartAt 0
    s.unconfirmed 0 = true ∧ x.suspectAt = (x.markPc.toNat, x.tr.est.toNat) ∧ 2 ≤ x.suspects ∧
      ¬ ((s0.hartAt 0).suspectAt = ((s0.hartAt 0).markPc.toNat, (s0.hartAt 0).tr.est.toNat)) ∧
      ended0.unconfirmed 0 = true ∧ ({ waitOn (.qrecv 1 0) (some 0) with cycle := 64 } : State).unconfirmed 0 = false := by decide +kernel
/-- A request inside an element-wise instruction, and inside one that emits (`bbisect v1, v2, v3` at the PC). -/
theorem witness_next_emits : fetching.nextEmits 0 = false ∧
    ({ fetching with mem := tables ++ ((natBytes 8 (match encode (.bbisect 1 2 3) with | some e => e.word.toNat | none => 0)).zipIdx.filterMap
        (fun (b, i) => if b = 0 then none else some (0x30000 + i, b))) } : State).nextEmits 0 = true := by decide +kernel
theorem witness_trace_head : nbits (s0.clusterAt 0).trace.w1.toNat 8 5 = 0 ∧
    nbits (({ s0 with clusters := [(0, { Cluster.init with trace := { Trace.init with w1 := 0x1F00 } })] } : State).clusterAt 0).trace.w1.toNat 8 5 ≠ 0 := by
  decide +kernel

/-- A wake runs the receive again: the entry that came in is taken (R98). -/
theorem test_queue_wake : (match exec .queueWake { stalled 0 with
      turn := 5, arg := { hart := 1 }, cores := [(0, { Core.init with sq := Vector.replicate 4 [7] })] } with
    | .next t => ((t.hartAt 1).g[1], (t.hartAt 1).run, t.turn) | _ => (0, .empty, 0)) = (7, .running, 5) := by decide +kernel
theorem test_preempt : (match exec .preEmptionRequest { s0 with arg := { flag := true } } with
    | .next t => (t.cur.tr.xcause, t.cur.tr.xpc, t.cur.tr.ppend) | _ => (0, 0, false)) = (16, 0x40000000000000, true) := by decide +kernel

/-! ## Witnesses: power, bring-up, the host, management -/

def powered (m : PowerMove) (full : Bool) (v : Nat) : State := { State.reset with power := { Power.init with move := m, full := full, vcode := v } }
def boot (n : BitVec 4) (a : EventArg) : State := { State.reset with status := { Status.init with bstate := n }, arg := a }
theorem witness_power_times : (let s : State := { powered .stepUp false 12 with tick := 2400 }; s.power.since + 2400 ≤ s.tick) ∧
    (let s : State := { powered .switchUp false 20 with tick := 240 }; s.power.since + 240 ≤ s.tick) ∧
    (let s : State := { State.reset with tick := 12000000 }; s.power.beat + 12000000 ≤ s.tick) ∧
    State.reset.tick < State.reset.power.beat + 12000000 ∧ (boot 14 {}).status.bstate ≠ 15 := by decide +kernel
theorem witness_power_moves : (powered .stepUp false 12).power.move = .stepUp ∧ (powered .stepDown false 20).power.move = .stepDown ∧
    (powered .switchUp false 20).power.move = .switchUp ∧ (powered .switchDown true 20).power.move = .switchDown ∧
    State.reset.power.move ≠ .stepUp ∧ State.reset.power.move ≠ .switchDown := ⟨rfl, rfl, rfl, rfl, by decide, by decide⟩
/-- A boot image of an empty payload, signed by a key of the test's own (the number 123456789, signing with 987654321): digest,
signature and key. -/
def be48 (n : Nat) : List Byte := (natBytes 48 n).reverse
def image : List Byte := natBytes 16 0x14B424C46 ++
  be48 0x38b060a751ac96384cd9327eb1b1e36a21fdb71114be07434c0cc7bf63f6e1da274edebfe76f65fbd51ad2f14898b95b ++
  be48 0xce818753960c6c09910ab6f007ec1b79176cba552f407cfa943772f9d3c30f86bb8a76aed636f3da58e11dee1ae1e61 ++
  be48 0x48b0b1e374ea60b319cacda3dc7d71b0807c2f2ab0f9229c2b13d5288e9932ea6138ddc7cae04199bf6dbdf915c3b723 ++
  List.replicate 96 0
def imageKey : List Byte :=
  be48 0xa7a5557c23165f044200f6dc9ca8d2820c7c3e139d32fc7e1ac1a2da2d2255b74f9688701e1f55005dd6e9f5d5962c56 ++
  be48 0x8a931aa97808b21a85f7194853f9a7b8fba6b5c525bf5722d83206b6888c74ae53d5dbdbd89d0ef0547e917261c36d4e
/-- The digest of the three characters abc (FIPS 180-4's example). -/
theorem test_sha384 : sha384 [0x61, 0x62, 0x63] =
    0xcb00753f45a35e8bb5a03d699ac65007272c32ab0eded1631a8b605a43ff5bed8086072ba1e7cc2358baeca134c825a7 := by decide +kernel
theorem witness_boot_image : let im := image
    256 ≤ im.length ∧ fx im 0 4 = 0x4B424C46 ∧ fx im 4 2 = 1 ∧ 0 ≤ fx im 6 2 ∧ fx im 8 8 ≤ 2 ^ 26 ∧ 256 + fx im 8 8 ≤ im.length ∧
      (∀ b ∈ (im.drop 0xA0).take 0x60, b = 0) ∧ sha384 ((im.drop 256).take (fx im 8 8)) = bytesNatBE ((im.drop 0x10).take 48) ∧
      imageKey.length = 96 := by decide +kernel
theorem witness_boot_signed : ecdsaOk (bytesNatBE (imageKey.take 48), bytesNatBE (imageKey.drop 48)) (sha384 (image.take 64))
    (bytesNatBE ((image.drop 0x40).take 48)) (bytesNatBE ((image.drop 0x70).take 48)) = true := by decide +kernel
theorem witness_boot : (boot 2 { bytes := image, extra := imageKey, pa := sha384 imageKey }).status.bstate = 2 ∧
    ¬ (256 ≤ ([] : List Byte).length) ∧
    (boot 4 {}).status.bstate = 4 ∧ (boot 4 {}).status.dclus ||| BitVec.ofNat 128 (2 ^ 127) ≠ BitVec.allOnes 128 ∧
    (BitVec.allOnes 128 - 1 ||| BitVec.ofNat 128 (2 ^ 0)) = BitVec.allOnes 128 ∧ (boot 5 {}).status.bstate.toNat ≤ 5 ∧
    5 < (boot 15 {}).status.bstate.toNat ∧ (boot 3 {}).status.bstate ≠ 2 ∧ (boot 3 {}).status.bstate ≠ 4 := by decide +kernel
theorem witness_unpowered : ∀ b, Act.hart 0 ≠ Act.event .powerOnReset b := fun _ => by simp

theorem witness_host : hbmBytes - 1 + [(0 : Byte)].length ≤ hbmBytes ∧ ¬ (hbmBytes + [(0 : Byte)].length ≤ hbmBytes) ∧
    (let a : EventArg := { n := 8, index := 2, addr := hbmBytes - 8 }
     (a.n = 4 ∨ a.n = 8) ∧ a.index ≤ 2 ∧ a.addr % a.n = 0 ∧ a.addr + a.n ≤ hbmBytes) ∧ ¬ ((3 : Nat) = 4 ∨ (3 : Nat) = 8) ∧
    (s0.hartAt 0).run.active = true ∧ (State.reset.hartAt 0).run.active = false ∧
    (let s := boot 15 { flag2 := true, addr := 0, n := 4, unit := 128 }; s.arg.flag2 = true ∧ s.status.bstate = 15 ∧ 128 ≤ s.arg.unit) ∧
    (let s := boot 14 { flag2 := true, reg := .sdlen, unit := 127 }
     s.arg.flag2 = true ∧ s.status.bstate ≠ 15 ∧ s.arg.unit < 128 ∧ s.arg.reg ∉ [.xltail, .htbase, .hostlim, .cxlBytes, .nvme]) ∧
    (s0.hartAt 0).atBarrier = false ∧ ((waitOn (.bar 0 false 4) none).hartAt 0).atBarrier = true := by decide +kernel
/-- In the safe reporting state the host reads the failure report, `dfail` first (R372). -/
theorem test_failure_report : (match exec .hostBar2Read { State.reset with
      status := { Status.init with bstate := 15, dfail := 0x02000301 }, arg := { flag2 := true, addr := 0, n := 4, index := 1 } } with
    | .next t => t.reply | _ => none) = some [1, 3, 0, 2] := by rfl
/-- The same behind its capability header: the DVSEC ID at byte 8 (R372). -/
theorem test_failure_dvsec : (match exec .hostBar2Read { State.reset with
      status := { Status.init with bstate := 15, dfail := 0x02000301 }, arg := { flag2 := true, addr := 8, n := 2 } } with
    | .next t => t.reply | _ => none) = some [0x1E, 0x0A] := by rfl
/-- A message for handle 0 that ends at its size, one for an entry that is not valid. -/
theorem witness_message : ((handled s0).handle (handleIndex 0)).hvalid = true ∧ ((handled s0).handle (handleIndex 0)).gen = handleGen 0 ∧
    255 + [(7 : Byte)].length ≤ ((handled s0).handle (handleIndex 0)).size ∧ (s0.handle (handleIndex 0)).hvalid = false ∧
    (s0.portAt 127).msg = none ∧ s0.linkDown 0x30000 = false ∧
    (let m : SkeinMsg := { index := 0, gen := 0, backing := (0, 0x30000), phase := false, off := 255, len := 1, pubc := true, ok := true }
     (((handled s0).setPort 127 { (s0.portAt 127) with msg := some m }).portAt 127).msg = some m) := by decide +kernel
theorem witness_xlog : State.reset.xlog.en = false ∧ (0x1000 : Word).extractLsb' 0 12 = 0 ∧ (0x1000 : Word).extractLsb' 52 12 = 0 ∧
    (0x110 : Word).extractLsb' 5 3 = 0 ∧ (0x110 : Word).extractLsb' 9 55 = 0 ∧ (0x110 : Word).getLsbD 8 = true ∧
    16 ≤ ((0x110 : Word).extractLsb' 0 5).toNat ∧ (0x10 : Word).getLsbD 8 = false ∧
    ({ State.reset with xlog := { XLog.init with en := true } } : State).xlog.en = true := by decide +kernel

theorem witness_registers : ({ reg := .sdasn } : EventArg).reg = .sdasn ∧ ({ reg := .hostlim } : EventArg).reg = .hostlim ∧
    ({ reg := .cxlBytes } : EventArg).reg = .cxlBytes ∧ ({ reg := .nvme } : EventArg).reg = .nvme ∧
    (let a : EventArg := { flag := true, addr := 0x7F0000000000 + 65536 * 127 + 0x400 }
     a.flag = true ∧ (127 : Nat) < 128 ∧ 0x400 % 8 = 0 ∧ a.addr = 0x7F0000000000 + 65536 * 127 + 0x400) ∧
    (∀ k, k < 4 → (s0.clusterAt 0).groups k ≠ ({ s0.clusterAt 0 with own := 0xFA54 } : Cluster).groups k → k = 0 ∨ k = 1) ∧
    s0.coreTaken 0 none = true ∧ State.reset.coreTaken 0 none = false ∧ State.reset.coreTaken 1 none = false := by decide +kernel
theorem witness_trace_control : let w : Word := 0x000A0108
    (s0.clusterAt 0).trace.w1.extractLsb' 8 5 = 0 ∧ w.extractLsb' 5 3 = 0 ∧ w.extractLsb' 13 3 = 0 ∧ w.extractLsb' 22 2 = 0 ∧
      w.extractLsb' 25 39 = 0 ∧ w.extractLsb' 8 5 ≠ 0 ∧ 8 ≤ (w.extractLsb' 0 5).toNat ∧ (w.extractLsb' 0 5).toNat ≤ 24 ∧
      10 ≤ (w.extractLsb' 16 6).toNat ∧ (w.extractLsb' 16 6).toNat ≤ 40 ∧ (1 : Word).extractLsb' 0 12 ≠ 0 := by decide +kernel
theorem witness_shootdown : (({ s0 with clusters := [(0, { Cluster.init with sdq := [⟨0, 0, 0⟩] })] } : State).clusterAt 0).sdq = ⟨0, 0, 0⟩ :: [] := rfl
theorem witness_acdata : (s0.clusterAt 0).rows[0].cmds = [] ∧ ((tiled 1 0 id).clusterAt 0).rows[0].cmds ≠ [] ∧
    ((0x1FF00 : BitVec 17).extractLsb' 8 9).toNat = 511 ∧ ((0x1FE00 : BitVec 17).extractLsb' 8 9).toNat < 511 := by decide +kernel

/-- MemoryFormKept, from a state that lists a byte. -/
theorem witness_memory_form : fetching.memOk ∧ ∃ t, step fetching = .next t := ⟨by show memWf fetching.mem = true; decide +kernel, _, rfl⟩

/-- The rail passes 0.95 V before the frequency goes up (R364): a request for full at code 12 starts a step. -/
theorem test_request_full : (match exec .powerPointRequest { boot 5 { flag := true } with tick := 9 } with
    | .next t => (t.power.move, t.power.full) | _ => (.still, true)) = (.stepUp, false) := by decide +kernel
theorem test_host_write : (match exec .hostBar2Write { State.reset with arg := { addr := 0x1000, bytes := [7, 0, 9] } } with
    | .next t => t.mem | _ => []) = [(0x1000, 7), (0x1002, 9)] := by decide +kernel
theorem test_fetch_add : (match exec .hostAtomicop { State.reset with mem := [(0x1000, 255)], arg := { addr := 0x1000, n := 4, w0 := 1 } } with
    | .next t => (t.mem, t.reply) | _ => ([], none)) = ([(0x1001, 1)], some [255, 0, 0, 0]) := by decide +kernel
theorem test_status_clears : (match exec .statusRw1cWrite { State.reset with
      status := { Status.init with ttrip := true, hzlim := 3 }, arg := { w0 := 0x400000 } } with
    | .next t => (t.status.hzlim, t.status.ttrip) | _ => (0, false)) = (2, true) := by decide +kernel
/-- R373: after reset the status block reads the safe point and code 12. -/
theorem test_status_after_reset : (match exec .hostBar2Read { State.reset with arg := { flag := true, addr := 0, n := 8 } } with
    | .next t => t.reply | _ => none) = some [0, 12, 0, 0, 0, 0, 0, 0] := by decide +kernel

/-! ## A placed word runs as the first instruction after reset -/

theorem test_placed_word : (match step (State.reset.withFetchWord 32 0x18000A40) with | .next t => (t.cur.tr.retcnt, t.cur.run) | _ => (0, .empty)) =
    (1, .running) := by decide +kernel

/-! ## Kollet -/

/-- The complete source file of spec/02_assembly_language.md. -/
def kolletSource : List String :=
  ["        .profile fvx, 1", "        .accept  decls, 32", "        .haze    8", "", "        .data    ro",
   "seeds:  .ez4     ezi, 1, -3, 100", "        .align   8", "tab:    .dword   seeds, bits(seeds)", "", "        .code",
   "        .fn      kern", "        .frame   96 + 3*vreg + mreg, 64", "        addi     g30, g30, -frame(kern)   ; claim the frame",
   "        pcrel    g9, hi(tab)", "        addi     g9, g9, lo(tab)          ; g9 = address of tab",
   "        ldd      g10, [g9+8]              ; g10 = 20", "        addi     g30, g30, frame(kern)    ; release the frame",
   "        ret", "        .fnend"]

/-- What the chapter says of its object's header, sections and frame; the loader takes the file. -/
theorem test_kollet_object : (Kollet.assembleLines kolletSource).file.map (fun f =>
    (fxoOk f, [fxDecls f, fxModes f, fxLgmin f, fxLgmax f, fxVbmin f, fxVbmax f, fxHztiles f], sectBytes f 0, sectSize f 1,
      frameSize f 0 16384)) =
    some (true, [1, 1, 1, 8, 8192, 65536, 8],
      [0x52, 0x98, 0x03, 0, 0, 0, 0, 0, 0, 0, 0, 0, 0, 0, 0, 0, 20, 0, 0, 0, 0, 0, 0, 0], 24, 14464) := by decide +kernel

/-- The chapter's relocation table, in its order. -/
theorem test_kollet_relocations : (Kollet.assembleLines kolletSource).file.map (fun f =>
    (relocs f).map fun r => ([r.sect, r.place, r.kind, r.target, r.toff], r.addend)) =
    some [([1, 0, 7, 0, 0], 0), ([1, 4, 2, 0, 8], 0), ([1, 8, 3, 0, 8], 0), ([1, 16, 6, 0, 0], 0), ([0, 8, 1, 0, 0], 0)] := by
  decide +kernel

/-- Words the spec prints: R50, R51, R55, R56, R263, R311, R339. -/
theorem test_kollet_words : (Kollet.assembleLines
    [".profile fvx, 1", ".profile fmx, 1", ".code", "hint 5", "c.add v3, v5, m0", "lih g9, 0x12", "andi g9, g9, -16",
     "beq g4, g5, .+16", "amo.cas g5, [g4], g6, 8, ar", "trap dispose, g5, g9", "mxdrain 0, 0, [g9], g10, g11, bf16",
     ".convoy 3, 0b00011", "vld v1, [g4]", "vadd v2, v1, v3", "vst v2, [g5]"]).file.map (fun f => sectBytes f 0) =
    some (leBytes 4 0x0405000F ++ leBytes 2 0x406B ++ leBytes 4 0x00001327 ++ leBytes 4 0xFC701290 ++ leBytes 4 0x00400A44 ++
      leBytes 4 0x37090A4A ++ leBytes 4 0x80070A9B ++ leBytes 8 0x7008230028B08027 ++ leBytes 4 0x0020C230 ++
      leBytes 8 0x3000000000008113 ++ leBytes 8 0x000000000C008204 ++ leBytes 8 0x4000000000008217) := by decide +kernel

/-- Lines with a fault each; lines 4 and 9 name instructions of an undeclared profile. -/
def kolletFaults : Kollet.Assembly := Kollet.assembleLines
  [".code", "frob g1, g2", "addi g1, g0, 32768", "x: vadd v1, v2, v3", "x: beq g1, g2, .+3", "addi g1, g1, lo(x)", ".byte 1",
   ".equ y, z", ".convoy 2, 2", "nop", "nop"]

/-- R43: conditions reported by line; a file with any gives no object. -/
theorem test_kollet_errors : kolletFaults.file = none ∧ kolletFaults.errors =
    [(2, .unknownName), (5, .symbol), (7, .data), (8, .symbol), (9, .convoy), (9, .undeclaredProfile), (4, .undeclaredProfile), (3, .range), (5, .range),
      (6, .loneLo)] := by decide +kernel

/-- R43: a register that only some accepted declarations lack is a warning, one that all lack an error. -/
theorem test_kollet_declarations :
    ((Kollet.assembleLines [".profile fvx, 1", ".code", "vmv v1, v16"]).warnings,
      (Kollet.assembleLines [".profile fvx, 1", ".accept decls, 16, 8", ".code", "vmv v1, o4"]).errors) =
    ([(3, .mayBeAbsent)], [(4, .absentRegister)]) := by decide +kernel

/-- R35: values of expressions. -/
theorem test_kollet_expressions : (Kollet.assembleLines
    [".data", ".byte 1 + 2 * 3, (1 | 6) & 3 ^ 8, -7 / 2, -7 % 2, -16 >> 2, ~0, 'A', '\\n', 4_0"]).file.map (fun f => sectBytes f 0) =
    some [7, 11, 0xFD, 0xFF, 0xFC, 0xFF, 65, 10, 40] := by decide +kernel

end Sys2Proof.Tests
end

/-! # The memory form (O59)

One lemma for each function that a step goes through: it keeps `State.memOk`. `Eff.memOk`, `Answer.memOk` and `okIn`
say the same of an effect, an answer and an optional result. A function that leaves memory alone needs no lemma where
`s.memOk` is its state's memory form by definition. The lemmas stand in the order of the model's files. -/

namespace Sys2Proof.Machine

/-! ## Outcomes that leave memory in canonical form -/

/-- The state an effect holds has its memory in canonical form. -/
def Eff.memOk : Eff → Prop
  | .done s | .jump s _ | .trap s _ _ | .trapNext s _ _ | .wait s _ _ | .part s | .out s => s.memOk

/-- So has the next state of an answer that gives one. -/
def Answer.memOk : Answer → Prop
  | .next s => s.memOk
  | _ => True

/-- So has the state in an optional result, if there is one. -/
def okIn {α : Type} (f : α → State) : Option α → Prop
  | some x => (f x).memOk
  | none => True

section Outcomes

variable {α β : Type} {s t u : State}

theorem okIn.some {f : α → State} {o : Option α} {x : α} (h : okIn f o) (e : o = some x) : (f x).memOk := by
  subst e; exact h

theorem okIn.of_none {f : α → State} : okIn f none := trivial

theorem okIn.getD {o : Option State} (h : okIn id o) (k : s.memOk) : (o.getD s).memOk := by
  cases o with
  | none => exact k
  | some t => exact h

theorem State.memOk.fst {p : State × α} {x : α} (h : p.1.memOk) (e : p = (u, x)) : u.memOk := by
  subst e; exact h

theorem State.memOk.ite {c : Prop} [Decidable c] (h : s.memOk) (k : t.memOk) : (if c then s else t).memOk := by
  split
  · exact h
  · exact k

theorem Eff.memOk.ite {c : Prop} [Decidable c] {a b : Eff} (h : a.memOk) (k : b.memOk) :
    (if c then a else b).memOk := by
  split
  · exact h
  · exact k

theorem okIn.ite {f : α → State} {c : Prop} [Decidable c] {a b : Option α} (h : okIn f a) (k : okIn f b) :
    okIn f (if c then a else b) := by
  split
  · exact h
  · exact k

theorem Eff.memOk.of_eq {a b : Eff} (h : a.memOk) (e : a = b) : b.memOk := e ▸ h

theorem Answer.memOk.of_eq {a b : Answer} (h : Answer.memOk a) (e : a = b) : Answer.memOk b := e ▸ h

theorem State.memOk.foldl {l : List β} {f : State → β → State} (h : s.memOk)
    (hf : ∀ u b, u.memOk → (f u b).memOk) :
    (l.foldl f s).memOk :=
  List.foldlRecOn l f h fun u hu b _ => hf u b hu

theorem State.memOk.foldl_fst {l : List β} {f : State × α → β → State × α} {p : State × α}
    (h : p.1.memOk) (hf : ∀ q b, q.1.memOk → (f q b).1.memOk) : (l.foldl f p).1.memOk :=
  List.foldlRecOn (motive := fun q => q.1.memOk) l f h fun q hq b _ => hf q b hq

theorem okIn.foldl {l : List β} {f : Option α → β → Option α} {g : α → State} {x : α} (h : (g x).memOk)
    (hf : ∀ a b, (g a).memOk → okIn g (f (Option.some a) b)) (hn : ∀ b, okIn g (f none b)) :
    okIn g (l.foldl f (Option.some x)) :=
  List.foldlRecOn (motive := okIn g) l f h fun
    | Option.some a, ha, b, _ => hf a b ha
    | none, _, b, _ => hn b

end Outcomes

section MemoryForm

variable {s : State}

/-! ### Fields of the state other than memory -/

theorem State.memOk.setArg {a : EventArg} (ok : s.memOk) : State.memOk { s with arg := a } := ok

theorem State.memOk.setReplay {l : List (Nat × Nat)} (ok : s.memOk) : State.memOk { s with replay := l } := ok

theorem State.memOk.setReply {r : Option (List Byte)} (ok : s.memOk) : State.memOk { s with reply := r } := ok

theorem State.memOk.setTasks {ts : Table Task} (ok : s.memOk) : State.memOk { s with tasks := ts } := ok

theorem State.memOk.setTlb {l : List TlbEntry} (ok : s.memOk) : State.memOk { s with tlb := l } := ok

theorem State.memOk.writeMem {a : Nat} {bs : List Byte} (ok : s.memOk) :
    State.memOk { s with mem := memWriteN s.mem a bs } := memWf_memWriteN _ _ _ ok

/-! ### Memory and translation -/

theorem State.memOk.setHart {h : Nat} {x : Hart} (ok : s.memOk) : (s.setHart h x).memOk := ok

theorem State.memOk.setCur {x : Hart} (ok : s.memOk) : (s.setCur x).memOk := ok

theorem State.memOk.setCluster {c : Nat} {x : Cluster} (ok : s.memOk) : (s.setCluster c x).memOk := ok

theorem State.memOk.setCore {h : Nat} {x : Core} (ok : s.memOk) : (s.setCore h x).memOk := ok

theorem State.memOk.setTask {rcb : Nat} {x : Task} (ok : s.memOk) : (s.setTask rcb x).memOk := ok

theorem State.memOk.setG {r : Reg} {v : Word} (ok : s.memOk) : (s.setG r v).memOk :=
  .ite ok ok

theorem State.memOk.setHbm {a n v : Nat} (ok : s.memOk) : (s.setHbm a n v).memOk := memWf_memWriteN _ _ _ ok

theorem State.memOk.flipPhase {i : Nat} (ok : s.memOk) : (s.flipPhase i).memOk :=
  memWf_memWrite _ _ _ ok

theorem State.memOk.copyBacking {src dst : Nat × Nat} {off n : Nat} (ok : s.memOk) :
    (s.copyBacking src dst off n).memOk :=
  memWf_memWriteN _ _ _ ok

theorem State.memOk.putBacking {b : Nat × Nat} {off : Nat} {bs : List Byte} (ok : s.memOk) :
    (s.putBacking b off bs).memOk := by
  refine State.memOk.ite ?_ (memWf_memWriteN _ _ _ ok)
  refine List.foldlRecOn (motive := fun m => memWf m = true) _ _ ok fun m hm b _ => ?_
  obtain ⟨x, i⟩ := b
  dsimp only
  split
  · exact hm
  · exact memWf_memWrite _ _ _ hm

theorem State.memOk.noteLeaf {c : Ctx} {va : Nat} {w : Bool} {l : Option (Nat × Nat × Bool)} (ok : s.memOk) :
    (s.noteLeaf c va w l).memOk := (accessed_noteLeaf (h := 0) c va w l).wf ok

theorem State.memOk.setBirth {c i : Nat} {b : Option Nat} (ok : s.memOk) : (s.setBirth c i b).memOk := ok

theorem State.memOk.writeT {p : Target} {bs ks : List Byte} (ok : s.memOk) : (s.writeT p bs ks).memOk :=
  (accessed_writeT (h := 0) p bs ks).wf ok

/-! ### Traces, replay and the external log -/

theorem State.memOk.elapse {n : Nat} (ok : s.memOk) : (s.elapse n).memOk := (accessed_elapse (h := 0) n).wf ok

theorem State.memOk.putRecord {c v w : Nat} (ok : s.memOk) : (s.putRecord c v w).memOk :=
  (accessed_putRecord (h := 0) c v w).wf ok

theorem State.memOk.timeBase {h : Nat} (ok : s.memOk) : (s.timeBase h).1.memOk := by
  unfold State.timeBase
  split
  · split
    · exact ok
    · dsimp only
      exact ok.putRecord
  · dsimp only
    exact ok.putRecord

theorem State.memOk.record {k r p w : Nat} (ok : s.memOk) : (s.record k r p w).memOk :=
  (accessed_record (h := 0) k r p w).wf ok

theorem State.memOk.recordPair {h rtype spec w1 full : Nat} (ok : s.memOk) :
    (s.recordPair h rtype spec w1 full).memOk := by
  unfold State.recordPair
  split
  next u _ e =>
    have hu : u.memOk := ok.timeBase.fst e
    exact .ite hu hu.putRecord.putRecord

theorem State.memOk.nextStamp (ok : s.memOk) : s.nextStamp.memOk := (accessed_nextStamp (h := 0)).wf ok

theorem State.memOk.sync {k i : Nat} (ok : s.memOk) : (s.sync k i).memOk := (accessed_sync (h := 0) k i).wf ok

theorem State.memOk.publishCounters {h : Nat} (ok : s.memOk) : (s.publishCounters h).memOk :=
  .ite (memWf_memWriteN _ _ _ ok) ok

theorem State.memOk.publishHead {cl : Nat} (ok : s.memOk) : (s.publishHead cl).memOk :=
  .ite ok ok.setHbm.setHbm

theorem State.memOk.publishTrace {cl : Nat} (ok : s.memOk) : (s.publishTrace cl).memOk :=
  (ok.foldl fun _ _ hu => hu.publishCounters).publishHead

theorem State.memOk.publishLate (ok : s.memOk) : s.publishLate.memOk :=
  ok.foldl fun _ _ hu => .ite hu.publishTrace hu

theorem State.memOk.traceStop {h : Nat} (ok : s.memOk) : (s.traceStop h).memOk :=
  ok.publishTrace

theorem State.memOk.hashRecord {h : Nat} (ok : s.memOk) : (s.hashRecord h).memOk := by
  refine .ite ?_ ?_
  · refine State.memOk.recordPair ?_
    exact ok
  · exact ok

theorem State.memOk.publishLogLate (ok : s.memOk) : s.publishLogLate.memOk :=
  .ite ok ok

theorem State.memOk.logInput {source port addr : Nat} {data : List Byte} (ok : s.memOk) :
    (s.logInput source port addr data).memOk := by
  have hu : ({ s with replay := dropFirst extAgent s.replay } : State).nextStamp.memOk := State.memOk.nextStamp
    ok.setReplay
  unfold State.logInput
  generalize State.nextStamp _ = u at hu ⊢
  dsimp only
  refine State.memOk.ite hu (.ite hu ?_)
  unfold State.memOk
  dsimp only
  exact memWf_memWriteN _ _ _ (memWf_memWriteN _ _ _ hu)

/-! ### Stores performed, loads and drains -/

theorem State.memOk.performOne {k j : Nat} (ok : s.memOk) : (s.performOne k j).memOk := (accessed_performOne j).wf ok

theorem State.memOk.drainSlice {k j : Nat} (ok : s.memOk) : (s.drainSlice k j).memOk := (accessed_drainSlice j).wf ok

theorem State.memOk.drain {k : Nat} (ok : s.memOk) : (s.drain k).memOk := accessed_drain.wf ok

theorem State.memOk.joinLate {k : Nat} (ok : s.memOk) : (s.joinLate k).memOk := accessed_joinLate.wf ok

theorem State.memOk.loadVia {u : State} {k va n : Nat} (ok : s.memOk) : (s.loadVia u k va n).1.memOk :=
  (accessed_loadVia (h := k) u va n).wf ok

theorem State.memOk.load {k j va n : Nat} (ok : s.memOk) : (s.load k j va n).1.memOk := (accessed_load j va n).wf ok

theorem State.memOk.queueLoad {s s0 : State} {slice va : Nat} {l : LateLoad} (ok : s.memOk) :
    okIn id (s.queueLoad s0 slice va l) := by
  unfold State.queueLoad
  dsimp only
  split
  · exact ok.noteLeaf
  · exact trivial

theorem State.memOk.storeIn {k j g va : Nat} {r : Bool} {d : Need} {bs ks : List Byte} {w : Option Nat}
    (ok : s.memOk) : (s.storeIn k j g r d va bs ks w).1.memOk := (accessed_storeIn j g r d va bs ks w).wf ok

/-! ### Code objects -/

theorem State.memOk.writeTables {ws : List (Nat × Nat)} (ok : s.memOk) : (s.writeTables ws).memOk :=
  ok.foldl fun _ _ hu => hu.setHbm

theorem State.memOk.unmapPage {page : Nat} (ok : s.memOk) : (s.unmapPage page).memOk := by
  unfold State.unmapPage
  dsimp only
  split
  · exact ok
  · refine State.memOk.foldl ok ?_
    intro _ _ hu
    split
    · exact hu.setHbm
    · exact hu

theorem State.memOk.unmapPages {va size : Nat} (ok : s.memOk) : (s.unmapPages va size).memOk :=
  ok.foldl fun _ _ hu => hu.unmapPage

theorem State.memOk.instantiate {o : CodeObj} {vbits : Nat} {addrs : List (Nat × Nat)} (ok : s.memOk) :
    okIn id (s.instantiate o vbits addrs) := by
  refine okIn.foldl ok (fun u i hu => .ite hu (.ite trivial ?_)) fun _ => trivial
  split
  · exact trivial
  · exact memWf_memWriteN _ _ _ hu

theorem State.memOk.placeData {f : List Byte} {data shared : List (Nat × Nat)} (ok : s.memOk) :
    okIn id (s.placeData f data shared) := by
  refine okIn.foldl ok (fun u i hu => .ite hu (.ite trivial ?_)) fun _ => trivial
  split
  · exact trivial
  · exact memWf_memWriteN _ _ _ hu

/-! ### Region control blocks -/

theorem State.memOk.addChain {off n : Nat} {x : List Nat} (ok : s.memOk) : (s.addChain off n x).memOk := by
  induction x generalizing s with
  | nil => exact ok
  | cons b bs ih => exact ih ok.setHbm

theorem State.memOk.rcbStatus {a bit : Nat} {v : Bool} (ok : s.memOk) : (s.rcbStatus a bit v).memOk :=
  ok.setHbm

theorem State.memOk.recordReject {ch : List Nat} {reason : Nat} (ok : s.memOk) :
    (s.recordReject ch reason).memOk := by
  unfold State.recordReject
  split
  · exact ok
  · exact ok.setHbm.addChain

theorem State.memOk.returnQueue {die p rcb : Nat} {b : Bool} (ok : s.memOk) : (s.returnQueue die p rcb b).memOk := ok

theorem State.memOk.dropQueue {die rcb : Nat} (ok : s.memOk) : (s.dropQueue die rcb).memOk := ok

theorem State.memOk.enqueue {die a : Nat} (ok : s.memOk) : (s.enqueue die a).1.memOk := by
  unfold State.enqueue
  dsimp only
  split
  · exact ok.recordReject
  · split
    · exact ok
    · split
      · exact ok.recordReject
      · split
        · exact ok.recordReject
        · split
          · exact ok.recordReject
          · exact ok.rcbStatus.addChain

theorem State.memOk.charge {rcb : Nat} (ok : s.memOk) : (s.charge rcb).memOk := by
  unfold State.charge
  split
  · exact ok
  · exact .ite ok.addChain ok

/-! ### Contexts and images -/

theorem State.memOk.writeImage {h : Nat} {pc : Word} {full : Bool} (ok : s.memOk) :
    okIn id (s.writeImage h pc full) := by
  unfold State.writeImage
  dsimp only
  split
  · exact trivial
  · split
    · exact trivial
    · exact ok.foldl fun _ _ hu => memWf_memWriteN _ _ _ hu.noteLeaf

theorem State.memOk.readImage {c : Ctx} {va n : Nat} (ok : s.memOk) : okIn Prod.fst (s.readImage c va n) := by
  unfold State.readImage
  unfold Option.map
  dsimp only
  split
  · exact ok.foldl fun _ _ hu => hu.noteLeaf
  · exact trivial

theorem State.memOk.restore {h va : Nat} {full : Bool} (ok : s.memOk) : okIn id (s.restore h va full) := by
  unfold State.restore
  dsimp only
  split
  · exact trivial
  next e =>
    have hu := ok.readImage.some e
    split
    · exact State.memOk.ite hu hu
    · split
      · exact trivial
      next e2 =>
        have hv := hu.readImage.some e2
        exact State.memOk.ite hv hv

/-! ### Retirement, traps and effects -/

theorem State.memOk.retire {h : Nat} (ok : s.memOk) : (s.retire h).memOk := by
  refine State.memOk.hashRecord ?_
  exact ok

theorem State.memOk.finish {h : Nat} {pc : Word} (ok : s.memOk) : (s.finish h pc).memOk := by
  refine State.memOk.retire ?_
  exact ok

theorem State.memOk.writeVa {c : Ctx} {va : Nat} {x : List Byte} (ok : s.memOk) : okIn id (s.writeVa c va x) := by
  induction x generalizing s va with
  | nil => exact ok
  | cons b bs ih =>
    unfold State.writeVa
    split
    · exact ih (memWf_memWrite _ _ _ ok.noteLeaf)
    · exact ih (memWf_memWrite _ _ _ ok.noteLeaf)
    · exact trivial

theorem State.memOk.toHandler {die handler : Nat} {core : Option Nat} {r : List Byte} (ok : s.memOk) :
    (s.toHandler die handler core r).memOk := by
  unfold State.toHandler
  dsimp only
  split
  · exact ok
  next t e =>
    have hu : t.memOk := by
      refine okIn.some (f := id) ?_ e
      exact .ite ok.writeVa trivial
    split
    next e1 =>
      have hv := hu.enqueue.fst e1
      split
      · exact hv
      · exact hv
    next e1 =>
      have hv := hu.enqueue.fst e1
      exact hv

theorem State.memOk.deliver {t : Task} {rcb : Nat} {r : List Byte} (ok : s.memOk) : (s.deliver t rcb r).memOk :=
  .ite ok.addChain (.ite ok.addChain ok.addChain.toHandler)

theorem State.memOk.halt {h : Nat} (ok : s.memOk) : (s.halt h).memOk := by
  refine State.memOk.traceStop ?_
  exact ok

theorem State.memOk.requestPre {h : Nat} (ok : s.memOk) : (s.requestPre h).memOk := by
  unfold State.requestPre
  dsimp only
  split <;> exact ok

theorem State.memOk.noteImage {h : Nat} {phase : Phase} {frame kind : Nat} {pc : Word} (ok : s.memOk) :
    (s.noteImage h phase frame kind pc).memOk := by
  unfold State.noteImage
  dsimp only
  split <;> exact ok

theorem State.memOk.requestPartner {h : Nat} (ok : s.memOk) : (s.requestPartner h).memOk :=
  .ite ok.requestPre ok

theorem State.memOk.shsyncPart {h : Nat} (ok : s.memOk) : (s.shsyncPart h).memOk := by
  unfold State.shsyncPart
  dsimp only
  split
  · split
    · exact .ite ok (.ite ok.copyBacking ok.copyBacking)
    · exact ok
  · exact ok

theorem State.memOk.withdraw {h : Nat} (ok : s.memOk) : (s.withdraw h).memOk := by
  unfold State.withdraw
  dsimp only
  split
  · split <;> exact ok.shsyncPart
  · exact ok.shsyncPart

theorem State.memOk.clearPre {h : Nat} (ok : s.memOk) : (s.clearPre h).memOk := ok

theorem State.memOk.stopForward {h : Nat} {pc : Word} (ok : s.memOk) : (s.stopForward h pc).1.memOk := by
  have hu : (((s.withdraw h).drain h).clearPre h).memOk := ok.withdraw.drain.clearPre
  refine .halt (.noteImage (.charge ?_))
  split
  next e => exact hu.writeImage.some e
  · exact hu

theorem State.memOk.recordForward {h cause : Nat} {val : Word} {dbl : Bool} {pc : Word} {frame kind : Nat}
    (ok : s.memOk) : (s.recordForward h cause val dbl pc frame kind).memOk := by
  unfold State.recordForward
  dsimp only
  split
  · exact ok
  · exact ok.deliver

theorem State.memOk.stopPartner {h cause : Nat} (ok : s.memOk) : (s.stopPartner h cause).memOk := by
  unfold State.stopPartner
  dsimp only
  split
  · exact .ite ok.stopForward.recordForward ok.stopForward
  · exact ok

theorem State.memOk.forwardHart {h cause : Nat} {val : Word} {dbl : Bool} {pc : Word} (ok : s.memOk) :
    (s.forwardHart h cause val dbl pc).memOk :=
  ok.stopForward.recordForward

theorem State.memOk.directForward {h cause : Nat} {val : Word} {dbl : Bool} {pc : Word} (ok : s.memOk) :
    (s.directForward h cause val dbl pc).memOk :=
  ok.forwardHart.stopPartner

theorem State.memOk.directSwitch {h : Nat} {pc : Word} (ok : s.memOk) : (s.directSwitch h pc).memOk := by
  have hu : (((s.withdraw h).drain h).clearPre h).memOk := ok.withdraw.drain.clearPre
  unfold State.directSwitch
  dsimp only
  split
  · exact hu.directForward
  next e =>
    have hv := hu.writeImage.some e
    refine .requestPartner (.halt (.noteImage ?_))
    split
    · exact .addChain (.charge hv)
    · exact .charge hv

theorem State.memOk.takeTrap {h cause : Nat} {val resume : Word} {sync : Bool} (ok : s.memOk) :
    (s.takeTrap h cause val resume sync).memOk := by
  refine .ite ?_ ?_
  · refine State.memOk.directForward ?_
    refine State.memOk.withdraw ?_
    exact ok
  · refine .ite ?_ ?_
    · refine State.memOk.directForward ?_
      refine State.memOk.withdraw ?_
      exact ok
    · refine State.memOk.withdraw ?_
      exact ok

theorem State.memOk.retireTrap {h cause : Nat} {val resume : Word} (ok : s.memOk) :
    (s.retireTrap h cause val resume).memOk := by
  refine State.memOk.takeTrap ?_
  refine State.memOk.retire ?_
  exact ok

theorem Eff.memOk.commit {i : Instr} {n : Nat} {e : Eff} (ok : e.memOk) : Answer.memOk (commit i n e) := by
  cases e with
  | done s => exact State.memOk.finish ok
  | jump s pc => exact State.memOk.finish ok
  | trap s c v => exact State.memOk.takeTrap ok
  | trapNext s c v => exact State.memOk.retireTrap ok
  | wait s q m => exact ok
  | part s => exact ok
  | out s => exact ok

theorem State.memOk.clearFence (ok : s.memOk) : s.clearFence.memOk :=
  .ite ok ok

theorem State.memOk.storeNext {slice group va : Nat} {bytes mask : List Byte} (ok : s.memOk) :
    (s.storeNext slice group va bytes mask).1.memOk := by
  unfold State.storeNext
  split
  next e => exact (ok.storeIn.fst e).clearFence
  · exact ok.storeIn

theorem State.memOk.markCmds {f : MxCmd → MxCmd} (ok : s.memOk) : (s.markCmds f).memOk :=
  .ite ok ok

theorem State.memOk.queueRelease (ok : s.memOk) : s.queueRelease.memOk :=
  ok.drain

theorem State.memOk.queueAcquire {q : Nat} (ok : s.memOk) : (s.queueAcquire q).memOk :=
  ok.drain.markCmds

theorem State.memOk.dirtyM (ok : s.memOk) : s.dirtyM.memOk := ok

theorem State.memOk.dirtyC (ok : s.memOk) : s.dirtyC.memOk := ok

theorem State.memOk.setEst {n : Nat} (ok : s.memOk) : (s.setEst n).memOk := ok

theorem State.memOk.setEcm {n : Nat} (ok : s.memOk) : (s.setEcm n).memOk := ok

theorem State.memOk.raiseEff {c : Nat} {w : Word} (ok : s.memOk) : (raiseEff s c w).memOk := ok

/-! ### Instruction fetch -/

theorem State.memOk.fetchParcel {va : Nat} (ok : s.memOk) : (s.fetchParcel va).1.memOk := by
  unfold State.fetchParcel
  dsimp only
  split
  · exact ok
  · split
    · exact ok
    · exact ok.noteLeaf

theorem State.memOk.fetchParcels {va n : Nat} (ok : s.memOk) : (s.fetchParcels va n).1.memOk := by
  induction n generalizing s va with
  | zero => exact ok
  | succ n ih =>
    unfold State.fetchParcels
    split
    next u _ e => exact ok.fetchParcel.fst e
    next u _ e =>
      have hu : u.memOk := ok.fetchParcel.fst e
      split
      next e1 => exact (ih hu).fst e1
      next e1 => exact (ih hu).fst e1

theorem State.memOk.fetchWord (ok : s.memOk) : s.fetchWord.1.memOk := by
  unfold State.fetchWord
  dsimp only
  split
  next e => exact ok.fetchParcel.fst e
  next u _ e =>
    have hu : u.memOk := ok.fetchParcel.fst e
    split
    next e1 => exact hu.fetchParcels.fst e1
    next u1 _ e1 =>
      have hu1 : u1.memOk := hu.fetchParcels.fst e1
      split
      · split
        next e3 => exact hu1.fetchParcels.fst e3
        next e3 => exact hu1.fetchParcels.fst e3
      · exact hu1

theorem State.memOk.fetchNext (ok : s.memOk) : s.fetchNext.1.memOk := by
  unfold State.fetchNext
  split
  next e => exact ok.fetchWord.fst e
  next e => exact ok.fetchWord.fst e

/-! ### Atomics, fences, barriers and publication -/

theorem State.memOk.atomicStep {h va n : Nat} {t : Target} {leaf : Option (Nat × Nat × Bool)}
    {f : Nat → Option Nat} (ok : s.memOk) : (s.atomicStep h va n t leaf f).1.memOk := by
  unfold State.atomicStep
  dsimp only
  split
  · exact ok.noteLeaf.writeT.clearFence
  · exact ok.noteLeaf

theorem State.memOk.atomicJoin {ord : BitVec 2} (ok : s.memOk) : (s.atomicJoin ord).memOk :=
  .ite ok.drainSlice ok.drain

theorem State.memOk.amoEff {sz8 : Bool} {ord : BitVec 2} {d a b : Reg} {hostOk : Bool}
    {f : Nat → Nat → Nat → Nat → Option Nat} (ok : s.memOk) : (amoEff s sz8 ord d a b hostOk f).memOk := by
  unfold Machine.amoEff
  dsimp only
  split
  · exact ok
  · split
    · split
      · exact ok
      · split
        · exact ok.atomicJoin
        · exact ok.atomicJoin.atomicStep.sync.setG
    · split
      · exact ok
      · split
        · exact ok.atomicJoin
        · exact ok.atomicJoin.atomicStep.sync.setG

theorem State.memOk.addqEff {ord : BitVec 2} {d a b : Reg} (ok : s.memOk) : (addqEff s ord d a b).memOk := by
  unfold Machine.addqEff
  dsimp only
  split
  · exact ok
  · split
    · exact ok
    · split
      · exact ok
      · split
        · exact ok.atomicJoin
        · exact State.memOk.ite ok.atomicJoin.atomicStep.sync ok.atomicJoin.atomicStep.sync.setG.setG

theorem State.memOk.fenceEff {release : Bool} (ok : s.memOk) : (fenceEff s release).memOk := by
  unfold Machine.fenceEff
  dsimp only
  split
  · exact ok.drain
  · exact ok.drain

theorem State.memOk.ldAcqEff {sz : BitVec 2} {d a : Reg} (ok : s.memOk) : (ldAcqEff s sz d a).memOk := by
  unfold Machine.ldAcqEff
  dsimp only
  split
  · exact ok
  · split
    · exact ok
    · split
      next u _ e2 =>
        have hu : u.memOk := ok.drain.load.fst e2
        exact hu.sync.setG
      next u _ e2 =>
        have hu : u.memOk := ok.drain.load.fst e2
        exact hu

theorem State.memOk.stRelEff {sz : BitVec 2} {r a : Reg} (ok : s.memOk) : (stRelEff s sz r a).memOk := by
  unfold Machine.stRelEff
  dsimp only
  split
  · exact ok
  · split
    · exact ok
    · split
      next u e2 =>
        have hu : u.memOk := ok.drain.storeIn.fst e2
        exact hu.clearFence
      next u _ e2 =>
        have hu : u.memOk := ok.drain.storeIn.fst e2
        exact hu

theorem State.memOk.releaseAt {id : BitVec 3} {h : Nat} (ok : s.memOk) : (s.releaseAt id h).memOk := by
  unfold State.releaseAt
  split
  · split
    · exact .ite ok.finish.sync ok
    · exact ok
  · exact ok

theorem State.memOk.barEff {i : Instr} {id : BitVec 3} {a : Reg} (ok : s.memOk) : (barEff s i id a).memOk := by
  unfold Machine.barEff
  dsimp only
  split
  · exact ok
  · refine .ite ?_ ?_
    · exact ok
    · refine .ite ?_ ?_
      · exact ok
      · refine .ite ?_ ?_
        · refine State.memOk.sync ?_
          refine State.memOk.foldl ?_ fun _ _ hu => .ite hu hu.releaseAt
          refine State.memOk.drain ?_
          exact ok
        · refine State.memOk.drain ?_
          exact ok

theorem State.memOk.wmonEff {i : Instr} {sz : BitVec 2} {t : BitVec 5} {d a : Reg} (ok : s.memOk) :
    (wmonEff s i sz t d a).memOk := by
  unfold Machine.wmonEff
  dsimp only
  split
  · exact ok
  · split
    · exact ok
    · split
      · exact ok
      · split
        next u _ e3 =>
          have hu : u.memOk := ok.drain.load.fst e3
          exact hu
        next u _ e3 =>
          have hu : u.memOk := ok.drain.load.fst e3
          exact .ite hu.sync.setG hu

theorem State.memOk.pubEff {d a : Reg} (ok : s.memOk) : (pubEff s d a).memOk :=
  .ite ok (.ite ok (.ite ok.drain ok.drain.flipPhase.sync.setG))

theorem State.memOk.shsyncEff {i : Instr} {d a b c : Reg} (ok : s.memOk) : (shsyncEff s i d a b c).memOk := by
  unfold Machine.shsyncEff
  dsimp only
  split
  · exact ok
  · split
    · exact ok
    · split
      · exact .ite ok.copyBacking ok.copyBacking.setG
      · exact .ite ok (.ite ok (.ite ok.setG (.ite ok ok.drain)))

/-! ### Flags -/

theorem State.memOk.orFlags {fl : Nat} (ok : s.memOk) : (s.orFlags fl).memOk :=
  .ite ok ok

theorem State.memOk.fpEff {d : Reg} {res : Word} {fl : Nat} (ok : s.memOk) : (fpEff s d res fl).memOk :=
  .ite ok.orFlags ok.orFlags.setG

/-! ### Scheduling, copies and preloads -/

theorem State.memOk.clearSegs {k mask : Nat} (ok : s.memOk) : (s.clearSegs k mask).memOk :=
  ok.foldl fun _ _ hu => .ite (memWf_memClear _ _ _ hu) hu

theorem State.memOk.expireTiles {cl base n : Nat} (ok : s.memOk) : (s.expireTiles cl base n).memOk :=
  ok.foldl fun _ _ hu => hu.setBirth

theorem State.memOk.joinRerun {k : Nat} (ok : s.memOk) : (s.joinRerun k).memOk :=
  ok.foldl fun _ _ hu => .ite hu hu

theorem State.memOk.startTask {rcb : Nat} {t : Task} (ok : s.memOk) : (s.startTask rcb t).memOk := by
  refine State.memOk.joinRerun ?_
  refine .ite ?_ ?_
  · refine State.memOk.sync ?_
    refine State.memOk.sync ?_
    refine State.memOk.expireTiles ?_
    refine State.memOk.foldl ?_ fun _ _ hu => hu.drain
    exact ok
  · refine State.memOk.sync ?_
    refine State.memOk.expireTiles ?_
    refine State.memOk.foldl ?_ fun _ _ hu => hu.drain
    exact ok

theorem State.memOk.clearHarts {rcb : Nat} {t : Task} (ok : s.memOk) : (s.clearHarts rcb t).memOk :=
  ok.foldl fun _ _ hu => .ite (State.memOk.drain (.ite hu hu)) (.ite hu hu)

theorem State.memOk.copyFlushN {h : Nat} {n : Fin 4} {m : Nat} (ok : s.memOk) : (s.copyFlushN h n m).memOk := by
  induction m generalizing s with
  | zero => exact ok
  | succ m ih =>
    unfold State.copyFlushN
    split
    · exact ok
    · split
      · exact ok
      next ws rest _ =>
        have hws : (ws.foldl (fun (s : State) w => s.writeT w.1 w.2.1 w.2.2) s).memOk :=
          ok.foldl fun _ _ hu => hu.writeT
        exact ih hws

theorem State.memOk.copyFlush {h : Nat} {n : Fin 4} (ok : s.memOk) : (s.copyFlush h n).memOk := by
  unfold State.copyFlush
  split
  · exact ok.copyFlushN
  · exact ok

theorem State.memOk.quiet {cl : Nat} (ok : s.memOk) : (s.quiet cl).memOk :=
  ok.foldl fun _ _ hu => State.memOk.foldl (.ite hu hu.drain) fun _ _ hu1 => hu1.copyFlush

theorem State.memOk.copyStop {h : Nat} {n : Fin 4} (ok : s.memOk) : (s.copyStop h n).memOk := by
  unfold State.copyStop
  dsimp only
  split
  · exact ok.copyFlush
  · refine State.memOk.foldl ok.copyFlush ?_
    intro _ _ hu
    split
    · exact .ite hu.setBirth hu
    · exact hu

theorem State.memOk.copyCancel {h : Nat} {n : Fin 4} (ok : s.memOk) : (s.copyCancel h n).memOk :=
  .ite ok.copyStop ok

theorem State.memOk.cancelCopies {rcb : Nat} {t : Task} (ok : s.memOk) : (s.cancelCopies rcb t).memOk := by
  refine State.memOk.foldl ok ?_
  intro _ _ hu
  refine State.memOk.foldl hu ?_
  intro _ _ hu1
  dsimp only
  split
  · exact .ite hu1.copyCancel hu1
  · exact hu1

theorem State.memOk.releaseTask {rcb : Nat} {t : Task} (ok : s.memOk) : (s.releaseTask rcb t).memOk := by
  refine State.memOk.clearHarts ?_
  refine State.memOk.cancelCopies ?_
  refine State.memOk.charge ?_
  exact ok

theorem State.memOk.dropPreload {rcb : Nat} {t : Task} (ok : s.memOk) : (s.dropPreload rcb t).memOk :=
  .joinRerun (.returnQueue (.setTask ok.rcbStatus))

theorem State.memOk.dropPreloads {k : Nat} (ok : s.memOk) : (s.dropPreloads k).memOk :=
  ok.foldl fun _ _ hu => .ite hu.dropPreload hu

/-! ### Issue and the common vector frame -/

theorem State.memOk.setGroup {r : VSpec} {n code bits : Nat} (ok : s.memOk) : (s.setGroup r n code bits).memOk := by
  unfold State.setGroup
  dsimp only
  split <;> exact ok

theorem State.memOk.reshuffle {r : VSpec} {n code : Nat} (ok : s.memOk) : (s.reshuffle r n code).memOk :=
  .ite ok (ok.foldl fun _ _ hu => .ite hu hu)

theorem State.memOk.wakeGroups (ok : s.memOk) : s.wakeGroups.memOk :=
  .ite ok ok

theorem State.memOk.pipeRecord {rtype unit groups : Nat} (ok : s.memOk) : (s.pipeRecord rtype unit groups).memOk := by
  unfold State.pipeRecord
  dsimp only
  split
  · exact ok
  · split
    · exact ok.record
    · exact ok

theorem State.memOk.pipe {unit groups : Nat} (ok : s.memOk) : (s.pipe unit groups).memOk :=
  .ite ok (State.memOk.pipeRecord (.ite ok.pipeRecord ok))

theorem State.memOk.pipeBegin {n unit e : Nat} {m : VMask} (ok : s.memOk) : (s.pipeBegin n unit e m).memOk :=
  .ite ok.pipeRecord ok

theorem State.memOk.pipeEnd {n unit : Nat} {m : VMask} (ok : s.memOk) : (s.pipeEnd n unit m).memOk :=
  .ite ok ok.pipeBegin.pipeRecord

theorem State.memOk.flushPipes {keep : Option (List (Nat × Nat))} (ok : s.memOk) : (s.flushPipes keep).memOk := by
  refine State.memOk.foldl ?_ fun _ _ hu => hu.record
  exact ok

theorem State.memOk.popQueues {rs : List VSpec} (ok : s.memOk) : (s.popQueues rs).memOk :=
  ok.foldl fun _ _ hu => .sync (.setCore hu.queueAcquire)

theorem State.memOk.finishDest {d : VSpec} (ok : s.memOk) : (s.finishDest d).memOk := by
  unfold State.finishDest
  dsimp only
  split
  · refine .ite ?_ ?_
    · refine State.memOk.sync ?_
      refine State.memOk.queueRelease ?_
      exact ok
    · refine State.memOk.sync ?_
      refine State.memOk.queueRelease ?_
      exact ok
  · refine .ite ?_ ?_
    · exact ok
    · exact ok

theorem State.memOk.readied {srcs : List VRead} (ok : s.memOk) : (s.readied srcs).memOk :=
  (ok.foldl fun _ _ hu => hu.reshuffle).wakeGroups

theorem State.memOk.skipGroups {m : VMask} {e : Nat} (ok : s.memOk) : (s.skipGroups m e).memOk := by
  unfold State.skipGroups
  dsimp only
  split
  · exact ok
  · exact .ite ok ok

theorem State.memOk.vecDoneOf {n unit : Nat} {srcs : List VRead} {dst : Option (VSpec × Nat)} {m : VMask}
    (ok : s.memOk) : (s.vecDoneOf n unit srcs dst m).memOk := by
  unfold State.vecDoneOf
  dsimp only
  split
  · exact ok.skipGroups.pipeEnd.popQueues.finishDest
  · exact ok.skipGroups.pipeEnd.popQueues

theorem State.memOk.vecStop {n unit e : Nat} {m : VMask} {trap : Bool} (ok : s.memOk) :
    (s.vecStop n unit e m trap).memOk :=
  ok.skipGroups.pipeBegin

theorem State.memOk.vectorOver {els : State → Nat} {unit : Nat} {srcs : List VRead} {dst : Option (VSpec × Nat)}
    {bad : Bool} {m : VMask} {body : State → Eff} (ok : s.memOk)
    (hbody : ∀ (u : State), u.memOk → (body u).memOk) : (vectorOver els s unit srcs dst bad m body).memOk := by
  unfold Machine.vectorOver
  split
  · exact ok
  · split
    · exact ok
    · split
      · exact ok
      · split
        next e3 => exact ((hbody _ ok.readied).of_eq e3).vecDoneOf
        next e3 => exact ((hbody _ ok.readied).of_eq e3).vecStop
        next e3 => exact ((hbody _ ok.readied).of_eq e3).vecStop
        · exact hbody _ ok.readied

theorem State.memOk.vectorEff {unit : Nat} {srcs : List VRead} {dst : Option (VSpec × Nat)} {bad : Bool}
    {m : VMask} {body : State → Eff} (ok : s.memOk) (hbody : ∀ (u : State), u.memOk → (body u).memOk) :
    (vectorEff s unit srcs dst bad m body).memOk :=
  ok.vectorOver fun _ hu => hbody _ hu

theorem State.memOk.frame {act : Nat → Bool} {op : State → Nat → State × ERes} {ew : Nat} {zero : Bool}
    {n m : Nat} {k : Nat} (ok : s.memOk) (hop : ∀ (u : State) (i : Nat), u.memOk → (op u i).1.memOk) :
    (frame act op ew zero n m s k).s.memOk := by
  induction n generalizing m s k with
  | zero => exact ok
  | succ n ih =>
    unfold Machine.frame
    split
    · exact ok
    · split
      · split
        next e =>
          have hu := (hop _ _ ok).fst e
          dsimp only
          split
          · exact hu.orFlags
          · exact ih hu.orFlags
        next e => exact ih ((hop _ _ ok).fst e)
        next e => exact (hop _ _ ok).fst e
      · exact ih ok

theorem State.memOk.runFrame {m : VMask} {ew : Nat} {zero : Bool} {old : Nat} {op : State → Nat → State × ERes}
    (ok : s.memOk) (hop : ∀ (u : State) (i : Nat), u.memOk → (op u i).1.memOk) :
    (s.runFrame m ew zero old op).s.memOk :=
  ok.frame fun _ _ hu => hop _ _ hu

theorem State.memOk.eff {o : FOut} {start : Nat} {put : State → Nat → State} {tail : Nat → Nat} (ho : o.s.memOk)
    (hput : ∀ (u : State) (i : Nat), u.memOk → (put u i).memOk) : (o.eff start put tail).memOk := by
  unfold FOut.eff
  split
  · exact hput _ _ ho
  · exact State.memOk.setEst (.ite (hput _ _ ho) ho)
  · exact State.memOk.setEst (.ite (hput _ _ ho) ho)

theorem State.memOk.elementwise {vd : VSpec} {m : VMask} {op : State → Nat → State × ERes} (ok : s.memOk)
    (hop : ∀ (u : State) (i : Nat), u.memOk → (op u i).1.memOk) : (s.elementwise vd m op).memOk := by
  unfold State.elementwise
  exact (ok.runFrame fun _ _ hu => hop _ _ hu).eff fun _ _ hu => hu.setGroup

theorem State.memOk.maskwise {md : BitVec 3} {m : VMask} {op : State → Nat → State × ERes} (ok : s.memOk)
    (hop : ∀ (u : State) (i : Nat), u.memOk → (op u i).1.memOk) : (s.maskwise md m op).memOk := by
  unfold State.maskwise
  exact (ok.runFrame fun _ _ hu => hop _ _ hu).eff fun _ _ hu => hu

/-! ### Vector arithmetic -/

theorem State.memOk.ewEff {unit : Nat} {vd : VSpec} {srcs : List VRead} {bad rule : Bool} {m : VMask}
    {op : State → Nat → ERes} (ok : s.memOk) : (ewEff s unit vd srcs bad rule m op).memOk :=
  ok.vectorEff fun _ hu => hu.elementwise fun _ _ hu1 => hu1

theorem State.memOk.binEff {unit : Nat} {vd va : VSpec} {b : VSrc} {m : VMask} {fi : Int → Int → Int}
    {fx : Nat → Exact → Exact → Exact × Nat} (ok : s.memOk) : (binEff s unit vd va b m fi fx).memOk :=
  ok.ewEff

theorem State.memOk.bitEff {vd va : VSpec} {b : VSrc} {m : VMask} {f : VT → Nat → Nat → Nat} (ok : s.memOk) :
    (bitEff s vd va b m f).memOk :=
  ok.ewEff

theorem State.memOk.unEff {unit : Nat} {vd va : VSpec} {m : VMask} {i : Bool} {fi : Int → Int}
    {fx : Exact → Exact × Nat} (ok : s.memOk) : (unEff s unit vd va m i fi fx).memOk :=
  ok.ewEff

theorem State.memOk.effVcvtSb {vd va : VSpec} {st : BitVec 7} {g : Reg} {m : VMask} (ok : s.memOk) :
    (effVcvtSb vd va st g m s).memOk := by
  refine State.memOk.vectorEff ok fun u hu => .ite hu.orFlags ?_
  exact State.memOk.setEst (.setGroup (.setCur hu.orFlags))

theorem State.memOk.fmaEff {vd va : VSpec} {b : VSrc} {m : VMask} {np nd : Bool} (ok : s.memOk) :
    (fmaEff s vd va b m np nd).memOk :=
  ok.ewEff

theorem State.memOk.divEff2 {vd va : VSpec} {b : VSrc} {m : VMask} {rem f : Bool} (ok : s.memOk) :
    (divEff2 s vd va b m rem f).memOk :=
  ok.ewEff

theorem State.memOk.compactEff {m : Bool} {f : VMask → State → Eff} (ok : s.memOk)
    (hf : ∀ (x : VMask) (u : State), u.memOk → (f x u).memOk) : (compactEff s m f).memOk := by
  unfold Machine.compactEff
  split
  · exact ok
  · exact .ite ok (hf _ _ ok)

/-! ### Vector loads and stores -/

theorem State.memOk.loadElemBy {read : State → Nat → State × Except Nat (List Byte)} {t : VT} {addr : AddrFn}
    {e : Nat} (ok : s.memOk) (hread : ∀ (u : State) (i : Nat), u.memOk → (read u i).1.memOk) :
    (loadElemBy read t addr s e).1.memOk := by
  unfold Machine.loadElemBy
  dsimp only
  split
  · exact ok
  · split
    · exact ok
    · split
      next e3 => exact (hread _ _ ok).fst e3
      next e3 => exact (hread _ _ ok).fst e3

theorem State.memOk.loadElem {t : VT} {addr : AddrFn} {e : Nat} (ok : s.memOk) : (loadElem t addr s e).1.memOk :=
  ok.loadElemBy fun _ _ hu => hu.load

theorem State.memOk.lateElemBy {now : State → Nat → State × ERes} {md : Option Nat} {s0 : State} {late : Bool}
    {vd : VSpec} {t : VT} {addr : AddrFn} {e : Nat} (ok : s.memOk)
    (hnow : ∀ (u : State) (i : Nat), u.memOk → (now u i).1.memOk) :
    (lateElemBy now md s0 late vd t addr s e).1.memOk := by
  unfold Machine.lateElemBy
  dsimp only
  split
  next e1 =>
    refine okIn.some (f := id) ?_ e1
    split
    · exact .ite ok.queueLoad trivial
    · exact trivial
  · exact hnow _ _ ok

theorem State.memOk.lateElem {s0 : State} {late : Bool} {vd : VSpec} {t : VT} {addr : AddrFn} {e : Nat}
    (ok : s.memOk) : (lateElem s0 late vd t addr s e).1.memOk :=
  ok.lateElemBy fun _ _ hu => hu.loadElem

theorem State.memOk.vloadEff {vd : VSpec} {srcs : List VRead} {ok4 : Bool} {m : VMask} {addr : State → AddrFn}
    (ok : s.memOk) : (vloadEff s vd srcs ok4 m addr).memOk :=
  ok.vectorEff fun _ hu => hu.elementwise fun _ _ hu1 => hu1.lateElem

theorem State.memOk.effVldff {vd : VSpec} {a : Reg} {imm : BitVec 16} {m : VMask} (ok : s.memOk) :
    (effVldff vd a imm m s).memOk := by
  refine State.memOk.vectorEff ok ?_
  intro _ hu
  dsimp only
  split
  · refine .ite ?_ ?_
    · refine State.memOk.setGroup ?_
      refine State.memOk.runFrame ?_ fun _ _ hu1 => hu1.lateElemBy fun _ _ hu2 => hu2.loadElemBy fun _ _ hu3 =>
        hu3.drainSlice.loadVia
      exact hu
    · refine State.memOk.eff ?_ fun _ _ hu1 => hu1.setGroup
      refine State.memOk.runFrame ?_ fun _ _ hu1 => hu1.lateElemBy fun _ _ hu2 => hu2.loadElemBy fun _ _ hu3 =>
        hu3.drainSlice.loadVia
      exact hu
  · refine State.memOk.eff ?_ fun _ _ hu1 => hu1.setGroup
    refine State.memOk.runFrame ?_ fun _ _ hu1 => hu1.lateElemBy fun _ _ hu2 => hu2.loadElemBy fun _ _ hu3 =>
      hu3.drainSlice.loadVia
    exact hu

theorem State.memOk.storeElem {t : VT} {data : Nat → Nat} {addr : AddrFn} {e : Nat} (ok : s.memOk) :
    (storeElem t data addr s e).1.memOk := by
  unfold Machine.storeElem
  dsimp only
  split
  · exact ok
  · split
    · exact ok
    · split
      next e3 => exact ok.storeNext.fst e3
      next e3 => exact ok.storeNext.fst e3

theorem State.memOk.markTiles {n : Nat} {full : Table Nat} (ok : s.memOk) : (s.markTiles n full).memOk :=
  .ite ok ok

theorem State.memOk.markWhole {n : Nat} (ok : s.memOk) : (s.markWhole n).memOk :=
  ok.markTiles

theorem State.memOk.markFilled {n start k : Nat} {addr : AddrFn} {bits : Nat → Nat} (ok : s.memOk) :
    (s.markFilled n start k addr bits).memOk :=
  .ite ok.markWhole ok.markTiles

theorem State.memOk.markRange {n a m : Nat} (ok : s.memOk) : (s.markRange n a m).memOk := ok

theorem State.memOk.setCut {b : Bool} (ok : s.memOk) : (s.setCut b).memOk := ok

theorem State.memOk.vstoreEff {vs : VSpec} {srcs : List VRead} {ok4 : Bool} {m : VMask} {addr : State → AddrFn}
    (ok : s.memOk) : (vstoreEff s vs srcs ok4 m addr).memOk := by
  refine ok.vectorEff fun u hu => ?_
  have ho : (u.runFrame m s.vt.ew false 0 (Machine.storeElem s.vt (u.rawAt vs) (addr u))).s.memOk :=
    hu.runFrame fun _ _ hv => hv.storeElem
  dsimp only
  split
  · exact State.memOk.setEst (.ite ho.markFilled ho)
  · exact State.memOk.setEst (.setCut (.ite ho.markFilled ho))
  · exact State.memOk.setEst ho.setCut

theorem State.memOk.saddQueue {t : VT} {id : Nat} {g : SaddGroup} (ok : s.memOk) : (s.saddQueue t id g).memOk := by
  refine State.memOk.foldl ok ?_
  intro _ _ hu
  dsimp only
  split
  · exact hu.noteLeaf
  · exact hu

theorem State.memOk.saddGroup {t : VT} {l : List (Nat × Nat)} (ok : s.memOk) : (s.saddGroup t l).memOk := by
  refine State.memOk.foldl ok ?_
  intro _ _ hu
  split
  · split
    · exact hu.atomicStep
    · exact hu

theorem State.memOk.saddGroups {t : VT} {n : Nat} {x : List SaddGroup} (ok : s.memOk) :
    (s.saddGroups t n x).memOk := by
  induction n generalizing s x with
  | zero => unfold State.saddGroups; exact ok
  | succ n ih =>
    cases x with
    | nil => exact ok
    | cons g gs => exact .ite (ih ok.saddQueue) (ih (.ite ok.saddGroup ok.saddGroup.sync))

theorem State.memOk.saddBirth {n tile : Nat} (ok : s.memOk) : (s.saddBirth n tile).memOk :=
  .ite ok ok.setBirth

theorem State.memOk.effVsadd {vs : VSpec} {a : Reg} {vb : VSpec} {iw : Bool} {sc : BitVec 2} {m : VMask}
    (ok : s.memOk) : (effVsadd vs a vb iw sc m s).memOk := by
  refine State.memOk.vectorEff ok ?_
  intro _ hu
  dsimp only
  split
  · exact ((hu.foldl fun _ _ hu1 => hu1.drainSlice).saddGroups).foldl fun _ _ hu1 => hu1.saddBirth
  · exact .ite (((hu.foldl fun _ _ hu1 => hu1.drainSlice).saddGroups).foldl fun _ _ hu1 => hu1.saddBirth)
      (((hu.foldl fun _ _ hu1 => hu1.drainSlice).saddGroups).foldl fun _ _ hu1 => hu1.saddBirth)

theorem State.memOk.setScale {h i v : Nat} (ok : s.memOk) : (s.setScale h i v).memOk := by
  unfold State.setScale
  dsimp only
  split <;> exact ok

theorem State.memOk.scaleEff {unit : Nat} {f : BitVec 8} {c : Reg} {op : State → Nat → State × ERes}
    (ok : s.memOk) (hop : ∀ (u : State) (i : Nat), u.memOk → (op u i).1.memOk) : (scaleEff s unit f c op).memOk := by
  unfold Machine.scaleEff
  exact ok.vectorOver fun _ hu => (hu.frame fun _ _ hu1 => hop _ _ hu1).eff fun _ _ hu1 => hu1

theorem State.memOk.vlscOp {b8 : Bool} {f : BitVec 8} {a b : Reg} {i : Nat} (ok : s.memOk) :
    (vlscOp b8 f a b s i).1.memOk := by
  unfold Machine.vlscOp
  generalize (if b8 then 1 else 2) = n
  dsimp only
  split
  · exact ok
  · split
    next e =>
      refine okIn.some (f := id) ?_ e
      exact .ite ok.queueLoad trivial
    · split
      next e => exact ok.load.fst e
      next e => exact (ok.load.fst e).setScale

theorem State.memOk.vsscOp {b8 : Bool} {f : BitVec 8} {a b : Reg} {i : Nat} (ok : s.memOk) :
    (vsscOp b8 f a b s i).1.memOk := by
  unfold Machine.vsscOp
  dsimp only
  split
  · split
    · exact ok
    · split
      next e2 => exact ok.storeNext.fst e2
      next e2 => exact ok.storeNext.fst e2
  · split
    · exact ok
    · split
      next e2 => exact ok.storeNext.fst e2
      next e2 => exact ok.storeNext.fst e2

theorem State.memOk.vldregEff {vd : VSpec} {a : Reg} {imm : BitVec 16} (ok : s.memOk) :
    (vldregEff s vd a imm).memOk := by
  unfold Machine.vldregEff
  exact ok.vectorOver fun _ hu => .ite hu ((hu.frame fun _ _ hu1 => hu1.lateElem).eff fun _ _ hu1 => hu1)

theorem State.memOk.vstregEff {vs : VSpec} {a : Reg} {imm : BitVec 16} (ok : s.memOk) :
    (vstregEff s vs a imm).memOk := by
  unfold Machine.vstregEff
  dsimp only
  refine State.memOk.vectorOver ok fun u hu => ?_
  split
  · exact hu
  · refine State.memOk.eff (State.memOk.markRange ?_) fun _ _ hv => hv
    exact hu.frame fun _ _ hv => hv.storeElem

theorem State.memOk.prefEff (ok : s.memOk) : (prefEff s).memOk :=
  .ite ok ok

theorem State.memOk.hzElem {t : VT} {addr : AddrFn} {e : Nat} (ok : s.memOk) : (hzElem t addr s e).1.memOk := by
  unfold Machine.hzElem
  split
  · exact ok
  · split
    · exact ok
    · split
      next u _ _ e3 =>
        have hu : u.memOk := ok.loadElem.fst e3
        split <;> exact hu
      next e3 => exact ok.loadElem.fst e3
      · exact ok.loadElem

theorem State.memOk.effHzld {vd : VSpec} {md : BitVec 3} {a : Reg} {imm : BitVec 16} {m : VMask} (ok : s.memOk) :
    (effHzld vd md a imm m s).memOk := by
  refine State.memOk.vectorEff ok ?_
  intro _ hu
  dsimp only
  split
  · exact (hu.runFrame fun _ _ hu1 => hu1.lateElemBy fun _ _ hu2 => hu2.hzElem).setGroup
  · exact (hu.runFrame fun _ _ hu1 => hu1.lateElemBy fun _ _ hu2 => hu2.hzElem).eff fun _ _ hu1 => hu1.setGroup

theorem State.memOk.hzrenewEff {d a b : Reg} (ok : s.memOk) : (hzrenewEff s d a b).memOk := by
  unfold Machine.hzrenewEff
  dsimp only
  split
  · exact ok
  · split
    · exact ok.drainSlice
    · refine State.memOk.setG ?_
      refine State.memOk.foldl_fst ok.drainSlice ?_
      intro _ _ hu
      split
      · exact hu.setBirth
      · exact hu

theorem State.memOk.hzageEff {d a : Reg} {imm : BitVec 16} (ok : s.memOk) : (hzageEff s d a imm).memOk := by
  unfold Machine.hzageEff
  dsimp only
  split
  · exact ok
  · split
    · exact ok.drainSlice
    · exact ok.drainSlice.setG

theorem State.memOk.hzdropEff {a b : Reg} (ok : s.memOk) : (hzdropEff s a b).memOk := by
  unfold Machine.hzdropEff
  dsimp only
  split
  · exact ok
  · split
    · exact ok.drainSlice
    · exact ok.drainSlice.foldl fun _ _ hu => hu.setBirth

/-! ### Coded streams -/

theorem State.memOk.setZseed {n : Int} (ok : s.memOk) : (s.setZseed n).memOk := ok

theorem State.memOk.putCoded {vd : VSpec} {code bits cnt a b d : Nat} (ok : s.memOk) :
    (s.putCoded vd code bits cnt a b d).memOk :=
  ok.setGroup

theorem State.memOk.zldQueue {s0 : State} {vd : VSpec} {A n : Nat} {vas : List Nat} (ok : s0.memOk) :
    (s0.zldQueue vd A n vas).memOk := by
  refine ok.foldl fun u p hu => ?_
  obtain ⟨va, i⟩ := p
  exact okIn.getD hu.queueLoad hu

theorem State.memOk.effZld {vd : VSpec} {a b c : Reg} (ok : s.memOk) : (effZld vd a b c s).memOk := by
  refine ok.vectorEff fun u hu => .ite hu.zldQueue.putCoded ?_
  have hd : (if min (u.g b).toNat u.vlb = 0 then u else u.drainSlice u.turn group0).memOk := .ite hu hu.drainSlice
  dsimp only
  split
  · exact hd
  · refine State.memOk.putCoded (hd.foldl_fst fun q va hq => ?_)
    split
    next e => exact hq.load.fst e
    next e => exact hq.load.fst e

theorem State.memOk.effZst {vs : VSpec} {a b c : Reg} (ok : s.memOk) : (effZst vs a b c s).memOk := by
  refine State.memOk.vectorEff ok ?_
  intro _ hu
  dsimp only
  split
  · exact hu
  · exact (hu.foldl fun _ _ hu1 => hu1.storeNext).markWhole

theorem State.memOk.zArith {vd va : VSpec} {b : VSrc} {bad : Bool} {f : Int → Int → Int} (ok : s.memOk) :
    (zArith s vd va b bad f).memOk := by
  refine State.memOk.vectorEff ok ?_
  intro _ hu
  dsimp only
  split
  · exact hu
  · exact hu.putCoded

theorem State.memOk.zdecEff {vd va : VSpec} {real : Bool} (ok : s.memOk) : (zdecEff s vd va real).memOk := by
  refine ok.vectorEff fun u hu => ?_
  dsimp only
  split
  · exact hu
  · refine .ite hu.orFlags ?_
    exact State.memOk.ite hu.orFlags.putCoded.setZseed hu.orFlags.putCoded

theorem State.memOk.effZscan {vd va : VSpec} (ok : s.memOk) : (effZscan vd va s).memOk := by
  refine State.memOk.vectorEff ok ?_
  intro _ hu
  dsimp only
  split
  · exact hu
  · exact hu.putCoded

theorem State.memOk.effZcnt {d : Reg} {va : VSpec} (ok : s.memOk) : (effZcnt d va s).memOk := by
  refine State.memOk.vectorEff ok ?_
  intro _ hu
  dsimp only
  split
  · exact hu
  · exact hu.setG

theorem State.memOk.zencEff {vd va : VSpec} {real : Bool} (ok : s.memOk) : (zencEff s vd va real).memOk := by
  refine ok.vectorEff fun u hu => .ite hu.orFlags ?_
  exact State.memOk.ite hu.orFlags.putCoded.setZseed hu.orFlags.putCoded

/-! ### The copy engine -/

theorem State.memOk.copyRead {c : CopyCmd} {off : Int} {n : Nat} (ok : s.memOk) : (s.copyRead c off n).1.memOk := by
  unfold State.copyRead
  dsimp only
  split
  · exact ok
  · split
    · exact ok
    · exact ok.noteLeaf

theorem State.memOk.copyGet {c : CopyCmd} {bit : Int} {bits : Nat} (ok : s.memOk) :
    (s.copyGet c bit bits).1.memOk := by
  unfold State.copyGet
  split
  next e =>
    have hu := State.memOk.fst (State.memOk.foldl_fst ok ?_) e
    · split
      · exact hu
      · exact hu
    · intro q b hq
      dsimp only
      split
      · exact hq
      next hq =>
        split
        next e1 => exact State.memOk.copyRead hq |>.fst e1
        next e1 => exact State.memOk.copyRead hq |>.fst e1

theorem State.memOk.copyPut {c : CopyCmd} {bit : Int} {bits v : Nat} (ok : s.memOk) :
    (s.copyPut c bit bits v).1.memOk := by
  unfold State.copyPut
  dsimp only
  split
  · exact ok
  · refine State.memOk.foldl_fst ok ?_
    intro _ _ hu
    split
    · split
      · exact hu.noteLeaf.writeT
      · exact hu.noteLeaf
    · exact hu

theorem State.memOk.copyFetch {c : CopyCmd} {k : Nat} (ok : s.memOk) : (s.copyFetch c k).1.memOk := by
  unfold State.copyFetch
  dsimp only
  split
  · exact ok
  · generalize hr : (if blkOp c.block = 3 then _ else _ : State × Except CopyFail Int) = r
    have hr : r.1.memOk := by
      rw [← hr]
      split
      · split
        · exact ok
        · split
          · exact ok
          · split
            · exact ok
            · split
              · exact ok
              · exact ok.noteLeaf
      · exact ok
    generalize (if blkOp c.block = 3 then _ else _ : Int) = s0
    split
    · exact hr
    · split
      · exact hr
      · split
        next e => exact (State.memOk.copyGet hr).fst e
        next e => exact (State.memOk.copyGet hr).fst e

theorem State.memOk.copyFail {h : Nat} {n : Fin 4} {err : Nat} {addr : Word} (ok : s.memOk) :
    (s.copyFail h n err addr).memOk :=
  ok.copyStop

theorem State.memOk.copyFill {h : Nat} {n : Fin 4} {c : CopyCmd} {tile : Nat} (ok : s.memOk) :
    (s.copyFill h n c tile).memOk := by
  unfold State.copyFill
  dsimp only
  split
  · exact ok.setBirth
  · split <;> exact ok

theorem State.memOk.copyStep {h : Nat} {n : Fin 4} (ok : s.memOk) : (s.copyStep h n).memOk := by
  unfold State.copyStep
  dsimp only
  split
  · exact ok
  · split
    · exact ok
    · split
      next e2 => exact (ok.copyFetch.fst e2).copyFail
      next u _ _ _ e2 =>
        have hu : u.memOk := ok.copyFetch.fst e2
        split
        next e3 => exact (hu.copyPut.fst e3).copyFail
        next u1 _ e3 =>
          have hu1 : u1.memOk := hu.copyPut.fst e3
          exact hu1.foldl fun _ _ hu2 => hu2.copyFill

theorem State.memOk.copySteps {h : Nat} {n : Fin 4} {m : Nat} (ok : s.memOk) : (s.copySteps h n m).memOk := by
  induction m generalizing s with
  | zero => exact ok
  | succ m ih => exact ih ok.copyStep

theorem State.memOk.copyFinish {h : Nat} {n : Fin 4} (ok : s.memOk) : (s.copyFinish h n).memOk := by
  unfold State.copyFinish
  dsimp only
  split
  · exact ok
  · exact .ite ok (.ite ok.copyFlush (.ite ok.copyFlush (.ite ok.copyFlush.flipPhase.sync ok.copyFlush)))

theorem State.memOk.copyComplete {h : Nat} {n : Fin 4} (ok : s.memOk) : (s.copyComplete h n).memOk := by
  unfold State.copyComplete
  split
  · exact ok
  · exact .ite ok.copySteps.copyFinish ok

theorem State.memOk.copyAdvance {cl : Nat} (ok : s.memOk) : (s.copyAdvance cl).memOk := by
  refine State.memOk.foldl ok ?_
  intro _ _ hu
  dsimp only
  split
  · exact hu.copySteps.copyFlushN
  · exact hu

theorem State.memOk.copyAccept {h : Nat} {n : Fin 4} {w : List Word} (ok : s.memOk) :
    (s.copyAccept h n w).1.memOk := by
  refine .ite ?_ ?_
  · refine State.memOk.copyFinish ?_
    exact ok
  · exact ok

theorem State.memOk.cpyEff {d a : Reg} {n : BitVec 5} (ok : s.memOk) : (cpyEff s d a n).memOk := by
  unfold Machine.cpyEff
  refine .ite ok (.ite ok ?_)
  split
  next e => exact (ok.load.fst e).raiseEff
  next u bs e =>
    have hu : u.memOk := ok.load.fst e
    refine .ite hu ?_
    dsimp only
    split
    · exact hu
    · exact hu
    · refine .ite hu ?_
      exact State.memOk.setG (.copyAccept (.drain hu.copyAdvance))

theorem State.memOk.copyAcquire {status : Word} (ok : s.memOk) : (s.copyAcquire status).memOk :=
  .ite ok.drain ok

theorem State.memOk.cwaitEff {i : Instr} {d a : Reg} {n : BitVec 5} (ok : s.memOk) : (cwaitEff s i d a n).memOk := by
  unfold Machine.cwaitEff
  dsimp only
  split
  · exact .ite ok.copyAcquire.setG (.ite ok.setG ok)
  · split
    · split
      · split
        · exact ok.setG
        · split
          · exact ok.copyAcquire.setG
          · exact .ite ok.setG ok
      · split
        · exact ok.setG
        · split
          · exact ok.copyAcquire.setG
          · exact .ite ok.setG ok
    · exact .ite ok.setG ok

theorem State.memOk.cstatEff {d : Reg} {w n : BitVec 5} (ok : s.memOk) : (cstatEff s d w n).memOk :=
  .ite ok.copyAdvance.copyAcquire.setG (.ite ok.copyAdvance.setG ok.copyAdvance.setG)

theorem State.memOk.ccanEff {d : Reg} {n : BitVec 5} (ok : s.memOk) : (ccanEff s d n).memOk :=
  .ite ok ok.copyAdvance.copyCancel.setG

/-! ### State registers and trap instructions -/

theorem State.memOk.writeReg {n : Nat} {v : Word} (ok : s.memOk) : okIn id (s.writeReg n v) := by
  unfold State.writeReg
  dsimp only
  split
  case h_5 =>
    split
    · cases s.cur.vec.writeTags v.toNat (declOf (s.declIn s.turn)) with
      | none => trivial
      | some u => exact ok
    · trivial
  all_goals repeat' split
  all_goals simp only [okIn]
  all_goals exact ok

theorem State.memOk.sgetEff {d : Reg} {n : Nat} (ok : s.memOk) : (sgetEff s d n).memOk := by
  unfold Machine.sgetEff
  split
  · exact ok
  · split
    · exact ok.setG
    · exact ok

theorem State.memOk.ssetEff {n : Nat} {v : Word} (ok : s.memOk) : (ssetEff s n v).memOk := by
  unfold Machine.ssetEff
  split
  · exact ok
  · split
    next e1 => exact ok.writeReg.some e1
    · exact ok

theorem State.memOk.sswapEff {d : Reg} {n : Nat} {v : Word} (ok : s.memOk) : (sswapEff s d n v).memOk := by
  unfold Machine.sswapEff
  split
  · exact ok
  · split
    next e2 => exact (ok.writeReg.some e2).setG
    · exact ok

theorem State.memOk.idleEff (ok : s.memOk) : (idleEff s).memOk := by
  refine State.memOk.traceStop ?_
  unfold State.setCur
  unfold State.setHart
  dsimp only
  split
  · split <;> exact .ite ok.finish.charge ok.finish
  · exact ok.finish

theorem State.memOk.partialOut (ok : s.memOk) : okIn id s.partialOut := by
  unfold State.partialOut
  unfold Option.map
  dsimp only
  split
  next u e =>
    have hu : u.memOk := ok.drain.finish.writeImage.some e
    refine State.memOk.charge ?_
    exact hu
  · exact trivial

theorem State.memOk.trapYldEff (ok : s.memOk) : (trapYldEff s).memOk := by
  unfold Machine.trapYldEff
  dsimp only
  split
  · exact ok
  · split
    · exact ok
    next u e1 =>
      have hu : u.memOk := ok.partialOut.some e1
      refine State.memOk.halt ?_
      refine State.memOk.noteImage ?_
      split
      · exact hu.addChain
      · exact hu

theorem State.memOk.trapFwdEff (ok : s.memOk) : (trapFwdEff s).memOk := by
  unfold Machine.trapFwdEff
  dsimp only
  split
  · exact ok
  · split
    · exact ok
    next u e1 =>
      have hu : u.memOk := ok.partialOut.some e1
      refine State.memOk.stopPartner ?_
      split
      · exact hu.noteImage.halt
      · exact hu.noteImage.halt.deliver

theorem State.memOk.rcbNote {va : Nat} (ok : s.memOk) : (s.rcbNote va).memOk := by
  unfold State.rcbNote
  split
  · exact ok.noteLeaf
  · exact ok

theorem State.memOk.trapRerunEff {d a : Reg} (ok : s.memOk) : (trapRerunEff s d a).memOk := by
  unfold Machine.trapRerunEff
  dsimp only
  split
  · refine State.memOk.setG ?_
    exact ok
  · split
    · refine State.memOk.setG ?_
      refine State.memOk.rcbNote ?_
      exact ok
    · refine State.memOk.setG ?_
      refine .ite ?_ ?_
      · refine State.memOk.releaseTask ?_
        refine State.memOk.rcbNote ?_
        exact ok
      · refine State.memOk.joinRerun ?_
        refine State.memOk.releaseTask ?_
        refine State.memOk.rcbNote ?_
        exact ok

theorem State.memOk.trapDisposeEff {d a : Reg} (ok : s.memOk) : (trapDisposeEff s d a).memOk := by
  unfold Machine.trapDisposeEff
  split
  · exact ok.setG
  · dsimp only
    split
    · exact ok.rcbNote.setG
    · exact .setG (.setTasks ok.rcbNote.releaseTask.rcbStatus)

theorem State.memOk.tretEff (ok : s.memOk) : (tretEff s).memOk :=
  .ite ok (.ite ok ok.finish)

theorem State.memOk.deliverOrphan {rcb : Nat} {t : Task} (ok : s.memOk) : (s.deliverOrphan rcb t).memOk :=
  ok.deliver

theorem State.memOk.oddResume {rcb : Nat} {t : Task} (ok : s.memOk) : (s.oddResume rcb t).1.memOk := by
  refine State.memOk.foldl_fst ok ?_
  intro _ _ hu
  split
  · split
    · exact hu
    · split
      next e1 => exact hu.readImage.some e1
      · exact hu

theorem State.memOk.tretTaskEff {d a : Reg} (ok : s.memOk) : (tretTaskEff s d a).memOk := by
  unfold Machine.tretTaskEff
  dsimp only
  split
  · refine State.memOk.setG ?_
    exact ok
  · split
    · refine State.memOk.setG ?_
      refine State.memOk.rcbNote ?_
      exact ok
    · split
      · refine State.memOk.setG ?_
        refine State.memOk.deliverOrphan ?_
        refine State.memOk.rcbNote ?_
        exact ok
      · split
        · refine State.memOk.setG ?_
          refine State.memOk.rcbNote ?_
          exact ok
        · split
          next u fst _ e4 =>
            have hu : u.memOk := ok.rcbNote.drain.oddResume.fst e4
            exact hu
          next u e4 =>
            have hu : u.memOk := ok.rcbNote.drain.oddResume.fst e4
            refine State.memOk.setG ?_
            exact hu

theorem State.memOk.spawnEff {d a : Reg} (ok : s.memOk) : (spawnEff s d a).memOk := by
  unfold Machine.spawnEff
  dsimp only
  split
  · exact ok
  · split
    · exact ok.drain.setG
    · exact ok.drain.rcbNote.enqueue.sync.setG

theorem State.memOk.yieldEff {d : Reg} (ok : s.memOk) : (yieldEff s d).memOk := by
  unfold Machine.yieldEff
  dsimp only
  split
  · refine State.memOk.setG ?_
    exact ok
  · refine .ite ?_ ?_
    · refine State.memOk.foldl ?_ fun _ _ hu => hu.requestPre
      refine State.memOk.dropPreloads ?_
      refine State.memOk.setG ?_
      exact ok
    · refine State.memOk.setG ?_
      exact ok

/-! ### The matrix unit -/

theorem State.memOk.addMflags {rcb h fl : Nat} (ok : s.memOk) : (s.addMflags rcb h fl).memOk := by
  unfold State.addMflags
  dsimp only
  split
  · exact ok
  · split
    · split
      · exact ok
      · split <;> exact ok
    · split
      · exact ok
      · split <;> exact ok
    · split
      · exact ok
      · split <;> exact ok

theorem State.memOk.landOne {cl : Nat} {t : Fin 4} (ok : s.memOk) : (s.landOne cl t).memOk := by
  unfold State.landOne
  dsimp only
  split
  · exact ok
  · refine State.memOk.addMflags ?_
    exact ok

theorem State.memOk.mxEff {bad : Bool} {rows : Nat} {body : State → Eff} (ok : s.memOk)
    (hbody : ∀ (u : State), u.memOk → (body u).memOk) : (mxEff s bad rows body).memOk := by
  unfold Machine.mxEff
  split
  · exact ok
  · exact .ite ok (.ite ok (hbody _ ok))

theorem State.memOk.mxattachEff {d a : Reg} (ok : s.memOk) : (mxattachEff s d a).memOk := by
  unfold Machine.mxattachEff
  dsimp only
  refine State.memOk.mxEff ok fun _ hu => ?_
  exact State.memOk.ite (.setG (hu.foldl fun _ _ hv => hv)) (.dirtyM (.setG (hu.foldl fun _ _ hv => hv)))

theorem State.memOk.mxdetachEff {rows : BitVec 4} (ok : s.memOk) : (mxdetachEff s rows).memOk :=
  ok.mxEff fun _ hu => State.memOk.ite hu (.dirtyM (hu.foldl fun _ _ hv => hv))

theorem State.memOk.mxfmtEff {a b : BitVec 4} (ok : s.memOk) : (mxfmtEff s a b).memOk :=
  ok.mxEff fun _ hu => hu

theorem State.memOk.loadEach {va n : Nat} (ok : s.memOk) : (s.loadEach va n).1.memOk := by
  induction n generalizing s va with
  | zero => exact ok
  | succ n ih =>
    unfold State.loadEach
    split
    next e => exact ok.load.fst e
    next u _ e =>
      have hu : u.memOk := ok.load.fst e
      split
      next e1 => exact (ih hu).fst e1
      next e1 => exact (ih hu).fst e1

theorem State.memOk.loadBytes {va n : Nat} (ok : s.memOk) : (s.loadBytes va n).1.memOk := by
  unfold State.loadBytes
  split
  · split
    next e1 => exact ok.load.fst e1
    · exact ok.loadEach
  · exact ok.loadEach

theorem State.memOk.readColumn {p : PanelSrc} {n : Nat} (ok : s.memOk) : (s.readColumn p n).1.memOk := by
  unfold State.readColumn
  dsimp only
  split
  · exact ok
  · split
    next e1 => exact ok.loadBytes.fst e1
    next u _ e1 =>
      have hu : u.memOk := ok.loadBytes.fst e1
      split
      next e2 => exact hu.loadBytes.fst e2
      next u1 _ e2 =>
        have hu1 : u1.memOk := hu.loadBytes.fst e2
        split
        · split
          next e4 => exact hu1.loadBytes.fst e4
          next e4 => exact hu1.loadBytes.fst e4
        · exact hu1

theorem State.memOk.readColumns {p : PanelSrc} {n m : Nat} (ok : s.memOk) : (s.readColumns p n m).1.memOk := by
  induction m generalizing s n with
  | zero => exact ok
  | succ m ih =>
    unfold State.readColumns
    split
    next e => exact ok.readColumn.fst e
    next e => exact ih (ok.readColumn.fst e)

theorem State.memOk.loadPanel {t : Fin 4} {p : PanelSrc} {n : Nat} (ok : s.memOk) : (s.loadPanel t p n).1.memOk := by
  unfold State.loadPanel
  split
  next u _ e =>
    have hu : u.memOk := ok.readColumns.fst e
    exact hu
  next u _ _ _ e =>
    have hu : u.memOk := ok.readColumns.fst e
    exact .ite hu hu

theorem State.memOk.mxloadEff {t : BitVec 2} {a b c : Reg} (ok : s.memOk) : (mxloadEff s t a b c).memOk := by
  refine State.memOk.mxEff ok ?_
  intro _ hu
  dsimp only
  split
  · exact hu
  · split
    next u1 _ _ _ e1 =>
      have hu1 : u1.memOk := hu.loadPanel.fst e1
      exact hu1
    next u1 e1 =>
      have hu1 : u1.memOk := hu.loadPanel.fst e1
      exact hu1

theorem State.memOk.productEff {z : Bool} {acc0 : BitVec 6} {s0 : BitVec 8} {va : VSpec} {m : Nat}
    {plan : List (Fin 4 × List Nat)} (ok : s.memOk) : (productEff s z acc0 s0 va m plan).memOk :=
  .ite ok (.ite ok ((ok.foldl fun _ _ hu => hu.reshuffle).foldl fun _ _ hu => hu))

theorem State.memOk.mxVec {bad : Bool} {rows : Nat} {body : State → Eff} (ok : s.memOk)
    (hbody : ∀ (u : State), u.memOk → (body u).memOk) : (mxVec s bad rows body).memOk := by
  unfold Machine.mxVec
  split
  · exact ok
  · exact ok.mxEff fun _ hu => hbody _ hu

theorem State.memOk.mxmulEff {z : Bool} {t : BitVec 2} {acc0 : BitVec 6} {s0 : BitVec 8} {va : VSpec} {b : Reg}
    (ok : s.memOk) : (mxmulEff s z t acc0 s0 va b).memOk :=
  ok.mxVec fun _ hu => hu.productEff

theorem State.memOk.mxgrpEff {z : Bool} {acc0 : BitVec 6} {s0 : BitVec 8} {va : VSpec} {b : Reg} (ok : s.memOk) :
    (mxgrpEff s z acc0 s0 va b).memOk :=
  ok.mxVec fun _ hu => .ite hu hu.productEff

theorem State.memOk.mxzeroEff {rows : BitVec 4} (ok : s.memOk) : (mxzeroEff s rows).memOk :=
  ok.mxEff fun _ hu => .ite hu (State.memOk.ite hu (.dirtyM (hu.foldl fun _ _ hv => hv)))

theorem State.memOk.mxwaitEff {rows : BitVec 4} (ok : s.memOk) : (mxwaitEff s rows).memOk :=
  ok.mxEff fun _ hu => .ite hu hu

theorem State.memOk.drainElem {t : Fin 4} {r0 fmt w : Nat} {addr : AddrFn} {e : Nat} (ok : s.memOk) :
    (drainElem t r0 fmt w addr s e).1.memOk := by
  unfold Machine.drainElem
  dsimp only
  split
  · exact ok
  · split
    · exact ok
    · split
      next e3 => exact ok.storeNext.fst e3
      next e3 => exact (ok.storeNext.fst e3).addMflags

theorem State.memOk.drainEff {t : BitVec 2} {r0 : BitVec 6} {fmt : BitVec 8} {c : Reg} {srcs : List VRead}
    {m : VMask} {addr : State → AddrFn} (ok : s.memOk) : (drainEff s t r0 fmt c srcs m addr).memOk :=
  ok.mxVec fun _ hu => .ite hu (hu.vectorEff fun _ hu1 => State.memOk.eff
    (.ite ((hu1.runFrame fun _ _ hu2 => hu2.drainElem).markFilled) (hu1.runFrame fun _ _ hu2 => hu2.drainElem))
    fun _ _ hu2 => hu2)

theorem State.memOk.saveWords {base : Nat} {f : Nat → Nat} {w n : Nat} (ok : s.memOk) :
    (s.saveWords base f w n).1.memOk := by
  induction n generalizing s w with
  | zero => exact ok
  | succ n ih =>
    unfold State.saveWords
    dsimp only
    split
    next e => exact ok.storeNext.fst e
    next e => exact ih (ok.storeNext.fst e)

theorem State.memOk.mxsaveEff {a : Reg} (ok : s.memOk) : (mxsaveEff s a).memOk := by
  refine State.memOk.mxEff ok ?_
  intro _ hu
  dsimp only
  split
  · exact hu
  · split
    · exact hu
    · split
      next u1 _ _ _ e2 =>
        have hu1 : u1.memOk := hu.saveWords.fst e2
        exact hu1
      next u1 e2 =>
        have hu1 : u1.memOk := hu.saveWords.fst e2
        exact hu1

theorem State.memOk.restWords {base w n : Nat} (ok : s.memOk) : (s.restWords base w n).1.memOk := by
  induction n generalizing s w with
  | zero => exact ok
  | succ n ih =>
    unfold State.restWords
    dsimp only
    split
    next e => exact ok.load.fst e
    next u _ e =>
      have hu : u.memOk := ok.load.fst e
      split
      · exact hu
      · split
        next e1 => exact (ih hu).fst e1
        next e1 => exact (ih hu).fst e1

theorem State.memOk.keepRest {l : List Nat} (ok : s.memOk) : (s.keepRest l).memOk := ok

theorem State.memOk.restUpTo {base n : Nat} (ok : s.memOk) : (s.restUpTo base n).1.memOk := by
  unfold State.restUpTo
  dsimp only
  split
  next u _ e =>
    have hu : u.memOk := ok.restWords.fst e
    exact hu
  next u _ _ _ e =>
    have hu : u.memOk := ok.restWords.fst e
    split
    next u1 _ e1 =>
      have hu1 : u1.memOk := hu.restWords.fst e1
      exact hu1
    next u1 _ e1 =>
      have hu1 : u1.memOk := hu.restWords.fst e1
      exact hu1

theorem State.memOk.reload {W k at_ : Nat} {x : List (Fin 4)} (ok : s.memOk) : (s.reload W k at_ x).1.memOk := by
  induction x generalizing s k with
  | nil => exact ok
  | cons t ts ih =>
    unfold State.reload
    dsimp only
    split
    · exact ih ok
    · split
      next e => exact ok.loadPanel.fst e
      next u e =>
        have hu : u.memOk := ok.loadPanel.fst e
        exact ih hu

theorem State.memOk.mxrestEff {a : Reg} (ok : s.memOk) : (mxrestEff s a).memOk := by
  refine ok.mxEff fun u hu => .ite hu ?_
  dsimp only
  split
  next e => exact State.memOk.setEst (hu.restUpTo.fst e)
  next v head e =>
    have hv : v.memOk := hu.restUpTo.fst e
    split
    · exact hv
    · have hw : ∀ W, (if W ≤ u.est then (v, .ok head) else v.restUpTo (u.g a).toNat W).1.memOk := by
        intro W
        split
        · exact hv
        · exact hv.restUpTo
      split
      next e1 => exact State.memOk.setEst ((hw _).fst e1)
      next w _ e1 =>
        have hw : w.memOk := (hw _).fst e1
        split
        · exact hw
        · split
          next e2 =>
            refine State.memOk.setEst (.keepRest
              (State.memOk.fst (.reload (.ite hw (.dirtyM (.foldl (.setCur hw) ?_)))) e2))
            exact fun _ _ hx => hx
          next e2 =>
            refine State.memOk.setEst (.keepRest
              (State.memOk.fst (.reload (.ite hw (.dirtyM (.foldl (.setCur hw) ?_)))) e2))
            exact fun _ _ hx => hx

/-! ### Bobbin streams -/

theorem State.memOk.setCursor {b : Bool} {c : Cursor} (ok : s.memOk) : (s.setCursor b c).memOk := ok

theorem State.memOk.readCode {ez8 : Bool} {start n m k i : Nat} (ok : s.memOk) :
    (s.readCode ez8 start n m k i).1.memOk := by
  induction n generalizing s m k i with
  | zero => exact ok
  | succ n ih =>
    unfold State.readCode
    dsimp only
    split
    next e => exact ok.loadBytes.fst e
    next u _ e =>
      have hu : u.memOk := ok.loadBytes.fst e
      split
      · exact hu
      · split
        · exact hu
        · exact ih hu

theorem State.memOk.streamElem {c : Cursor} (ok : s.memOk) : (s.streamElem c).1.memOk := by
  unfold State.streamElem
  dsimp only
  split
  · split
    · split
      · exact ok
      · split
        next e3 => exact ok.load.fst e3
        next e3 => exact ok.load.fst e3
    · split
      · exact ok
      · split
        next e3 => exact ok.load.fst e3
        next e3 => exact ok.load.fst e3
  · split
    next e1 => exact ok.readCode.fst e1
    next e2 => exact ok.readCode.fst e2

theorem State.memOk.peek {b : Bool} (ok : s.memOk) : (s.peek b).1.memOk := by
  unfold State.peek
  dsimp only
  split
  · exact ok
  · split
    next e1 => exact ok.streamElem.fst e1
    next u _ _ e1 =>
      have hu : u.memOk := ok.streamElem.fst e1
      split <;> exact hu

theorem State.memOk.advance {b : Bool} {v w : Nat} (ok : s.memOk) : (s.advance b v w).memOk := ok

theorem State.memOk.bbsetEff {strm : Bool} {fmt : BitVec 2} {strict : Bool} {a b c : Reg} (ok : s.memOk) :
    (bbsetEff s strm fmt strict a b c).memOk :=
  .ite ok ok

theorem State.memOk.bbgetEff {d : Reg} {strm : Bool} (ok : s.memOk) : (bbgetEff s d strm).memOk := by
  unfold Machine.bbgetEff
  split
  · exact ok
  · split
    next u e1 =>
      have hu : u.memOk := ok.peek.fst e1
      exact hu.setG
    next u _ _ e1 =>
      have hu : u.memOk := ok.peek.fst e1
      exact hu.setG
    next u _ _ e1 =>
      have hu : u.memOk := ok.peek.fst e1
      exact hu

theorem State.memOk.isectLoop {ew vl : Nat} {lim : Option Nat} {n : Nat} {x : Emit} (ok : s.memOk) :
    (isectLoop ew vl lim n s x).1.memOk := by
  induction n generalizing s x with
  | zero => exact ok
  | succ n ih =>
    unfold Machine.isectLoop
    split
    · exact ok
    · split
      · exact ok
      · split
        next e => exact ok.peek.fst e
        next e => exact ok.peek.fst e
        next e =>
          have hu := ok.peek.fst e
          split
          next e1 => exact hu.peek.fst e1
          next e1 => exact hu.peek.fst e1
          next e1 =>
            have hv := hu.peek.fst e1
            split
            · exact ih hv.advance
            · split
              · exact ih hv.advance
              · exact ih hv.advance.advance

theorem State.memOk.mergeLoop {ew vl : Nat} {lim : Option Nat} {n : Nat} {x : Emit} (ok : s.memOk) :
    (mergeLoop ew vl lim n s x).1.memOk := by
  induction n generalizing s x with
  | zero => exact ok
  | succ n ih =>
    unfold Machine.mergeLoop
    split
    · exact ok
    · split
      · exact ok
      · split
        next e => exact ok.peek.fst e
        next e =>
          have hu := ok.peek.fst e
          split
          next e1 => exact hu.peek.fst e1
          next e1 =>
            have hv := hu.peek.fst e1
            dsimp only
            split
            · split
              · exact ih hv.advance
              · split
                · exact ih hv.advance
                · exact ih hv.advance.advance
            · exact ih hv.advance
            · exact ih hv.advance
            · exact hv

theorem State.memOk.walkLoop {ew vl : Nat} {lim : Option Nat} {n : Nat} {x : Emit} (ok : s.memOk) :
    (walkLoop ew vl lim n s x).1.memOk := by
  induction n generalizing s x with
  | zero => exact ok
  | succ n ih =>
    unfold Machine.walkLoop
    dsimp only
    split
    · exact ok
    · split
      · exact ok
      · split
        · split
          next e => exact ok.peek.fst e
          next e => exact ok.peek.fst e
          next e => exact ih (ok.peek.fst e).advance
        · exact ih ok.setCursor

theorem State.memOk.appendQueue {d : VSpec} (ok : s.memOk) : (s.appendQueue d).memOk := by
  unfold State.appendQueue
  dsimp only
  split
  · split
    · refine State.memOk.sync ?_
      refine State.memOk.queueRelease ?_
      exact ok
    · refine State.memOk.queueRelease ?_
      exact ok
  · exact ok

theorem State.memOk.putEmit {ds : List VSpec} {ks : Option (BitVec 3 × BitVec 3)} {bits : List Nat}
    {ka kb : Nat} (ok : s.memOk) : (s.putEmit ds ks bits ka kb).memOk := by
  unfold State.putEmit
  dsimp only
  split <;> exact ok.foldl fun _ _ hu => hu.setGroup

theorem State.memOk.emitEff {ds : List VSpec} {ks : Option (BitVec 3 × BitVec 3)}
    {loop : Nat → Nat → Option Nat → Nat → State → Emit → State × Emit × EmitEnd} (ok : s.memOk)
    (hloop : ∀ (e i : Nat) (o : Option Nat) (n : Nat) (u : State) (z : Emit), u.memOk → (loop e i o n u z).1.memOk) :
    (emitEff s ds ks loop).memOk := by
  unfold Machine.emitEff
  split
  · exact ok
  · refine .ite ok ?_
    split
    · exact ok
    · have hr : (s.readied []).memOk := ok.readied
      generalize s.readied [] = r at hr ⊢
      dsimp only
      generalize hq : loop _ _ _ _ r _ = q
      have hq : q.1.memOk := hq ▸ hloop _ _ _ _ _ _ hr
      split
      · refine State.memOk.setEst (.ite (.pipeRecord ?_) ?_)
        · exact .ite hq.putEmit hq
        · exact .ite hq.putEmit hq
      · refine State.memOk.setEst (.ite (.pipeRecord ?_) ?_)
        · exact .ite hq.putEmit hq
        · exact .ite hq.putEmit hq
      · have hp : ∀ b i j, (q.1.putEmit ds ks b i j).memOk := fun _ _ _ => hq.putEmit
        have hz : ∀ b i j x y, (List.foldl (fun (s : State) d => s.appendQueue d)
            (State.pipe (((q.1.putEmit ds ks b i j).setCur x).dirtyC.setEst 0) 8 y) (ds.drop 1)).memOk := fun _
              _ _ _ _ =>
          State.memOk.foldl (.pipe (.setEst (.dirtyC (.setCur (hp _ _ _))))) fun _ _ hv => hv.appendQueue
        split
        · exact State.memOk.finishDest (hz _ _ _ _ _)
        · exact hz _ _ _ _ _

/-! ### Signatures -/

theorem State.memOk.readProj {c : Ctx} {base : Nat} {pitch : Int} {b d : Nat} (ok : s.memOk) :
    (s.readProj c base pitch b d).1.memOk := by
  unfold State.readProj
  dsimp only
  split
  · exact ok
  · refine State.memOk.foldl ok ?_
    intro _ _ hu
    split
    · exact hu.noteLeaf
    · exact hu

theorem State.memOk.sgprojEff {h : BitVec 3} {b : BitVec 5} {d1 : BitVec 8} {a gb : Reg} (ok : s.memOk) :
    (sgprojEff s h b d1 a gb).memOk := by
  unfold Machine.sgprojEff
  dsimp only
  split
  · exact ok
  · split
    next u _ _ e1 =>
      have hu : u.memOk := ok.drainSlice.readProj.fst e1
      exact hu
    next u _ e1 =>
      have hu : u.memOk := ok.drainSlice.readProj.fst e1
      exact hu

theorem State.memOk.sgsigEff {d : Reg} {h : BitVec 3} {va : VSpec} (ok : s.memOk) : (sgsigEff s d h va).memOk :=
  ok.vectorOver fun _ hu => hu.setG

theorem State.memOk.pokeBytes {va : Nat} {bs : List Byte} (ok : s.memOk) : (s.pokeBytes va bs).memOk := by
  unfold State.pokeBytes
  split
  · exact ok.noteLeaf.writeT
  · exact ok

theorem State.memOk.linkStep {s t : State} {E tok : Nat} (ok : s.memOk) (e : s.linkStep E tok = .ok t) : t.memOk := by
  revert e
  unfold State.linkStep
  dsimp only
  split
  · exact nofun
  · split
    · split
      · exact nofun
      · rintro ⟨⟩
        exact (State.memOk.ite ok.pokeBytes ok.pokeBytes.pokeBytes).pokeBytes
    · split
      · exact nofun
      · rintro ⟨⟩
        exact ok.pokeBytes.pokeBytes

theorem State.memOk.sgkeyEff {d : Reg} {h : BitVec 3} {va : VSpec} {b c : Reg} (ok : s.memOk) :
    (sgkeyEff s d h va b c).memOk := by
  refine State.memOk.vectorOver ok fun u hu => .ite hu.drainSlice ?_
  dsimp only
  split
  · exact hu.drainSlice
  · split
    · exact State.memOk.setEst (.drain (hu.drainSlice.foldl fun _ _ hv => hv.storeNext))
    next e => exact .setEst (.setG (.sync (.linkStep (.drain (hu.drainSlice.foldl fun _ _ hv => hv.storeNext)) e)))

theorem State.memOk.setGather {z : Gather} (ok : s.memOk) : (s.setGather z).memOk :=
  ok

theorem State.memOk.probeEntry {z : Gather} {j : Nat} (ok : s.memOk) : (s.probeEntry z j).1.memOk := by
  unfold State.probeEntry
  dsimp only
  split
  next e => exact ok.load.fst e
  next e => exact (ok.load.fst e).drain.sync

theorem State.memOk.probeTotal {z : Gather} {j n : Nat} (ok : s.memOk) : (s.probeTotal z j n).1.memOk := by
  induction n generalizing s j with
  | zero => exact ok
  | succ n ih =>
    unfold State.probeTotal
    split
    next e => exact ok.probeEntry.fst e
    next u _ _ e =>
      have hu : u.memOk := ok.probeEntry.fst e
      split
      next e1 => exact (ih hu).fst e1
      next e1 => exact (ih hu).fst e1

theorem State.memOk.segWord {o i : Nat} (ok : s.memOk) : (s.segWord o i).1.memOk := by
  unfold State.segWord
  dsimp only
  split
  next e => exact ok.load.fst e
  next e => exact ok.load.fst e

theorem State.memOk.gatherLoop {limit n : Nat} {x : Gather} {m : Nat} (ok : s.memOk) :
    (gatherLoop limit n s x m).1.memOk := by
  induction n generalizing s x m with
  | zero => exact ok
  | succ n ih =>
    unfold Machine.gatherLoop
    split
    · exact ok
    · dsimp only
      generalize hp : (if x.seg = 0 then _ else _ : State × Except (Nat × Word) Gather) = p
      have hp : p.1.memOk := by
        rw [← hp]
        split
        · split
          next e => exact ok.probeEntry.fst e
          next e => exact ok.probeEntry.fst e
        · exact ok
      split
      · exact hp
      next v1 z1 _ =>
        split
        · exact ih hp
        · split
          next e => exact (State.memOk.segWord hp).fst e
          next v _ e =>
            have hv : v.memOk := (State.memOk.segWord hp).fst e
            generalize hw : (if z1.ext ≤ z1.pos + 1 then _ else _ : State × Except (Nat × Word) Gather) = w
            have hw : w.1.memOk := by
              rw [← hw]
              split
              · exact hv
              · split
                · split
                  next e => exact hv.segWord.fst e
                  next e => exact hv.segWord.fst e
                · exact hv
            split
            · exact hw
            · split
              next e => exact (ih hw).fst e
              next e => exact (ih hw).fst e

theorem State.memOk.gatherStart {h : BitVec 3} {va : VSpec} {p : Nat} (ok : s.memOk) :
    (s.gatherStart h va p).1.memOk := by
  unfold State.gatherStart
  dsimp only
  split
  next e => exact ok.probeTotal.fst e
  next u _ e =>
    have hu : u.memOk := ok.probeTotal.fst e
    split <;> exact hu

theorem State.memOk.sggatherEff {vd : VSpec} {h : BitVec 3} {va : VSpec} {b : Reg} (ok : s.memOk) :
    (sggatherEff s vd h va b).memOk := by
  refine State.memOk.vectorEff ok fun u hu => ?_
  have hg : (if s.gather.go then (u, .ok u.gather) else u.gatherStart h va (s.g b).toNat).1.memOk := by
    split
    · exact hu
    · exact hu.gatherStart
  dsimp only
  split
  next e => exact State.memOk.setEst (hg.fst e)
  next e =>
    split
    next e1 => exact State.memOk.setEst ((hg.fst e).gatherLoop.fst e1)
    next e1 => exact State.memOk.setEst (.dirtyC (.setCur (.setGather (.setGroup ((hg.fst e).gatherLoop.fst e1)))))

theorem State.memOk.clearEntries {dir w n : Nat} (ok : s.memOk) : (s.clearEntries dir w n).1.memOk := by
  induction n generalizing s w with
  | zero => exact ok
  | succ n ih =>
    unfold State.clearEntries
    dsimp only
    split
    next e => exact ok.storeNext.fst e
    next e => exact ih (ok.storeNext.fst e)

theorem State.memOk.sgclrEff {h : BitVec 3} (ok : s.memOk) : (sgclrEff s h).memOk := by
  unfold Machine.sgclrEff
  dsimp only
  split
  · exact ok
  · split
    next u _ _ _ e1 =>
      have hu : u.memOk := ok.clearEntries.fst e1
      exact hu
    next u e1 =>
      have hu : u.memOk := ok.clearEntries.fst e1
      exact hu

/-! ### Vector movements, reductions and masks -/

theorem State.memOk.moveEff {vd : VSpec} {srcs : List VRead} {bad : Bool} {m : VMask}
    {f : State → Nat → Option Nat} (ok : s.memOk) : (moveEff s vd srcs bad m f).memOk :=
  ok.vectorEff fun _ hu => hu.setGroup

theorem State.memOk.reduceEff {vd va vb : VSpec} {m : VMask} {f : Bool} {fi : VT → Nat → Nat → Int}
    {fx : Nat → Exact → Exact → Exact × Nat} (ok : s.memOk) : (reduceEff s vd va vb m f fi fx).memOk :=
  ok.vectorEff fun _ hu => .ite hu.orFlags hu.orFlags.setGroup

theorem State.memOk.kbitEff {md ma mb : BitVec 3} {f : Bool → Bool → Bool} (ok : s.memOk) :
    (kbitEff s md ma mb f).memOk :=
  ok.vectorEff fun _ hu => hu.maskwise fun _ _ hu1 => hu1

theorem State.memOk.leadEff {md ma : BitVec 3} {m : VMask} {more : Nat} (ok : s.memOk) :
    (leadEff s md ma m more).memOk :=
  ok.vectorEff fun _ hu => hu

/-! ### Late loads -/

theorem State.memOk.joinFor {i : Instr} (ok : s.memOk) : (s.joinFor i).memOk :=
  .ite ok.joinLate ok

/-! ### Convoys -/

theorem State.memOk.memberEff {i : Instr} (ok : s.memOk) : (memberEff i s).memOk := by
  unfold Machine.memberEff
  cases i
  case vadd | vsub | vrsb | vmin | vmax | vmul => exact ok.binEff
  case vand | vor | vxor | vandn | vshr | vsar => exact ok.bitEff
  case vshl | vclamp | vcvt | vscl | vsel | vmv | vdup | vid | vmulh => exact ok.ewEff
  case vabs | vneg | vsqrt | vexp2 | vlog2 | vrcp | vrsq | vsinpi | vcospi | vtanh | vsigm | vgelu | vsilu =>
    exact ok.unEff
  case vcmp => exact ok.vectorEff fun _ hu => hu.maskwise fun _ _ hu1 => hu1
  case vfma | vfms | vfnma => exact ok.fmaEff
  case vdiv | vmod => exact ok.divEff2
  case vld | vlds | vldx | vldxC => exact ok.vloadEff
  case vst | vsts | vstx | vstxC => exact ok.vstoreEff
  case vsadd => exact ok.effVsadd
  case vslup | vsldn | vperm | vexpand | viota => exact ok.moveEff
  case vcomp => exact ok.vectorEff fun _ hu => hu.setGroup
  case vsum | vmaxv | vminv | vandv | vorv | vxorv => exact ok.reduceEff
  case kand | kor | kxor | knot => exact ok.kbitEff
  case kpop | kfirst => exact ok.vectorEff fun _ hu => hu.setG
  case ksbf | ksif => exact ok.leadEff
  case kset => exact ok.vectorOver fun _ hu => hu
  case kget => exact ok.vectorOver fun _ hu => hu.setG
  case zld => exact ok.effZld
  case zst => exact ok.effZst
  case zadd | zsub | zmul | zmin | zmax => exact ok.zArith
  case zdec | zdecF => exact ok.zdecEff
  case zenc | zencF => exact ok.zencEff
  case zscan => exact ok.effZscan
  case zcnt => exact ok.effZcnt
  case zsplice => exact ok.vectorEff fun _ hu => hu.putCoded
  all_goals exact ok

theorem State.memOk.runMember {m : Member} {k : Nat} {lim : Option Nat} (ok : s.memOk) :
    (s.runMember m k lim).memOk := by
  refine State.memOk.memberEff ?_
  refine State.memOk.joinFor ?_
  exact ok

theorem State.memOk.showL {m : Member} (ok : s.memOk) : (s.showL m).memOk := by
  unfold State.showL
  split <;> exact ok

theorem State.memOk.keepL {s s0 : State} (ok : s.memOk) : (s.keepL s0).memOk := ok

theorem State.memOk.carry {s t : State} {k k0 : Nat} {p : Member} {x : List Member} (ok : s.memOk)
    (e : carry s k k0 p x = .ok t) : t.memOk := by
  revert e
  induction x generalizing s p with
  | nil => rintro ⟨⟩; exact ok
  | cons m ms ih =>
    unfold Machine.carry
    split
    · rintro ⟨⟩
      exact ok
    · split
      next e => exact ih (Eff.memOk.of_eq ok.showL.runMember e)
      next e => exact ih (Eff.memOk.of_eq ok.showL.runMember e)
      · split
        · exact nofun
        · exact ih ok
      · exact nofun
      · rintro ⟨⟩
        exact ok

theorem State.memOk.stopAt {s0 s : State} {m : Member} {k0 : Nat} {rest : List Member} {n k : Nat}
    {x : Option (Nat × Word)} (ok : s0.memOk) (oks : s.memOk) : (stopAt s0 s m k0 rest n k x).memOk := by
  induction n generalizing s k x with
  | zero => exact ok
  | succ n ih =>
    unfold Machine.stopAt
    split
    next u e =>
      have hu : u.memOk := (State.memOk.ite oks.joinLate oks).carry e
      have hv : (((u.keepL s0).setEcm m.num).setEst k).memOk := .setEst (.setEcm hu.keepL)
      dsimp only
      split
      · exact State.memOk.ite hv.orFlags hv
      · exact hv
    · exact ok
    · split
      next e => exact ih (Eff.memOk.of_eq ok.runMember e)
      next e => exact ih (Eff.memOk.of_eq ok.runMember e)
      · exact ok

theorem State.memOk.runMembers {k0 : Nat} {run : Bool} {lim : Option (Nat × Nat)} {pc : Word} {x : List Member}
    (ok : s.memOk) : (runMembers s k0 run lim pc x).memOk := by
  induction x generalizing s run with
  | nil => exact ok
  | cons m ms ih =>
    have hm : ∀ k l, (s.runMember m k l).memOk := fun _ _ => ok.runMember
    unfold Machine.runMembers
    dsimp only
    split
    next e =>
      have hu := (hm _ _).of_eq e
      exact ih (.ite hu (State.memOk.flushPipes hu))
    next e => exact ok.stopAt ((hm _ _).of_eq e)
    next e => exact ok.stopAt ((hm _ _).of_eq e)
    next e =>
      have hu := (hm _ _).of_eq e
      exact hu
    · exact hm _ _

theorem State.memOk.cvhEff {cnt : BitVec 3} {chain : BitVec 5} {codes : List Nat} {word : Nat} (ok : s.memOk) :
    (cvhEff s cnt chain codes word).memOk := by
  unfold Machine.cvhEff
  dsimp only
  generalize hf : List.foldl _ _ _ = p
  have hf : p.1.memOk := by
    rw [← hf]
    refine State.memOk.foldl_fst ok fun q i hq => ?_
    obtain ⟨u, f | ws⟩ := q
    · exact hq
    · dsimp only
      split
      next e => exact (State.memOk.fetchParcels hq).fst e
      next e => exact (State.memOk.fetchParcels hq).fst e
  obtain ⟨u, ⟨c, a⟩ | ws⟩ := p
  · exact hf
  · dsimp only
    refine .ite hf ?_
    split
    · exact hf
    · refine .ite hf ?_
      have hr : ∀ x k r l w ms, (Machine.runMembers (u.setCur x) k r l w ms).memOk := fun _ _ _ _ _ _ =>
        State.memOk.runMembers (.setCur hf)
      split
      next e => exact State.memOk.flushPipes (.setCur ((hr _ _ _ _ _ _).of_eq e))
      next e => exact State.memOk.flushPipes ((hr _ _ _ _ _ _).of_eq e)
      next e => exact State.memOk.flushPipes ((hr _ _ _ _ _ _).of_eq e)
      next e => exact State.memOk.flushPipes ((hr _ _ _ _ _ _).of_eq e)
      · exact hr _ _ _ _ _ _

/-! ### Dispatch and task events -/

theorem State.memOk.launchWrite (ok : s.memOk) : s.launchWrite.memOk := by
  refine State.memOk.ite ok ?_
  dsimp only
  generalize hq : (if s.arg.w0.toNat % 256 ≠ 0 then _ else _ : State × Nat) = q
  have hq : q.1.memOk := by
    rw [← hq]
    split
    · exact ok.logInput
    · exact ok.logInput.enqueue
  exact State.memOk.ite hq hq

theorem State.memOk.setCode {i : Nat} {x : CodeObj} (ok : s.memOk) : (s.setCode i x).memOk := ok

theorem State.memOk.unmapInst {o : CodeObj} {n : Inst} (ok : s.memOk) : (s.unmapInst o n).memOk :=
  ok.foldl fun _ _ hu => .ite hu.unmapPages hu

theorem State.memOk.needInst {idx vbits : Nat} {addrs : List (Nat × Nat)} (ok : s.memOk) :
    okIn Prod.fst (s.needInst idx vbits addrs) := by
  unfold State.needInst
  dsimp only
  split
  · exact ok
  · split
    · exact trivial
    next i _ =>
      have hu : (match (s.codeAt idx).insts[i]? with | some n => s.unmapInst (s.codeAt idx) n | none => s).memOk := by
        split
        · exact ok.unmapInst
        · exact ok
      split
      · exact trivial
      next e =>
        refine State.memOk.setCode (okIn.some (f := id) ?_ e)
        exact .ite hu.instantiate trivial

theorem State.memOk.reject {rcb : Nat} {t : Task} {ch : List Nat} {reason : Nat} (ok : s.memOk) :
    (s.reject rcb t ch reason).memOk := by
  have hu : (((s.recordReject ch reason).rcbStatus rcb 0 false).rcbStatus rcb 1 false).memOk :=
    ok.recordReject.rcbStatus.rcbStatus
  exact .ite (.joinRerun (.setTasks hu.dropQueue)) (.ite hu hu)

theorem State.memOk.settle {rcb : Nat} {t : Task} {e : EffVals} {k : Nat} {a : EventArg} (ok : s.memOk) :
    okIn id (s.settle rcb t e k a) := by
  unfold State.settle
  dsimp only
  split
  next e1 _ _ =>
    have hu := (ok.needInst.some e1).quiet (cl := k / 4)
    refine .ite trivial ?_
    exact State.memOk.ite (.startTask (.writeTables
      (.setTask (.clearSegs (.rcbStatus (.rcbStatus (.dropQueue (.setCluster hu.setCode))))))))
      (.writeTables (.setTask (.clearSegs (.rcbStatus (.rcbStatus (.dropQueue (.setCluster hu.setCode)))))))
  · exact trivial

theorem State.memOk.tryPlace {s t : State} {die rcb : Nat} {a : EventArg} (ok : s.memOk)
    (e : s.tryPlace die rcb a = .placed t) : t.memOk := by
  revert e
  unfold State.tryPlace
  dsimp only
  split
  · exact nofun
  · split
    · exact nofun
    · split
      · exact nofun
      · split
        · exact nofun
        · split
          · rintro ⟨⟩
            exact ok.reject
          · split
            · exact nofun
            · split
              · exact nofun
              · split
                next e =>
                  rintro ⟨⟩
                  exact ok.settle.some e
                · exact nofun

theorem State.memOk.preemptFor {die p rcb : Nat} (ok : s.memOk) : (s.preemptFor die p rcb).memOk := by
  unfold State.preemptFor
  split
  · exact ok
  · exact ok.dropPreloads.foldl fun _ _ hu => hu.requestPre

theorem State.memOk.scanHeads {die : Nat} {a : EventArg} {x : List Nat} (ok : s.memOk) :
    (s.scanHeads die a x).memOk := by
  induction x generalizing s with
  | nil => exact ok
  | cons p ps ih =>
    unfold State.scanHeads
    split
    · exact ok
    · split
      · exact ih ok
      · split
        next e => exact ok.tryPlace e
        · exact ok
        · exact ih (State.memOk.preemptFor ok)

theorem State.memOk.preloadPlaced {die : Nat} {a : EventArg} (ok : s.memOk) : okIn id (s.preloadPlaced die a) := by
  cases e : s.preloadPlaced die a with
  | none => trivial
  | some t =>
    obtain ⟨p, -, hp⟩ := List.exists_of_findSome?_eq_some e
    revert hp
    dsimp only
    split
    next e1 =>
      rintro ⟨⟩
      exact ok.tryPlace e1
    · exact nofun

theorem State.memOk.placeNext {die : Nat} {a : EventArg} (ok : s.memOk) : (s.placeNext die a).memOk := by
  unfold State.placeNext
  split
  next e => exact ok.preloadPlaced.some e
  · exact ok.scanHeads

theorem State.memOk.execPlacement (ok : s.memOk) : Answer.memOk (execPlacement s) :=
  State.memOk.ite ok.placeNext ok

theorem State.memOk.preloadHead {die p k : Nat} (ok : s.memOk) : (s.preloadHead die p k).memOk := by
  unfold State.preloadHead
  split
  · exact ok
  · split
    · exact ok
    · split
      · exact ok
      · dsimp only
        split
        · exact ok.reject
        · split
          · exact ok
          · exact .setTask (.rcbStatus (.dropQueue ok.quiet))

theorem State.memOk.execPreload (ok : s.memOk) : Answer.memOk (execPreload s) :=
  State.memOk.ite ok.preloadHead ok

theorem State.memOk.imagePieces {c : Ctx} {va n : Nat} (ok : s.memOk) : (s.imagePieces c va n).1.memOk := by
  induction n generalizing s va with
  | zero => exact ok
  | succ n ih =>
    unfold State.imagePieces
    split
    · exact ok
    · split
      · exact ok
      · dsimp only
        split
        next e => exact (ih ok.noteLeaf).fst e
        next e => exact (ih ok.noteLeaf).fst e

theorem State.memOk.delayCopies {cl : Nat} (ok : s.memOk) : (s.delayCopies cl).memOk :=
  ok.foldl fun _ _ hu => .ite hu hu

theorem State.memOk.copySegment {rcb g : Nat} (ok : s.memOk) : (s.copySegment rcb g).memOk := by
  unfold State.copySegment
  split
  · exact ok
  · split
    · exact ok
    · split
      · exact ok.reject
      · split
        next e => exact (ok.imagePieces.fst e).reject
        next e =>
          have hv := ok.imagePieces.fst e
          dsimp only
          split
          · exact .startTask (.setTask (.delayCopies (.writeMem hv)))
          · exact .setTask (.delayCopies (.writeMem hv))

theorem State.memOk.execPreloadTimeout (ok : s.memOk) : (execPreloadTimeout s).memOk := by
  unfold Machine.execPreloadTimeout
  split
  · exact .ite ok.dropPreload ok
  · exact ok

theorem State.memOk.reloadProjs {rcb : Nat} {t : Task} (ok : s.memOk) : (s.reloadProjs rcb t).memOk := by
  unfold State.reloadProjs
  dsimp only
  split
  · exact ok
  · refine State.memOk.foldl ok ?_
    intro _ _ hu
    split
    · exact hu
    · split
      next u1 _ e2 =>
        have hu1 : u1.memOk := hu.readProj.fst e2
        exact hu1
      next u1 _ e2 =>
        have hu1 : u1.memOk := hu.readProj.fst e2
        exact hu1

theorem State.memOk.resumeHart {rcb : Nat} {t : Task} {slot frame kind : Nat} (ok : s.memOk) :
    okIn id (s.resumeHart rcb t slot frame kind) := by
  unfold State.resumeHart
  dsimp only
  split
  · exact trivial
  next e => exact State.memOk.setHart ((State.memOk.restore ok.drain.setHart).some e)

theorem State.memOk.keepEnded {rcb : Nat} {t : Task} (ok : s.memOk) : (s.keepEnded rcb t).memOk :=
  ok.foldl fun _ _ hu => .ite hu.drain hu

theorem State.memOk.resumeAll {rcb : Nat} {t : Task} {x : List (Nat × Nat × Nat)} (ok : s.memOk) :
    okIn id (s.resumeAll rcb t x) := by
  induction x generalizing s with
  | nil => exact ok
  | cons p l ih =>
    unfold State.resumeAll
    split
    next e => exact ih (ok.resumeHart.some e)
    · exact trivial

theorem State.memOk.oddForward {rcb : Nat} {t : Task} {slot pc : Nat} (ok : s.memOk) :
    (s.oddForward rcb t slot pc).memOk := by
  refine State.memOk.deliver ?_
  exact ok

theorem State.memOk.resumeTask {rcb : Nat} {t : Task} (ok : s.memOk) : (s.resumeTask rcb t).memOk := by
  unfold State.resumeTask
  dsimp only
  split
  · exact .ite ok (.deliverOrphan ok.setTask)
  · split
    · split
      next e => exact (ok.oddResume.fst e).oddForward
      next e =>
        have hu := ok.oddResume.fst e
        split
        · exact hu
        · split
          next e1 =>
            refine okIn.some (f := id) (State.memOk.resumeAll (.keepEnded (.reloadProjs ?_))) e1
            exact hu.setCluster.setTask
          · exact hu
    · exact ok

theorem State.memOk.execBoundTaskResume (ok : s.memOk) : (execBoundTaskResume s).memOk := by
  unfold Machine.execBoundTaskResume
  split
  · exact ok.resumeTask
  · exact ok

theorem State.memOk.completeTask {rcb : Nat} {t : Task} (ok : s.memOk) : (s.completeTask rcb t).memOk :=
  .ite ok (State.memOk.clearHarts (.ite ((((ok.foldl fun _ _ hu => hu.drain).charge).addChain).rcbStatus)
    (((((ok.foldl fun _ _ hu => hu.drain).charge).addChain).rcbStatus).setHbm)))

theorem State.memOk.execTaskCompletion (ok : s.memOk) : (execTaskCompletion s).memOk := by
  unfold Machine.execTaskCompletion
  split
  · exact ok.completeTask
  · exact ok

theorem State.memOk.execBudgetOverrun (ok : s.memOk) : (execBudgetOverrun s).memOk := by
  unfold Machine.execBudgetOverrun
  split
  · exact ok
  · split
    · exact ok
    · split
      · exact ok
      · exact ok.addChain.directForward

theorem State.memOk.loadObject (ok : s.memOk) : s.loadObject.memOk := by
  unfold State.loadObject
  dsimp only
  split
  · exact ok
  · split
    · exact ok
    next u e1 =>
      have hu : u.memOk := ok.placeData.some e1
      exact .ite ok (.ite hu.writeTables ok)

theorem State.memOk.unmapObject {idx gen : Nat} (ok : s.memOk) : (s.unmapObject idx gen).memOk :=
  (ok.foldl fun _ _ hu => hu.unmapInst).foldl fun _ _ hu => .ite hu hu.unmapPages

theorem State.memOk.execUnforcedUnload (ok : s.memOk) : Answer.memOk (execUnforcedUnload s) :=
  State.memOk.ite ok ok.unmapObject

theorem State.memOk.unloadBegin {idx : Nat} (ok : s.memOk) : (s.unloadBegin idx).memOk := by
  refine State.memOk.foldl ?_ fun _ _ hu => .ite hu.requestPre hu
  refine State.memOk.foldl ?_ fun _ _ hu => .ite hu.reject (.ite hu hu)
  exact ok

theorem State.memOk.unloadEnd {idx : Nat} (ok : s.memOk) : (s.unloadEnd idx).memOk := by
  refine .ite ?_ ?_
  · exact ok
  · refine State.memOk.unmapObject ?_
    refine State.memOk.foldl ?_ fun _ _ hu => .ite (.ite hu.cancelCopies hu)
      (State.memOk.charge (.ite hu.cancelCopies hu))
    exact ok

theorem State.memOk.execForcedUnload (ok : s.memOk) : Answer.memOk (execForcedUnload s) :=
  State.memOk.ite ok (.unloadEnd (.ite ok ok.unloadBegin))

/-! ### Scalar instructions -/

theorem State.memOk.aluEff {d : Reg} {res : Word} (ok : s.memOk) : (aluEff s d res).memOk :=
  ok.setG

theorem State.memOk.divEff {d : Reg} {y res : Word} (ok : s.memOk) : (divEff s d y res).memOk :=
  .ite ok ok.aluEff

theorem State.memOk.branchEff {c : Bool} {imm : BitVec 13} (ok : s.memOk) : (branchEff s c imm).memOk :=
  .ite ok ok

theorem State.memOk.jumpEff {d : Reg} {t : Word} (ok : s.memOk) : (jumpEff s d t).memOk :=
  .ite ok ok.setG

theorem State.memOk.loadEff {d a : Reg} {imm : BitVec 13} {n : Nat} {signed : Bool} (ok : s.memOk) :
    (loadEff s d a imm n signed).memOk := by
  unfold Machine.loadEff
  dsimp only
  split
  · exact ok
  · split
    · exact ok
    · split
      next u e2 =>
        have hu : u.memOk := ok.queueLoad.some e2
        exact hu
      · split
        next u _ e3 =>
          have hu : u.memOk := ok.load.fst e3
          exact hu.setG
        next u _ e3 =>
          have hu : u.memOk := ok.load.fst e3
          exact hu

theorem State.memOk.storeEff {r a : Reg} {imm : BitVec 13} {n : Nat} (ok : s.memOk) :
    (storeEff s r a imm n).memOk := by
  unfold Machine.storeEff
  dsimp only
  split
  · exact ok
  · split
    · exact ok
    · split
      next u e2 =>
        have hu : u.memOk := ok.storeNext.fst e2
        exact hu
      next u _ e2 =>
        have hu : u.memOk := ok.storeNext.fst e2
        exact hu

/-! ### Queue -/

theorem State.memOk.qsendEff {q : BitVec 2} {a : Reg} (ok : s.memOk) : (qsendEff s q a).memOk := by
  refine .ite ?_ ?_
  · exact ok
  · refine .ite ?_ ?_
    · exact ok
    · refine State.memOk.sync ?_
      refine State.memOk.queueRelease ?_
      exact ok

theorem State.memOk.qrecvEff {d : Reg} {q : BitVec 2} (ok : s.memOk) : (qrecvEff s d q).memOk := by
  unfold Machine.qrecvEff
  split
  · exact ok
  · split
    · exact ok
    · refine State.memOk.setG ?_
      refine State.memOk.sync ?_
      refine State.memOk.queueAcquire ?_
      exact ok

theorem State.memOk.qflagEff {a : Reg} (ok : s.memOk) : (qflagEff s a).memOk := by
  refine .ite ?_ ?_
  · exact ok
  · refine .ite ?_ ?_
    · exact ok
    · refine State.memOk.sync ?_
      refine State.memOk.queueRelease ?_
      exact ok

theorem State.memOk.bqEff {want : Bool} {imm : BitVec 13} (ok : s.memOk) : (bqEff s want imm).memOk := by
  unfold Machine.bqEff
  split
  · exact ok
  · split
    · exact ok
    · refine State.memOk.branchEff ?_
      refine State.memOk.sync ?_
      refine State.memOk.queueAcquire ?_
      exact ok

/-! ### Wakes and time-outs -/

theorem State.memOk.asHart {h : Nat} {f : State → Answer} (ok : s.memOk)
    (hf : ∀ (u : State), u.memOk → (f u).memOk) : (s.asHart h f).memOk := by
  have hu := hf { s with turn := h } ok
  unfold State.asHart
  split
  next t e =>
    have ht : t.memOk := hu.of_eq e
    exact ht
  · exact hu

theorem State.memOk.rerun {i : Instr} (ok : s.memOk) : (rerun i s).memOk := by
  unfold Machine.rerun
  split
  · exact ok.qsendEff.commit
  · exact ok.qrecvEff.commit
  · exact ok.qflagEff.commit
  · exact ok.bqEff.commit
  · exact ok.bqEff.commit
  · exact ok.barEff.commit
  · exact ok.wmonEff.commit
  · exact ok.cpyEff.commit
  · exact ok.cwaitEff.commit
  · exact ok.shsyncEff.commit
  · exact ok.mxloadEff.commit
  · exact ok.mxmulEff.commit
  · exact ok.mxgrpEff.commit
  · exact ok.mxzeroEff.commit
  · exact ok.mxwaitEff.commit
  · exact ok.drainEff.commit
  · exact ok.drainEff.commit
  · exact ok.mxsaveEff.commit
  · exact ok.mxrestEff.commit
  · exact (ok.emitEff fun _ _ _ _ _ _ hu => hu.isectLoop).commit
  · exact (ok.emitEff fun _ _ _ _ _ _ hu => hu.mergeLoop).commit
  · exact (ok.emitEff fun _ _ _ _ _ _ hu => hu.walkLoop).commit
  · exact ok.sgsigEff.commit
  · exact ok.sgkeyEff.commit
  · exact ok.sggatherEff.commit
  · exact ok.effVldff.commit
  · exact ok.vldregEff.commit
  · exact ok.vstregEff.commit
  · exact ok.effHzld.commit
  · exact ok.effVcvtSb.commit
  · exact ok.cvhEff.commit
  · exact ok.memberEff.commit

theorem State.memOk.wake {h : Nat} {kind : WaitRec → Bool} (ok : s.memOk) : (s.wake h kind).memOk := by
  unfold State.wake
  split
  · split
    · exact ok.asHart fun _ hu => hu.rerun
    · exact ok
  · exact ok

theorem State.memOk.stall {h q : Nat} (ok : s.memOk) : (s.stall h q).memOk := by
  refine State.memOk.takeTrap ?_
  exact ok

theorem State.memOk.stallBoth {h q q2 : Nat} (ok : s.memOk) : (s.stallBoth h q q2).memOk := by
  refine .ite ?_ ?_
  · refine State.memOk.stall ?_
    refine State.memOk.stall ?_
    exact ok
  · refine .ite ?_ ?_
    · refine State.memOk.stall ?_
      refine State.memOk.stall ?_
      exact ok
    · refine State.memOk.stall ?_
      refine State.memOk.forwardHart ?_
      exact ok

theorem State.memOk.stallAt {h : Nat} (ok : s.memOk) : (s.stallAt h).memOk := by
  unfold State.stallAt
  split
  · split
    · exact ok.stall
    · split
      · exact ok
      · split
        · exact .ite ok.stallBoth ok
        · exact ok
  · exact ok

theorem State.memOk.copyFault {h : Nat} {n : Fin 4} (ok : s.memOk) : (s.copyFault h n).memOk := by
  unfold State.copyFault
  dsimp only
  split
  · exact ok
  · exact .ite ok.copySteps ok

theorem State.memOk.driveError {h : Nat} {n : Fin 4} (ok : s.memOk) : (s.driveError h n).memOk := by
  unfold State.driveError
  dsimp only
  split
  · exact ok.copyAdvance
  · exact .ite ok.copyAdvance ok.copyAdvance.copyFail

theorem State.memOk.execMissedPromise (ok : s.memOk) : Answer.memOk (execMissedPromise s) :=
  State.memOk.ite (.takeTrap (.setHart (.setHart ok))) ok

theorem State.memOk.execMatrixCommandDone (ok : s.memOk) : Answer.memOk (execMatrixCommandDone s) :=
  State.memOk.ite ok ok.landOne

theorem State.memOk.execHazeTileExpiry (ok : s.memOk) : (execHazeTileExpiry s).memOk := by
  unfold Machine.execHazeTileExpiry
  split
  · exact .ite ok.setBirth ok
  · exact ok

/-! ### EvTrap -/

theorem State.memOk.takePre {h : Nat} (ok : s.memOk) : (s.takePre h).memOk :=
  .ite ok (.ite ok.directSwitch ok.takeTrap)

theorem State.memOk.preRequest (ok : s.memOk) : s.preRequest.memOk :=
  .ite (State.memOk.takePre (.ite ok.requestPre.requestPartner ok))
    (.ite (.ite ok.requestPre.requestPartner ok) (.ite ok.requestPre.requestPartner ok))

theorem State.memOk.deliverNext (ok : s.memOk) : s.deliverNext.memOk := by
  unfold State.deliverNext
  dsimp only
  split
  · exact ok
  · refine State.memOk.toHandler ?_
    exact ok

theorem State.memOk.execSingleStep (ok : s.memOk) : Answer.memOk (execSingleStep s) :=
  State.memOk.ite (.takeTrap ok.setHart) ok

theorem State.memOk.noticeRun {h began : Nat} (ok : s.memOk) : (s.noticeRun h began).memOk :=
  .ite ok ok

theorem State.memOk.takeNotice {h : Nat} (ok : s.memOk) : (s.takeNotice h).memOk := by
  unfold State.takeNotice
  dsimp only
  split
  · exact ok
  · refine .ite ?_ ?_
    · exact ok
    · refine .ite ?_ ?_
      · exact ok
      · refine State.memOk.takeTrap ?_
        exact ok

theorem State.memOk.execThrottleNotice (ok : s.memOk) : Answer.memOk (execThrottleNotice s) :=
  State.memOk.takeNotice (.ite ok.noticeRun ok)

theorem State.memOk.execDebugStop (ok : s.memOk) : Answer.memOk (execDebugStop s) :=
  State.memOk.ite (.takeTrap ok.setHart) ok

theorem State.memOk.trapHere {cause : Nat} {val : Word} (ok : s.memOk) : (s.trapHere cause val).memOk :=
  ok.takeTrap

theorem State.memOk.illegalHere (ok : s.memOk) : s.illegalHere.memOk := by
  unfold State.illegalHere
  split
  next u _ e =>
    have hu : u.memOk := ok.fetchNext.fst e
    exact State.memOk.trapHere (.ite hu hu)
  · exact ok

theorem State.memOk.fetchFaultHere (ok : s.memOk) : s.fetchFaultHere.memOk := by
  unfold State.fetchFaultHere
  split
  next e => exact (ok.fetchNext.fst e).trapHere
  · exact ok

theorem State.memOk.execIllegalInstruction (ok : s.memOk) : (execIllegalInstruction s).memOk := by
  unfold Machine.execIllegalInstruction
  split
  · exact ok.asHart fun _ hu => hu.illegalHere
  · exact ok

theorem State.memOk.execInstructionFetchFault (ok : s.memOk) : (execInstructionFetchFault s).memOk := by
  unfold Machine.execInstructionFetchFault
  split
  · exact ok.asHart fun _ hu => hu.fetchFaultHere
  · exact ok

theorem State.memOk.execResultConfirmation (ok : s.memOk) : Answer.memOk (execResultConfirmation s) :=
  State.memOk.ite ok.setHart ok.performOne

theorem State.memOk.unend {h : Nat} (ok : s.memOk) : (s.unend h).memOk := by
  unfold State.unend
  dsimp only
  split
  · exact ok
  · split <;> exact ok

theorem State.memOk.markSuspect {h group : Nat} {droop : Bool} (ok : s.memOk) :
    (s.markSuspect h group droop).memOk := by
  refine .ite ?_ ?_
  · exact ok
  · refine .ite ?_ ?_
    · exact ok
    · refine State.memOk.takeTrap ?_
      refine State.memOk.unend ?_
      exact ok

theorem State.memOk.execSuspectReexecute (ok : s.memOk) : Answer.memOk (execSuspectReexecute s) :=
  State.memOk.ite (ok.foldl fun _ _ hu => hu.markSuspect) ok.markSuspect

/-! ### Power and boot events -/

theorem State.memOk.requestPoint {full : Bool} (ok : s.memOk) : (s.requestPoint full).memOk :=
  .ite ok ok

theorem State.memOk.releaseHeld (ok : s.memOk) : s.releaseHeld.memOk :=
  .ite ok ok

theorem State.memOk.execRailStepDone (ok : s.memOk) : (execRailStepDone s).memOk := by
  refine State.memOk.ite ok ?_
  split
  · exact ok
  · exact ok
  · exact ok

theorem State.memOk.fullService (ok : s.memOk) : s.fullService.memOk :=
  .ite ok ok

theorem State.memOk.execFrequencySwitchDone (ok : s.memOk) : (execFrequencySwitchDone s).memOk := by
  refine State.memOk.ite ok ?_
  split
  · exact State.memOk.fullService ok
  · exact ok
  · exact ok

theorem State.memOk.execThermalForceClear (ok : s.memOk) : Answer.memOk (execThermalForceClear s) :=
  State.memOk.releaseHeld (s := { s with status := _ }) ok

theorem State.memOk.stopAll (ok : s.memOk) : s.stopAll.memOk :=
  ok.foldl fun _ _ hu => .ite hu.halt hu

theorem State.memOk.failDevice {stage unit cluster : Nat} (ok : s.memOk) : (s.failDevice stage unit cluster).memOk :=
  ok.stopAll

theorem State.memOk.execRailLimit (ok : s.memOk) : Answer.memOk (execRailLimit s) :=
  State.memOk.ite ok ok.failDevice

theorem State.memOk.execFirmwareHeartbeat (ok : s.memOk) : Answer.memOk (execFirmwareHeartbeat s) :=
  State.memOk.releaseHeld (s := { s with status := _, power := _ }) ok

theorem State.memOk.execPowerOnReset : (execPowerOnReset s).memOk := memWf_nil

theorem State.memOk.execBootVerify (ok : s.memOk) : Answer.memOk (execBootVerify s) :=
  State.memOk.ite ok (.ite ok ok.failDevice)

theorem State.memOk.execClusterExtendedPass (ok : s.memOk) : Answer.memOk (execClusterExtendedPass s) := by
  refine State.memOk.ite ok ?_
  dsimp only
  exact State.memOk.ite (.fullService (.requestPoint ok)) ok

theorem State.memOk.execExtendedTestFail (ok : s.memOk) : Answer.memOk (execExtendedTestFail s) :=
  State.memOk.ite ok.failDevice ok

theorem State.memOk.execBootStageFail (ok : s.memOk) : Answer.memOk (execBootStageFail s) :=
  State.memOk.ite ok.failDevice ok

/-! ### Host and link events -/

theorem State.memOk.execHostBar2Write (ok : s.memOk) : Answer.memOk (execHostBar2Write s) :=
  State.memOk.ite (.writeMem ok.logInput) ok

theorem State.memOk.execHostAtomicop (ok : s.memOk) : (execHostAtomicop s).memOk := by
  unfold Machine.execHostAtomicop
  dsimp only
  split
  · split
    · refine State.memOk.setHbm ?_
      refine State.memOk.logInput ?_
      exact ok
    · exact ok
  · exact ok

theorem State.memOk.execHostCompletionTimeout (ok : s.memOk) : Answer.memOk (execHostCompletionTimeout s) :=
  State.memOk.ite ok.takeTrap ok

theorem State.memOk.messageEnd {m : SkeinMsg} {checksum : List Byte} (ok : s.memOk) :
    (s.messageEnd m checksum).memOk := by
  refine .ite ?_ ?_
  · exact ok
  · refine .ite ?_ ?_
    · refine State.memOk.flipPhase ?_
      refine State.memOk.putBacking ?_
      refine State.memOk.logInput ?_
      exact ok
    · refine State.memOk.putBacking ?_
      refine State.memOk.logInput ?_
      exact ok

theorem State.memOk.message (ok : s.memOk) : s.message.memOk := by
  unfold State.message
  dsimp only
  split
  · split
    · refine State.memOk.messageEnd ?_
      exact ok
    · exact ok
  · exact ok
  · refine .ite ?_ ?_
    · refine State.memOk.messageEnd ?_
      exact ok
    · exact ok
  · exact ok

theorem State.memOk.execSkeinMessage (ok : s.memOk) : Answer.memOk (execSkeinMessage s) :=
  State.memOk.ite ok.message ok

theorem State.memOk.window {f : State → State} (ok : s.memOk) (hf : ∀ (u : State), u.memOk → (f u).memOk) :
    (s.window f).memOk :=
  .ite (hf _ ok) ok

theorem State.memOk.lanepartWrite (ok : s.memOk) : s.lanepartWrite.memOk :=
  .ite ok ok

theorem State.memOk.exemptCopies {cl : Nat} (ok : s.memOk) : (s.exemptCopies cl).memOk :=
  ok.foldl fun _ _ hu => .ite hu hu

theorem State.memOk.execVshareWrite (ok : s.memOk) : Answer.memOk (execVshareWrite s) :=
  State.memOk.window ok fun _ hu => .exemptCopies hu.setCluster

theorem State.memOk.execVskewWrite (ok : s.memOk) : Answer.memOk (execVskewWrite s) :=
  State.memOk.window ok fun _ hu => hu.setCluster

theorem State.memOk.traceStart {cl : Nat} (ok : s.memOk) : (s.traceStart cl).memOk :=
  memWf_memClear _ _ _ ok

theorem State.memOk.traceWrite (ok : s.memOk) : s.traceWrite.memOk :=
  .ite ok (.ite ok (.ite (State.memOk.traceStart (.ite ok ok)) (.ite ok ok)))

theorem State.memOk.execShootdownStart (ok : s.memOk) : Answer.memOk (execShootdownStart s) :=
  State.memOk.window ok fun _ hu => hu.setCluster

theorem State.memOk.shootdown {cl : Nat} (ok : s.memOk) : (s.shootdown cl).memOk := by
  unfold State.shootdown
  split
  · exact ok
  · exact .setTlb (.setCluster ok.quiet)

theorem State.memOk.acdataRead (ok : s.memOk) : s.acdataRead.memOk :=
  .ite ok ok

theorem State.memOk.mgmtRead {a : Nat} (ok : s.memOk) : (s.mgmtRead a).memOk :=
  .ite ok (.ite (.ite ok (.ite ok (.setReply (.acdataRead ok.setArg)))) ok)

theorem State.memOk.execAcdataRead (ok : s.memOk) : Answer.memOk (execAcdataRead s) :=
  State.memOk.ite ok.mgmtRead (ok.window fun _ hu => hu.acdataRead)

theorem State.memOk.mgmtWrite {cl : Nat} {r : MgmtReg} {v : Word} (ok : s.memOk) : (s.mgmtWrite cl r v).memOk := by
  unfold State.mgmtWrite
  dsimp only
  split
  · exact ok
  · exact ok
  · exact ok
  · exact ok
  · exact ok
  · exact ok
  · exact ok
  · exact ok
  · exact .ite ok ok
  · exact .ite ok ok
  · exact ok
  · exact ok

theorem State.memOk.execRegisterWrite (ok : s.memOk) : Answer.memOk (execRegisterWrite s) :=
  State.memOk.ite (ok.window fun _ hu => hu.mgmtWrite) ok.mgmtWrite

theorem State.memOk.xlogWrite (ok : s.memOk) : s.xlogWrite.memOk :=
  .ite (.ite ok ok) (.ite ok (.ite (.ite ok ok) (.ite (.ite ok ok) ok)))

/-! ### Choice -/

theorem State.memOk.passTime (ok : s.memOk) : s.passTime.memOk := by
  refine State.memOk.publishLogLate ?_
  refine State.memOk.publishLate ?_
  refine State.memOk.elapse ?_
  exact ok

theorem State.memOk.planFetch (ok : s.memOk) : s.planFetch.2.memOk := by
  unfold State.planFetch
  split
  · exact ok
  · exact ok
  next e => exact ok.fetchNext.fst e

theorem State.memOk.planHart (ok : s.memOk) : s.planHart.2.memOk := by
  unfold State.planHart
  split
  · exact ok
  · split
    · exact ok
    · split
      · exact ok
      · exact ok.planFetch

theorem State.memOk.planFree (ok : s.memOk) : s.planFree.2.memOk := by
  unfold State.planFree
  split
  · exact ok
  · split
    · exact ok
    · split
      · exact ok.planHart
      · split
        · exact ok
        · split
          · exact State.memOk.planHart ok
          · split
            · exact State.memOk.planHart ok
            · exact ok

theorem State.memOk.plan {p : Plan} (ok : s.memOk) (e : s.plan = .ok p) : p.2.memOk := by
  have hu := ok.passTime
  revert e
  unfold State.plan
  dsimp only
  split
  · split
    · exact nofun
    · split
      · rintro ⟨⟩
        exact hu
      · rintro ⟨⟩
        exact hu
  · split
    · exact nofun
    · rintro ⟨⟩
      exact State.memOk.planHart hu
  · split
    · exact nofun
    · rintro ⟨⟩
      exact State.memOk.planHart hu
  · split
    · exact nofun
    · rintro ⟨⟩
      exact State.memOk.planFree hu

theorem State.memOk.inOrder {r : Answer} (ok : s.memOk) (hr : r.memOk) : (s.inOrder r).memOk := by
  unfold State.inOrder
  split
  · split
    · exact ok
    · exact hr
  · exact hr

/-! ### ScalarFloat -/

theorem State.memOk.fround {dbl : Bool} {d : Reg} {r : Exact × Nat} (ok : s.memOk) : (fround s dbl d r).memOk :=
  ok.fpEff

theorem State.memOk.fcmp {d : Reg} {r : Bool × Nat} (ok : s.memOk) : (fcmp s d r).memOk :=
  ok.fpEff

/-! ### VConfig -/

theorem State.memOk.applyDecl (ok : s.memOk) : s.applyDecl.memOk :=
  .ite ok ok

theorem State.memOk.beginStrip {n : Nat} (ok : s.memOk) : (s.beginStrip n).memOk := by
  refine State.memOk.publishCounters ?_
  refine .ite ?_ ?_
  · refine State.memOk.recordPair ?_
    exact ok
  · exact ok

theorem State.memOk.vsetEff {d : Reg} {set : State → State × Nat} (ok : s.memOk)
    (hset : ∀ (u : State), u.memOk → (set u).1.memOk) : (vsetEff s d set).memOk := by
  unfold Machine.vsetEff
  dsimp only
  split
  · exact ok
  · refine .ite ?_ ?_
    · exact ok
    · refine .ite ?_ ?_
      · refine State.memOk.takeTrap ?_
        exact ok
      · refine State.memOk.setG ?_
        refine State.memOk.beginStrip ?_
        exact hset _ (.ite (.ite ok ok) (State.memOk.applyDecl (.ite ok ok)))

theorem State.memOk.vdeclEff {code : BitVec 2} (ok : s.memOk) : (vdeclEff s code).memOk := by
  unfold Machine.vdeclEff
  dsimp only
  split
  · exact ok
  · exact .ite ok ok

theorem State.memOk.vcfgEff {d a : Reg} (ok : s.memOk) : (vcfgEff s d a).memOk := by
  unfold Machine.vcfgEff
  dsimp only
  split
  · exact ok
  · split
    · exact ok
    · refine State.memOk.setG ?_
      exact ok

/-! ### Dispatch -/

theorem State.memOk.exec {i : Instr} (ok : s.memOk) : Answer.memOk (exec i s) := by
  unfold Machine.exec
  cases i
  case add | sub | and | or | xor | andn | orn | shl | shr | sar | rotl | clt | cltu | ceq | mul | mulh |
      mulhu | min | max | minu | maxu | clz | ctz | pop | sext8 | sext16 | sext32 | zext32 | andi | ori |
      xori | clti | shli | shri | sari | addi | lih | pcrel => exact ok.aluEff.commit
  case div | divu | mod | modu => exact ok.divEff.commit
  case ldb | ldbu | ldh | ldhu | ldw | ldwu | ldd => exact ok.loadEff.commit
  case stb | sth | stw | std => exact ok.storeEff.commit
  case beq | bne | blt | bge | bltu | bgeu => exact ok.branchEff.commit
  case jal | jr => exact ok.jumpEff.commit
  case fadd | fsub | fmul | fdiv | fsqrt | fma | fmin | fmax | fcvtSize | fcvtFromSigned | fcvtFromUnsigned =>
    exact ok.fround.commit
  case fceq | fclt | fcle => exact ok.fcmp.commit
  case fcvtToFixed => exact ok.fpEff.commit
  case fclass => exact Eff.memOk.commit ok.setG
  case amoSwap | amoAdd | amoAnd | amoOr | amoXor | amoMin | amoMax | amoMinu | amoMaxu | amoCas =>
    exact ok.amoEff.commit
  case amoAddq => exact ok.addqEff.commit
  case sget => exact ok.sgetEff.commit
  case sset => exact ok.ssetEff.commit
  case sswap => exact ok.sswapEff.commit
  case trap | brkpt | hint => exact Eff.memOk.commit ok
  case trapRerun => exact ok.trapRerunEff.commit
  case trapDispose => exact ok.trapDisposeEff.commit
  case tretTask => exact ok.tretTaskEff.commit
  case qsend => exact ok.qsendEff.commit
  case qrecv => exact ok.qrecvEff.commit
  case qflag => exact ok.qflagEff.commit
  case bqz | bqnz => exact ok.bqEff.commit
  case spawn => exact ok.spawnEff.commit
  case yield => exact ok.yieldEff.commit
  case bar => exact ok.barEff.commit
  case ldAcq => exact ok.ldAcqEff.commit
  case stRel => exact ok.stRelEff.commit
  case wmon => exact ok.wmonEff.commit
  case cpy => exact ok.cpyEff.commit
  case cwait => exact ok.cwaitEff.commit
  case cstat => exact ok.cstatEff.commit
  case ccan => exact ok.ccanEff.commit
  case cvh => exact ok.cvhEff.commit
  case cAdd | cSub | cMul | cMin | cMax => exact Eff.memOk.commit (State.memOk.compactEff ok fun _ _ hu => hu.binEff)
  case cFma => exact Eff.memOk.commit (State.memOk.compactEff ok fun _ _ hu => hu.fmaEff)
  case cAnd | cXor => exact Eff.memOk.commit (State.memOk.compactEff ok fun _ _ hu => hu.bitEff)
  case cExp2 => exact Eff.memOk.commit (State.memOk.compactEff ok fun _ _ hu => hu.unEff)
  case cMv => exact Eff.memOk.commit (State.memOk.compactEff ok fun _ _ hu => hu.ewEff)
  case vadd | vsub | vrsb | vmin | vmax | vmul => exact ok.binEff.commit
  case vand | vor | vxor | vandn | vshr | vsar => exact ok.bitEff.commit
  case vshl | vclamp | vcvt | vscl | vsel | vmv | vdup | vid | vmulh => exact ok.ewEff.commit
  case vabs | vneg | vsqrt | vexp2 | vlog2 | vrcp | vrsq | vsinpi | vcospi | vtanh | vsigm | vgelu | vsilu =>
    exact ok.unEff.commit
  case vcvtSb => exact ok.effVcvtSb.commit
  case vcmp => exact Eff.memOk.commit (State.memOk.vectorEff ok fun _ hu => hu.maskwise fun _ _ hu1 => hu1)
  case vfma | vfms | vfnma => exact ok.fmaEff.commit
  case vdiv | vmod => exact ok.divEff2.commit
  case vld | vlds | vldx | vldxC => exact ok.vloadEff.commit
  case vldff => exact ok.effVldff.commit
  case vlsc => exact Eff.memOk.commit (State.memOk.scaleEff ok fun _ _ hu => hu.vlscOp)
  case vldreg => exact ok.vldregEff.commit
  case pref => exact ok.prefEff.commit
  case vst | vsts | vstx | vstxC => exact ok.vstoreEff.commit
  case vsadd => exact ok.effVsadd.commit
  case vstreg => exact ok.vstregEff.commit
  case vssc => exact Eff.memOk.commit (State.memOk.scaleEff ok fun _ _ hu => hu.vsscOp)
  case vslup | vsldn | vperm | vexpand | viota => exact ok.moveEff.commit
  case vcomp => exact Eff.memOk.commit (State.memOk.vectorEff ok fun _ hu => hu.setGroup)
  case vsum | vmaxv | vminv | vandv | vorv | vxorv => exact ok.reduceEff.commit
  case kand | kor | kxor | knot => exact ok.kbitEff.commit
  case kpop | kfirst => exact Eff.memOk.commit (State.memOk.vectorEff ok fun _ hu => hu.setG)
  case ksbf | ksif => exact ok.leadEff.commit
  case kset => exact Eff.memOk.commit (State.memOk.vectorOver ok fun _ hu => hu)
  case kget => exact Eff.memOk.commit (State.memOk.vectorOver ok fun _ hu => hu.setG)
  case zld => exact ok.effZld.commit
  case zst => exact ok.effZst.commit
  case zadd | zsub | zmul | zmin | zmax => exact ok.zArith.commit
  case zdec | zdecF => exact ok.zdecEff.commit
  case zenc | zencF => exact ok.zencEff.commit
  case zscan => exact ok.effZscan.commit
  case zcnt => exact ok.effZcnt.commit
  case zsplice => exact Eff.memOk.commit (State.memOk.vectorEff ok fun _ hu => hu.putCoded)
  case mxattach => exact ok.mxattachEff.commit
  case mxdetach => exact ok.mxdetachEff.commit
  case mxfmt => exact ok.mxfmtEff.commit
  case mxload => exact ok.mxloadEff.commit
  case mxmul => exact ok.mxmulEff.commit
  case mxgrp => exact ok.mxgrpEff.commit
  case mxzero => exact ok.mxzeroEff.commit
  case mxwait => exact ok.mxwaitEff.commit
  case mxdrain | mxdrainX => exact ok.drainEff.commit
  case mxsave => exact ok.mxsaveEff.commit
  case mxrest => exact ok.mxrestEff.commit
  case bbset => exact ok.bbsetEff.commit
  case bbget => exact ok.bbgetEff.commit
  case bbisect => exact Eff.memOk.commit (State.memOk.emitEff ok fun _ _ _ _ _ _ hu => hu.isectLoop)
  case bbmerge => exact Eff.memOk.commit (State.memOk.emitEff ok fun _ _ _ _ _ _ hu => hu.mergeLoop)
  case bbwalk => exact Eff.memOk.commit (State.memOk.emitEff ok fun _ _ _ _ _ _ hu => hu.walkLoop)
  case sgproj => exact ok.sgprojEff.commit
  case sgkey => exact ok.sgkeyEff.commit
  case sgsig => exact ok.sgsigEff.commit
  case sggather => exact ok.sggatherEff.commit
  case hzld => exact ok.effHzld.commit
  case hzrenew => exact ok.hzrenewEff.commit
  case hzage => exact ok.hzageEff.commit
  case hzdrop => exact ok.hzdropEff.commit
  case pub => exact ok.pubEff.commit
  case shsync => exact ok.shsyncEff.commit
  case vset | vsetb => exact Eff.memOk.commit (State.memOk.vsetEff ok fun _ hu => hu)
  case vcfg => exact ok.vcfgEff.commit
  case trapFwd => exact ok.trapFwdEff.commit
  case trapYld => exact ok.trapYldEff.commit
  case tret => exact ok.tretEff.commit
  case idle => exact ok.idleEff.commit
  case lsync | fenceAcquireCore | fenceAcquireCluster | fenceAcquireDevice | fenceAcquireSystem |
      fenceReleaseCore | fenceReleaseCluster | fenceReleaseDevice | fenceReleaseSystem | fenceFullCore |
      fenceFullCluster | fenceFullDevice | fenceFullSystem => exact ok.fenceEff.commit
  case vdecl1 | vdecl2 | vdecl4 => exact ok.vdeclEff.commit
  case sgclr0 | sgclr1 | sgclr2 | sgclr3 | sgclr4 | sgclr5 | sgclr6 | sgclr7 => exact ok.sgclrEff.commit
  case lwpush => exact ok.launchWrite
  case segmentImageCopy => exact ok.copySegment
  case preloadTimeout => exact ok.execPreloadTimeout
  case headBlocking | heartbeatWatchdog | bootFetch | quickTest | skeinLinkTrain | dbstopWrite |
      skeinLinkDown | hostHold => exact .ite ok ok
  case boundTaskResume => exact ok.execBoundTaskResume
  case taskCompletion => exact ok.execTaskCompletion
  case budgetOverrun => exact ok.execBudgetOverrun
  case codeObjectLoad => exact ok.loadObject
  case queueWake | wmonWake | wmonTimeout | cwaitWake | cwaitTimeout | cpyAccept | mxwaitDone => exact ok.wake
  case queueStall => exact ok.stallAt
  case copyCompletion => exact ok.copyComplete
  case copyFaultStop => exact ok.copyFault
  case hazeTileExpiry => exact ok.execHazeTileExpiry
  case preEmptionRequest => exact ok.preRequest
  case faultRecordDelivery => exact ok.deliverNext
  case traceHeadPublish => exact ok.publishTrace
  case powerPointRequest => exact ok.requestPoint
  case railStepDone => exact ok.execRailStepDone
  case frequencySwitchDone => exact ok.execFrequencySwitchDone
  case powerOnReset => exact State.memOk.execPowerOnReset
  case hostAtomicop => exact ok.execHostAtomicop
  case storageError => exact ok.driveError
  case lanepartWrite => exact ok.window fun _ hu => hu.lanepartWrite
  case traceControlWrite => exact ok.window fun _ hu => hu.traceWrite
  case shootdownComplete => exact ok.shootdown
  case xlogControlWrite => exact ok.xlogWrite
  case illegalInstruction => exact ok.execIllegalInstruction
  case instructionFetchFault => exact ok.execInstructionFetchFault
  case handleGenerationAdvance => exact ok.setHbm
  case registerWrite => exact ok.execRegisterWrite
  case placement => exact ok.execPlacement
  case preload => exact ok.execPreload
  case unforcedUnload => exact ok.execUnforcedUnload
  case forcedUnload => exact ok.execForcedUnload
  case missedPromise => exact ok.execMissedPromise
  case singleStep => exact ok.execSingleStep
  case debugStop => exact ok.execDebugStop
  case hostCompletionTimeout => exact ok.execHostCompletionTimeout
  case matrixCommandDone => exact ok.execMatrixCommandDone
  case throttleNotice => exact ok.execThrottleNotice
  case resultConfirmation => exact ok.execResultConfirmation
  case suspectReexecute => exact ok.execSuspectReexecute
  case thermalForceClear => exact ok.execThermalForceClear
  case firmwareHeartbeat => exact ok.execFirmwareHeartbeat
  case railLimit => exact ok.execRailLimit
  case bootVerify => exact ok.execBootVerify
  case clusterExtendedPass => exact ok.execClusterExtendedPass
  case extendedTestFail => exact ok.execExtendedTestFail
  case bootStageFail => exact ok.execBootStageFail
  case hostBar2Write => exact ok.execHostBar2Write
  case skeinMessage => exact ok.execSkeinMessage
  case vshareWrite => exact ok.execVshareWrite
  case vskewWrite => exact ok.execVskewWrite
  case shootdownStart => exact ok.execShootdownStart
  case acdataRead => exact ok.execAcdataRead
  all_goals exact ok

/-! ### Held -/

theorem State.memOk.tryHeld {h : HeldInstr} (ok : s.memOk) : okIn id (s.tryHeld h) := by
  unfold State.tryHeld
  dsimp only
  split
  · exact trivial
  · split
    next t e =>
      have ht : t.memOk := by
        refine Answer.memOk.of_eq (State.memOk.exec (.setHart ?_)) e
        exact ok
      split
      · exact ht
      · exact trivial
    · exact trivial

theorem State.memOk.tryAll {x : List HeldInstr} (ok : s.memOk) : okIn id (s.tryAll x) := by
  induction x generalizing s with
  | nil => exact ok
  | cons h hs ih =>
    unfold State.tryAll
    split
    next e => exact ih (ok.tryHeld.some e)
    · exact trivial

theorem State.memOk.release {h : Nat} (ok : s.memOk) : (s.release h).memOk := by
  unfold State.release
  dsimp only
  split
  · exact ok
  · split
    next u e1 =>
      have hu : u.memOk := ok.tryAll.some e1
      exact hu
    · exact ok

theorem State.memOk.hold {i : Instr} (ok : s.memOk) : okIn id (s.hold i) := by
  unfold State.hold
  dsimp only
  split
  · exact trivial
  · exact .ite ok trivial

theorem State.memOk.beforeNext {i : Instr} (ok : s.memOk) : (s.beforeNext i).memOk :=
  .ite ok (State.memOk.joinFor (.ite ok ok.release))

theorem State.memOk.runNext {i : Instr} (ok : s.memOk) : (s.runNext i).memOk := by
  unfold State.runNext
  split
  next e => exact ok.hold.some e
  · exact ok.beforeNext.exec

theorem State.memOk.attempt (ok : s.memOk) : s.attempt.memOk := by
  unfold State.attempt
  split
  · exact trivial
  next e => exact State.memOk.inOrder (ok.plan e) (State.memOk.runNext (ok.plan e))
  next e => exact ok.plan e

theorem State.memOk.settled {s t : State} (ok : s.memOk) : (s.settled t).memOk :=
  (ok.foldl fun _ _ hu => hu.release).foldl fun _ _ hu => hu.foldl fun _ _ hu1 => hu1.drainSlice

theorem State.memOk.onTime (ok : s.memOk) : s.onTime.memOk := by
  unfold State.onTime
  split <;> exact ok

theorem State.memOk.oneStep (ok : s.memOk) : s.oneStep.memOk := by
  unfold State.oneStep
  dsimp only
  split
  next u e =>
    have hu : u.memOk := ok.attempt.of_eq e
    split
    · exact hu
    · split
      next u1 e2 =>
        have hu1 : u1.memOk := ok.settled.attempt.of_eq e2
        split
        · exact hu1
        · exact ok.settled.onTime.attempt
      · exact ok.settled.attempt
  · exact ok.attempt

end MemoryForm

/-- Settles O59: every function of a step keeps the memory form, and so does the whole of `step`. -/
theorem memoryFormKept : Obligations.MemoryFormKept := by
  unfold Obligations.MemoryFormKept
  intro s t ok e
  exact ok.oneStep.of_eq e

end Sys2Proof.Machine

/-! # Host and link events (O57) -/

namespace Sys2Proof.Machine

section HostEvents

/-! ## Bit fields of a number -/

theorem nbit_eq_testBit (x i : Nat) : nbit x i = x.testBit i := by
  rw [nbit, Nat.testBit_eq_decide_div_mod_eq, Nat.shiftRight_eq_div_pow]

theorem testBit_nbits (x lo n i : Nat) : (nbits x lo n).testBit i = (decide (i < n) && x.testBit (lo + i)) := by
  rw [nbits, Nat.testBit_mod_two_pow, Nat.testBit_shiftRight]

theorem nset_eq_or (x lo n v : Nat) :
    nset x lo n v = (x >>> (lo + n)) <<< (lo + n) ||| (v % 2 ^ n) <<< lo ||| x % 2 ^ lo := by
  have hx : x % 2 ^ lo < 2 ^ lo := Nat.mod_lt _ (by positivity)
  have hv : v % 2 ^ n < 2 ^ n := Nat.mod_lt _ (by positivity)
  have hlow : (v % 2 ^ n) <<< lo + x % 2 ^ lo < 2 ^ (lo + n) := by
    have hle : (v % 2 ^ n + 1) * 2 ^ lo ≤ 2 ^ n * 2 ^ lo := Nat.mul_le_mul_right _ hv
    rw [Nat.shiftLeft_eq, Nat.add_comm lo, Nat.pow_add]
    rw [Nat.add_mul, Nat.one_mul] at hle
    omega
  rw [nset, Nat.add_assoc, Nat.shiftLeft_add_eq_or_of_lt hlow, Nat.shiftLeft_add_eq_or_of_lt hx, Nat.or_assoc]

theorem testBit_nset (x lo n v i : Nat) :
    (nset x lo n v).testBit i = if lo ≤ i ∧ i < lo + n then v.testBit (i - lo) else x.testBit i := by
  rw [nset_eq_or, Nat.testBit_or, Nat.testBit_or, Nat.testBit_shiftLeft, Nat.testBit_shiftLeft,
    Nat.testBit_shiftRight, Nat.testBit_mod_two_pow, Nat.testBit_mod_two_pow]
  rcases Nat.lt_or_ge i lo with h | h
  · simp [h, Nat.not_le.2 h, show ¬ lo + n ≤ i by omega]
  · rcases Nat.lt_or_ge i (lo + n) with k | k
    · simp [h, k, Nat.not_le.2 k, Nat.not_lt.2 h, show i - lo < n by omega]
    · simp [k, Nat.not_lt.2 h, Nat.not_lt.2 k, show ¬ i - lo < n by omega, Nat.add_sub_cancel' k]

theorem nbits_nset_self (x lo n v : Nat) : nbits (nset x lo n v) lo n = v % 2 ^ n := by
  refine Nat.eq_of_testBit_eq fun i => ?_
  rw [testBit_nbits, testBit_nset, Nat.testBit_mod_two_pow]
  by_cases h : i < n
  · simp [h]
  · simp [h]

theorem nbits_nset_of_disjoint (x lo n v lo' n' : Nat) (h : lo' + n' ≤ lo ∨ lo + n ≤ lo') :
    nbits (nset x lo n v) lo' n' = nbits x lo' n' := by
  refine Nat.eq_of_testBit_eq fun i => ?_
  rw [testBit_nbits, testBit_nbits, testBit_nset]
  by_cases hi : i < n'
  · rw [if_neg (by omega)]
  · simp [hi]

theorem nbit_nset_of_ne (x lo n v i : Nat) (h : i < lo ∨ lo + n ≤ i) : nbit (nset x lo n v) i = nbit x i := by
  rw [nbit_eq_testBit, nbit_eq_testBit, testBit_nset, if_neg (by omega)]

theorem nbit_nset_self (x i : Nat) (b : Bool) : nbit (nset x i 1 (boolNat b)) i = b := by
  rw [nbit_eq_testBit, testBit_nset, if_pos (by omega), Nat.sub_self]
  cases b <;> rfl

theorem nset_lt (x lo n v m : Nat) (hx : x < 2 ^ m) (h : lo + n ≤ m) : nset x lo n v < 2 ^ m := by
  refine Nat.lt_pow_two_of_testBit _ fun i hi => ?_
  rw [testBit_nset, if_neg (by omega)]
  exact Nat.testBit_lt_two_pow (hx.trans_le (Nat.pow_le_pow_right (by decide) hi))

variable {s : State}

/-! ## The external log leaves everything but memory and itself -/

theorem physKey_zero (a : Nat) : physKey 0 a = a := by simp [physKey]

/-- What logging an input can change: the stamp with its time, memory and the log. -/
theorem State.logInput_eq (source port addr : Nat) (data : List Byte) :
    ∃ m x, s.logInput source port addr data =
      { ({ s with replay := dropFirst extAgent s.replay } : State).nextStamp with mem := m, xlog := x } := by
  unfold State.logInput
  generalize State.nextStamp _ = u
  exact iteInduction (motive := fun t : State => ∃ m x, t = { u with mem := m, xlog := x })
    (fun _ => ⟨u.mem, u.xlog, rfl⟩)
    fun _ => iteInduction (motive := fun t : State => ∃ m x, t = { u with mem := m, xlog := x })
      (fun _ => ⟨u.mem, _, rfl⟩)
      fun _ => ⟨_, _, rfl⟩

@[simp] theorem State.logInput_harts (source port addr : Nat) (data : List Byte) :
    (s.logInput source port addr data).harts = s.harts := by
  obtain ⟨m, x, e⟩ := s.logInput_eq source port addr data
  rw [e]
  exact State.nextStamp_harts _

@[simp] theorem State.logInput_ports (source port addr : Nat) (data : List Byte) :
    (s.logInput source port addr data).ports = s.ports := by
  obtain ⟨m, x, e⟩ := s.logInput_eq source port addr data
  rw [e]
  exact State.nextStamp_ports _

@[simp] theorem State.logInput_dev (source port addr : Nat) (data : List Byte) :
    (s.logInput source port addr data).dev = s.dev := by
  obtain ⟨m, x, e⟩ := s.logInput_eq source port addr data
  rw [e]
  exact State.nextStamp_dev _

@[simp] theorem State.logInput_reply (source port addr : Nat) (data : List Byte) :
    (s.logInput source port addr data).reply = s.reply := by
  obtain ⟨m, x, e⟩ := s.logInput_eq source port addr data
  rw [e]
  exact State.nextStamp_reply _

theorem State.logInput_mem_of_off (source port addr : Nat) (data : List Byte) (h : s.xlog.en = false) :
    (s.logInput source port addr data).mem = s.mem := by
  unfold State.logInput
  rw [if_pos (by simp [h])]
  exact State.nextStamp_mem _

/-! ## BAR2 (R373, R374) -/

theorem hostBar2Write_lands (h : s.arg.addr + s.arg.bytes.length ≤ hbmBytes) :
    ∃ t, exec .hostBar2Write s = .next t ∧ memReadN t.mem s.arg.addr s.arg.bytes.length = s.arg.bytes ∧
      t.harts = s.harts := by
  have e : execHostBar2Write s = _ := congrArg Host.Outcome.next (if_pos (decide_eq_true h))
  refine ⟨_, e, ?_, State.logInput_harts ..⟩
  simp only [physKey_zero]
  exact memReadN_memWriteN _ _ _

theorem hostBar2Write_refused (h : ¬ s.arg.addr + s.arg.bytes.length ≤ hbmBytes) :
    exec .hostBar2Write s = .next { s with reply := none } :=
  congrArg Host.Outcome.next (if_neg (by simpa [bar2Ok] using h))

theorem hostBar2Read_memory (h2 : s.arg.flag2 = false) (h1 : s.arg.flag = false) :
    exec .hostBar2Read s = .next { s with
      reply := if s.arg.addr + s.arg.n ≤ hbmBytes then some (memReadN s.mem s.arg.addr s.arg.n) else none } := by
  show execHostBar2Read s = _
  simp [execHostBar2Read, h2, h1, bar2Ok, physKey_zero]

/-! ## The status block (R373) -/

@[simp] theorem State.bar0Bytes_length (off n : Nat) : (s.bar0Bytes off n).length = n := by
  simp [State.bar0Bytes]

theorem boolNat_le_one (b : Bool) : boolNat b ≤ 1 := by cases b <;> decide

theorem boolNat_mod_two_eq_one (b : Bool) : decide (boolNat b % 2 = 1) = b := by cases b <;> rfl

theorem State.statusWord_lt : s.statusWord < 2 ^ 32 := by
  have h1 := s.status.bstate.isLt
  have h2 := s.status.fwst.isLt
  have h3 := s.status.hzlim.isLt
  have hb := boolNat_le_one
  have := hb s.power.full; have := hb (decide (s.power.move ≠ .still)); have := hb s.status.fwd
  have := hb s.status.fth; have := hb s.status.clamp; have := hb s.status.ttrip
  unfold State.statusWord
  dsimp only
  omega

theorem State.bytesNat_bar0Bytes_status : bytesNat (s.bar0Bytes 0 8) = s.statusWord := by
  have h := s.statusWord_lt
  simp [State.bar0Bytes, State.bar0, List.range_succ, bytesNat, nbits, Nat.shiftRight_eq_div_pow]
  omega

theorem State.bytesNat_bar0Bytes_dfail : bytesNat (s.bar0Bytes 0x30 4) = s.status.dfail.toNat := by
  have h := s.status.dfail.isLt
  simp [State.bar0Bytes, State.bar0, List.range_succ, bytesNat, nbits, Nat.shiftRight_eq_div_pow]
  omega

theorem State.statusWord_fields : s.statusWord % 16 = s.status.bstate.toNat ∧ nbit s.statusWord 4 = s.power.full ∧
    nbits s.statusWord 8 8 = s.power.vcode % 256 ∧ nbit s.statusWord 20 = s.status.clamp ∧
    nbit s.statusWord 24 = s.status.ttrip := by
  have h1 := s.status.bstate.isLt
  have h2 := s.status.fwst.isLt
  have h3 := s.status.hzlim.isLt
  have hb := boolNat_le_one
  have b1 := hb s.power.full
  have b2 := hb (decide (s.power.move ≠ .still))
  have b3 := hb s.status.fwd
  have b4 := hb s.status.fth
  have b5 := hb s.status.clamp
  have b6 := hb s.status.ttrip
  have hbit : ∀ (b : Bool) (k : Nat), s.statusWord / 2 ^ k % 2 = boolNat b → nbit s.statusWord k = b := by
    intro b k h
    rw [nbit, Nat.shiftRight_eq_div_pow, h]
    cases b <;> rfl
  rw [nbits, Nat.shiftRight_eq_div_pow]
  refine ⟨?_, hbit _ _ ?_, ?_, hbit _ _ ?_, hbit _ _ ?_⟩
  all_goals
    unfold State.statusWord
    dsimp only
    omega

theorem hostBar2Read_bar0 (h2 : s.arg.flag2 = false) (h1 : s.arg.flag = true) :
    exec .hostBar2Read s = .next { s with reply := some (s.bar0Bytes s.arg.addr s.arg.n) } := by
  show execHostBar2Read s = _
  simp [execHostBar2Read, h2, h1]

theorem hostBar2Read_status (h2 : s.arg.flag2 = false) (h1 : s.arg.flag = true) :
    ∃ bs, exec .hostBar2Read s = .next { s with reply := some bs } ∧ bs.length = s.arg.n ∧
      (s.arg.addr = 0 → s.arg.n = 8 → bytesNat bs % 16 = s.status.bstate.toNat ∧ nbit (bytesNat bs) 4 = s.power.full ∧
        nbits (bytesNat bs) 8 8 = s.power.vcode % 256 ∧ nbit (bytesNat bs) 20 = s.status.clamp ∧
        nbit (bytesNat bs) 24 = s.status.ttrip) ∧
      (s.arg.addr = 0x30 → s.arg.n = 4 → bytesNat bs = s.status.dfail.toNat) := by
  refine ⟨_, hostBar2Read_bar0 h2 h1, s.bar0Bytes_length _ _, fun ha hn => ?_, fun ha hn => ?_⟩
  · rw [ha, hn, State.bytesNat_bar0Bytes_status]
    exact s.statusWord_fields
  · rw [ha, hn, State.bytesNat_bar0Bytes_dfail]

/-! ## The failure report (R372) -/

@[simp] theorem State.failReport_length : s.failReport.length = 256 := by simp [State.failReport]

@[simp] theorem State.dvsec_length : s.dvsec.length = 268 := by simp [State.dvsec]

theorem bytesNat_natBytes_of_lt {n v : Nat} (h : v < 256 ^ n) : bytesNat (natBytes n v) = v := by
  rw [bytesNat_natBytes, Nat.mod_eq_of_lt h]

theorem State.failReport_first : bytesNat (s.failReport.take 4) = s.status.dfail.toNat := by
  rw [State.failReport, List.take_left' (natBytes_length _ _)]
  exact bytesNat_natBytes_of_lt s.status.dfail.isLt

theorem State.dvsec_report : s.dvsec.drop 12 = s.failReport := by
  rw [State.dvsec]
  exact List.drop_left' (by simp)

theorem State.dvsec_id : bytesNat ((s.dvsec.drop 8).take 2) = 0x0A1E := by
  rw [State.dvsec, List.append_assoc, List.drop_left' (by simp)]
  rfl

theorem hostBar2Read_report (h2 : s.arg.flag2 = true) : exec .hostBar2Read s = .next { s with
    reply := if s.status.bstate = 15 then
        some (((if s.arg.index = 0 then s.dvsec else s.failReport).drop s.arg.addr).take s.arg.n) else none } := by
  show execHostBar2Read s = _
  simp [execHostBar2Read, h2]

theorem hostBar2Read_safe (h2 : s.arg.flag2 = true) :
    (s.status.bstate ≠ 15 → exec .hostBar2Read s = .next { s with reply := none }) ∧
    (s.status.bstate = 15 → s.arg.index ≠ 0 → ∃ bs, exec .hostBar2Read s = .next { s with reply := some bs } ∧
      bs.length = min s.arg.n (256 - s.arg.addr) ∧
        (s.arg.addr = 0 → s.arg.n = 4 → bytesNat bs = s.status.dfail.toNat)) ∧
    (s.status.bstate = 15 → s.arg.index = 0 → ∃ bs, exec .hostBar2Read s = .next { s with reply := some bs } ∧
      bs.length = min s.arg.n (268 - s.arg.addr) ∧ (s.arg.addr = 8 → s.arg.n = 2 → bytesNat bs = 0x0A1E) ∧
      (s.arg.addr = 12 → s.arg.n = 4 → bytesNat bs = s.status.dfail.toNat)) := by
  rw [hostBar2Read_report h2]
  refine ⟨fun hb => by rw [if_neg hb], fun hb hi => ?_, fun hb hi => ?_⟩
  · rw [if_pos hb, if_neg hi]
    refine ⟨_, rfl, by simp, fun ha hn => ?_⟩
    rw [ha, hn]
    exact s.failReport_first
  · rw [if_pos hb, if_pos hi]
    refine ⟨_, rfl, by simp, fun ha hn => ?_, fun ha hn => ?_⟩
    · rw [ha, hn]
      exact s.dvsec_id
    · rw [ha, hn, State.dvsec_report]
      exact s.failReport_first

/-! ## AtomicOps (R374) -/

theorem bytesNat_lt (bs : List Byte) : bytesNat bs < 2 ^ (8 * bs.length) := by
  induction bs with
  | nil => simp [bytesNat]
  | cons b bs ih =>
    have hb := b.isLt
    have e : 2 ^ (8 * (b :: bs).length) = 256 * 2 ^ (8 * bs.length) := by
      rw [List.length_cons, Nat.mul_succ, Nat.pow_add, Nat.mul_comm]
    rw [bytesNat, e]
    omega

theorem State.hbm_lt (a n : Nat) : s.hbm a n < 2 ^ (8 * n) := by
  simpa [State.hbm] using bytesNat_lt (memReadN s.mem a n)

/-- What is read where a number was written is the number's bytes. -/
theorem State.hbm_setHbm_self (a n v : Nat) (h : v < 2 ^ (8 * n)) : (s.setHbm a n v).hbm a n = v := by
  have e := memReadN_memWriteN s.mem a (natBytes n v)
  rw [natBytes_length] at e
  rw [State.hbm, State.setHbm, e]
  exact bytesNat_natBytes_of_lt (by rwa [show 256 = 2 ^ 8 from rfl, ← Nat.pow_mul])

theorem State.memRead_setHbm_of_outside (a n v x : Nat) (h : ¬ (a ≤ x ∧ x < a + n)) :
    memRead (s.setHbm a n v).mem x = memRead s.mem x :=
  memRead_memWriteN_out _ _ _ _ (by rw [natBytes_length]; omega)

/-- The operands of an AtomicOp that the device performs. -/
def atomicOk (a : EventArg) : Prop :=
  (a.n = 4 ∨ a.n = 8) ∧ a.index ≤ 2 ∧ a.addr % a.n = 0 ∧ a.addr + a.n ≤ hbmBytes

/-- The value an AtomicOp leaves over `old`. -/
def atomicNew (a : EventArg) (old : Nat) : Nat :=
  if a.index = 0 then (old + a.w0.toNat) % 2 ^ (8 * a.n) else if a.index = 1 then a.w0.toNat % 2 ^ (8 * a.n)
    else if old = a.w1.toNat % 2 ^ (8 * a.n) then a.w0.toNat % 2 ^ (8 * a.n) else old

/-- An operation writes the new value, and writes nothing where that is the old one. -/
theorem hostOp_eq (a : EventArg) (old : Nat) (hi : a.index ≤ 2) :
    hostOp a.index (8 * a.n) old (a.w0.toNat % 2 ^ (8 * a.n)) (a.w1.toNat % 2 ^ (8 * a.n)) = some (atomicNew a old) ∨
    hostOp a.index (8 * a.n) old (a.w0.toNat % 2 ^ (8 * a.n)) (a.w1.toNat % 2 ^ (8 * a.n)) = none ∧
      atomicNew a old = old := by
  obtain h | h | h : a.index = 0 ∨ a.index = 1 ∨ a.index = 2 := by omega
  · left
    simp [hostOp, atomicNew, h]
  · left
    simp [hostOp, atomicNew, h]
  · by_cases e : old = a.w1.toNat % 2 ^ (8 * a.n)
    · left
      simp [hostOp, atomicNew, h, ← e]
    · right
      simp [hostOp, atomicNew, h, e]

theorem atomicNew_lt (a : EventArg) (old : Nat) (h : old < 2 ^ (8 * a.n)) : atomicNew a old < 2 ^ (8 * a.n) := by
  have hm : ∀ x, x % 2 ^ (8 * a.n) < 2 ^ (8 * a.n) := fun x => Nat.mod_lt _ (by positivity)
  unfold atomicNew
  split
  · exact hm _
  · split
    · exact hm _
    · split
      · exact hm _
      · exact h

theorem hostAtomicop_performs (h : atomicOk s.arg) :
    ∃ t, exec .hostAtomicop s = .next t ∧ t.reply = some (natBytes s.arg.n (s.hbm s.arg.addr s.arg.n)) ∧
      t.hbm s.arg.addr s.arg.n = atomicNew s.arg (s.hbm s.arg.addr s.arg.n) ∧
      (s.xlog.en = false → ∀ x, ¬ (s.arg.addr ≤ x ∧ x < s.arg.addr + s.arg.n) → memRead t.mem x = memRead s.mem x) ∧
      t.harts = s.harts := by
  obtain ⟨hn, hi, ha, hb⟩ := h
  have e : execHostAtomicop s = _ := congrArg Host.Outcome.next (if_pos (by simp [hn, hi, ha, hb, bar2Ok]))
  have hlt := s.hbm_lt s.arg.addr s.arg.n
  generalize ho : s.hbm s.arg.addr s.arg.n = old at hlt
  obtain hv | ⟨hv, hold⟩ := hostOp_eq s.arg old hi
  · simp only [ho, hv] at e
    refine ⟨_, e, ?_, State.hbm_setHbm_self _ _ _ (atomicNew_lt _ _ hlt), fun hx x hout => ?_, ?_⟩
    · exact State.logInput_reply ..
    · exact (State.memRead_setHbm_of_outside _ _ _ _ hout).trans
        (congrArg (memRead · x) (State.logInput_mem_of_off _ _ _ _ hx))
    · simp
  · simp only [ho, hv] at e
    exact ⟨_, e, rfl, by rw [hold]; exact ho, fun _ _ _ => rfl, rfl⟩

theorem hostAtomicop_refused (h : ¬ atomicOk s.arg) : exec .hostAtomicop s = .next { s with reply := none } :=
  congrArg Host.Outcome.next (if_neg (by simpa [atomicOk, bar2Ok, and_assoc] using h))

/-! ## The status word and the expanders' links (R373, R375) -/

theorem ofNat_nbits {k : Nat} (w : BitVec k) (lo n : Nat) :
    BitVec.ofNat n (nbits w.toNat lo n) = w.extractLsb' lo n := by
  refine BitVec.eq_of_toNat_eq ?_
  simp [nbits, BitVec.extractLsb'_toNat]

theorem nbits_toNat {k : Nat} (w : BitVec k) (lo n : Nat) : nbits w.toNat lo n = (w.extractLsb' lo n).toNat := by
  rw [BitVec.extractLsb'_toNat, nbits]

theorem nbits_eq_zero_iff {k : Nat} (w : BitVec k) (lo n : Nat) :
    nbits w.toNat lo n = 0 ↔ w.extractLsb' lo n = 0 := by
  rw [nbits_toNat]
  exact ⟨fun h => BitVec.eq_of_toNat_eq (by simpa using h), fun h => by rw [h]; rfl⟩

theorem nbit_toNat {k : Nat} (w : BitVec k) (i : Nat) : nbit w.toNat i = w.getLsbD i := nbit_eq_testBit _ _

theorem statusRw1cWrite_clears : ∃ t, exec .statusRw1cWrite s = .next t ∧
    t.status.hzlim = s.status.hzlim &&& ~~~(s.arg.w0.extractLsb' 22 2) ∧
    t.status.ttrip = (s.status.ttrip && !s.arg.w0.getLsbD 24) ∧ t.status.bstate = s.status.bstate ∧
      t.power = s.power := by
  refine ⟨_, rfl, ?_, ?_, rfl, rfl⟩
  · dsimp only
    rw [ofNat_nbits]
  · dsimp only
    rw [nbit_toNat]

theorem cxlLinkDown_clears : ∃ t, exec .cxlLinkDown s = .next t ∧ t.mem = s.mem ∧
    ∀ p, p < 4 → nbit t.dev.links.toNat p = (nbit s.dev.links.toNat p && decide (p ≠ s.arg.index % 4)) := by
  refine ⟨_, rfl, rfl, fun p hp => ?_⟩
  have e : (2 ^ (s.arg.index % 4)).testBit p = decide (s.arg.index % 4 = p) := Nat.testBit_two_pow
  dsimp only
  rw [nbit_toNat, nbit_toNat, BitVec.getLsbD_and, BitVec.getLsbD_not, BitVec.getLsbD_ofNat, e]
  simp only [hp, decide_true, Bool.true_and, ne_eq, decide_not, eq_comm]

/-! ## The log's registers (R359, R380) and the lock of the handle table -/

theorem xlogControlWrite_base (hi : s.arg.index = 0) (hx : s.xlog.en = false) (h0 : s.arg.w0.extractLsb' 0 12 = 0)
    (h1 : s.arg.w0.extractLsb' 52 12 = 0) :
    exec .xlogControlWrite s = .next { s with xlog := { s.xlog with base := s.arg.w0 } } := by
  rw [← nbits_eq_zero_iff] at h0 h1
  show Host.Outcome.next s.xlogWrite = _
  simp [State.xlogWrite, hi, hx, h0, h1]

/-- A size word without enable sets the size, and with it also opens the log, if the log is large enough. -/
theorem xlogControlWrite_size (hi : s.arg.index ≠ 0) (hx : s.xlog.en = false) (h0 : s.arg.w0.extractLsb' 5 3 = 0)
    (h1 : s.arg.w0.extractLsb' 9 55 = 0) :
    (s.arg.w0.getLsbD 8 = false →
      exec .xlogControlWrite s = .next { s with xlog := { s.xlog with size := s.arg.w0.extractLsb' 0 5 } }) ∧
    (s.arg.w0.getLsbD 8 = true → 16 ≤ (s.arg.w0.extractLsb' 0 5).toNat → exec .xlogControlWrite s = .next { s with
      xlog := { s.xlog with
        size := s.arg.w0.extractLsb' 0 5, en := true, head := 0, drop := 0, shown := 0, shownAt := s.tick } }) := by
  rw [← nbits_eq_zero_iff] at h0 h1
  have hs : BitVec.ofNat 5 s.arg.w0.toNat = s.arg.w0.extractLsb' 0 5 := by
    refine BitVec.eq_of_toNat_eq ?_
    simp
  refine ⟨fun h8 => ?_, fun h8 hle => ?_⟩
  · show Host.Outcome.next s.xlogWrite = _
    simp only [State.xlogWrite, hi, hx, h0, h1, nbit_toNat, h8, hs, ne_eq, not_true_eq_false, decide_false,
      Bool.or_self, Bool.false_eq_true, if_false]
  · show Host.Outcome.next s.xlogWrite = _
    simp only [State.xlogWrite, hi, hx, h0, h1, nbit_toNat, h8, hs, hle, ne_eq, not_true_eq_false,
      decide_false, Bool.or_self,
      Bool.false_eq_true, if_false, if_true]

theorem xlogControlWrite_enabled (hx : s.xlog.en = true) (hi : s.arg.index = 0) :
    exec .xlogControlWrite s = .next s := by
  show Host.Outcome.next s.xlogWrite = _
  simp [State.xlogWrite, hi, hx]

/-! ## Handles (R211) -/

theorem State.hbm_setHbm_of_disjoint (a n v b m : Nat) (h : b + m ≤ a ∨ a + n ≤ b) :
    (s.setHbm a n v).hbm b m = s.hbm b m :=
  congrArg bytesNat (memReadN_congr _ _ _ _ fun x hx hm => State.memRead_setHbm_of_outside _ _ _ _ (by omega))

theorem handleGenerationAdvance_sets : ∃ t, exec .handleGenerationAdvance s = .next t ∧
    t.handle s.arg.index = { s.handle s.arg.index with
      gen := ((s.handle s.arg.index).gen + s.arg.n) % 65536, hvalid := s.arg.flag } ∧ t.harts = s.harts := by
  refine ⟨_, rfl, ?_, rfl⟩
  generalize hw : s.hbm (s.handleAt s.arg.index + 16) 8 = w
  have hlt : w < 2 ^ 64 := hw ▸ s.hbm_lt _ _
  have hset := nset_lt _ 57 1 (boolNat s.arg.flag) 64 (nset_lt w 40 16 (nbits w 40 16 + s.arg.n) 64 hlt (by decide))
    (by decide)
  simp only [State.handle, State.handleAt, State.setHbm_dev] at hw ⊢
  rw [hw, State.hbm_setHbm_self _ _ _ hset, State.hbm_setHbm_of_disjoint _ _ _ _ _ (by omega),
    State.hbm_setHbm_of_disjoint _ _ _ _ _ (by omega), State.hbm_setHbm_of_disjoint _ _ _ _ _ (by omega),
    nbit_nset_self, nbit_nset_of_ne _ _ _ _ _ (by decide), nbit_nset_of_ne _ _ _ _ _ (by decide),
    nbits_nset_of_disjoint _ 57 _ _ _ _ (by decide), nbits_nset_of_disjoint _ 57 _ _ _ _ (by decide),
    nbits_nset_of_disjoint _ 40 _ _ _ _ (by decide), nbits_nset_self]
  rfl

/-! ## Ports -/

@[simp] theorem State.portAt_setPort_self (p : Nat) (x : Port) : (s.setPort p x).portAt p = x := tget_tset_self ..

theorem State.portAt_congr {t : State} (p : Nat) (h : t.ports = s.ports) : t.portAt p = s.portAt p := by
  rw [State.portAt, State.portAt, h]

/-! ## Data that land in a backing (R375, R377) -/

/-- Bytes put at consecutive keys but where `down` holds. -/
theorem memRead_foldl_memWrite (down : Nat → Bool) (key : Nat) (bs : List Byte) (k : Nat)
    (m : List Host.Cell) (x : Nat) :
    memRead ((bs.zipIdx k).foldl (fun m p => if down p.2 then m else memWrite m (key + p.2) p.1) m) x =
      if key + k ≤ x ∧ x < key + k + bs.length ∧ down (x - key) = false
        then bs.getD (x - key - k) 0 else memRead m x := by
  induction bs generalizing k m with
  | nil => rw [if_neg (by simp; omega)]; rfl
  | cons b bs ih =>
    rw [List.zipIdx_cons, List.foldl_cons, ih]
    have hne : x ≠ key + k → memRead (if down k then m else memWrite m (key + k) b) x = memRead m x := by
      intro h
      split
      · rfl
      · exact memRead_memWrite_ne _ _ h
    rcases Nat.lt_trichotomy x (key + k) with h | h | h
    · exact (if_neg (by omega)).trans ((hne (by omega)).trans (if_neg (by omega)).symm)
    · subst h
      refine (if_neg (by omega)).trans ?_
      rw [Nat.add_sub_cancel_left, Nat.sub_self]
      cases hd : down k with
      | true => simp
      | false => simp
    · obtain ⟨j, rfl⟩ : ∃ j, x = key + k + 1 + j := ⟨x - (key + k + 1), by omega⟩
      have e1 : key + k + 1 + j - key - (k + 1) = j := by omega
      have e2 : key + k + 1 + j - key - k = j + 1 := by omega
      rw [e1, e2, List.getD_cons_succ, List.length_cons]
      exact if_congr (and_congr (by omega) (and_congr (by omega) Iff.rfl)) rfl (hne (by omega))

theorem State.putBacking_eq (b : Nat × Nat) (off : Nat) (bs : List Byte) :
    s.putBacking b off bs = { s with mem := (s.putBacking b off bs).mem } := by
  unfold State.putBacking
  split
  · rfl
  · rfl

theorem physKey_add (c a i : Nat) : physKey c (a + i) = physKey c a + i := by
  rw [physKey, physKey, Nat.add_assoc]

/-- The bytes that land are those not behind a link that is down. -/
theorem State.memRead_putBacking (b : Nat × Nat) (off : Nat) (bs : List Byte) (x : Nat) {key : Nat}
    (hk : physKey b.1 (b.2 + off) = key) :
    memRead (s.putBacking b off bs).mem x =
      if key ≤ x ∧ x < key + bs.length ∧ ¬ (b.1 = 1 ∧ s.linkDown (b.2 + off + (x - key)) = true)
        then bs.getD (x - key) 0
      else memRead s.mem x := by
  have hi : ∀ i, physKey b.1 (b.2 + off + i) = key + i := fun i => by rw [physKey_add, hk]
  unfold State.putBacking
  simp only [hi, hk]
  split
  next h =>
    simp only [Bool.and_eq_true, decide_eq_true_eq] at h
    have e := memRead_foldl_memWrite (fun i => s.linkDown (b.2 + off + i)) key bs 0 s.mem x
    simp only [Nat.add_zero, Nat.sub_zero] at e
    rw [e]
    simp [h.1]
  next h =>
    have hl : ¬ (b.1 = 1 ∧ s.linkDown (b.2 + off + (x - key)) = true) := by
      intro hd
      refine h ?_
      simp [hd.1]
      intro hk
      simp [State.linkDown, hk] at hd
    simp [hl, memRead_memWriteN]

theorem State.linkDown_congr {t : State} (pa : Nat) (h : t.dev = s.dev) : t.linkDown pa = s.linkDown pa := by
  rw [State.linkDown, State.linkDown, h]

/-! ## The phase of a handle flips -/

@[simp] theorem Hart.noteFlip_g (x : Hart) (i : Nat) : (x.noteFlip i).g = x.g := by
  unfold Hart.noteFlip
  split
  · split
    · split
      · rfl
      · rfl
    · rfl
  · rfl

theorem tget_map_congr {α β : Type} (d : α) (t : Table α) (f : α → α) (p : α → β)
    (hf : ∀ x, p (f x) = p x) (i : Nat) :
    p (tget d (t.map fun (k, x) => (k, f x)) i) = p (tget d t i) := by
  induction t with
  | nil => rfl
  | cons q t ih =>
    obtain ⟨k, x⟩ := q
    simp only [List.map_cons, tget]
    split
    · exact hf x
    · exact ih

@[simp] theorem State.flipPhase_g (i h : Nat) : ((s.flipPhase i).hartAt h).g = (s.hartAt h).g :=
  tget_map_congr Hart.init s.harts (fun x => x.noteFlip i) Hart.g (fun x => x.noteFlip_g i) h

/-! ## Messages (R362, R377) -/

theorem State.messageEnd_of_stale (m : SkeinMsg) (c : List Byte) (h : m.ok = false) :
    s.messageEnd m c = s.setPort s.arg.unit { (s.portAt s.arg.unit).absorb c with msg := none } :=
  if_pos (by simp [h])

/-- The state in which the data of a message have landed. -/
def State.landed (s : State) (m : SkeinMsg) (c : List Byte) : State :=
  ((s.setPort s.arg.unit { (s.portAt s.arg.unit).absorb c with msg := none }).logInput 3 s.arg.unit
    (m.backing.2 + m.off) s.arg.bytes).putBacking m.backing m.off s.arg.bytes

theorem State.messageEnd_of_live (m : SkeinMsg) (c : List Byte) (h : m.ok = true) :
    s.messageEnd m c = if m.pubc = true ∧ ((s.landed m c).handle m.index).hvalid = true ∧
        ((s.landed m c).handle m.index).gen = m.gen ∧ ((s.landed m c).handle m.index).phase = m.phase
      then (s.landed m c).flipPhase m.index else s.landed m c := by
  unfold State.messageEnd
  dsimp only
  rw [if_neg (by simp [h])]
  exact if_congr (by simp [State.landed, and_assoc]) rfl rfl

theorem State.landed_dev (m : SkeinMsg) (c : List Byte) : (s.landed m c).dev = s.dev := by
  rw [State.landed, State.putBacking_eq]
  exact State.logInput_dev ..

theorem State.landed_harts (m : SkeinMsg) (c : List Byte) : (s.landed m c).harts = s.harts := by
  rw [State.landed, State.putBacking_eq]
  exact State.logInput_harts ..

theorem State.landed_ports (m : SkeinMsg) (c : List Byte) : (s.landed m c).ports =
    (s.setPort s.arg.unit { (s.portAt s.arg.unit).absorb c with msg := none }).ports := by
  rw [State.landed, State.putBacking_eq]
  exact State.logInput_ports ..

/-- The bytes of a message that are not behind a down link. -/
theorem State.memRead_landed (m : SkeinMsg) (c : List Byte) (i : Nat) (b : Byte) (h : s.arg.bytes[i]? = some b)
    (hd : ¬ (m.backing.1 = 1 ∧ s.linkDown (m.backing.2 + m.off + i) = true)) :
    memRead (s.landed m c).mem (physKey m.backing.1 (m.backing.2 + m.off) + i) = b := by
  obtain ⟨hi, hb⟩ := List.getElem?_eq_some_iff.1 h
  rw [State.landed, State.memRead_putBacking _ _ _ _ rfl, Nat.add_sub_cancel_left,
    State.linkDown_congr _ (State.logInput_dev ..), if_pos ⟨by omega, by omega, hd⟩, List.getD_eq_getElem?_getD, h]
  rfl

theorem State.memRead_landed_of_outside (m : SkeinMsg) (c : List Byte) (hx : s.xlog.en = false) (x : Nat)
    (h : ∀ i, i < s.arg.bytes.length → x = physKey m.backing.1 (m.backing.2 + m.off) + i →
      m.backing.1 = 1 ∧ s.linkDown (m.backing.2 + m.off + i) = true) :
    memRead (s.landed m c).mem x = memRead s.mem x := by
  rw [State.landed, State.memRead_putBacking _ _ _ _ rfl, State.linkDown_congr _ (State.logInput_dev ..), if_neg]
  · exact congrArg (memRead · x) (State.logInput_mem_of_off _ _ _ _ hx)
  · rintro ⟨hle, hlt, hd⟩
    exact hd (h _ (by omega) (by omega))

theorem State.messageEnds (m : SkeinMsg) (c : List Byte) :
    Claims.MessageEnds s (s.messageEnd m c) s.arg.unit m s.arg.bytes c := by
  unfold Claims.MessageEnds
  cases hok : m.ok with
  | false =>
    rw [State.messageEnd_of_stale m c hok]
    refine ⟨State.portAt_setPort_self _ _, fun _ => rfl, fun _ => rfl, fun _ => ⟨rfl, rfl⟩, nofun⟩
  | true =>
    rw [State.messageEnd_of_live m c hok]
    have hp : (s.landed m c).portAt s.arg.unit = { (s.portAt s.arg.unit).absorb c with msg := none } :=
      (State.portAt_congr _ (s.landed_ports m c)).trans (State.portAt_setPort_self _ _)
    have hh := s.landed_harts m c
    refine ⟨?_, fun h => ?_, fun h => ?_, nofun, fun _ => ⟨s.landed m c, s.landed_dev m c, s.memRead_landed m c,
      s.memRead_landed_of_outside m c, ?_⟩⟩
    · split
      · exact hp
      · exact hp
    · have hg : ((s.landed m c).hartAt h).g = (s.hartAt h).g := by rw [State.hartAt, State.hartAt, hh]
      split
      · exact (State.flipPhase_g _ _).trans hg
      · exact hg
    · rw [if_neg (by simp [h])]
      exact hh
    · dsimp only
      split
      · rw [State.flipPhase, State.handleAt, s.landed_dev m c]
      · rfl

/-- A message that arrives at port `a.unit` with its first flit of a message of `n` bytes. -/
theorem State.messageFlit_eq (n : Nat) (flit : List Byte) : s.messageFlit n flit =
    (let a := s.arg
     let e := s.handle (handleIndex a.addr)
     let live := e.hvalid && decide (e.gen = handleGen a.addr) && decide (n = 0 ∨ a.n + n ≤ e.size)
     let y := s.portAt a.unit
     s.setPort a.unit { y with
       pdig := crcBytes y.pdig flit
       pstale := if live then y.pstale else y.pstale + 1
       msg := some {
         index := handleIndex a.addr, gen := handleGen a.addr,
         backing := if a.flag then e.shadow else e.current,
         phase := e.phase, off := a.n, len := n, pubc := a.flag2, ok := live } }) := by
  simp only [State.messageFlit, Bool.decide_or]

theorem skeinMessage_port (h : s.arg.unit < 128) : exec .skeinMessage s = .next s.message :=
  congrArg Host.Outcome.next (if_pos h)

theorem skein_ignored (h : 128 ≤ s.arg.unit) :
    exec .skeinMessage s = .next s ∧ exec .skeinLinkTrain s = .next s ∧ exec .skeinLinkDown s = .next s :=
  ⟨congrArg Host.Outcome.next (if_neg (Nat.not_lt.2 h)), congrArg Host.Outcome.next (if_neg (Nat.not_lt.2 h)),
    congrArg Host.Outcome.next (if_neg (Nat.not_lt.2 h))⟩

theorem State.message_flit (hi : s.arg.index = 1) (hm : (s.portAt s.arg.unit).msg = none) :
    s.message = s.messageFlit s.arg.pa (s.arg.extra.take 32) := by
  unfold State.message
  simp [hi, hm]

theorem State.message_end (m : SkeinMsg) (hi : s.arg.index = 2) (hm : (s.portAt s.arg.unit).msg = some m)
    (hl : s.arg.bytes.length = m.len) : s.message = s.messageEnd m s.arg.extra := by
  unfold State.message
  simp [hi, hm, hl]

theorem State.message_other (h : (s.arg.index < 2 ∧ (s.portAt s.arg.unit).msg ≠ none) ∨
    (s.arg.index = 2 ∧ (s.portAt s.arg.unit).msg = none) ∨ 2 < s.arg.index) : s.message = s := by
  unfold State.message
  dsimp only
  split
  next hi hm => simp [hi, hm] at h
  next hi hm => simp [hi, hm] at h
  next hi hm => simp [hi, hm] at h
  · rfl

/-- A message that arrives whole. -/
theorem State.message_whole (hi : s.arg.index = 0) (hm : (s.portAt s.arg.unit).msg = none) (m : SkeinMsg)
    (h : ((s.messageFlit s.arg.bytes.length (s.arg.extra.take 32)).portAt s.arg.unit).msg = some m) :
    s.message = (s.messageFlit s.arg.bytes.length (s.arg.extra.take 32)).messageEnd m (s.arg.extra.drop 32) := by
  unfold State.message
  simp [hi, hm, h]

theorem skeinLinkTrain_clears (h : s.arg.unit < 128) : ∃ t, exec .skeinLinkTrain s = .next t ∧ t.portAt s.arg.unit =
    { pdig := 0, pmsg := 0, lup := true, llanes := BitVec.ofNat 2 (min 2 s.arg.n), pstale := 0, msg := none } :=
  ⟨_, congrArg Host.Outcome.next (if_pos h), State.portAt_setPort_self _ _⟩

theorem skeinLinkDown_downs (h : s.arg.unit < 128) : ∃ t, exec .skeinLinkDown s = .next t ∧
    t.portAt s.arg.unit = { s.portAt s.arg.unit with lup := false, msg := none } :=
  ⟨_, congrArg Host.Outcome.next (if_pos h), State.portAt_setPort_self _ _⟩

section TimedOut

variable {h : Nat}

/-! ## A hart's queue empties (R308) -/

theorem takeStore_of_mem {l : List QStore} {j : Nat} (h : j ∈ sliceSet l) :
    ∃ q rest, takeStore j l = some (q, rest) ∧ rest.length + 1 = l.length := by
  induction l with
  | nil => simp [sliceSet] at h
  | cons q l ih =>
    by_cases hq : q.slice = j
    · exact ⟨q, l, by rw [takeStore, if_pos hq], rfl⟩
    · have hm : j ∈ sliceSet l := by
        rw [sliceSet] at h
        split at h
        · exact h
        · exact (List.mem_cons.1 h).resolve_left fun e => hq e.symm
      obtain ⟨r, rest, e, hl⟩ := ih hm
      exact ⟨r, q :: rest, by rw [takeStore, if_neg hq, e], by simp [hl]⟩

theorem sliceSet_ne_nil {l : List QStore} (h : l ≠ []) : sliceSet l ≠ [] := by
  induction l with
  | nil => exact absurd rfl h
  | cons q l ih =>
    rw [sliceSet]
    split
    next hc =>
      intro e
      rw [e] at hc
      simp at hc
    · exact List.cons_ne_nil _ _

theorem State.pickSlice_mem (n : Nat) (hs : (s.hartAt h).stores ≠ []) :
    s.pickSlice h n ∈ sliceSet (s.hartAt h).stores := by
  have hne := sliceSet_ne_nil hs
  unfold State.pickSlice
  generalize sliceSet (s.hartAt h).stores = js at hne ⊢
  split
  · exact absurd rfl hne
  · simp
  · rw [List.getD_eq_getElem _ _ (Nat.mod_lt _ (List.length_pos_iff.2 hne))]
    exact List.getElem_mem _

theorem takeMerged_length {j g w : Nat} {l rest : List QStore} {q : QStore}
    (e : s.takeMerged j g w l = some (q, rest)) : rest.length ≤ l.length := by
  induction l generalizing rest with
  | nil => cases e
  | cons a l ih =>
    rw [State.takeMerged] at e
    split at e
    · cases e
      simp
    · split at e
      next er =>
        cases e
        exact Nat.succ_le_succ (ih er)
      · cases e

theorem Hart.putLate_stores (x : Hart) (l : LateLoad) (v : Nat) : (x.putLate l v).stores = x.stores := by
  unfold Hart.putLate
  split
  · split
    · split
      · rfl
      · rfl
    · rfl
  · rfl
  · split
    · rfl
    · rfl

theorem Hart.putBit_stores (x : Hart) (z : Option (Nat × Nat)) (b : Bool) : (x.putBit z b).stores = x.stores := by
  unfold Hart.putBit
  split
  · split
    · rfl
    · rfl
  · rfl

theorem State.birthWhole_harts (q : QStore) (rest : List QStore) : (s.birthWhole q rest).harts = s.harts := by
  unfold State.birthWhole
  split
  · split
    · rfl
    · rfl
  · rfl

/-- A stamp and its record leave every hart. -/
theorem State.sync_hartAt (k i : Nat) : (s.sync k i).hartAt h = s.hartAt h :=
  (accessed_sync (h := h + 1) k i).others h (by omega)

theorem State.perform_stores (q : QStore) (rest : List QStore) : ((s.perform h q rest).hartAt h).stores = rest := by
  unfold State.perform
  split
  · rw [State.performLoad, State.hartAt_setHart_self, Hart.putBit_stores, Hart.putLate_stores]
  · unfold State.performAdd
    rw [State.hartAt, State.birthWhole_harts]
    split
    · exact congrArg Hart.stores (State.hartAt_setHart_self _ _ _)
    · exact congrArg Hart.stores ((State.sync_hartAt _ _).trans (State.hartAt_setHart_self _ _ _))
  · unfold State.performStore
    rw [State.hartAt, State.birthWhole_harts]
    exact congrArg Hart.stores (State.hartAt_setHart_self _ _ _)

theorem State.mergeWord_stores_le (j g w n : Nat) :
    ((s.mergeWord h j g w n).hartAt h).stores.length ≤ (s.hartAt h).stores.length := by
  induction n generalizing s with
  | zero => exact le_rfl
  | succ n ih =>
    unfold State.mergeWord
    split
    next e => exact ih.trans (by rw [State.perform_stores]; exact takeMerged_length e)
    · exact le_rfl

/-- Each store that performs leaves the queue. -/
theorem State.performOne_stores_lt (n : Nat) (hs : (s.hartAt h).stores ≠ []) :
    ((s.performOne h (s.pickSlice h n)).hartAt h).stores.length < (s.hartAt h).stores.length := by
  obtain ⟨q, rest, e, hl⟩ := takeStore_of_mem (State.pickSlice_mem n hs)
  unfold State.performOne
  rw [e]
  dsimp only
  split
  · rw [State.perform_stores]
    omega
  · refine lt_of_le_of_lt (State.mergeWord_stores_le ..) ?_
    rw [State.perform_stores]
    omega

theorem State.drainN_stores (n : Nat) (hn : (s.hartAt h).stores.length ≤ n) :
    ((s.drainN h n).hartAt h).stores = [] := by
  induction n generalizing s with
  | zero => exact List.length_eq_zero_iff.1 (Nat.le_zero.1 hn)
  | succ n ih =>
    refine ih ?_
    by_cases hs : (s.hartAt h).stores = []
    · simp [State.performOne, hs, takeStore]
    · have := State.performOne_stores_lt n hs
      omega

@[simp] theorem State.drain_stores : ((s.drain h).hartAt h).stores = [] := State.drainN_stores _ le_rfl

/-! ## What stopping a hart leaves of the others -/

theorem State.noteLeaf_hartAt (c : Ctx) (va : Nat) (w : Bool) (l : Option (Nat × Nat × Bool)) (k : Nat) :
    (s.noteLeaf c va w l).hartAt k = s.hartAt k :=
  (accessed_noteLeaf (h := k + 1) c va w l).others k (by omega)

theorem State.addChain_harts (off n : Nat) (l : List Nat) : (s.addChain off n l).harts = s.harts := by
  induction l generalizing s with
  | nil => rfl
  | cons b l ih => exact ih

theorem State.recordReject_harts (ch : List Nat) (r : Nat) : (s.recordReject ch r).harts = s.harts := by
  unfold State.recordReject
  split
  · rfl
  · exact State.addChain_harts ..

theorem State.shsyncPart_harts : (s.shsyncPart h).harts = s.harts := by
  unfold State.shsyncPart
  dsimp only
  split
  · split
    · split
      · rfl
      · split
        · rfl
        · rfl
    · rfl
  · rfl

/-- A hart withdrawn from a wait runs; nothing else of it changes. -/
theorem State.withdraw_hartAt_self : ∃ r, (s.withdraw h).hartAt h = { s.hartAt h with run := r } := by
  have e : (s.shsyncPart h).hartAt h = s.hartAt h := by rw [State.hartAt, State.shsyncPart_harts]; rfl
  unfold State.withdraw
  dsimp only
  split
  · split
    · exact ⟨.running, (State.hartAt_setHart_self _ _ _).trans (by rw [e])⟩
    · exact ⟨.running, (State.hartAt_setHart_self _ _ _).trans (by rw [e])⟩
  · exact ⟨(s.hartAt h).run, e⟩

theorem State.withdraw_hartAt_ne {k : Nat} (hk : k ≠ h) : (s.withdraw h).hartAt k = s.hartAt k := by
  have e : (s.shsyncPart h).hartAt k = s.hartAt k := by rw [State.hartAt, State.shsyncPart_harts]; rfl
  unfold State.withdraw
  dsimp only
  split
  · split
    · exact (State.hartAt_setHart_ne _ _ hk).trans e
    · exact (State.hartAt_setHart_ne _ _ hk).trans e
  · exact e

theorem State.writeImage_hartAt {t : State} {pc : Word} {full : Bool}
    (e : s.writeImage h pc full = some t) (k : Nat) :
    t.hartAt k = s.hartAt k := by
  unfold State.writeImage at e
  dsimp only at e
  split at e
  · cases e
  · split at e
    · cases e
    · cases e
      refine List.foldlRecOn (motive := fun u : State => u.hartAt k = s.hartAt k) _ _ rfl fun u hu p _ => ?_
      exact (State.noteLeaf_hartAt ..).trans hu

theorem State.charge_harts (rcb : Nat) : (s.charge rcb).harts = s.harts := by
  unfold State.charge
  split
  · rfl
  · split
    · exact State.addChain_harts ..
    · rfl

theorem State.noteImage_harts (phase : Phase) (frame kind : Nat) (pc : Word) :
    (s.noteImage h phase frame kind pc).harts = s.harts := by
  unfold State.noteImage
  dsimp only
  split
  · rfl
  · rfl

theorem State.publishTrace_harts (cl : Nat) : (s.publishTrace cl).harts = s.harts := by
  have hc : ((List.range 8).foldl (fun (s : State) i => s.publishCounters (8 * cl + i)) s).harts = s.harts := by
    refine List.foldlRecOn (motive := fun u : State => u.harts = s.harts) _ _ rfl fun u hu i _ => ?_
    unfold State.publishCounters
    dsimp only
    split
    · exact hu
    · exact hu
  unfold State.publishTrace State.publishHead
  dsimp only
  split
  · exact hc
  · exact hc

theorem State.halt_hartAt_self : (s.halt h).hartAt h = { s.hartAt h with run := .stopped, lim := none } := by
  rw [State.halt, State.traceStop, State.hartAt, State.publishTrace_harts]
  exact State.hartAt_setHart_self _ _ _

theorem State.halt_hartAt_ne {k : Nat} (hk : k ≠ h) : (s.halt h).hartAt k = s.hartAt k := by
  rw [State.halt, State.traceStop, State.hartAt, State.publishTrace_harts]
  exact State.hartAt_setHart_ne _ _ hk

/-! ## Fault records leave the harts (R326) -/

theorem State.writeVa_hartAt {t : State} {c : Ctx} {va : Nat} {bs : List Byte}
    (e : s.writeVa c va bs = some t) (k : Nat) :
    t.hartAt k = s.hartAt k := by
  induction bs generalizing s va with
  | nil => cases e; rfl
  | cons b bs ih =>
    unfold State.writeVa at e
    split at e
    · exact (ih e).trans (State.noteLeaf_hartAt ..)
    · exact (ih e).trans (State.noteLeaf_hartAt ..)
    · cases e

theorem State.enqueue_harts (die a : Nat) : (s.enqueue die a).1.harts = s.harts := by
  unfold State.enqueue
  dsimp only
  split
  · exact State.recordReject_harts ..
  · split
    · rfl
    · split
      · exact State.recordReject_harts ..
      · split
        · exact State.recordReject_harts ..
        · split
          · exact State.recordReject_harts ..
          · exact State.addChain_harts ..

theorem State.toHandler_hartAt (die handler : Nat) (core : Option Nat) (r : List Byte) (k : Nat) :
    (s.toHandler die handler core r).hartAt k = s.hartAt k := by
  unfold State.toHandler
  dsimp only
  split
  · rfl
  next t e =>
    have ht : t.hartAt k = s.hartAt k := by
      split at e
      · exact State.writeVa_hartAt e k
      · cases e
    have hq : (t.enqueue die handler).1.hartAt k = s.hartAt k := by
      rw [State.hartAt, State.enqueue_harts]
      exact ht
    split
    next e1 =>
      rw [e1] at hq
      split
      · exact hq
      · exact hq
    next e1 =>
      rw [e1] at hq
      exact hq

theorem State.deliver_hartAt (t : Task) (rcb : Nat) (r : List Byte) (k : Nat) :
    (s.deliver t rcb r).hartAt k = s.hartAt k := by
  have ha : (s.addChain 0xA0 1 t.eff.chain).hartAt k = s.hartAt k := by rw [State.hartAt, State.addChain_harts]; rfl
  unfold State.deliver
  dsimp only
  split
  · exact ha
  · split
    · exact ha
    · exact (State.toHandler_hartAt ..).trans ha

theorem State.recordForward_hartAt (cause : Nat) (val : Word) (dbl : Bool) (pc : Word) (frame kind k : Nat) :
    (s.recordForward h cause val dbl pc frame kind).hartAt k = s.hartAt k := by
  unfold State.recordForward
  dsimp only
  split
  · rfl
  · exact State.deliver_hartAt ..

/-! ## A hart stops with its exception forwarded (R326, R333) -/

/-- The accesses of the hart have performed when it stops, and its promise of a pre-emption is gone. -/
theorem State.stopForward_hartAt_self (pc : Word) :
    (s.stopForward h pc).1.hartAt h =
      { (((s.withdraw h).drain h).clearPre h).hartAt h with run := .stopped, lim := none } := by
  unfold State.stopForward
  generalize ((s.withdraw h).drain h).clearPre h = u
  dsimp only
  rw [State.halt_hartAt_self, State.hartAt, State.noteImage_harts, State.charge_harts]
  split
  next e => exact congrArg (fun x : Hart => { x with run := .stopped, lim := none }) (State.writeImage_hartAt e h)
  · rfl

theorem State.stopForward_hartAt_ne {k : Nat} (hk : k ≠ h) (pc : Word) :
    (s.stopForward h pc).1.hartAt k = s.hartAt k := by
  have hu : (((s.withdraw h).drain h).clearPre h).hartAt k = s.hartAt k :=
    (State.hartAt_setHart_ne _ _ hk).trans ((accessed_drain.others k hk).trans (State.withdraw_hartAt_ne hk))
  unfold State.stopForward
  generalize ((s.withdraw h).drain h).clearPre h = u at hu ⊢
  dsimp only
  rw [State.halt_hartAt_ne hk, State.hartAt, State.noteImage_harts, State.charge_harts]
  split
  next e => exact (State.writeImage_hartAt e k).trans hu
  · exact hu

theorem State.forwardHart_hartAt (cause : Nat) (val : Word) (dbl : Bool) (pc : Word) (k : Nat) :
    (s.forwardHart h cause val dbl pc).hartAt k = (s.stopForward h pc).1.hartAt k :=
  State.recordForward_hartAt ..

theorem partnerOf_ne (h : Nat) : h ≠ partnerOf h := by
  unfold partnerOf slotOf
  split
  · omega
  · omega

theorem State.stopPartner_hartAt_self (cause : Nat) : (s.stopPartner h cause).hartAt h = s.hartAt h := by
  unfold State.stopPartner
  dsimp only
  split
  · split
    · exact (State.recordForward_hartAt ..).trans (State.stopForward_hartAt_ne (partnerOf_ne h) _)
    · exact State.stopForward_hartAt_ne (partnerOf_ne h) _
  · rfl

theorem State.directForward_hartAt_self (cause : Nat) (val : Word) (dbl : Bool) (pc : Word) :
    (s.directForward h cause val dbl pc).hartAt h =
      { (((s.withdraw h).drain h).clearPre h).hartAt h with run := .stopped, lim := none } :=
  (State.stopPartner_hartAt_self _).trans ((State.forwardHart_hartAt ..).trans (State.stopForward_hartAt_self _))

/-- What is left of a hart that its own exception stopped. -/
theorem State.directForward_stops (cause : Nat) (val : Word) (dbl : Bool) (pc : Word) :
    let y := (s.directForward h cause val dbl pc).hartAt h
    y.run = .stopped ∧ y.stores = [] ∧ ((s.hartAt h).hasLate = false → y.g = (s.hartAt h).g) ∧
      y.tr = { (s.hartAt h).tr with ppend := false } := by
  obtain ⟨r, hr⟩ := s.withdraw_hartAt_self (h := h)
  have hd : Accessed h (s.withdraw h) ((s.withdraw h).drain h) := accessed_drain
  obtain ⟨q, d, g, v, k, hx⟩ := hd.hart
  rw [State.directForward_hartAt_self, State.clearPre, State.hartAt_setHart_self]
  refine ⟨rfl, State.drain_stores, fun hl => ?_, ?_⟩
  · refine (hd.g_eq ?_).trans ?_
    · rw [hr]
      exact hl
    · rw [hr]
  · rw [hx, hr]

/-- A machine check is no exception of the hart's own handler (R322): it stops the hart. -/
theorem State.takeTrap_machineCheck (val resume : Word) : s.takeTrap h 25 val resume false =
    ((s.withdraw h).setHart h
      { (s.withdraw h).hartAt h with run := .running, lim := none }).directForward h 25 val false resume := by
  unfold State.takeTrap
  dsimp only
  rw [if_neg (by simp), if_pos (by simp)]

theorem State.takeTrap_machineCheck_stops (val resume : Word) :
    let y := (s.takeTrap h 25 val resume false).hartAt h
    y.run = .stopped ∧ y.stores = [] ∧ ((s.hartAt h).hasLate = false → y.g = (s.hartAt h).g) ∧
      y.tr = { (s.hartAt h).tr with ppend := false } := by
  rw [State.takeTrap_machineCheck]
  obtain ⟨r, hw⟩ := s.withdraw_hartAt_self (h := h)
  rw [hw]
  generalize s.withdraw h = u
  have hu := (u.setHart h
    { s.hartAt h with run := .running, lim := none }).directForward_stops (h := h) 25 val false resume
  rw [State.hartAt_setHart_self] at hu
  exact hu

theorem hostCompletionTimeout_stops (hr : (s.hartAt s.arg.hart).run.active = true)
    (hb : (s.hartAt s.arg.hart).atBarrier = false) : ∃ t, exec .hostCompletionTimeout s = .next t ∧
      (t.hartAt s.arg.hart).run = .stopped ∧ (t.hartAt s.arg.hart).stores = [] ∧
      ((s.hartAt s.arg.hart).hasLate = false → (t.hartAt s.arg.hart).g = (s.hartAt s.arg.hart).g) ∧
      (t.hartAt s.arg.hart).tr = { (s.hartAt s.arg.hart).tr with ppend := false } :=
  ⟨_, congrArg Host.Outcome.next (if_pos (by simp [hr, hb])), State.takeTrap_machineCheck_stops _ _⟩

theorem hostCompletionTimeout_idle
    (h : (s.hartAt s.arg.hart).run.active = false ∨ (s.hartAt s.arg.hart).atBarrier = true) :
    exec .hostCompletionTimeout s = .next s := by
  refine congrArg Host.Outcome.next (if_neg ?_)
  rcases h with h | h
  · simp [h]
  · simp [h]

end TimedOut

end HostEvents

theorem skeinMessage_other {s : State} (h : (s.arg.index < 2 ∧ (s.portAt s.arg.unit).msg ≠ none) ∨
    (s.arg.index = 2 ∧ (s.portAt s.arg.unit).msg = none) ∨ 2 < s.arg.index) : exec .skeinMessage s = .next s := by
  rcases Nat.lt_or_ge s.arg.unit 128 with hu | hu
  · rw [skeinMessage_port hu, State.message_other h]
  · exact (skein_ignored hu).1

/-- Settles O57, conjunct by conjunct with the lemmas above. -/
theorem hostEvents : Obligations.HostEvents := by
  unfold Obligations.HostEvents
  intro s a inBar
  refine ⟨hostBar2Write_lands, hostBar2Write_refused, hostBar2Read_memory, hostBar2Read_status, hostBar2Read_safe,
    ⟨hostAtomicop_performs, hostAtomicop_refused⟩, statusRw1cWrite_clears,
    ⟨hostCompletionTimeout_stops, hostCompletionTimeout_idle⟩, cxlLinkDown_clears,
    ⟨skein_ignored, fun hu hi hm => ?_, fun hu hi hm => ?_, fun m hu hi hm hl => ?_, skeinMessage_other⟩,
    skeinLinkTrain_clears, skeinLinkDown_downs,
    ⟨xlogControlWrite_base, xlogControlWrite_size, xlogControlWrite_enabled⟩, rfl, handleGenerationAdvance_sets⟩
  · refine ⟨_, skeinMessage_port hu, ?_⟩
    rw [State.message_whole hi hm _
      (by rw [State.messageFlit_eq]; exact congrArg Port.msg (State.portAt_setPort_self _ _)), State.messageFlit_eq]
    exact State.messageEnds ..
  · rw [skeinMessage_port hu, State.message_flit hi hm, State.messageFlit_eq]
  · exact ⟨_, skeinMessage_port hu, by rw [State.message_end m hi hm hl]; exact State.messageEnds ..⟩

end Sys2Proof.Machine

/-! # Launches, code objects and the reset state (O51, O52, O60) -/

namespace Sys2Proof.Machine

/-! ## The state after reset (R72, R73, R330, R369) -/

@[simp] theorem State.clusterAt_reset (c : Nat) : State.reset.clusterAt c = Cluster.init := rfl

@[simp] theorem State.hartAt_reset (h : Nat) : State.reset.hartAt h = Hart.init := rfl

theorem Dirty.init_word : Dirty.init.word = 3 := by decide

theorem Hart.init_g (r : Fin 32) : Hart.init.g[r] = 0 := Vector.getElem_replicate _

/-- Settles O60: no table lists anything at reset, so every slot reads its initial value. -/
theorem resetState : Obligations.ResetState := by
  unfold Obligations.ResetState
  refine ⟨memWf_nil, rfl, rfl, rfl, rfl, rfl, rfl, rfl, rfl, fun c => ?_, fun h => ?_, memRead_nil⟩
  · rw [State.clusterAt_reset]
    exact ⟨rfl, rfl, rfl, rfl⟩
  · rw [State.hartAt_reset]
    exact ⟨rfl, Dirty.init_word, rfl, Hart.init_g⟩

/-! ## A preload notes its tick after its cluster's stores have performed (R76, R320) -/

theorem State.task?_setTask_self (s : State) (r : Nat) (t : Task) : (s.setTask r t).task? r = some t := by
  show tfind (tset s.tasks r t) r = some t
  induction s.tasks with
  | nil => simp [tset, tfind]
  | cons p l ih =>
    rw [tset]
    split
    · simp [tfind]
    · split
      · simp [tfind]
      next hne => simp [tfind, hne, ih]

/-- The stores of the core's cluster perform before the task is bound, and a release write among them takes a sync
stamp (R358), which may come a tick later: `preAt` is the tick after that. -/
theorem State.preloadHead_preAt {s : State} {die p core rcb : Nat} {k : Task} (hh : s.headOf die p = some rcb)
    (ht : s.task? rcb = some k) (hb : s.blocked die p = false) (hc : s.canPreload die core rcb k.eff = true)
    (hr : s.launchReason (s.chainOf rcb 8).1 (s.chainOf rcb 8).2 = 0)
    (he : s.canPreload die core rcb (s.effVals (s.chainOf rcb 8).1) = true) :
    ∃ k', (s.preloadHead die p core).task? rcb = some k' ∧ k'.preAt = (s.quiet (core / 4)).tick := by
  obtain ⟨hz, hhz⟩ : ∃ hz, s.hazeRun (core / 4) rcb (s.tilesOf (s.effVals (s.chainOf rcb 8).1)) = some hz := by
    rw [← Option.isSome_iff_exists]
    simp only [State.canPreload, Bool.and_eq_true] at he
    exact he.1.2
  unfold State.preloadHead
  simp only [hh, ht, hb, hc, hr, he, hhz, Bool.not_true, Bool.or_self, Bool.false_eq_true, if_false, if_true, ne_eq,
    not_true_eq_false]
  refine ⟨_, State.task?_setTask_self _ _ _, ?_⟩
  rw [State.rcbStatus, State.dropQueue, State.setHbm_tick, State.setDie_tick]

/-- A legal file (R18-R24) of profile 0 with one code section of eight bytes; its bytes that are not 0. -/
def oneSectionFile : List Byte := (List.range 0x7C).map <| tget 0
  [(0x00, 0x46), (0x01, 0x58), (0x02, 0x4F), (0x04, 1), (0x06, 1), (0x10, 1), (0x12, 8), (0x20, 0x50), (0x24, 1),
    (0x28, 0x54), (0x2C, 1), (0x51, 1), (0x54, 1), (0x55, 3), (0x5C, 0x74), (0x64, 8)]

/-- What the block of a root region at `a` says whose words are 0 but for its version and its task bit (R11). -/
def rootVals (a : Nat) : EffVals :=
  { split := false, prio := 0, decl := 0, lgreq := 0, fdom := 0, fzen := false, fzidx := 0, fhandler := 0, ptroot := 0,
    code := 0, entry := 0, entry2 := 0, arg := 0, segs := 0, preSegs := 0, segimg := 0, done := 0, chain := [a],
    limits := [(0, 0)] }

/-- A release write handed to its slice and not yet performed (R310, R348). -/
def queuedRelease : QStore :=
  { slice := 0, group := 0, rel := true, tgt := .phys 0 0x1000, va := 0, bytes := [1], mask := [], whole := none }

/-- Reduced service at tick 0, whose sixteen stamps are given (R358). The task of the root block at 0x100 runs on core 0,
its hart's release write still to perform; that of the root block at 0x200 waits at the head of queue 0. -/
def releasing : State :=
  { State.reset with
    mem := [(0x100, 1), (0x101, 1), (0x1B8, 1), (0x200, 1), (0x201, 1), (0x2B8, 1)]
    harts := [(0, { Hart.init with run := .running, rcb := 0x100, stores := [queuedRelease] })]
    dies := [(0, { Die.init with queues := Die.init.queues.set 0 [QEntry.fresh 0x200] })]
    tasks := [(0x100, { Task.queued (rootVals 0x100) 0 0 with phase := .running }),
      (0x200, Task.queued (rootVals 0x200) 0 0)]
    codes := [(0, { CodeObj.init with loaded := true, fxo := oneSectionFile })]
    status := { Status.init with bstate := 4, dclus := BitVec.allOnes 128 }
    stamp := 15 }

/-- The release write takes the first stamp of tick 1. -/
theorem releasing_quiet_tick : (releasing.quiet 0).tick = 1 := by decide +kernel

/-- Refutes O51: the statement has a preload bind the head with `preAt` the tick it finds. In `releasing` the cluster's
release write performs first and its stamp falls in the next tick, so `preAt` is 1 and not 0. -/
theorem not_launchEvents : ¬ Obligations.LaunchEvents := by
  unfold Obligations.LaunchEvents
  intro holds
  obtain ⟨-, -, -, -, -, atWork, -⟩ := holds releasing
  obtain ⟨-, binds⟩ := atWork (by decide +kernel)
  have hh : releasing.headOf 0 0 = some 0x200 := by decide +kernel
  have ht : releasing.task? 0x200 = some (Task.queued (rootVals 0x200) 0 0) := rfl
  have hb : releasing.blocked 0 0 = false := by decide +kernel
  have hc : releasing.canPreload 0 0 0x200 (rootVals 0x200) = true := by decide +kernel
  have hr : releasing.launchReason (releasing.chainOf 0x200 8).1 (releasing.chainOf 0x200 8).2 = 0 := by decide +kernel
  have he : releasing.canPreload 0 0 0x200 (releasing.effVals (releasing.chainOf 0x200 8).1) = true := by decide +kernel
  obtain ⟨t, k, ran, hk, -, -, -, -, -, atTick, -⟩ := binds 0x200 _ hh ht hb hc hr he
  obtain ⟨k', hk', after⟩ := State.preloadHead_preAt hh ht hb hc hr he
  have ht' : releasing.preloadHead 0 0 0 = t := Host.Outcome.next.inj ran
  have same : k' = k := Option.some.inj (hk'.symm.trans (ht' ▸ hk))
  have tick : releasing.tick = 1 := by
    rw [← atTick, ← same, after]
    exact releasing_quiet_tick
  exact absurd tick (by decide)

/-! ## A forced unload where the task table lists a block twice (R30) -/

/-- A forced unload while a hart that it waits for has not stopped leaves its second part undone. -/
theorem State.unloadEnd_waits {s : State} {idx : Nat}
    (h : s.harts.any (fun p => s.unloadWaits idx (((s.codeAt idx).gen + 65535) % 65536) p.1) = true) :
    s.unloadEnd idx = s := if_pos h

/-- Hart 0 runs the task of the block at 0x100, whose code object is 1; a second entry of that block, which no lookup
finds, names object 0. The keys of the task table do not rise, which the quantifier over all states allows. -/
def listedTwice : State :=
  { State.reset with
    harts := [(0, { Hart.init with run := .running, rcb := 0x100 })]
    tasks := [(0x100, { Task.queued { rootVals 0x100 with code := 1 } 0 0 with phase := .running }),
      (0x100, { Task.queued (rootVals 0x100) 0 0 with phase := .running })]
    codes := [(0, { CodeObj.init with loaded := true })] }

/-- Refutes O52: the statement has a forced unload free the index at once where no hart executes in the object. The
unload marks each running task of the object as dying and writes it back under its block: in `listedTwice` the second
entry so replaces the first, the hart's task then names the object, and the unload waits for the hart. -/
theorem not_codeObjectEvents : ¬ Obligations.CodeObjectEvents := by
  unfold Obligations.CodeObjectEvents
  intro holds
  obtain ⟨-, -, loaded⟩ := holds listedTwice
  obtain ⟨-, -, frees, -, -⟩ := loaded rfl
  have outside : ∀ p ∈ listedTwice.harts,
      listedTwice.hartIn 0 0 p.1 = false ∧ listedTwice.unloadWaits 0 0 p.1 = false := by decide +kernel
  obtain ⟨t, ran, freed⟩ := frees rfl (by decide) outside
  have waits : (listedTwice.unloadBegin 0).unloadEnd 0 = listedTwice.unloadBegin 0 :=
    State.unloadEnd_waits (by decide +kernel)
  have begun : listedTwice.unloadBegin 0 = t := waits.symm.trans (Host.Outcome.next.inj ran)
  have kept : ((listedTwice.unloadBegin 0).codeAt 0).loaded = true := by decide +kernel
  rw [begun] at kept
  exact absurd ((congrArg CodeObj.loaded freed).symm.trans kept) (by decide)

end Sys2Proof.Machine

/-! # Work requests (O30) -/

namespace Sys2Proof.Machine

section WorkRequests

variable {s u : State}

/-! ## Accesses and enqueueing leave the turn and the PC -/

theorem Accessed.turn_eq {h : Nat} {t : State} (a : Accessed h s t) : t.turn = s.turn := by
  obtain ⟨_, _, _, _, _, _, _, _, _, e⟩ := a.only
  rw [e]

/-- No access moves the PC of the hart that has it. -/
theorem Accessed.cur_pc {t : State} (a : Accessed s.turn s t) : t.cur.pc = s.cur.pc := by
  obtain ⟨_, _, _, _, _, e⟩ := a.hart
  rw [State.cur, a.turn_eq, e]
  rfl

theorem accessed_rcbNote (h va : Nat) : Accessed h s (s.rcbNote va) := by
  unfold State.rcbNote
  split
  · exact accessed_noteLeaf ..
  · exact .refl

theorem State.addChain_turn (off n : Nat) (l : List Nat) : (s.addChain off n l).turn = s.turn := by
  induction l generalizing s with
  | nil => rfl
  | cons b l ih => exact ih

theorem State.recordReject_turn (ch : List Nat) (r : Nat) : (s.recordReject ch r).turn = s.turn := by
  unfold State.recordReject
  split
  · rfl
  · exact State.addChain_turn ..

theorem State.enqueue_turn (die a : Nat) : (s.enqueue die a).1.turn = s.turn := by
  unfold State.enqueue
  dsimp only
  split
  · exact State.recordReject_turn ..
  · split
    · rfl
    · split
      · exact State.recordReject_turn ..
      · split
        · exact State.recordReject_turn ..
        · split
          · exact State.recordReject_turn ..
          · exact State.addChain_turn ..

theorem State.enqueue_cur (die a : Nat) : (s.enqueue die a).1.cur = s.cur := by
  rw [State.cur, State.enqueue_turn, State.hartAt, State.enqueue_harts]
  rfl

/-- A register write leaves the rest of its hart. -/
theorem State.cur_setG_eq (d : Reg) (v : Word) : ∃ g, (s.setG d v).cur = { s.cur with g := g } := by
  rw [State.cur_setG]
  split
  · exact ⟨_, rfl⟩
  · exact ⟨_, rfl⟩

theorem State.setG_pc (d : Reg) (v : Word) : (s.setG d v).cur.pc = s.cur.pc := by
  obtain ⟨g, e⟩ := s.cur_setG_eq d v
  rw [e]

/-! ## spawn (R64, R103) -/

theorem spawn_noBlock {d a : Reg} (hx : s.isExec s.turn = false) (hb : (s.drain s.turn).rcbOf (s.g a).toNat = none) :
    Completes (.spawn d a) s ((s.drain s.turn).setG d 4) (s.cur.pc + 4) := by
  have he : spawnEff s d a = .done ((s.drain s.turn).setG d 4) := by simp [spawnEff, hx, hb]
  have hpc : ((s.drain s.turn).setG d 4).cur.pc = s.cur.pc := (State.setG_pc ..).trans accessed_drain.cur_pc
  exact hpc ▸ completes_done s he rfl

theorem spawn_enqueues {d a : Reg} {rcb : Nat} (hx : s.isExec s.turn = false)
    (hb : (s.drain s.turn).rcbOf (s.g a).toNat = some rcb) :
    let r := ((s.drain s.turn).rcbNote (s.g a).toNat).enqueue (s.turn / 512) rcb
    Completes (.spawn d a) s ((r.1.sync s.turn 8).setG d (BitVec.ofNat 64 r.2)) (s.cur.pc + 4) := by
  intro r
  have hd : Accessed s.turn s (s.drain s.turn) := accessed_drain
  have hn : Accessed s.turn s ((s.drain s.turn).rcbNote (s.g a).toNat) := hd.trans (accessed_rcbNote ..)
  have ht : r.1.turn = s.turn := (State.enqueue_turn ..).trans hn.turn_eq
  have he : spawnEff s d a = .done ((r.1.sync s.turn 8).setG d (BitVec.ofNat 64 r.2)) := by
    simp only [spawnEff, hx, hb, hd.turn_eq, dieOf, Bool.false_eq_true, if_false]
    rw [show (((s.drain s.turn).rcbNote (s.g a).toNat).enqueue (s.turn / 512) rcb).1.turn = s.turn from ht]
    rfl
  have hc : r.1.cur.pc = s.cur.pc := (congrArg Hart.pc (State.enqueue_cur ..)).trans hn.cur_pc
  have hs : Accessed r.1.turn r.1 (r.1.sync s.turn 8) := accessed_sync ..
  have hpc : ((r.1.sync s.turn 8).setG d (BitVec.ofNat 64 r.2)).cur.pc = s.cur.pc :=
    (State.setG_pc ..).trans (hs.cur_pc.trans hc)
  exact hpc ▸ completes_done s he rfl

theorem spawn_traps {d a : Reg} (hx : s.isExec s.turn = true) (hr : s.cur.run = .running) (ht : s.trapsHere) :
    Takes (.spawn d a) s s 2 0 s.cur.pc :=
  takes_trap s (if_pos hx) rfl hr ht (by decide)

/-! ## The tasks of other blocks drop from the queues and preloads (R68, R77) -/

theorem tfind_tset_ne {α : Type} (t : Table α) {i j : Nat} (v : α) (h : j ≠ i) : tfind (tset t i v) j = tfind t j := by
  induction t with
  | nil => simp [tset, tfind, h.symm]
  | cons p t ih =>
    obtain ⟨k, w⟩ := p
    rw [tset]
    split
    · simp [tfind, h.symm]
    · split
      next hk => simp [tfind, hk, h.symm]
      · simp [tfind, ih]

/-- From `u` to `s` the harts and the turn are as they were, the block `rcb` is found to be the task `k`, and every entry
of it runs: what the dispatcher does to preloads and queued tasks passes it by. -/
structure StillRuns (rcb : Nat) (k : Task) (u s : State) : Prop where
  harts : s.harts = u.harts
  turn : s.turn = u.turn
  found : s.task? rcb = some k
  running : ∀ p ∈ s.tasks, p.1 = rcb → p.2.phase = .running

variable {rcb : Nat} {k : Task}

/-- A task of another block changes. -/
theorem StillRuns.setTask (h : StillRuns rcb k u s) {r : Nat} (x : Task) (hr : r ≠ rcb) :
    StillRuns rcb k u (s.setTask r x) where
  harts := h.harts
  turn := h.turn
  found := (tfind_tset_ne _ _ hr.symm).trans h.found
  running p hp e := by
    rcases tset_keys _ _ _ _ hp with rfl | hp
    · exact absurd e hr
    · exact h.running p hp e

/-- An entry in another phase is another block's. -/
theorem StillRuns.ne_of_phase (h : StillRuns rcb k u s) {r : Nat} {t : Task} (hm : (r, t) ∈ s.tasks)
    (hp : t.phase ≠ .running) : r ≠ rcb := fun e => hp (h.running _ hm e)

theorem StillRuns.joinRerun (h : StillRuns rcb k u s) (c : Nat) : StillRuns rcb k u (s.joinRerun c) := by
  refine List.foldlRecOn (motive := StillRuns rcb k u) _ _ h fun v hv p hp => ?_
  obtain ⟨r, t⟩ := p
  dsimp only
  split
  next hc =>
    have hr : t.phase = .rerun := by simp at hc; exact hc.2
    have hs := hv.setTask { t with phase := .queued, core := 0 } (h.ne_of_phase hp (by simp [hr]))
    exact ⟨hs.harts, hs.turn, hs.found, hs.running⟩
  · exact hv

theorem StillRuns.dropPreload (h : StillRuns rcb k u s) {r : Nat} (t : Task) (hr : r ≠ rcb) :
    StillRuns rcb k u (s.dropPreload r t) := by
  refine StillRuns.joinRerun ?_ _
  have hs := h.setTask (r := r)
    { t with phase := .queued, core := 0, segs := 0, hzBase := 0, hzTiles := 0, toCopy := 0, blocks := false } hr
  exact ⟨hs.harts, hs.turn, hs.found, hs.running⟩

theorem StillRuns.dropPreloads (h : StillRuns rcb k u s) (c : Nat) : StillRuns rcb k u (s.dropPreloads c) := by
  refine List.foldlRecOn (motive := StillRuns rcb k u) _ _ h fun v hv p hp => ?_
  obtain ⟨r, t⟩ := p
  dsimp only
  split
  next hc =>
    have hr : t.phase = .preloaded := by simp at hc; exact hc.2
    exact hv.dropPreload t (h.ne_of_phase hp (by simp [hr]))
  · exact hv

/-! ## Requests for pre-emption (R332) -/

/-- A hart with a request for its pre-emption pending. -/
def Hart.asked (x : Hart) : Hart := { x with tr := { x.tr with ppend := true } }

theorem State.requestPre_running {h : Nat} (hr : (s.hartAt h).run = .running) :
    s.requestPre h = s.setHart h (s.hartAt h).asked := by
  simp [State.requestPre, hr, Hart.asked]

theorem State.requestPre_hartAt_ne {h j : Nat} (hj : j ≠ h) : (s.requestPre h).hartAt j = s.hartAt j := by
  unfold State.requestPre
  dsimp only
  split
  · exact State.hartAt_setHart_ne _ _ hj
  · exact State.hartAt_setHart_ne _ _ hj
  · rfl

theorem State.requestPre_turn_tasks (h : Nat) : (s.requestPre h).turn = s.turn ∧ (s.requestPre h).tasks = s.tasks := by
  unfold State.requestPre
  dsimp only
  split
  · exact ⟨rfl, rfl⟩
  · exact ⟨rfl, rfl⟩
  · exact ⟨rfl, rfl⟩

theorem State.foldl_requestPre_turn_tasks (l : List Nat) :
    (l.foldl (fun s h => s.requestPre h) s).turn = s.turn ∧ (l.foldl (fun s h => s.requestPre h) s).tasks = s.tasks := by
  refine List.foldlRecOn (motive := fun v : State => v.turn = s.turn ∧ v.tasks = s.tasks) _ _ ⟨rfl, rfl⟩ fun v hv h _ => ?_
  obtain ⟨ht, hk⟩ := State.requestPre_turn_tasks (s := v) h
  exact ⟨ht.trans hv.1, hk.trans hv.2⟩

/-- A running hart among those asked has the request, once. -/
theorem State.foldl_requestPre_hartAt (l : List Nat) (j : Nat) (hr : (s.hartAt j).run = .running) :
    (l.foldl (fun s h => s.requestPre h) s).hartAt j = if j ∈ l then (s.hartAt j).asked else s.hartAt j := by
  induction l generalizing s with
  | nil => rfl
  | cons h l ih =>
    rw [List.foldl_cons]
    by_cases hj : j = h
    · subst hj
      have he : (s.requestPre j).hartAt j = (s.hartAt j).asked := by
        rw [State.requestPre_running hr, State.hartAt_setHart_self]
      rw [ih (by rw [he]; exact hr), he]
      simp [Hart.asked]
    · have he : (s.requestPre h).hartAt j = s.hartAt j := State.requestPre_hartAt_ne hj
      rw [ih (by rw [he]; exact hr), he]
      simp [hj]

/-! ## yield (R104) -/

theorem yield_stays {d : Reg} (hh : ∀ k, s.task? s.cur.rcb = some k → s.yieldHead s.cur.rcb k = false) :
    Completes (.yield d) s (s.setG d 0) (s.cur.pc + 4) := by
  have he : yieldEff s d = .done (s.setG d 0) := by
    unfold yieldEff
    split
    · rfl
    next k hk => rw [if_neg (by simp [hh k hk])]
  exact State.setG_pc (s := s) d 0 ▸ completes_done s he rfl

/-- What `yield` leaves when it asks its task's harts to stop. -/
def State.yielded (s : State) (d : Reg) (k : Task) : State :=
  k.harts.foldl (fun s h => s.requestPre h)
    (((s.setG d 1).setTask s.cur.rcb { k with lower := true }).dropPreloads k.core)

theorem State.yielded_stillRuns {d : Reg} (hp : k.phase = .running)
    (hs : ∀ p ∈ s.tasks, p.1 = s.cur.rcb → p.2 = k) :
    StillRuns s.cur.rcb { k with lower := true } (s.setG d 1)
      (((s.setG d 1).setTask s.cur.rcb { k with lower := true }).dropPreloads k.core) := by
  have h : StillRuns s.cur.rcb { k with lower := true } (s.setG d 1)
      ((s.setG d 1).setTask s.cur.rcb { k with lower := true }) := by
    refine ⟨rfl, rfl, State.task?_setTask_self .., fun p hm e => ?_⟩
    rcases tset_keys _ _ _ _ hm with rfl | hm
    · exact hp
    · rw [State.setG_tasks] at hm
      rw [hs p hm e]
      exact hp
  exact h.dropPreloads _

/-- The hart that yields has the request, and its task counts one priority lower. -/
theorem State.yielded_cur_task {d : Reg} (hp : k.phase = .running) (hr : s.cur.run = .running) (ht : s.turn ∈ k.harts)
    (hs : ∀ p ∈ s.tasks, p.1 = s.cur.rcb → p.2 = k) :
    (s.yielded d k).cur = (s.setG d 1).cur.asked ∧ (s.yielded d k).task? s.cur.rcb = some { k with lower := true } := by
  have hw := State.yielded_stillRuns (d := d) hp hs
  unfold State.yielded
  generalize ((s.setG d 1).setTask s.cur.rcb { k with lower := true }).dropPreloads k.core = w at hw ⊢
  have hwt : w.turn = s.turn := hw.turn.trans (State.setG_turn ..)
  have hx : w.hartAt s.turn = (s.setG d 1).cur := by
    rw [State.hartAt, hw.harts, State.cur, State.setG_turn]
    rfl
  have hxr : (w.hartAt s.turn).run = .running := by
    obtain ⟨g, e⟩ := s.cur_setG_eq d 1
    rw [hx, e]
    exact hr
  obtain ⟨hft, hfk⟩ := State.foldl_requestPre_turn_tasks (s := w) k.harts
  refine ⟨?_, ?_⟩
  · rw [State.cur, hft, hwt, State.foldl_requestPre_hartAt _ _ hxr, if_pos ht, hx]
  · rw [State.task?, hfk]
    exact hw.found

theorem yield_asks {d : Reg} (hk : s.task? s.cur.rcb = some k) (hh : s.yieldHead s.cur.rcb k = true)
    (hp : k.phase = .running) (hr : s.cur.run = .running) (ht : s.turn ∈ k.harts)
    (hs : ∀ p ∈ s.tasks, p.1 = s.cur.rcb → p.2 = k) :
    ∃ u, Completes (.yield d) s u (s.cur.pc + 4) ∧ u.cur.g = (s.setG d 1).cur.g ∧
      u.cur.tr = { s.cur.tr with ppend := true } ∧ u.task? s.cur.rcb = some { k with lower := true } := by
  have he : yieldEff s d = .done (s.yielded d k) := by
    simp only [yieldEff, show s.taskOf s.turn = some k from hk, hh, if_true]
    rfl
  obtain ⟨hc, hf⟩ := State.yielded_cur_task (d := d) hp hr ht hs
  obtain ⟨g, e⟩ := s.cur_setG_eq d 1
  have hpc : (s.yielded d k).cur.pc = s.cur.pc := by rw [hc, e]; rfl
  refine ⟨_, hpc ▸ completes_done s he rfl, by rw [hc]; rfl, ?_, hf⟩
  rw [hc, e]
  rfl

/-- Settles O30, by the cases of `spawnEff` and `yieldEff`. -/
theorem spawnAndYield : Obligations.SpawnAndYield := by
  unfold Obligations.SpawnAndYield
  exact fun s d a => ⟨spawn_noBlock, fun hx rcb hb => spawn_enqueues hx hb, spawn_traps, yield_stays,
    fun k hk hh hp hr ht hs => yield_asks hk hh hp hr ht hs⟩

end WorkRequests

end Sys2Proof.Machine

/-! # Management events (O58) -/

namespace Sys2Proof.Machine

section ManagementEvents

variable {s : State}

/-! ## Windows and their registers (R379, R380, R384) -/

theorem State.window_of_lt (f : State → State) (h : s.arg.unit < 128) : s.window f = f s := if_pos h

theorem State.window_of_le (f : State → State) (h : 128 ≤ s.arg.unit) : s.window f = s := if_neg (Nat.not_lt.2 h)

theorem ofNat_toNat_eq_extractLsb' {k : Nat} (w : BitVec k) (n : Nat) :
    BitVec.ofNat n w.toNat = w.extractLsb' 0 n :=
  BitVec.eq_of_toNat_eq (by simp)

/-- A cluster that the device has not ignores its window. -/
theorem windows_ignored (h : 128 ≤ s.arg.unit) :
    (s.arg.flag = false → ∀ i ∈ [Instr.lanepartWrite, .vshareWrite, .vskewWrite, .traceControlWrite, .shootdownStart,
      .acdataRead], exec i s = .next s) ∧
    (s.arg.reg ∉ [MgmtReg.xltail, .htbase, .hostlim, .cxlBytes, .nvme] → exec .registerWrite s = .next s) := by
  refine ⟨fun hf => ?_, fun hr => ?_⟩
  · have hw (f : State → State) : Host.Outcome.next (s.window f) = (.next s : Answer) :=
      congrArg Host.Outcome.next (State.window_of_le f h)
    have hread : exec .acdataRead s = .next s := by
      show execAcdataRead s = _
      rw [execAcdataRead, if_neg (by simp [hf]), State.window_of_le _ h]
    simp only [List.forall_mem_cons]
    exact ⟨hw _, hw _, hw _, hw _, hw _, hread, fun _ hi => nomatch hi⟩
  · have hi : inWindow s.arg.reg = true := by
      revert hr
      cases s.arg.reg <;> decide
    show execRegisterWrite s = _
    rw [execRegisterWrite, if_pos hi, State.window_of_le _ h]

theorem registerWrite_window (h : s.arg.unit < 128) (hi : inWindow s.arg.reg = true) :
    exec .registerWrite s = .next (s.mgmtWrite s.arg.unit s.arg.reg s.arg.w0) :=
  congrArg Host.Outcome.next ((if_pos hi).trans (State.window_of_lt _ h))

theorem registerWrite_device (hi : inWindow s.arg.reg = false) :
    exec .registerWrite s = .next (s.mgmtWrite 0 s.arg.reg s.arg.w0) :=
  congrArg Host.Outcome.next (if_neg (by simp [hi]))

theorem registerWrite_sets (h : s.arg.unit < 128) :
    let c := s.clusterAt s.arg.unit
    let w := s.arg.w0
    let only (d : Cluster) : Prop := exec .registerWrite s = .next (s.setCluster s.arg.unit d)
    (s.arg.reg = .sdasn → only { c with sdasn := w.extractLsb' 0 16 }) ∧
    (s.arg.reg = .sdva → only { c with sdva := BitVec.ofNat 64 (w.toNat / 65536 % 2 ^ 39 * 65536) }) ∧
    (s.arg.reg = .sdlen → only { c with sdlen := w.extractLsb' 0 48 }) ∧
    (s.arg.reg = .dbslot → only { c with dbslot := w.extractLsb' 0 3 }) ∧
    (s.arg.reg = .dbstrip → only { c with dbstrip := w }) ∧
    (s.arg.reg = .dbarm → only { c with dbarm := w.getLsbD 0 }) ∧
    (s.arg.reg = .acsel → only { c with acsel := w.extractLsb' 0 17 }) := by
  intro c w only
  have written {r : MgmtReg} (hr : s.arg.reg = r) (hi : inWindow r = true) {d : Cluster}
      (hd : s.mgmtWrite s.arg.unit r w = s.setCluster s.arg.unit d) : only d := by
    subst hr
    exact (registerWrite_window h hi).trans (congrArg Host.Outcome.next hd)
  refine ⟨fun e => written e rfl ?_, fun e => written e rfl ?_, fun e => written e rfl ?_, fun e => written e rfl ?_,
    fun e => written e rfl ?_, fun e => written e rfl ?_, fun e => written e rfl ?_⟩
  · rw [← ofNat_toNat_eq_extractLsb']; rfl
  · rw [State.mgmtWrite, nbits, Nat.shiftRight_eq_div_pow]; rfl
  · rw [← ofNat_toNat_eq_extractLsb']; rfl
  · rw [← ofNat_toNat_eq_extractLsb']; rfl
  · rfl
  · rw [← nbit_toNat]; rfl
  · rw [← ofNat_toNat_eq_extractLsb']; rfl

theorem registerWrite_xltail (hr : s.arg.reg = .xltail) :
    exec .registerWrite s = .next { s with xlog := { s.xlog with tail := s.arg.w0 } } := by
  rw [registerWrite_device (by rw [hr]; rfl), hr]
  rfl

theorem registerWrite_htbase (hr : s.arg.reg = .htbase) : exec .registerWrite s = .next
    (if s.dev.htlk = false ∧ s.arg.w0.extractLsb' 1 15 = 0 ∧ s.arg.w0.extractLsb' 52 12 = 0 then
      { s with dev := { s.dev with
        htbase := BitVec.ofNat 64 (s.arg.w0.toNat / 65536 * 65536), htlk := s.arg.w0.getLsbD 0 } } else s) := by
  rw [registerWrite_device (by rw [hr]; rfl), hr]
  simp only [State.mgmtWrite, ← nbits_eq_zero_iff, ← nbit_toNat]
  refine congrArg Host.Outcome.next ((if_congr ?_ rfl rfl).trans (ite_not _ _ _))
  cases s.dev.htlk with
  | true => simp
  | false => simp [imp_iff_not_or]

theorem registerWrite_hostlim (hr : s.arg.reg = .hostlim) : exec .registerWrite s = .next
    (if s.arg.w0.extractLsb' 0 12 = 0 then { s with dev := { s.dev with hostlim := s.arg.w0 } } else s) := by
  rw [registerWrite_device (by rw [hr]; rfl), hr]
  simp only [State.mgmtWrite, ← nbits_eq_zero_iff, ne_eq, ite_not]

theorem registerWrite_cxlBytes (hr : s.arg.reg = .cxlBytes) : exec .registerWrite s = .next
    { s with dev := { s.dev with cxlBytes := min s.arg.w0.toNat (2 ^ 42) } } := by
  rw [registerWrite_device (by rw [hr]; rfl), hr]
  rfl

theorem registerWrite_nvme (hr : s.arg.reg = .nvme) : ∃ t data, exec .registerWrite s = .next t ∧ t.harts = s.harts ∧
    t.mem = s.mem ∧ t.spaces =
      tset s.spaces (s.arg.index % 4096) { latency := s.arg.n, rate := s.arg.w0.toNat, data := data } := by
  refine ⟨_, s.arg.addrs.foldl (fun d p => tset d p.1 (BitVec.ofNat 8 p.2)) [],
    registerWrite_device (by rw [hr]; rfl), ?_⟩
  rw [hr]
  exact ⟨rfl, rfl, rfl⟩

/-! ## Reads of a window (R379) -/

/-- What a window's read-write registers hold, by offset. -/
def Cluster.windowRegs (x : Cluster) : List (Nat × Nat) :=
  [(0x000, x.own.toNat + 65536 * x.asg.toNat), (0x008, x.vshare.toNat), (0x010, x.vskew.toNat),
    (0x100, x.trace.w0.toNat), (0x108, x.trace.w1.toNat), (0x200, x.sdasn.toNat), (0x208, x.sdva.toNat), (0x210, x.sdlen.toNat),
    (0x218, if x.sdq = [] then 0 else 1), (0x300, x.dbslot.toNat), (0x308, x.dbstrip.toNat),
    (0x310, if x.dbarm then 1 else 0), (0x400, x.acsel.toNat)]

theorem State.windowReg_eq (cl off : Nat) (h : off ≠ 0x408) :
    s.windowReg cl off = match (s.clusterAt cl).windowRegs.find? fun r => r.1 = off with
      | some r => r.2
      | none => 0 := by
  have hq : boolNat (!(s.clusterAt cl).sdq.isEmpty) = if (s.clusterAt cl).sdq = [] then 0 else 1 := by
    cases (s.clusterAt cl).sdq <;> rfl
  have hb : boolNat (s.clusterAt cl).dbarm = if (s.clusterAt cl).dbarm then 1 else 0 := rfl
  unfold State.windowReg Cluster.windowRegs
  rw [← hq, ← hb]
  dsimp only
  split
  case h_14 => exact absurd rfl h
  case h_15 => simp_all [List.find?, eq_comm (b := off)]
  all_goals rfl

theorem acdataRead_window (hf : s.arg.flag = true) (cl off : Nat) (hc : cl < 128) (ho : off < 65536) (h8 : off % 8 = 0)
    (hn : off ≠ 0x408) (ha : s.arg.addr = 0x7F0000000000 + 65536 * cl + off) :
    exec .acdataRead s = .next { s with reply := some (natBytes 8 (s.windowReg cl off)) } := by
  have e : s.arg.addr - 0x7F0000000000 = 65536 * cl + off := by omega
  have hcl : (65536 * cl + off) / 65536 = cl := by omega
  have hof : (65536 * cl + off) % 65536 = off := by omega
  show execAcdataRead s = _
  rw [execAcdataRead, if_pos hf, State.mgmtRead]
  simp only [e, hcl, hof]
  rw [if_neg (by simp; omega), if_pos (by rw [clusterCount]; omega), if_pos hn]

/-! ## The partition and the skew (R72, R146) -/

theorem State.lanepartWrite_eq : s.lanepartWrite =
    let c := s.clusterAt s.arg.unit
    let d := { c with own := s.arg.w0.extractLsb' 0 16, asg := s.arg.w0.extractLsb' 16 8 }
    if (List.range 4).any (fun k => groupsChange c d k && s.coreTaken (4 * s.arg.unit + k) none) then s
    else s.setCluster s.arg.unit d := by
  rw [State.lanepartWrite, ofNat_nbits, ofNat_toNat_eq_extractLsb']

theorem lanepartWrite_partitions (h : s.arg.unit < 128) :
    let c := s.clusterAt s.arg.unit
    let d := { c with own := s.arg.w0.extractLsb' 0 16, asg := s.arg.w0.extractLsb' 16 8 }
    ((∀ k, k < 4 → c.groups k ≠ d.groups k → s.coreTaken (4 * s.arg.unit + k) none = false) →
      exec .lanepartWrite s = .next (s.setCluster s.arg.unit d)) ∧
    (∀ k, k < 4 → c.groups k ≠ d.groups k → s.coreTaken (4 * s.arg.unit + k) none = true →
      exec .lanepartWrite s = .next s) := by
  intro c d
  have he : exec .lanepartWrite s = .next s.lanepartWrite := congrArg Host.Outcome.next (State.window_of_lt _ h)
  rw [he, State.lanepartWrite_eq]
  refine ⟨fun hfree => congrArg Host.Outcome.next (if_neg ?_), fun k hk hg ht => congrArg Host.Outcome.next (if_pos ?_)⟩
  · simpa [groupsChange] using hfree
  · simp only [List.any_eq_true, List.mem_range, groupsChange]
    exact ⟨k, hk, by simp [ht]; exact hg⟩

theorem vskewWrite_sets (h : s.arg.unit < 128) : exec .vskewWrite s = .next
    (s.setCluster s.arg.unit { s.clusterAt s.arg.unit with vskew := s.arg.w0.extractLsb' 0 4 }) := by
  rw [← ofNat_toNat_eq_extractLsb']
  exact congrArg Host.Outcome.next (State.window_of_lt _ h)

/-! ## A fold whose steps each change one place -/

section Fold

variable {σ β : Type} {f : σ → Nat → σ} {view : Nat → σ → β} {n : Nat}

theorem foldl_range_view_of_le (hf : ∀ s j k, j < n → k < n → k ≠ j → view k (f s j) = view k s) (s : σ) {i m : Nat}
    (hi : i < n) (hm : m ≤ i) : view i ((List.range m).foldl f s) = view i s := by
  induction m with
  | zero => rfl
  | succ m ih =>
    rw [List.range_succ, List.foldl_append]
    exact (hf _ m i (by omega) hi (by omega)).trans (ih (by omega))

/-- Place `i` is as its own step left it, which found it as it was. -/
theorem foldl_range_view (hf : ∀ s j k, j < n → k < n → k ≠ j → view k (f s j) = view k s) (s : σ) {i : Nat}
    (hi : i < n) : ∃ u, view i u = view i s ∧ view i ((List.range n).foldl f s) = view i (f u i) := by
  refine ⟨_, foldl_range_view_of_le hf s hi le_rfl, ?_⟩
  have from_here (m : Nat) (hm : i + 1 ≤ m) : m ≤ n →
      view i ((List.range m).foldl f s) = view i (f ((List.range i).foldl f s) i) := by
    induction m, hm using Nat.le_induction with
    | base => intro _; rw [List.range_succ, List.foldl_append]; rfl
    | succ m hm ih =>
      intro hn
      rw [List.range_succ, List.foldl_append]
      exact (hf _ m i (by omega) hi (by omega)).trans (ih (by omega))
  exact from_here n hi le_rfl

end Fold

/-! ## New weights exempt the running copies (R73, R247) -/

/-- The slots of a hart that run are exempt from missed promises, and those due are gone. -/
def Hart.exempted (x : Hart) : Hart :=
  { x with dues := [], slots := x.slots.map fun sl => if sl.running then { sl with exempt := true } else sl }

/-- One hart's part of `State.exemptCopies`. -/
def State.exemptHart (s : State) (h : Nat) : State :=
  if (s.hartAt h).slots.toList.any (·.running) || !(s.hartAt h).dues.isEmpty then s.setHart h (s.hartAt h).exempted else s

theorem State.exemptCopies_eq (cl : Nat) :
    s.exemptCopies cl = (List.range 8).foldl (fun s i => s.exemptHart (8 * cl + i)) s := rfl

theorem State.exemptHart_hartAt_ne {h k : Nat} (hk : k ≠ h) : (s.exemptHart h).hartAt k = s.hartAt k := by
  unfold State.exemptHart
  split
  · exact State.hartAt_setHart_ne _ _ hk
  · rfl

theorem State.exemptHart_hartAt_self (h : Nat) : (s.exemptHart h).hartAt h = (s.hartAt h).exempted := by
  unfold State.exemptHart
  split
  · exact State.hartAt_setHart_self _ _ _
  next hn =>
    simp only [Bool.or_eq_true, not_or, Bool.not_eq_true, List.any_eq_false, Bool.not_eq_false', List.isEmpty_iff] at hn
    obtain ⟨hidle, hdue⟩ := hn
    have hmap : (s.hartAt h).slots.map (fun sl => if sl.running then { sl with exempt := true } else sl) =
        (s.hartAt h).slots := by
      refine Vector.ext fun i hi => ?_
      have := hidle (s.hartAt h).slots[i] (by simp)
      simp [this]
    rw [Hart.exempted, hmap, ← hdue]

theorem State.exemptCopies_hartAt {cl h : Nat} (hh : h / 8 = cl) :
    (s.exemptCopies cl).hartAt h = (s.hartAt h).exempted := by
  obtain ⟨u, hu, he⟩ := foldl_range_view (f := fun s i => s.exemptHart (8 * cl + i))
    (view := fun k s => s.hartAt (8 * cl + k)) (n := 8)
    (fun _ _ _ _ _ hk => State.exemptHart_hartAt_ne (by omega)) s (Nat.mod_lt h (by decide))
  have e : 8 * cl + h % 8 = h := by omega
  simp only [e] at hu he
  rw [State.exemptCopies_eq, he, State.exemptHart_hartAt_self, hu]

theorem State.exemptCopies_frame (cl : Nat) :
    (s.exemptCopies cl).clusters = s.clusters ∧ (s.exemptCopies cl).mem = s.mem := by
  refine List.foldlRecOn (motive := fun u : State => u.clusters = s.clusters ∧ u.mem = s.mem) _ _ ⟨rfl, rfl⟩
    fun u hu i _ => ?_
  dsimp only
  split
  · exact hu
  · exact hu

theorem Hart.exempted_slot (x : Hart) (n : Fin 4) :
    x.exempted.slots[n] = if x.slots[n].running then { x.slots[n] with exempt := true } else x.slots[n] := by
  simp [Hart.exempted]

theorem vshareWrite_exempts (h : s.arg.unit < 128) : ∃ t, exec .vshareWrite s = .next t ∧
    (t.clusterAt s.arg.unit).vshare = s.arg.w0.extractLsb' 0 16 ∧ t.mem = s.mem ∧
    ∀ h n, h / 8 = s.arg.unit → (t.slotAt h n).status = (s.slotAt h n).status ∧
      (t.slotAt h n).cmd = (s.slotAt h n).cmd ∧
      ((s.slotAt h n).running = true → (t.slotAt h n).exempt = true) ∧ (t.hartAt h).dues = [] := by
  refine ⟨_, congrArg Host.Outcome.next (State.window_of_lt _ h), ?_⟩
  generalize hu : s.setCluster s.arg.unit { s.clusterAt s.arg.unit with
    vshare := BitVec.ofNat 16 s.arg.w0.toNat, credit := [] } = u
  have hx (k : Nat) : u.hartAt k = s.hartAt k := by rw [← hu]; rfl
  obtain ⟨hc, hm⟩ := u.exemptCopies_frame s.arg.unit
  refine ⟨?_, ?_, fun k n hk => ?_⟩
  · rw [State.clusterAt, hc, ← hu, ← ofNat_toNat_eq_extractLsb']
    exact congrArg Cluster.vshare (State.clusterAt_setCluster_self _ _ _)
  · rw [hm, ← hu]; rfl
  · rw [State.slotAt, State.slotAt, State.exemptCopies_hartAt hk, hx, Hart.exempted_slot]
    split
    next hr => exact ⟨rfl, rfl, fun _ => rfl, rfl⟩
    next hr => exact ⟨rfl, rfl, fun e => absurd e hr, rfl⟩

/-! ## A strip stop (R342) -/

theorem dbstopWrite_asks :
    let h := 8 * s.arg.unit + (s.clusterAt s.arg.unit).dbslot.toNat
    let x := s.hartAt h
    (x.run.active = true →
      exec .dbstopWrite s = .next (s.setHart h { x with pending := { x.pending with debug := true } })) ∧
    (x.run.active = false → exec .dbstopWrite s = .next s) :=
  ⟨fun hr => congrArg Host.Outcome.next (if_pos hr), fun hr => congrArg Host.Outcome.next (if_neg (by simp [hr]))⟩

/-! ## Trace control (R352) -/

theorem traceControlWrite_window (h : s.arg.unit < 128) : exec .traceControlWrite s = .next s.traceWrite :=
  congrArg Host.Outcome.next (State.window_of_lt _ h)

theorem traceControlWrite_running (h : s.arg.unit < 128)
    (hr : (s.clusterAt s.arg.unit).trace.w1.extractLsb' 8 5 ≠ 0) : exec .traceControlWrite s = .next s := by
  rw [traceControlWrite_window h, State.traceWrite]
  rw [ne_eq, ← nbits_eq_zero_iff] at hr
  simp [hr]

theorem traceControlWrite_base (h : s.arg.unit < 128)
    (hr : (s.clusterAt s.arg.unit).trace.w1.extractLsb' 8 5 = 0) (hi : s.arg.index = 0) :
    let c := s.clusterAt s.arg.unit
    (s.arg.w0.extractLsb' 0 12 = 0 ∧ s.arg.w0.extractLsb' 52 12 = 0 → exec .traceControlWrite s =
      .next (s.setCluster s.arg.unit { c with trace := { c.trace with w0 := s.arg.w0 } })) ∧
    (s.arg.w0.extractLsb' 0 12 ≠ 0 ∨ s.arg.w0.extractLsb' 52 12 ≠ 0 → exec .traceControlWrite s = .next s) := by
  intro c
  rw [traceControlWrite_window h, State.traceWrite]
  simp only [ne_eq, ← nbits_eq_zero_iff] at hr ⊢
  refine ⟨fun ⟨h0, h1⟩ => ?_, fun hb => ?_⟩
  · simp [hr, hi, traceBad, h0, h1, c]
  · have hbad : traceBad 0 s.arg.w0.toNat = true := by simpa [traceBad] using hb
    simp [hr, hi, hbad]

/-- The control word of a stopped trace written and the trace started. -/
theorem State.traceWrite_starts (hr : nbits (s.clusterAt s.arg.unit).trace.w1.toNat 8 5 = 0) (hi : s.arg.index ≠ 0)
    (hb : traceBad s.arg.index s.arg.w0.toNat = false) (hen : nbits s.arg.w0.toNat 8 5 ≠ 0)
    (hk : 10 ≤ nbits s.arg.w0.toNat 16 6 ∧ nbits s.arg.w0.toNat 16 6 ≤ 40) :
    ∃ r, s.traceWrite = ({ s.setCluster s.arg.unit { s.clusterAt s.arg.unit with
      trace := { (s.clusterAt s.arg.unit).trace with w1 := s.arg.w0 } } with replay := r } : State).traceStart s.arg.unit := by
  simp only [State.traceWrite, hr, hi, hb, hen, hk.1, hk.2, w64, BitVec.ofNat_toNat, BitVec.setWidth_eq, ne_eq,
    not_true_eq_false, not_false_eq_true, decide_true, decide_false, Bool.and_true, Bool.or_false, Bool.false_eq_true,
    if_true, if_false]
  split
  · exact ⟨_, rfl⟩
  · exact ⟨s.replay, rfl⟩

theorem State.traceStart_clusterAt (cl : Nat) : (s.traceStart cl).clusterAt cl = { s.clusterAt cl with
    trace := { (s.clusterAt cl).trace with head := 0, drop := 0, lost := false, prev := none, sent := 0, sentAt := s.tick }
    counters := Vector.replicate 8 Counters.init } := State.clusterAt_setCluster_self _ _ _

theorem traceControlWrite_starts (h : s.arg.unit < 128)
    (hr : (s.clusterAt s.arg.unit).trace.w1.extractLsb' 8 5 = 0) (hi : s.arg.index ≠ 0)
    (z5 : s.arg.w0.extractLsb' 5 3 = 0) (z13 : s.arg.w0.extractLsb' 13 3 = 0) (z22 : s.arg.w0.extractLsb' 22 2 = 0)
    (z25 : s.arg.w0.extractLsb' 25 39 = 0) (hen : s.arg.w0.extractLsb' 8 5 ≠ 0)
    (lo : 8 ≤ (s.arg.w0.extractLsb' 0 5).toNat) (hi24 : (s.arg.w0.extractLsb' 0 5).toNat ≤ 24)
    (k10 : 10 ≤ (s.arg.w0.extractLsb' 16 6).toNat) (k40 : (s.arg.w0.extractLsb' 16 6).toNat ≤ 40) :
    let c := s.clusterAt s.arg.unit
    ∃ t, exec .traceControlWrite s = .next t ∧ (t.clusterAt s.arg.unit).trace.w1 = s.arg.w0 ∧
      (t.clusterAt s.arg.unit).trace.head = 0 ∧ (t.clusterAt s.arg.unit).trace.drop = 0 ∧
      (t.clusterAt s.arg.unit).counters = Cluster.init.counters ∧
      (∀ x, c.trace.base ≤ x → x < c.trace.base + 4096 → memRead t.mem x = 0) ∧
      ∀ x, (x < c.trace.base ∨ c.trace.base + 4096 ≤ x) → memRead t.mem x = memRead s.mem x := by
  intro c
  simp only [ne_eq, ← nbits_eq_zero_iff, ← nbits_toNat] at hr z5 z13 z22 z25 hen lo hi24 k10 k40
  have hb : traceBad s.arg.index s.arg.w0.toNat = false := by
    simp [traceBad, hi, z5, z13, z22, z25, lo, hi24]
  obtain ⟨r, e⟩ := State.traceWrite_starts hr hi hb hen ⟨k10, k40⟩
  refine ⟨_, traceControlWrite_window h, ?_⟩
  rw [e, State.traceStart_clusterAt]
  generalize hu : ({ s.setCluster s.arg.unit { s.clusterAt s.arg.unit with
      trace := { (s.clusterAt s.arg.unit).trace with w1 := s.arg.w0 } } with replay := r } : State) = u
  have hc : (u.clusterAt s.arg.unit).trace = { c.trace with w1 := s.arg.w0 } := by
    rw [← hu]
    exact congrArg Cluster.trace (State.clusterAt_setCluster_self _ _ _)
  have hm : (u.traceStart s.arg.unit).mem = memClear s.mem c.trace.base 4096 := by
    show memClear u.mem (u.clusterAt s.arg.unit).trace.base 4096 = _
    rw [hc, ← hu]
    rfl
  refine ⟨congrArg Trace.w1 hc, rfl, rfl, rfl, fun x h1 h2 => ?_, fun x hx => ?_⟩
  · rw [hm, memRead_memClear, if_neg (by omega)]
    rfl
  · rw [hm, memRead_memClear, if_pos hx]

/-! ## What performs leaves the cached translations (R209) -/

theorem Alone.tlb_eq {t : State} (a : Alone s t) : t.tlb = s.tlb := by
  have h := congrArg State.tlb a.rest
  exact h

theorem State.sync_tlb (h k : Nat) : (s.sync h k).tlb = s.tlb := by
  have hn := State.nextStamp_tlb { s with replay := dropFirst h s.replay }
  unfold State.sync
  generalize ({ s with replay := dropFirst h s.replay } : State).nextStamp = u at hn ⊢
  dsimp only
  split
  · exact (record_alone u _ _ _ _).1.tlb_eq.trans hn
  · exact hn

theorem State.writeT_tlb_harts (tg : Target) (bs ks : List Byte) :
    (s.writeT tg bs ks).tlb = s.tlb ∧ (s.writeT tg bs ks).harts = s.harts := by
  unfold State.writeT
  split
  · dsimp only
    split
    · exact ⟨rfl, rfl⟩
    · exact ⟨rfl, rfl⟩
  · exact ⟨rfl, rfl⟩

theorem State.birthWhole_tlb (q : QStore) (rest : List QStore) : (s.birthWhole q rest).tlb = s.tlb := by
  unfold State.birthWhole
  split
  · split
    · rfl
    · rfl
  · rfl

theorem State.perform_tlb (h : Nat) (q : QStore) (rest : List QStore) : (s.perform h q rest).tlb = s.tlb := by
  unfold State.perform
  split
  · rfl
  · unfold State.performAdd
    rw [State.birthWhole_tlb]
    split
    · exact State.writeT_tlb_harts _ _ _ |>.1
    · exact (State.sync_tlb ..).trans (State.writeT_tlb_harts _ _ _).1
  · unfold State.performStore
    rw [State.birthWhole_tlb]
    refine (State.writeT_tlb_harts _ _ _).1.trans ?_
    split
    · exact State.sync_tlb ..
    · rfl

theorem State.mergeWord_tlb (h j g w n : Nat) : (s.mergeWord h j g w n).tlb = s.tlb := by
  induction n generalizing s with
  | zero => rfl
  | succ n ih =>
    unfold State.mergeWord
    split
    · exact ih.trans (State.perform_tlb ..)
    · rfl

theorem State.performOne_tlb (h j : Nat) : (s.performOne h j).tlb = s.tlb := by
  unfold State.performOne
  split
  · dsimp only
    split
    · exact State.perform_tlb ..
    · exact (State.mergeWord_tlb ..).trans (State.perform_tlb ..)
  · rfl

theorem State.drain_tlb (h : Nat) : (s.drain h).tlb = s.tlb := by
  unfold State.drain
  generalize (s.hartAt h).stores.length = n
  induction n generalizing s with
  | zero => rfl
  | succ n ih => exact ih.trans (State.performOne_tlb ..)

/-! ## What the engine has issued performs (R241) -/

/-- `t` is `s` but for memory, Haze births and slot `n` of hart `h`. -/
structure SlotOnly (h : Nat) (n : Fin 4) (s t : State) : Prop where
  tlb : t.tlb = s.tlb
  others : ∀ k, k ≠ h → t.hartAt k = s.hartAt k
  slot : ∃ sl, t.hartAt h = { s.hartAt h with slots := (s.hartAt h).slots.set n sl }

variable {h : Nat} {n : Fin 4} {t u : State}

theorem SlotOnly.refl : SlotOnly h n s s :=
  ⟨rfl, fun _ _ => rfl, (s.hartAt h).slots[n], by simp⟩

theorem SlotOnly.trans (a : SlotOnly h n s t) (b : SlotOnly h n t u) : SlotOnly h n s u := by
  obtain ⟨l1, o1, x, e1⟩ := a
  obtain ⟨l2, o2, y, e2⟩ := b
  exact ⟨l2.trans l1, fun k hk => (o2 k hk).trans (o1 k hk), y, by rw [e2, e1]; simp⟩

theorem SlotOnly.slotAt_ne (a : SlotOnly h n s t) {m : Fin 4} (hm : m ≠ n) : t.slotAt h m = s.slotAt h m := by
  obtain ⟨sl, e⟩ := a.slot
  rw [State.slotAt, e, State.slotAt]
  exact Vector.getElem_set_ne n.isLt m.isLt fun e => hm (Fin.ext e.symm)

theorem slotOnly_setSlot (sl : CopySlot) : SlotOnly h n s (s.setSlot h n sl) :=
  ⟨rfl, fun _ hk => State.hartAt_setHart_ne _ _ hk, sl, State.hartAt_setHart_self _ _ _⟩

theorem slotOnly_writes (ws : List (Target × List Byte × List Byte)) :
    SlotOnly h n s (ws.foldl (fun s w => s.writeT w.1 w.2.1 w.2.2) s) := by
  have hw : (ws.foldl (fun s w => s.writeT w.1 w.2.1 w.2.2) s).tlb = s.tlb ∧
      (ws.foldl (fun s w => s.writeT w.1 w.2.1 w.2.2) s).harts = s.harts := by
    refine List.foldlRecOn (motive := fun v : State => v.tlb = s.tlb ∧ v.harts = s.harts) _ _ ⟨rfl, rfl⟩
      fun v hv w _ => ?_
    obtain ⟨hl, hh⟩ := State.writeT_tlb_harts (s := v) w.1 w.2.1 w.2.2
    exact ⟨hl.trans hv.1, hh.trans hv.2⟩
  obtain ⟨hl, hh⟩ := hw
  have hx (k : Nat) : (ws.foldl (fun s w => s.writeT w.1 w.2.1 w.2.2) s).hartAt k = s.hartAt k := by
    rw [State.hartAt, hh]; rfl
  exact ⟨hl, fun k _ => hx k, (s.hartAt h).slots[n], by rw [hx]; simp⟩

theorem takeFree_length {α : Type} {k : Nat} {l rest : List α} {x : α} (e : takeFree k l = some (x, rest)) :
    rest.length + 1 = l.length := by
  match l, e with
  | [y], e => cases e; rfl
  | y :: z :: l, e =>
    have hk : k % (l.length + 2) < (y :: z :: l).length := Nat.mod_lt _ (by omega)
    cases e
    rw [List.length_eraseIdx_of_lt hk]
    rfl

theorem takeFree_eq_none {α : Type} {k : Nat} {l : List α} (e : takeFree k l = none) : l = [] := by
  match l, e with
  | [], _ => rfl
  | [_], e => cases e
  | _ :: _ :: _, e => cases e

theorem slotOnly_copyFlushN (k : Nat) : SlotOnly h n s (s.copyFlushN h n k) := by
  induction k generalizing s with
  | zero => exact .refl
  | succ k ih =>
    unfold State.copyFlushN
    split
    · exact .refl
    · split
      · exact .refl
      · exact ((slotOnly_writes _).trans (slotOnly_setSlot _)).trans ih

theorem slotOnly_copyFlush : SlotOnly h n s (s.copyFlush h n) := by
  unfold State.copyFlush
  split
  · exact slotOnly_copyFlushN _
  · exact .refl

/-- Each write that performs leaves the command's list. -/
theorem State.copyFlushN_pend {c d : CopyCmd} {k : Nat} (hc : (s.slotAt h n).cmd = some c) (hk : c.pend.length ≤ k)
    (hd : ((s.copyFlushN h n k).slotAt h n).cmd = some d) : d.pend = [] := by
  induction k generalizing s c with
  | zero =>
    obtain rfl : c = d := Option.some.inj (hc.symm.trans hd)
    exact List.length_eq_zero_iff.1 (Nat.le_zero.1 hk)
  | succ k ih =>
    rw [State.copyFlushN, hc] at hd
    dsimp only at hd
    split at hd
    next hn =>
      obtain rfl : c = d := Option.some.inj (hc.symm.trans hd)
      exact takeFree_eq_none hn
    next ws rest hw =>
      refine ih (c := { c with pend := rest }) ?_ (by have := takeFree_length hw; simp only; omega) hd
      simp [State.slotAt, State.setSlot]

theorem State.copyFlush_pend {d : CopyCmd} (hd : ((s.copyFlush h n).slotAt h n).cmd = some d) : d.pend = [] := by
  unfold State.copyFlush at hd
  split at hd
  next c hc => exact State.copyFlushN_pend hc le_rfl hd
  next hn => rw [hn] at hd; cases hd

/-! ## A cluster falls quiet (R209) -/

/-- The stores of a hart perform, if it has any. -/
def State.storesOut (s : State) (h : Nat) : State := if (s.hartAt h).stores.isEmpty then s else s.drain h

/-- What the engine has issued for a hart's slots performs. -/
def State.engineOut (s : State) (h : Nat) : State :=
  (List.range 4).foldl (fun s n => s.copyFlush h ⟨n % 4, Nat.mod_lt _ (by decide)⟩) s

theorem State.quiet_eq (cl : Nat) :
    s.quiet cl = (List.range 8).foldl (fun s i => (s.storesOut (8 * cl + i)).engineOut (8 * cl + i)) s := rfl

theorem accessed_storesOut : Accessed h s (s.storesOut h) := by
  unfold State.storesOut
  split
  · exact .refl
  · exact accessed_drain

theorem State.storesOut_stores : ((s.storesOut h).hartAt h).stores = [] := by
  unfold State.storesOut
  split
  next he => exact List.isEmpty_iff.1 he
  · exact State.drain_stores

theorem State.storesOut_tlb : (s.storesOut h).tlb = s.tlb := by
  unfold State.storesOut
  split
  · rfl
  · exact State.drain_tlb h

/-- The engine's part leaves the translations, the other harts, and of its hart all but the slots. -/
theorem State.engineOut_frame : (s.engineOut h).tlb = s.tlb ∧ (∀ k, k ≠ h → (s.engineOut h).hartAt k = s.hartAt k) ∧
    ∃ sl, (s.engineOut h).hartAt h = { s.hartAt h with slots := sl } := by
  refine List.foldlRecOn (motive := fun v : State => v.tlb = s.tlb ∧ (∀ k, k ≠ h → v.hartAt k = s.hartAt k) ∧
    ∃ sl, v.hartAt h = { s.hartAt h with slots := sl }) _ _ ⟨rfl, fun _ _ => rfl, _, rfl⟩ fun v hv i _ => ?_
  obtain ⟨hl, ho, _, he⟩ := hv
  obtain ⟨hl', ho', _, he'⟩ := slotOnly_copyFlush (s := v) (h := h) (n := ⟨i % 4, Nat.mod_lt _ (by decide)⟩)
  exact ⟨hl'.trans hl, fun k hk => (ho' k hk).trans (ho k hk), _, by rw [he', he]⟩

theorem State.engineOut_pend {d : CopyCmd} (hd : ((s.engineOut h).slotAt h n).cmd = some d) : d.pend = [] := by
  obtain ⟨v, -, he⟩ := foldl_range_view (f := fun s n => State.copyFlush s h ⟨n % 4, Nat.mod_lt _ (by decide)⟩)
    (view := fun k s => s.slotAt h ⟨k % 4, Nat.mod_lt _ (by decide)⟩) (n := 4)
    (fun _ j k hj hk hkj => slotOnly_copyFlush.slotAt_ne (by
      rw [ne_eq, Fin.mk.injEq, Nat.mod_eq_of_lt hj, Nat.mod_eq_of_lt hk]; exact hkj)) s n.isLt
  have hn : (⟨n.val % 4, Nat.mod_lt _ (by decide)⟩ : Fin 4) = n := Fin.ext (Nat.mod_eq_of_lt n.isLt)
  simp only [hn] at he
  exact State.copyFlush_pend (he ▸ hd)

theorem State.quiet_tlb (cl : Nat) : (s.quiet cl).tlb = s.tlb := by
  rw [State.quiet_eq]
  refine List.foldlRecOn (motive := fun v : State => v.tlb = s.tlb) _ _ rfl fun v hv i _ => ?_
  exact (State.engineOut_frame.1.trans State.storesOut_tlb).trans hv

/-- A hart of a quiet cluster has no store queued and its slots no write issued; without a late load its registers stay. -/
theorem State.quiet_hart {cl : Nat} (hh : h / 8 = cl) : ((s.quiet cl).hartAt h).stores = [] ∧
    (∀ n c, ((s.quiet cl).slotAt h n).cmd = some c → c.pend = []) ∧
    ((s.hartAt h).hasLate = false → ((s.quiet cl).hartAt h).g = (s.hartAt h).g) := by
  obtain ⟨u, hu, he⟩ := foldl_range_view
    (f := fun s i => State.engineOut (s.storesOut (8 * cl + i)) (8 * cl + i))
    (view := fun k s => s.hartAt (8 * cl + k)) (n := 8)
    (fun _ j k _ _ hk => (State.engineOut_frame.2.1 _ (by omega)).trans (accessed_storesOut.others _ (by omega)))
    s (Nat.mod_lt h (by decide))
  have e : 8 * cl + h % 8 = h := by omega
  simp only [e] at hu he
  obtain ⟨-, -, sl, hx⟩ := State.engineOut_frame (s := u.storesOut h) (h := h)
  rw [State.quiet_eq]
  refine ⟨?_, fun n c hc => ?_, fun hl => ?_⟩
  · rw [he, hx]
    exact State.storesOut_stores
  · rw [State.slotAt, he] at hc
    exact State.engineOut_pend hc
  · rw [he, hx]
    exact (accessed_storesOut.g_eq (by rw [hu]; exact hl)).trans (congrArg Hart.g hu)

/-! ## Shootdowns (R209) -/

theorem shootdownStart_queues (h : s.arg.unit < 128) :
    let c := s.clusterAt s.arg.unit
    exec .shootdownStart s = .next (s.setCluster s.arg.unit { c with
      sdq := c.sdq ++ [{ asn := c.sdasn.toNat, va := c.sdva.toNat, pages := c.sdlen.toNat }] }) :=
  congrArg Host.Outcome.next (State.window_of_lt _ h)

theorem Shootdown.hits_of_range {d : Shootdown} {cl : Nat} {e : TlbEntry} (hc : e.cluster = cl) (ha : e.asn = d.asn)
    (hr : d.pages = 0 ∨ (e.block = false ∧ d.va / 65536 ≤ e.vpage ∧ e.vpage < d.va / 65536 + d.pages)) :
    d.hits cl e = true := by
  rcases hr with hp | ⟨hb, hlo, hhi⟩
  · simp [Shootdown.hits, hc, ha, hp]
  · simp [Shootdown.hits, hc, ha, hb, hhi]
    omega

theorem Shootdown.hits_of_other {d : Shootdown} {cl : Nat} {e : TlbEntry} (h : e.cluster ≠ cl ∨ e.asn ≠ d.asn) :
    d.hits cl e = false := by
  rcases h with h | h
  · simp [Shootdown.hits, h]
  · simp [Shootdown.hits, h]

theorem shootdownComplete_idle (hq : (s.clusterAt s.arg.unit).sdq = []) : exec .shootdownComplete s = .next s := by
  show Host.Outcome.next (s.shootdown s.arg.unit) = _
  rw [State.shootdown, hq]

/-- The oldest shootdown of a cluster is done with: the cluster is quiet and what it hits is cached no more. -/
theorem State.shootdown_completes {cl : Nat} {d : Shootdown} {q : List Shootdown} (hq : (s.clusterAt cl).sdq = d :: q) :
    ((s.shootdown cl).clusterAt cl).sdq = q ∧ (s.shootdown cl).harts = (s.quiet cl).harts ∧
      (s.shootdown cl).tlb = s.tlb.filter fun e => !d.hits cl e := by
  have he : s.shootdown cl = { (s.quiet cl).setCluster cl { (s.quiet cl).clusterAt cl with sdq := q } with
      tlb := (s.quiet cl).tlb.filter fun e => !d.hits cl e } := by rw [State.shootdown, hq]
  have hs := State.clusterAt_setCluster_self (s.quiet cl) cl { (s.quiet cl).clusterAt cl with sdq := q }
  rw [he, State.quiet_tlb]
  generalize s.quiet cl = u at hs ⊢
  exact ⟨congrArg Cluster.sdq hs, rfl, rfl⟩

theorem shootdownComplete_removes (d : Shootdown) (q : List Shootdown) (hq : (s.clusterAt s.arg.unit).sdq = d :: q) :
    ∃ t, exec .shootdownComplete s = .next t ∧ (t.clusterAt s.arg.unit).sdq = q ∧
      (∀ h, h / 8 = s.arg.unit → (t.hartAt h).stores = [] ∧ (∀ n c, (t.slotAt h n).cmd = some c → c.pend = []) ∧
        ((s.hartAt h).hasLate = false → (t.hartAt h).g = (s.hartAt h).g)) ∧
      (∀ e ∈ t.tlb, e ∈ s.tlb ∧ ¬ (e.cluster = s.arg.unit ∧ e.asn = d.asn ∧ (d.pages = 0 ∨
        (e.block = false ∧ d.va / 65536 ≤ e.vpage ∧ e.vpage < d.va / 65536 + d.pages)))) ∧
      (∀ e ∈ s.tlb, e.cluster ≠ s.arg.unit ∨ e.asn ≠ d.asn → e ∈ t.tlb) := by
  obtain ⟨hs, hh, ht⟩ := State.shootdown_completes hq
  have hx (h : Nat) : (s.shootdown s.arg.unit).hartAt h = (s.quiet s.arg.unit).hartAt h := by
    rw [State.hartAt, hh]; rfl
  refine ⟨_, rfl, hs, fun h hc => ?_, fun e he => ?_, fun e he ho => ?_⟩
  · simp only [State.slotAt, hx]
    exact State.quiet_hart hc
  · rw [ht, List.mem_filter] at he
    obtain ⟨hm, hn⟩ := he
    refine ⟨hm, fun ⟨hc, ha, hr⟩ => ?_⟩
    rw [Shootdown.hits_of_range hc ha hr] at hn
    cases hn
  · rw [ht, List.mem_filter, Shootdown.hits_of_other ho]
    exact ⟨he, rfl⟩

/-! ## Accumulators read one by one (R275) -/

theorem extractLsb'_ofNat {k x : Nat} (hx : x < 2 ^ k) (lo n : Nat) :
    (BitVec.ofNat k x).extractLsb' lo n = BitVec.ofNat n (nbits x lo n) := by
  rw [← ofNat_nbits, BitVec.toNat_ofNat, Nat.mod_eq_of_lt hx]

theorem nextSel_lt {w : Nat} (hw : w < 2 ^ 17) : nextSel w < 2 ^ 17 := by
  unfold nextSel
  dsimp only
  split
  · exact nset_lt _ _ _ _ _ hw (by decide)
  · exact nset_lt _ _ _ _ _ (nset_lt _ _ _ _ _ hw (by decide)) (by decide)

/-- The row does not change. -/
theorem nbits_nextSel_row (w : Nat) : nbits (nextSel w) 0 2 = nbits w 0 2 := by
  unfold nextSel
  dsimp only
  split
  · exact nbits_nset_of_disjoint _ _ _ _ _ _ (by decide)
  · rw [nbits_nset_of_disjoint _ _ _ _ _ _ (by decide), nbits_nset_of_disjoint _ _ _ _ _ _ (by decide)]

/-- The next accumulator of the row. -/
theorem nextSel_next {w : Nat} (hw : w < 2 ^ 17) (h : nbits w 8 9 < 511) : nextSel w = w + 256 := by
  rw [nextSel, if_pos h, nset]
  simp only [nbits, Nat.shiftRight_eq_div_pow, Nat.shiftLeft_eq] at h ⊢
  omega

/-- After the last, the first of the next. -/
theorem nextSel_wraps {w : Nat} (h : nbits w 8 9 = 511) :
    nbits (nextSel w) 8 9 = 0 ∧ nbits (nextSel w) 2 6 = (nbits w 2 6 + 1) % 64 := by
  rw [nextSel, h, if_neg (by decide)]
  exact ⟨(nbits_nset_of_disjoint _ _ _ _ _ _ (by decide)).trans (nbits_nset_self _ _ _ _), nbits_nset_self _ _ _ _⟩

theorem acdataRead_reads (h : s.arg.unit < 128) (hf : s.arg.flag = false) :
    let c := s.clusterAt s.arg.unit
    let r := c.rows[(c.acsel.extractLsb' 0 2).toNat]
    let row := tget [] r.acc (c.acsel.extractLsb' 2 6).toNat
    let n := (c.acsel.extractLsb' 8 9).toNat
    (r.cmds ≠ [] → exec .acdataRead s = .next s) ∧
    (r.cmds = [] → ∃ t d, exec .acdataRead s = .next t ∧ d = t.clusterAt s.arg.unit ∧
      d.acdata = BitVec.ofNat 32 (row.getD n 0) ∧ d.acsel.extractLsb' 0 2 = c.acsel.extractLsb' 0 2 ∧
      (n < 511 → d.acsel = c.acsel + 256) ∧
      (n = 511 → (d.acsel.extractLsb' 8 9).toNat = 0 ∧ d.acsel.extractLsb' 2 6 = c.acsel.extractLsb' 2 6 + 1)) := by
  intro c r row n
  have hx : exec .acdataRead s = .next s.acdataRead :=
    congrArg Host.Outcome.next ((if_neg (by simp [hf])).trans (State.window_of_lt _ h))
  have hw := c.acsel.isLt
  have hlt := nextSel_lt hw
  have hd : s.acdataRead = if !r.cmds.isEmpty then s else s.setCluster s.arg.unit { c with
      acdata := BitVec.ofNat 32 (row.getD n 0), acsel := BitVec.ofNat 17 (nextSel c.acsel.toNat) } := by
    simp only [State.acdataRead, nbits_toNat]
    rfl
  rw [hx, hd]
  refine ⟨fun hc => congrArg Host.Outcome.next (if_pos (by simpa using hc)), fun hc => ?_⟩
  refine ⟨_, _, congrArg Host.Outcome.next (if_neg (by simp [hc])), rfl, ?_⟩
  rw [State.clusterAt_setCluster_self]
  simp only [extractLsb'_ofNat hlt, nbits_nextSel_row, ofNat_nbits]
  refine ⟨trivial, trivial, fun hn => ?_, fun hn => ?_⟩
  · rw [nextSel_next hw (by rw [nbits_toNat]; exact hn), BitVec.ofNat_add, BitVec.ofNat_toNat, BitVec.setWidth_eq]
    rfl
  · obtain ⟨h8, h2⟩ := nextSel_wraps (w := c.acsel.toNat) (by rw [nbits_toNat]; exact hn)
    rw [h8, h2, nbits_toNat]
    refine ⟨rfl, BitVec.eq_of_toNat_eq ?_⟩
    simp

end ManagementEvents

/-- Settles O58, conjunct by conjunct with the lemmas above. -/
theorem managementEvents : Obligations.ManagementEvents := by
  unfold Obligations.ManagementEvents
  intro s a c w only windows
  refine ⟨windows_ignored, registerWrite_sets, registerWrite_xltail, registerWrite_htbase, registerWrite_hostlim,
    registerWrite_cxlBytes, registerWrite_nvme, fun hf cl off hc ho h8 hn ha => ?_, lanepartWrite_partitions,
    vshareWrite_exempts, vskewWrite_sets, dbstopWrite_asks,
    fun h => ⟨traceControlWrite_running h, fun hr hi => traceControlWrite_base h hr hi, traceControlWrite_starts h⟩,
    shootdownStart_queues, shootdownComplete_removes, shootdownComplete_idle, acdataRead_reads⟩
  exact (acdataRead_window hf cl off hc ho h8 hn ha).trans
    (congrArg (fun v => Host.Outcome.next { s with reply := some (natBytes 8 v) }) (s.windowReg_eq cl off hn))

end Sys2Proof.Machine
